-- ==== Sys2Proof/Word.lean ====
section
/-! DEFINITION. The word types of the block and its fixed constants (00_scope.md R7, R10). -/

namespace Sys2Proof

/-- A host register value and a command word: 32 bits, bit 0 least significant (R10, R62). -/
abbrev Word := BitVec 32

/-- A byte of the byte source or the byte sink (R66, R70). -/
abbrev Byte := BitVec 8

/-- A symbol: a byte value 0..255 or EOS, in 9 bits (R7 SYM_W). -/
abbrev Sym := BitVec 9

/-- An index into the node arena: 10 bits (R32, R33). -/
abbrev Idx := BitVec 10

/-- EOS, the reserved end-of-stream symbol 256 (R7). -/
def eosSym : Sym := 256#9

/-- ALPHA, the number of byte values (R7). -/
def alphaSize : Nat := 256

/-- NSYM, the number of symbols 0..256 (R7). -/
def symCount : Nat := 257

/-- MAX_INTERNAL (R7). -/
def maxInternal : Nat := 256

/-- MAX_NODES, the size of the node arena (R7, R32). -/
def maxNodes : Nat := 513

/-- The symbol of a byte value (R15 "symbol"). -/
def byteSym (b : Byte) : Sym := b.setWidth 9

end Sys2Proof
end

