-- ==== Sys2Proof/Config.lean ====
section
/-! DEFINITION. The implementation parameters of the block (00_scope.md R8, R9) and the free values of the model. -/

namespace Sys2Proof

/-- The four parameters as written down, legal or not (R8). -/
structure RawConfig where
  wCnt : Nat
  hasCounts : Bool
  tagTree : Word
  tagCounts : Word
  deriving DecidableEq, Repr

/-- A legal configuration: W_CNT in 1..32 (R8) and TAG_TREE different from TAG_COUNTS (R9). It is fixed for the
machine; no step changes it. -/
structure Config where
  /-- W_CNT, the width of a frequency counter and of a count field. -/
  wCnt : Nat
  /-- HAS_COUNTS_HDR, whether the counts-based header is implemented. -/
  hasCounts : Bool
  /-- TAG_TREE, the tag of the full-tree header. -/
  tagTree : Word
  /-- TAG_COUNTS, the tag of the counts-based header. -/
  tagCounts : Word
  wCnt_pos : 1 ≤ wCnt
  wCnt_le : wCnt ≤ 32
  tags_ne : tagTree ≠ tagCounts
  deriving DecidableEq, Repr

/-- Why a configuration is refused (R9, 93_implementation_defined.md I4). -/
inductive ConfigReject where
  /-- W_CNT is outside 1..32. -/
  | wCntRange
  /-- TAG_TREE = TAG_COUNTS. -/
  | tagsEqual
  deriving DecidableEq, Repr

/-- The configuration of given parameters, or the reason the model refuses them (R9). -/
def RawConfig.check (r : RawConfig) : Except ConfigReject Config :=
  if hw : 1 ≤ r.wCnt ∧ r.wCnt ≤ 32 then
    if ht : r.tagTree ≠ r.tagCounts then
      .ok ⟨r.wCnt, r.hasCounts, r.tagTree, r.tagCounts, hw.1, hw.2, ht⟩
    else .error .tagsEqual
  else .error .wCntRange

/-- TAG_TREE of the configuration after reset: OPEN (R8), so a free value. -/
opaque Config.freeTagTree : BitVec 32

/-- How far TAG_COUNTS lies above TAG_TREE, less one, in the configuration after reset: a free value. Every pair of
distinct tags is some choice of the two free values. -/
opaque Config.freeTagGap : Fin 4294967295

/-- The free value of a FREQ window read while BUSY = 1 (20_memory.md R64, 93_implementation_defined.md I5), of the
number of events (`State.events`) so far and the entry read: with no event between them two reads answer the same (R65). -/
opaque Config.freqDraw : Nat → Nat → BitVec 32

/-- Two tags a gap of 1 to 2^32 − 1 apart are distinct (R9). -/
theorem Config.tag_ne_of_gap (t : Word) (g : Fin 4294967295) : t ≠ t + BitVec.ofNat 32 (g.val + 1) := by
  intro h
  have h2 := congrArg BitVec.toNat h
  have hg := g.isLt
  have ht := t.isLt
  simp only [BitVec.toNat_add, BitVec.toNat_ofNat] at h2
  omega

/-- The configuration of the machine after reset: the defaults of R8, the tags left open. -/
def Config.default : Config where
  wCnt := 32
  hasCounts := true
  tagTree := Config.freeTagTree
  tagCounts := Config.freeTagTree + BitVec.ofNat 32 (Config.freeTagGap.val + 1)
  wCnt_pos := by decide
  wCnt_le := by decide
  tags_ne := Config.tag_ne_of_gap _ _

end Sys2Proof
end

