-- ==== Sys2Proof/Syntax.lean ====
section
/-! DEFINITION. The thirteen commands of the block (30_encoding.md R93) and the host's script entries (R104, R105). -/

namespace Sys2Proof

/-- A command: one constructor per row of spec/opcode_table.json. Commands have no operands (R92). -/
inductive Instr where
  /-- NOP, OP 0x00 (48_control.md R264). -/
  | nop
  /-- SOFT_RESET, OP 0x01 (48_control.md R265). -/
  | softReset
  /-- COMPRESS, OP 0x10 (48_control.md R267). -/
  | compress
  /-- COUNT, OP 0x11 (41_frequency_accumulator.md R120). -/
  | count
  /-- BUILD, OP 0x12 (42_tree_builder.md R140). -/
  | build
  /-- GENCODES, OP 0x13 (43_code_table_gen.md R160). -/
  | gencodes
  /-- WRITE_TAG, OP 0x14 (44_tree_serializer.md R180). -/
  | writeTag
  /-- WRITE_HEADER, OP 0x15 (44_tree_serializer.md R181). -/
  | writeHeader
  /-- ENCODE, OP 0x16 (46_bitstream_encoder.md R220). -/
  | encode
  /-- DECOMPRESS, OP 0x20 (48_control.md R268). -/
  | decompress
  /-- READ_TAG, OP 0x21 (45_tree_deserializer.md R200). -/
  | readTag
  /-- READ_HEADER, OP 0x22 (45_tree_deserializer.md R202). -/
  | readHeader
  /-- DECODE, OP 0x23 (47_bitstream_decoder.md R240). -/
  | decode
  deriving DecidableEq, Repr

/-- Every command, in the order of the opcode table. -/
def Instr.all : List Instr :=
  [.nop, .softReset, .compress, .count, .build, .gencodes, .writeTag, .writeHeader, .encode,
   .decompress, .readTag, .readHeader, .decode]

/-- One entry of the script of what happens outside the block, in order: host accesses (20_memory.md R62,
30_encoding.md R104, R105), hardware reset (70_reset_and_hazards.md R330), the environment's duties of
70_reset_and_hazards.md R333, and how many transfers it lets complete (20_memory.md R71). -/
inductive HostOp where
  /-- RegWrite of `v`, `width` bytes at byte address `addr`. -/
  | write (addr width : Nat) (v : Word)
  /-- RegRead, `width` bytes at byte address `addr`. -/
  | read (addr width : Nat)
  /-- The pseudo-instruction `poll`: RegRead of STATUS, again and again until BUSY is 0 (R105). -/
  | poll
  /-- Hardware reset, `rst_n` low (70_reset_and_hazards.md R330, R331). -/
  | hwReset
  /-- The environment puts the byte source at the start of S1 and makes Rewind play S2 (R333 step 3). -/
  | setBytes (s1 s2 : List Byte)
  /-- The environment puts the bit source at the first bit of B (R333 step 4). -/
  | setBits (b : List Bool)
  /-- The environment lets the block take one turn. -/
  | turn
  /-- The environment's pace becomes `n` transfers a turn; 0 is a stalled partner (R71). -/
  | setPace (n : Nat)
  deriving DecidableEq, Repr

end Sys2Proof
end

