-- ==== Sys2Proof/WellFormed.lean ====
section
/-! DEFINITION. What is well formed: commands (30_encoding.md R92), host accesses (20_memory.md R62), configurations
(00_scope.md R8, R9). -/

namespace Sys2Proof

/-- A command has no operands and no immediates (R92), so each is well formed. -/
def Instr.wf : Instr → Bool
  | .nop => true
  | .softReset => true
  | .compress => true
  | .count => true
  | .build => true
  | .gencodes => true
  | .writeTag => true
  | .writeHeader => true
  | .encode => true
  | .decompress => true
  | .readTag => true
  | .readHeader => true
  | .decode => true

/-- A host access is one 32-bit word at an aligned byte address below 0x1000 (R62). -/
def accessWf (addr width : Nat) : Bool := width == 4 && addr % 4 == 0 && decide (addr < 0x1000)

/-- A script entry is well formed when its access, if it is one, is (R62). -/
def HostOp.wf : HostOp → Bool
  | .write addr width _ => accessWf addr width
  | .read addr width => accessWf addr width
  | .poll => true
  | .hwReset => true
  | .setBytes _ _ => true
  | .setBits _ => true
  | .turn => true
  | .setPace _ => true

/-- The parameters are ones the model accepts: W_CNT in 1..32 (R8), distinct tags (R9). -/
def RawConfig.wf (r : RawConfig) : Bool :=
  decide (1 ≤ r.wCnt) && decide (r.wCnt ≤ 32) && decide (r.tagTree ≠ r.tagCounts)

end Sys2Proof
end

