-- ==== Sys2Proof/Decode.lean ====
section
/-! DEFINITION. Decoding and encoding a command word (30_encoding.md R90 to R95), and the host's
pseudo-instructions (R105). -/

namespace Sys2Proof

/-- OP, bits [7:0] of a command word (R90). -/
def opField (w : Word) : BitVec 8 := w.extractLsb' 0 8

/-- MBZ, bits [31:8] of a command word (R90). -/
def mbzField (w : Word) : BitVec 24 := w.extractLsb' 8 24

/-- Why a command word is reserved (R94). -/
inductive DecodeReject where
  /-- OP is none of the thirteen values of R93. -/
  | unassignedOp
  /-- OP is listed, but MBZ is not 0. -/
  | mbzNotZero
  deriving DecidableEq, Repr

/-- The command an operation code selects (R93). -/
def commandOfOp (op : BitVec 8) : Option Instr :=
  if op = 0x00#8 then some .nop
  else if op = 0x01#8 then some .softReset
  else if op = 0x10#8 then some .compress
  else if op = 0x11#8 then some .count
  else if op = 0x12#8 then some .build
  else if op = 0x13#8 then some .gencodes
  else if op = 0x14#8 then some .writeTag
  else if op = 0x15#8 then some .writeHeader
  else if op = 0x16#8 then some .encode
  else if op = 0x20#8 then some .decompress
  else if op = 0x21#8 then some .readTag
  else if op = 0x22#8 then some .readHeader
  else if op = 0x23#8 then some .decode
  else none

/-- Decoding a command word, total: the command, or why the word is reserved (R93, R94, R95). -/
def decodeWord (w : Word) : Except DecodeReject Instr :=
  match commandOfOp (opField w) with
  | none => .error .unassignedOp
  | some i => if mbzField w = 0#24 then .ok i else .error .mbzNotZero

/-- The operation code of a command (R93). -/
def opOf : Instr → BitVec 8
  | .nop => 0x00#8
  | .softReset => 0x01#8
  | .compress => 0x10#8
  | .count => 0x11#8
  | .build => 0x12#8
  | .gencodes => 0x13#8
  | .writeTag => 0x14#8
  | .writeHeader => 0x15#8
  | .encode => 0x16#8
  | .decompress => 0x20#8
  | .readTag => 0x21#8
  | .readHeader => 0x22#8
  | .decode => 0x23#8

/-- The command word of a command: zext_32(OP), MBZ = 0 (R90, R93). -/
def encodeWord (i : Instr) : Word := 0#24 ++ opOf i

/-- The word of `nbits` bits whose value is `w`; every bit above them is 0. -/
def tableWord (nbits w : Nat) : Word := BitVec.ofNat 32 (w % 2 ^ nbits)

/-- The command the decoder reads from a command word of `nbits` bits whose value is `w`, bit 0 least significant. A
command word is one 32-bit register value (R90, R74), so no byte order enters. -/
def decodeTableWord (nbits w : Nat) : Option Instr :=
  match decodeWord (tableWord nbits w) with
  | .ok i => some i
  | .error _ => none

/-- `cmd <MNEMONIC>`: write the command's word to CMD (R105). -/
def HostOp.cmd (i : Instr) : HostOp := .write 0x000 4 (encodeWord i)

/-- `setmode tree` and `setmode counts` (R105). -/
def HostOp.setmode (counts : Bool) : HostOp := .write 0x008 4 (if counts then 1#32 else 0#32)

/-- `rdfreq <s>` (R105). -/
def HostOp.rdfreq (s : Byte) : HostOp := .read (0x400 + 4 * s.toNat) 4

end Sys2Proof
end

