-- ==== Sys2Proof/Machine/State.lean ====
section
/-! DEFINITION. The architectural state of the block (10_state.md), the environment's stream state (R44), and the
state after reset (R45, 70_reset_and_hazards.md R330). -/

namespace Sys2Proof.Machine

/-- An indexed store as plain data: (index, value) cells, indices strictly rising, no cell equal to what an unlisted
index reads as. -/
abbrev Cells (α : Type) := List (Nat × α)

/-- The stage codes of R25; 10 to 15 are reserved and never produced. -/
inductive Stage where
  | idle
  | count
  | build
  | gencodes
  | writeTag
  | writeHeader
  | encode
  | readTag
  | readHeader
  | decode
  deriving DecidableEq, Repr

/-- The error codes of 60_exceptions.md R300; 8 to 15 are reserved and never produced. -/
inductive ErrCode where
  | none
  | format
  | truncated
  | missingCode
  | hdrTrunc
  | hdrMalformed
  | countOverflow
  | illegalCmd
  deriving DecidableEq, Repr

/-- A header format: full tree (bit value 0) or counts (bit value 1) (R26, R27). -/
inductive HdrFormat where
  | tree
  | counts
  deriving DecidableEq, Repr

/-- An entry of the node arena (R32): the source's tagged union of a leaf and an internal node. A leaf has no left or
right; an internal node's symbol field is always 0 and is not stored (R36). -/
inductive Node where
  | leaf (sym : Sym) (wt : Nat)
  | internal (wt : Nat) (left right : Idx)
  deriving DecidableEq, Repr

/-- How far the running stage body has come in its pseudocode, with that pseudocode's local variables (R20). -/
inductive Point where
  /-- Before the stage body's first statement; also where the point is parked while no command runs. -/
  | start
  /-- COUNT, before an InByte (41_frequency_accumulator.md R120). -/
  | countByte
  /-- BuildTree, before its first statement (42_tree_builder.md R141). -/
  | buildLeaves
  /-- BuildTree, at the test of its while loop, `n` the next arena index. -/
  | buildMerge (n : Idx)
  /-- GENCODES, inside Walk (43_code_table_gen.md R160); what is left to visit is in `walk`. -/
  | walkNode
  /-- WRITE_TAG, these bits of the tag still to send (44_tree_serializer.md R180). -/
  | sendTag (bits : List Bool)
  /-- WRITE_HEADER, inside SerTree, these bits of a leaf's symbol still to send (44_tree_serializer.md R182). -/
  | serTree (bits : List Bool)
  /-- WRITE_HEADER, inside SerCounts, these bits still to send before FREQ[s] (44_tree_serializer.md R184). -/
  | serCounts (s : Nat) (bits : List Bool)
  /-- ENCODE, before an InByte (46_bitstream_encoder.md R220). -/
  | encodeByte
  /-- ENCODE, these bits of a byte's code still to send. -/
  | encodeCode (bits : List Bool)
  /-- ENCODE, these bits of CODE[EOS] still to send. -/
  | encodeEos (bits : List Bool)
  /-- READ_TAG, `n` bits of the tag still to read, `v` read so far (45_tree_deserializer.md R200). -/
  | recvTag (n : Nat) (v : Word)
  /-- READ_HEADER, inside DesNode, before a discriminator (45_tree_deserializer.md R203). -/
  | desNode
  /-- READ_HEADER, inside DesNode at the leaf of index `i`, `n` bits of its symbol still to read, `v` read so far. -/
  | desSym (i : Idx) (n : Nat) (v : Word)
  /-- READ_HEADER, after the outermost DesNode, before checks (d) and (e) (45_tree_deserializer.md R202). -/
  | desCheck
  /-- READ_HEADER, inside ReadCounts at FREQ[s], `n` bits still to read, `v` read so far (R205). -/
  | readCounts (s : Nat) (n : Nat) (v : Word)
  /-- DECODE, before an InBit (47_bitstream_decoder.md R240). -/
  | decodeBit
  /-- DECODE, before the OutByte of a leaf's symbol. -/
  | decodeOut (sym : Sym)
  /-- Before the stage body's last statement, `PROG <- k`. -/
  | fin
  deriving DecidableEq, Repr

/-- The pass the byte source is in (20_memory.md R66, R67). -/
inductive Pass where
  | one
  | two
  deriving DecidableEq, Repr

/-- The byte source: what it delivers in each pass, where it stands, and how many Rewinds it has been asked for
(20_memory.md R66, R67). -/
structure ByteSource where
  s1 : List Byte
  s2 : List Byte
  pass : Pass
  pos : Nat
  rewinds : Nat
  deriving DecidableEq, Repr

/-- The bit sink: the output sequence O, and whether END stands after it (20_memory.md R68). -/
structure BitSink where
  bits : List Bool
  ended : Bool
  deriving DecidableEq, Repr

/-- The bit source: the sequence B and how many of its bits have been delivered (20_memory.md R69). -/
structure BitSource where
  seq : List Bool
  pos : Nat
  deriving DecidableEq, Repr

/-- Model faults: reading a value that is absent (R45: "reading one is a model fault, and no rule of this spec does
so") or an entry that does not exist. Each is raised by the block's move named; each is safe, since the model stops
where the spec gives no value, and none is reachable from reset. -/
inductive Fault where
  /-- A node arena entry that holds no value is read (any tree walk, ExtractMin, DesNode's weight sum): R45. Safe. -/
  | absentNode
  /-- ROOT is read while it holds no value (GENCODES, WRITE_HEADER, READ_HEADER, DECODE): R33, R45 "reading one is a model
  fault". Safe. -/
  | absentRoot
  /-- CUR is read while it holds no value (DECODE): R41, R45 "reading one is a model fault". Safe. -/
  | absentCur
  /-- The left or right field of a leaf is read (DECODE): R32 (they "hold no value"), R45. Safe. -/
  | absentChild
  /-- CODE[EOS] is sent while it is INVALID (ENCODE); it "is always valid" (46_bitstream_encoder.md R224; log 6,
  DEDUCED). Safe. -/
  | absentCode
  /-- An element of an empty PQ is taken (BuildTree); 42_tree_builder.md R147 takes none (log 6, DEDUCED). Safe. -/
  | emptyQueue
  /-- An entry NODE[i] with i ≥ 513, or CODE[s] with s > 256, is written: there is none (R32, R37; log 6,
  DEDUCED). Safe. -/
  | noSuchEntry
  deriving DecidableEq, Repr

/-- Refusals: what the model gives no meaning to. -/
inductive Refusal where
  /-- An instruction without a meaning; no arm of exec uses it in this row. Safe. -/
  | notModelled (mnemonic : String)
  /-- A host access that is not one aligned 32-bit word below 0x1000 (20_memory.md R62, 93 I7), raised by the
  register operations. Safe. -/
  | badAccess
  /-- The environment replaces a source's sequence while a command runs (70_reset_and_hazards.md R333 has it done
  before the call; log 14, DESIGN CHOICE), raised by the script entries setBytes and setBits. Safe. -/
  | streamInUse
  deriving DecidableEq, Repr

/-- The state. -/
structure State where
  /-- The configuration, fixed for the machine (00_scope.md R8; R28, R29). -/
  cfg : Config
  /-- STATUS.PHASE (R24). -/
  phase : Stage
  /-- STATUS.PROG (R24). -/
  prog : Stage
  /-- STATUS.DONE (R24). -/
  done : Bool
  /-- STATUS.OVR (R24). -/
  ovr : Bool
  /-- STATUS.ERRCODE (R24). -/
  errcode : ErrCode
  /-- STATUS.HMODE (R27). -/
  hmode : HdrFormat
  /-- STATUS.EPHASE (R24). -/
  ephase : Stage
  /-- MODE.HDR_MODE (R26). -/
  mode : HdrFormat
  /-- FREQ (R31); an unlisted entry is 0. -/
  freq : Cells Word
  /-- NODE (R32); an unlisted entry holds no value. -/
  node : Cells Node
  /-- NNODES (R33). -/
  nnodes : BitVec 10
  /-- ROOT (R33); none is "no value". -/
  root : Option Idx
  /-- PQ (R35), in the order its elements were put in. -/
  pq : List Idx
  /-- CODE (R37); an unlisted entry is INVALID. -/
  code : Cells (List Bool)
  /-- CUR (R41); none is "no value". -/
  cur : Option Idx
  /-- SEEN (R42), bit s for symbol s. -/
  seen : BitVec 257
  /-- NINT (R42). -/
  nint : BitVec 9
  /-- NLEAF (R42). -/
  nleaf : BitVec 9
  /-- STK (R42): the internal nodes whose subtrees are being read, innermost first. -/
  stk : List Idx
  /-- The traversal stack (R43): nodes still to visit, next first, each with the path to it (GENCODES). -/
  walk : List (Idx × List Bool)
  /-- Where the running stage body stands (R20). -/
  point : Point
  /-- The stages of the running command after this one (48_control.md R261). -/
  todo : List Stage
  /-- The byte source (R44). -/
  byteSrc : ByteSource
  /-- The bit sink (R44). -/
  bitSink : BitSink
  /-- The bit source (R44). -/
  bitSrc : BitSource
  /-- The byte sink: the decompressed output sequence D (R44, 20_memory.md R70). -/
  byteSink : List Byte
  /-- The model's own: how many stream transfers the environment lets the block complete in one turn. -/
  pace : Nat
  /-- The model's own: how many stream transfers the block has made and entry commands it has accepted, the index of the
  free values. -/
  events : Nat
  /-- The model's own: what happens outside the block, next first. -/
  host : List HostOp
  /-- The model's own: the value the host's last RegRead answered. -/
  rdata : Word
  deriving DecidableEq, Repr

/-- What a move of the block or a turn ends in: a state, or a model fault. -/
abbrev Result := Except Fault State

/-- An outcome of one step. -/
abbrev Out := Host.Outcome State Fault Refusal

/-- The state after hardware reset with configuration `c` and nothing connected to the ports (R45, R330). -/
def State.resetWith (c : Config) : State where
  cfg := c
  phase := .idle
  prog := .idle
  done := false
  ovr := false
  errcode := .none
  hmode := .tree
  ephase := .idle
  mode := .tree
  freq := []
  node := []
  nnodes := 0
  root := none
  pq := []
  code := []
  cur := none
  seen := 0
  nint := 0
  nleaf := 0
  stk := []
  walk := []
  point := .start
  todo := []
  byteSrc := { s1 := [], s2 := [], pass := .one, pos := 0, rewinds := 0 }
  bitSink := { bits := [], ended := false }
  bitSrc := { seq := [], pos := 0 }
  byteSink := []
  pace := 1048576
  events := 0
  host := []
  rdata := 0

/-- The machine right after reset, with the default configuration (R45, R330; 00_scope.md R8). -/
def State.reset : State := State.resetWith Config.default

end Sys2Proof.Machine
end

