-- ==== Sys2Proof/Machine/Flags.lean ====
section
/-! DEFINITION. The status register and its flags (10_state.md R24, R25, R30; 60_exceptions.md R300), and the other
register values a host reads (R26, R28). -/

namespace Sys2Proof.Machine

/-- The code of a stage (R25). -/
def Stage.code : Stage → BitVec 4
  | .idle => 0#4
  | .count => 1#4
  | .build => 2#4
  | .gencodes => 3#4
  | .writeTag => 4#4
  | .writeHeader => 5#4
  | .encode => 6#4
  | .readTag => 7#4
  | .readHeader => 8#4
  | .decode => 9#4

/-- The code of an error (60_exceptions.md R300). -/
def ErrCode.code : ErrCode → BitVec 4
  | .none => 0#4
  | .format => 1#4
  | .truncated => 2#4
  | .missingCode => 3#4
  | .hdrTrunc => 4#4
  | .hdrMalformed => 5#4
  | .countOverflow => 6#4
  | .illegalCmd => 7#4

/-- The bit of a header format (R26, R27). -/
def HdrFormat.bit : HdrFormat → Bool
  | .tree => false
  | .counts => true

/-- The header format of a bit (R26). -/
def HdrFormat.ofBit (b : Bool) : HdrFormat := if b then .counts else .tree

/-- STATUS.BUSY: PHASE is not 0 (R24). -/
def State.busy (s : State) : Bool := s.phase != .idle

/-- STATUS.ERR: ERRCODE is not 0 (R24). -/
def State.err (s : State) : Bool := s.errcode != .none

/-- MODE.HDR_MODE as the block and the host read it: hard-wired to 0 when HAS_COUNTS_HDR = 0 (R26). -/
def State.hdrMode (s : State) : HdrFormat := if s.cfg.hasCounts then s.mode else .tree

/-- STATUS (R24): reserved [31:21], EPHASE [20:17], HMODE [16], ERRCODE [15:12], OVR [11], ERR [10], DONE [9],
BUSY [8], PROG [7:4], PHASE [3:0]. -/
def State.status (s : State) : Word :=
  (0#11 ++ s.ephase.code ++ BitVec.ofBool s.hmode.bit ++ s.errcode.code ++ BitVec.ofBool s.ovr ++
    BitVec.ofBool s.err ++ BitVec.ofBool s.done ++ BitVec.ofBool s.busy ++ s.prog.code ++ s.phase.code : BitVec 32)

/-- MODE (R26): HDR_MODE in bit 0, the rest 0. -/
def State.modeWord (s : State) : Word := (0#31 ++ BitVec.ofBool s.hdrMode.bit : BitVec 32)

/-- PARAM (R28): W_CNT in [5:0], HAS_COUNTS_HDR in [8], the rest 0. -/
def State.paramWord (s : State) : Word :=
  (0#23 ++ BitVec.ofBool s.cfg.hasCounts ++ 0#2 ++ BitVec.ofNat 6 s.cfg.wCnt : BitVec 32)

end Sys2Proof.Machine
end

