-- ==== Sys2Proof/Machine/Ops.lean ====
section
/-! DEFINITION. The operations every stage shares: the indexed stores (10_state.md R31, R32, R37), the stream
transfers (00_scope.md R12), the error abort (60_exceptions.md R302) and what clears it, call initialisation
(48_control.md R266), soft and hardware reset (R265; 70_reset_and_hazards.md R330). -/

namespace Sys2Proof.Machine

/-! ## The indexed stores -/

/-- The value listed at an index. -/
def Cells.get {α : Type} : Cells α → Nat → Option α
  | [], _ => none
  | (a, v) :: rest, k => if a = k then some v else Cells.get rest k

/-- List a value at an index, replacing the one listed there. -/
def Cells.put {α : Type} : Cells α → Nat → α → Cells α
  | [], k, v => [(k, v)]
  | (a, x) :: rest, k, v =>
    if k < a then (k, v) :: (a, x) :: rest
    else if k = a then (k, v) :: rest
    else (a, x) :: Cells.put rest k v

/-- List nothing at an index. -/
def Cells.erase {α : Type} : Cells α → Nat → Cells α
  | [], _ => []
  | (a, x) :: rest, k => if a = k then Cells.erase rest k else (a, x) :: Cells.erase rest k

/-- Indices strictly rising, the first above `lo`. -/
def Cells.risingFrom {α : Type} : Nat → Cells α → Bool
  | _, [] => true
  | lo, (a, _) :: rest => decide (lo ≤ a) && Cells.risingFrom (a + 1) rest

/-- The canonical form of a store of `size` entries: indices strictly rising and below `size`. -/
def Cells.wf {α : Type} (size : Nat) (t : Cells α) : Bool :=
  Cells.risingFrom 0 t && t.all (fun c => decide (c.1 < size))

/-- FREQ[b] (R31). -/
def freqAt (t : Cells Word) (b : Byte) : Word := (Cells.get t b.toNat).getD 0

/-- FREQ[b] <- v; writing 0 unlists the entry (R31). -/
def freqPut (t : Cells Word) (b : Byte) (v : Word) : Cells Word :=
  if v = 0 then Cells.erase t b.toNat else Cells.put t b.toNat v

/-- The canonical form of FREQ: besides, no 0 is listed. -/
def freqWf (t : Cells Word) : Bool := Cells.wf alphaSize t && t.all (fun c => c.2 != 0)

/-- NODE[i], none where it holds no value (R32, R45). -/
def nodeAt (t : Cells Node) (i : Idx) : Option Node := Cells.get t i.toNat

/-- CODE[s], none where it is INVALID (R37). -/
def codeAt (t : Cells (List Bool)) (s : Sym) : Option (List Bool) := Cells.get t s.toNat

/-- NODE[i] <- nd; there is no entry from 513 on (R32). -/
def putNode (i : Idx) (nd : Node) (s : State) : Result :=
  if i.toNat < maxNodes then .ok { s with node := Cells.put s.node i.toNat nd } else .error .noSuchEntry

/-- CODE[c] <- p; there is no entry above 256 (R37). -/
def putCode (c : Sym) (p : List Bool) (s : State) : Result :=
  if c.toNat < symCount then .ok { s with code := Cells.put s.code c.toNat p } else .error .noSuchEntry

/-- The symbol field of a node: 0 for an internal node (R36). -/
def Node.sym : Node → Sym
  | .leaf s _ => s
  | .internal _ _ _ => 0#9

/-- The weight of a node (R32). -/
def Node.wt : Node → Nat
  | .leaf _ w => w
  | .internal w _ _ => w

/-- The kind of a node: whether it is a LEAF (R32). -/
def Node.isLeaf : Node → Bool
  | .leaf _ _ => true
  | .internal _ _ _ => false

/-- IsEOS (47_bitstream_decoder.md R241): a LEAF with symbol 256. -/
def Node.isEos : Node → Bool
  | .leaf s _ => s == eosSym
  | .internal _ _ _ => false

/-- 2^W_CNT − 1, the largest count a counter holds (41_frequency_accumulator.md R120). -/
def maxCount (c : Config) : Nat := 2 ^ c.wCnt - 1

/-- W_WT, the width of a node weight (00_scope.md R7). -/
def weightWidth (c : Config) : Nat := c.wCnt + 9

/-- The sum of two weights, W_WT bits (42_tree_builder.md R147, R149). -/
def addWt (c : Config) (a b : Nat) : Nat := (a + b) % 2 ^ weightWidth c

/-! ## The stream transfers (00_scope.md R12)

Each primitive is one transfer on one port, one event; EOI and END are transfers (20_memory.md R73). -/

/-- The sequence of the pass the byte source is in (20_memory.md R66). -/
def ByteSource.seq (p : ByteSource) : List Byte :=
  match p.pass with
  | .one => p.s1
  | .two => p.s2

/-- InByte: the next byte of the current pass, none for EOI (20_memory.md R66). -/
def inByte (s : State) : Option Byte × State :=
  match s.byteSrc.seq[s.byteSrc.pos]? with
  | some b => (some b, { s with byteSrc := { s.byteSrc with pos := s.byteSrc.pos + 1 }, events := s.events + 1 })
  | none => (none, { s with events := s.events + 1 })

/-- Rewind: the byte source starts pass 2 (20_memory.md R67). -/
def rewind (s : State) : State :=
  { s with
    byteSrc := { s.byteSrc with pass := .two, pos := 0, rewinds := s.byteSrc.rewinds + 1 }
    events := s.events + 1 }

/-- OutBit (20_memory.md R68). -/
def outBit (b : Bool) (s : State) : State :=
  { s with bitSink := { s.bitSink with bits := s.bitSink.bits ++ [b] }, events := s.events + 1 }

/-- EndOut (20_memory.md R68). -/
def endOut (s : State) : State := { s with bitSink := { s.bitSink with ended := true }, events := s.events + 1 }

/-- InBit: the next bit of B, none for EOI (20_memory.md R69). -/
def inBit (s : State) : Option Bool × State :=
  match s.bitSrc.seq[s.bitSrc.pos]? with
  | some b => (some b, { s with bitSrc := { s.bitSrc with pos := s.bitSrc.pos + 1 }, events := s.events + 1 })
  | none => (none, { s with events := s.events + 1 })

/-- OutByte (20_memory.md R70). -/
def outByte (v : Byte) (s : State) : State := { s with byteSink := s.byteSink ++ [v], events := s.events + 1 }

/-! ## The error abort and what clears it -/

/-- `raise Error(code)`, the error abort (60_exceptions.md R302): EPHASE takes PHASE, ERRCODE takes the code, PHASE,
PROG and DONE become 0, the running command ends; nothing else changes. There is no return from it (R307): an entry
command (`callInit`) or SOFT_RESET (`softReset`) clears ERRCODE and EPHASE. -/
def raiseError (code : ErrCode) (s : State) : State :=
  { s with
    ephase := s.phase
    errcode := code
    phase := .idle
    prog := .idle
    done := false
    point := .start
    todo := [] }

/-- Which way an entry command's call goes (48_control.md R266). -/
inductive Direction where
  | compression
  | decompression
  deriving DecidableEq, Repr

/-- What CallInit does to the streams (48_control.md R266): for a compression O starts empty, for a decompression D starts
empty. That the bit source is then read from its start rests on its restart by the environment before the call
(70_reset_and_hazards.md R333 step 4); the block restarts no source (R337, 90_conflicts.md C7). -/
def openStreams : Direction → State → State
  | .compression, s => { s with bitSink := { bits := [], ended := false } }
  | .decompression, s => { s with byteSink := [] }

/-- What CallInit clears (48_control.md R266); MODE is unchanged. The call is one more event. -/
def clearCall (s : State) : State :=
  { s with
    freq := []
    nnodes := 0
    root := none
    cur := none
    node := []
    code := []
    hmode := .tree
    seen := 0
    nint := 0
    nleaf := 0
    stk := []
    prog := .idle
    errcode := .none
    ephase := .idle
    ovr := false
    events := s.events + 1 }

/-- CallInit (48_control.md R266). -/
def callInit (d : Direction) (s : State) : State := openStreams d (clearCall s)

/-- SoftReset (48_control.md R265): every state of 10_state.md R45 to its reset value, except MODE; the running
command, if any, is gone. The streams stand as they are (R337). -/
def softReset (s : State) : State :=
  { s with
    phase := .idle
    prog := .idle
    done := false
    ovr := false
    errcode := .none
    hmode := .tree
    ephase := .idle
    freq := []
    node := []
    nnodes := 0
    root := none
    pq := []
    code := []
    cur := none
    seen := 0
    nint := 0
    nleaf := 0
    stk := []
    walk := []
    point := .start
    todo := [] }

/-- Hardware reset (70_reset_and_hazards.md R330, R331): as SOFT_RESET, and MODE becomes 0. -/
def hardReset (s : State) : State := { softReset s with mode := .tree }

/-- A write dropped because the block is BUSY (48_control.md R272). -/
def dropWrite (s : State) : State := { s with ovr := true }

end Sys2Proof.Machine
end

