-- ==== Sys2Proof/Machine/Operands.lean ====
section
/-! DEFINITION. The field primitives (00_scope.md R13, R14): commands have no operands (30_encoding.md R92); the
fields of the streams are the tag, the 9-bit symbol and the W_CNT-bit count, each most significant bit first. -/

namespace Sys2Proof.Machine

/-- The bits OutField(n, v) sends, in order: v[n−1] first, v[0] last (R13). -/
def fieldBits {w : Nat} : Nat → BitVec w → List Bool
  | 0, _ => []
  | n + 1, v => v.getLsbD n :: fieldBits n v

/-- One step of InField (R13): `v <- (v << 1) | t`. -/
def shiftIn (v : Word) (t : Bool) : Word := (v <<< 1) ||| (if t then 1#32 else 0#32)

/-- Field9 of a symbol (30_encoding.md R97). -/
def symBits (s : Sym) : List Bool := fieldBits 9 s

/-- The bits of a 32-bit tag (30_encoding.md R96). -/
def tagBits (t : Word) : List Bool := fieldBits 32 t

/-- The bits of a count field, W_CNT of them (30_encoding.md R99). -/
def countBits (c : Config) (v : Word) : List Bool := fieldBits c.wCnt v

/-- The byte of an index 0..255 of FREQ. -/
def freqIndex (s : Nat) : Byte := BitVec.ofNat 8 s

end Sys2Proof.Machine
end

