-- ==== Sys2Proof/Machine/BitstreamDecoder.lean ====
section
/-! DEFINITION. bitstream_decoder and end_of_stream_sentinel_detector, stage 9 DECODE (47_bitstream_decoder.md R240 to
R245). -/

namespace Sys2Proof.Machine

/-- DECODE begins: CUR <- ROOT (R240). With ROOT absent, the model fault of 10_state.md R45. -/
def decodeStart (s : State) : Result :=
  match s.root with
  | none => .error .absentRoot
  | some r => .ok { s with cur := some r, point := .decodeBit }

/-- The child a bit selects (R242): left on 0, right on 1. -/
def Node.child (nd : Node) (b : Bool) : Except Fault Idx :=
  match nd with
  | .leaf _ _ => .error .absentChild
  | .internal _ l r => .ok (if b then r else l)

/-- After CUR has moved to `c` (R240): at an internal node the next bit, at the EOS leaf the end without a byte (R241),
at any other leaf its OutByte. -/
def decodeArrive (c : Idx) (s : State) : Result :=
  match nodeAt s.node c with
  | none => .error .absentNode
  | some nd =>
    if nd.isEos then .ok { s with point := .fin }
    else if nd.isLeaf then .ok { s with point := .decodeOut nd.sym }
    else .ok { s with point := .decodeBit }

/-- DECODE reads a bit and walks one edge (R242); EOI is TRUNCATED (R244). With CUR or NODE[CUR] absent, the model fault
of 10_state.md R45. -/
def decodeBitMove (s : State) : Result :=
  match inBit s with
  | (none, s1) => .ok (raiseError .truncated s1)
  | (some b, s1) =>
    match s1.cur with
    | none => .error .absentCur
    | some c =>
      match nodeAt s1.node c with
      | none => .error .absentNode
      | some nd =>
        match nd.child b with
        | .error f => .error f
        | .ok k => decodeArrive k { s1 with cur := some k }

/-- DECODE writes the byte of a leaf, sym[7:0], and goes back to the root (R240, R243). With ROOT absent,
the model fault of 10_state.md R45. -/
def decodeOutMove (c : Sym) (s : State) : Result :=
  match s.root with
  | none => .error .absentRoot
  | some r => .ok { outByte (c.extractLsb' 0 8) s with cur := some r, point := .decodeBit }

end Sys2Proof.Machine
end

