-- ==== Sys2Proof/Machine/BitstreamEncoder.lean ====
section
/-! DEFINITION. bitstream_encoder, stage 6 ENCODE (46_bitstream_encoder.md R220 to R225). -/

namespace Sys2Proof.Machine

/-- ENCODE begins with exactly one Rewind (R221). -/
def encodeStart (s : State) : Result := .ok { rewind s with point := .encodeByte }

/-- ENCODE reads a byte of pass 2 (R220): its code is sent next, or MISSING_CODE is raised (R223); after EOI the code of
EOS is sent (R224). -/
def encodeByteMove (s : State) : Result :=
  match inByte s with
  | (none, s1) =>
    match codeAt s1.code eosSym with
    | some p => .ok { s1 with point := .encodeEos p }
    | none => .error .absentCode
  | (some t, s1) =>
    match codeAt s1.code (byteSym t) with
    | some p => .ok { s1 with point := .encodeCode p }
    | none => .ok (raiseError .missingCode s1)

/-- ENCODE sends the next bit of a byte's code, first element first (R222). -/
def encodeCodeMove (bits : List Bool) (s : State) : Result :=
  match bits with
  | [] => .ok { s with point := .encodeByte }
  | b :: rest => .ok { outBit b s with point := .encodeCode rest }

/-- ENCODE sends the next bit of CODE[EOS] (R224), then END (R225). -/
def encodeEosMove (bits : List Bool) (s : State) : Result :=
  match bits with
  | [] => .ok { endOut s with point := .fin }
  | b :: rest => .ok { outBit b s with point := .encodeEos rest }

end Sys2Proof.Machine
end

