-- ==== Sys2Proof/Machine/CodeTableGen.lean ====
section
/-! DEFINITION. prefix_code_table_gen, stage 3 GENCODES (43_code_table_gen.md R160). -/

namespace Sys2Proof.Machine

/-- GENCODES begins: every CODE entry INVALID, then Walk(ROOT, []). With ROOT absent, the model fault of
10_state.md R45. -/
def gencodesStart (s : State) : Result :=
  match s.root with
  | none => .error .absentRoot
  | some r => .ok { s with code := [], walk := [(r, [])], point := .walkNode }

/-- One node visit of Walk: a leaf's path is its symbol's code; an internal node's children are visited left first, with
0 and 1 appended to the path. -/
def walkMove (s : State) : Result :=
  match s.walk with
  | [] => .ok { s with point := .fin }
  | (i, p) :: rest =>
    match nodeAt s.node i with
    | none => .error .absentNode
    | some (.leaf c _) => putCode c p { s with walk := rest }
    | some (.internal _ l r) => .ok { s with walk := (l, p ++ [false]) :: (r, p ++ [true]) :: rest }

end Sys2Proof.Machine
end

