-- ==== Sys2Proof/Machine/FrequencyAccumulator.lean ====
section
/-! DEFINITION. frequency_accumulator, stage 1 COUNT (41_frequency_accumulator.md R120). -/

namespace Sys2Proof.Machine

/-- COUNT begins: its loop. -/
def countStart (s : State) : Result := .ok { s with point := .countByte }

/-- COUNT's loop body: one InByte, then the count, or COUNT_OVERFLOW with the counter left at its largest value. -/
def countMove (s : State) : Result :=
  match inByte s with
  | (none, s1) => .ok { s1 with point := .fin }
  | (some t, s1) =>
    if (freqAt s1.freq t).toNat = maxCount s1.cfg then .ok (raiseError .countOverflow s1)
    else .ok { s1 with freq := freqPut s1.freq t (freqAt s1.freq t + 1) }

end Sys2Proof.Machine
end

