-- ==== Sys2Proof/Machine/TreeBuilder.lean ====
section
/-! DEFINITION. huffman_tree_builder: BuildTree (42_tree_builder.md R141 to R147), used by BUILD and by READ_HEADER in
counts mode. -/

namespace Sys2Proof.Machine

/-- The key of an arena entry in PQ: (NODE[i].wt, i) (R146). -/
def keyOf (t : Cells Node) (i : Idx) : Option (Nat × Idx) :=
  match nodeAt t i with
  | some nd => some (nd.wt, i)
  | none => none

/-- The lexicographic order of keys (R146): a smaller weight first, among equal weights the smaller index. -/
def keyLess (a b : Nat × Idx) : Bool := decide (a.1 < b.1) || (a.1 == b.1 && decide (a.2 < b.2))

/-- The least key of a PQ; none if it is empty or an element holds no value. -/
def leastKey (t : Cells Node) : List Idx → Option (Nat × Idx)
  | [] => none
  | [i] => keyOf t i
  | i :: j :: rest =>
    match keyOf t i, leastKey t (j :: rest) with
    | some a, some b => if keyLess b a then some b else some a
    | _, _ => none

/-- ExtractMin (R141): the element with the least key and PQ without it. -/
def extractMin (t : Cells Node) (pq : List Idx) : Except Fault (Idx × List Idx) :=
  match leastKey t pq with
  | some (_, i) => .ok (i, pq.erase i)
  | none => if pq.isEmpty then .error .emptyQueue else .error .absentNode

/-- The leaves of byte values (R142, R143): for each b of the list in turn with FREQ[b] > 0, a leaf at the next
index. -/
def addByteLeaves : List Nat → Idx → State → Except Fault (Idx × State)
  | [], n, s => .ok (n, s)
  | b :: rest, n, s =>
    if freqAt s.freq (freqIndex b) = 0 then addByteLeaves rest n s
    else
      match putNode n (.leaf (byteSym (freqIndex b)) (freqAt s.freq (freqIndex b)).toNat) s with
      | .ok s1 => addByteLeaves rest (n + 1) s1
      | .error f => .error f

/-- The EOS leaf (R144), and the placeholder leaf when it is the only one (R145). -/
def addEosLeaf (n : Idx) (s : State) : Except Fault (Idx × State) :=
  match putNode n (.leaf eosSym 1) s with
  | .error f => .error f
  | .ok s1 =>
    if n + 1 = 1 then
      match putNode (n + 1) (.leaf 0 0) s1 with
      | .error f => .error f
      | .ok s2 => .ok (n + 2, s2)
    else .ok (n + 1, s1)

/-- The arena indices 0 .. n−1, smallest first (R141: PQ <- {0, 1, …, n−1}). -/
def indicesBelow (n : Nat) : List Idx := (List.range n).map (BitVec.ofNat 10)

/-- BuildTree up to its while loop: all leaves, then PQ. -/
def buildLeavesMove (s : State) : Result :=
  match addByteLeaves (List.range alphaSize) 0 s with
  | .error f => .error f
  | .ok (n, s1) =>
    match addEosLeaf n s1 with
    | .error f => .error f
    | .ok (m, s2) => .ok { s2 with pq := indicesBelow m.toNat, point := .buildMerge m }

/-- One iteration of BuildTree's while loop (R147): the first node extracted becomes the left child, the second the
right child. -/
def mergeMove (n : Idx) (s : State) : Result :=
  match extractMin s.node s.pq with
  | .error f => .error f
  | .ok (a, pq1) =>
    match extractMin s.node pq1 with
    | .error f => .error f
    | .ok (b, pq2) =>
      match nodeAt s.node a, nodeAt s.node b with
      | some na, some nb =>
        match putNode n (.internal (addWt s.cfg na.wt nb.wt) a b) s with
        | .error f => .error f
        | .ok s1 => .ok { s1 with pq := pq2 ++ [n], point := .buildMerge (n + 1) }
      | _, _ => .error .absentNode

/-- BuildTree at the test of its while loop: merge, or, with one element left, ROOT, NNODES and the end (R141, R148). -/
def buildMergeMove (n : Idx) (s : State) : Result :=
  match s.pq with
  | [] => .error .emptyQueue
  | [r] => .ok { s with root := some r, nnodes := n, pq := [], point := .fin }
  | _ :: _ :: _ => mergeMove n s

/-- BUILD begins: BuildTree (R140). -/
def buildStart (s : State) : Result := .ok { s with point := .buildLeaves }

end Sys2Proof.Machine
end

