-- ==== Sys2Proof/Machine/TreeDeserializer.lean ====
section
/-! DEFINITION. tree_deserializer, stages 7 READ_TAG and 8 READ_HEADER (45_tree_deserializer.md R200 to R208). -/

namespace Sys2Proof.Machine

/-- READ_TAG begins: InField(32) (R200). -/
def readTagStart (s : State) : Result := .ok { s with point := .recvTag 32 0 }

/-- READ_TAG checks the tag it has read (R200). -/
def checkTag (v : Word) (s : State) : State :=
  if v = s.cfg.tagTree then { s with hmode := .tree, point := .fin }
  else if v = s.cfg.tagCounts ∧ s.cfg.hasCounts = true then { s with hmode := .counts, point := .fin }
  else raiseError .format s

/-- READ_TAG reads its next bit, EOI being FORMAT (R201), or checks the tag. -/
def recvTagMove (n : Nat) (v : Word) (s : State) : Result :=
  match n with
  | 0 => .ok (checkTag v s)
  | n + 1 =>
    match inBit s with
    | (none, s1) => .ok (raiseError .format s1)
    | (some t, s1) => .ok { s1 with point := .recvTag n (shiftIn v t) }

/-- READ_HEADER begins: DesNode() or ReadCounts() by HMODE (R202). -/
def readHeaderStart (s : State) : Result :=
  match s.hmode with
  | .tree => .ok { s with point := .desNode }
  | .counts => .ok { s with point := .readCounts 0 s.cfg.wCnt 0 }

/-- DesNode reads a discriminator (R203): EOI is HDR_TRUNC (R206); the node takes the next pre-order index (R208); 0
opens an internal node, unless 256 have been read (R204 (c)); 1 opens a leaf. -/
def desNodeMove (s : State) : Result :=
  match inBit s with
  | (none, s1) => .ok (raiseError .hdrTrunc s1)
  | (some d, s1) =>
    let s2 := { s1 with nnodes := s1.nnodes + 1 }
    if d then .ok { s2 with point := .desSym s1.nnodes 9 0 }
    else if s2.nint = 256#9 then .ok (raiseError .hdrMalformed s2)
    else .ok { s2 with nint := s2.nint + 1, stk := s1.nnodes :: s2.stk, point := .desNode }

/-- DesNode returns index `c` to its callers (R203). A caller i whose left child this was (in pre-order the left child of
i has index i + 1) goes on to its right child; a caller whose right child this was writes NODE[i] and returns i. The
outermost return is ROOT (R202). -/
def closeNode : List Idx → Idx → State → Result
  | [], c, s => .ok { s with root := some c, stk := [], point := .desCheck }
  | i :: rest, c, s =>
    if c = i + 1 then .ok { s with stk := i :: rest, point := .desNode }
    else
      match nodeAt s.node (i + 1), nodeAt s.node c with
      | some nl, some nr =>
        match putNode i (.internal (addWt s.cfg nl.wt nr.wt) (i + 1) c) s with
        | .error f => .error f
        | .ok s1 => closeNode rest i s1
      | _, _ => .error .absentNode

/-- A leaf's symbol has been read (R203): checks (a) and (b) of R204, then the leaf, with weight 0 (R207). -/
def closeLeaf (i : Idx) (v : Word) (s : State) : Result :=
  if 256 < v.toNat then .ok (raiseError .hdrMalformed s)
  else if s.seen.getLsbD v.toNat then .ok (raiseError .hdrMalformed s)
  else
    match putNode i (.leaf (v.setWidth 9) 0)
        { s with seen := s.seen ||| (1#257 <<< v.toNat), nleaf := s.nleaf + 1 } with
    | .error f => .error f
    | .ok s1 => closeNode s1.stk i s1

/-- DesNode reads the next bit of a leaf's symbol, EOI being HDR_TRUNC (R206), or ends the leaf. -/
def desSymMove (i : Idx) (n : Nat) (v : Word) (s : State) : Result :=
  match n with
  | 0 => closeLeaf i v s
  | n + 1 =>
    match inBit s with
    | (none, s1) => .ok (raiseError .hdrTrunc s1)
    | (some t, s1) => .ok { s1 with point := .desSym i n (shiftIn v t) }

/-- Checks (d) and (e) of R204, on the complete tree (R202). With ROOT or NODE[ROOT] absent, the model fault of
10_state.md R45. -/
def desCheckMove (s : State) : Result :=
  match s.root with
  | none => .error .absentRoot
  | some r =>
    match nodeAt s.node r with
    | none => .error .absentNode
    | some nd =>
      if nd.isLeaf then .ok (raiseError .hdrMalformed s)
      else if s.seen.getLsbD 256 then .ok { s with point := .fin }
      else .ok (raiseError .hdrMalformed s)

/-- ReadCounts reads its next bit, EOI being HDR_TRUNC (R206), or ends FREQ[k]; after FREQ[255] comes BuildTree
(R205). -/
def readCountsMove (k n : Nat) (v : Word) (s : State) : Result :=
  match n with
  | 0 =>
    if k + 1 < alphaSize then
      .ok { s with freq := freqPut s.freq (freqIndex k) v, point := .readCounts (k + 1) s.cfg.wCnt 0 }
    else .ok { s with freq := freqPut s.freq (freqIndex k) v, point := .buildLeaves }
  | n + 1 =>
    match inBit s with
    | (none, s1) => .ok (raiseError .hdrTrunc s1)
    | (some t, s1) => .ok { s1 with point := .readCounts k n (shiftIn v t) }

end Sys2Proof.Machine
end

