-- ==== Sys2Proof/Machine/TreeSerializer.lean ====
section
/-! DEFINITION. tree_serializer, stages 4 WRITE_TAG and 5 WRITE_HEADER (44_tree_serializer.md R180 to R184). -/

namespace Sys2Proof.Machine

/-- The tag of a header format (R180). -/
def tagOf (c : Config) : HdrFormat → Word
  | .tree => c.tagTree
  | .counts => c.tagCounts

/-- WRITE_TAG begins: HMODE <- MODE.HDR_MODE, then the tag of that format (R180). -/
def writeTagStart (s : State) : Result :=
  .ok { s with hmode := s.hdrMode, point := .sendTag (tagBits (tagOf s.cfg s.hdrMode)) }

/-- WRITE_TAG sends its next bit. -/
def sendTagMove (bits : List Bool) (s : State) : Result :=
  match bits with
  | [] => .ok { s with point := .fin }
  | b :: rest => .ok { outBit b s with point := .sendTag rest }

/-- WRITE_HEADER begins: SerTree(ROOT) or SerCounts() by HMODE (R181). With ROOT absent, the model fault of
10_state.md R45. -/
def writeHeaderStart (s : State) : Result :=
  match s.hmode with
  | .tree =>
    match s.root with
    | none => .error .absentRoot
    | some r => .ok { s with walk := [(r, [])], point := .serTree [] }
  | .counts => .ok { s with point := .serCounts 0 [] }

/-- SerTree sends its next bit (R182): a symbol field's next bit, or the discriminator of the next node in pre-order. -/
def serTreeMove (bits : List Bool) (s : State) : Result :=
  match bits with
  | b :: rest => .ok { outBit b s with point := .serTree rest }
  | [] =>
    match s.walk with
    | [] => .ok { s with point := .fin }
    | (i, p) :: rest =>
      match nodeAt s.node i with
      | none => .error .absentNode
      | some (.leaf c _) => .ok { outBit true s with walk := rest, point := .serTree (symBits c) }
      | some (.internal _ l r) =>
        .ok { outBit false s with walk := (l, p ++ [false]) :: (r, p ++ [true]) :: rest, point := .serTree [] }

/-- SerCounts sends its next bit, or takes up FREQ[n] (R184). -/
def serCountsMove (n : Nat) (bits : List Bool) (s : State) : Result :=
  match bits with
  | b :: rest => .ok { outBit b s with point := .serCounts n rest }
  | [] =>
    if n < alphaSize then
      .ok { s with point := .serCounts (n + 1) (countBits s.cfg (freqAt s.freq (freqIndex n))) }
    else .ok { s with point := .fin }

end Sys2Proof.Machine
end

