-- ==== Sys2Proof/Machine/Engine.lean ====
section
/-! DEFINITION. The block's moves and turns, and the command controller's acceptance (48_control.md R260 to R263,
R269 to R272). -/

namespace Sys2Proof.Machine

/-- The first statement of a stage body. -/
def stageStart (s : State) : Result :=
  match s.phase with
  | .idle => .ok s
  | .count => countStart s
  | .build => buildStart s
  | .gencodes => gencodesStart s
  | .writeTag => writeTagStart s
  | .writeHeader => writeHeaderStart s
  | .encode => encodeStart s
  | .readTag => readTagStart s
  | .readHeader => readHeaderStart s
  | .decode => decodeStart s

/-- The last statement of a stage body, PROG <- k, then the next stage of the command, or completion: PHASE 0 and DONE 1
(R261, R263). -/
def stageEnd (s : State) : State :=
  match s.todo with
  | [] => { s with prog := s.phase, phase := .idle, done := true, point := .start }
  | k :: rest => { s with prog := s.phase, phase := k, point := .start, todo := rest }

/-- One move of the block: the running stage body goes on at the point it has reached, by at most one stream
transfer. -/
def blockMove (s : State) : Result :=
  match s.point with
  | .start => stageStart s
  | .countByte => countMove s
  | .buildLeaves => buildLeavesMove s
  | .buildMerge n => buildMergeMove n s
  | .walkNode => walkMove s
  | .sendTag bits => sendTagMove bits s
  | .serTree bits => serTreeMove bits s
  | .serCounts n bits => serCountsMove n bits s
  | .encodeByte => encodeByteMove s
  | .encodeCode bits => encodeCodeMove bits s
  | .encodeEos bits => encodeEosMove bits s
  | .recvTag n v => recvTagMove n v s
  | .desNode => desNodeMove s
  | .desSym i n v => desSymMove i n v s
  | .desCheck => desCheckMove s
  | .readCounts k n v => readCountsMove k n v s
  | .decodeBit => decodeBitMove s
  | .decodeOut c => decodeOutMove c s
  | .fin => .ok (stageEnd s)

/-- A turn: the block moves until no command runs or its next move is a transfer beyond the `p` the environment still
lets complete; there it stalls (20_memory.md R71). So nothing but a transfer, an accepted write or a reset lies between
two states a host can see (R65). At most `fuel` moves are made. -/
def turn : Nat → Nat → State → Result
  | 0, _, s => .ok s
  | fuel + 1, p, s =>
    if s.busy then
      match blockMove s with
      | .error f => .error f
      | .ok t =>
        if t.events = s.events then turn fuel p t
        else
          match p with
          | 0 => .ok s
          | p + 1 => turn fuel p t
    else .ok s

/-- More than the moves the block ever makes from one transfer to the next (the longest stretch is BUILD and GENCODES
over 513 nodes). -/
def quietMoves : Nat := 1024

/-- The outcome of a turn. -/
def outcome : Result → Out
  | .ok s => .next s
  | .error f => .fault f

/-- One turn of the block, with as many transfers as the environment's pace lets complete. -/
def takeTurn (s : State) : Out := outcome (turn ((s.pace + 1) * quietMoves) s.pace s)

/-- Run(op) (R261): PHASE takes the first stage, so BUSY is 1, and the block takes its first turn. -/
def runCommand (first : Stage) (rest : List Stage) (s : State) : Out :=
  takeTurn { s with phase := first, point := .start, todo := rest }

/-- Acceptance of an entry command (R260, R266): dropped while BUSY (R272), else DONE <- 0, CallInit, Run. -/
def acceptEntry (d : Direction) (first : Stage) (rest : List Stage) (s : State) : Out :=
  if s.busy then .next (dropWrite s)
  else runCommand first rest (callInit d { s with done := false })

/-- Acceptance of a stage command that is no entry command (R260): dropped while BUSY (R272), else DONE <- 0 and, if PROG
is the stage before it (R269), Run, otherwise ILLEGAL_CMD (R271). -/
def acceptStage (need k : Stage) (s : State) : Out :=
  if s.busy then .next (dropWrite s)
  else if s.prog = need then runCommand k [] { s with done := false }
  else .next (raiseError .illegalCmd { s with done := false })

/-- A reserved command word (R271, R272): dropped while BUSY, else DONE <- 0 and ILLEGAL_CMD. -/
def acceptReserved (s : State) : Out :=
  if s.busy then .next (dropWrite s)
  else .next (raiseError .illegalCmd { s with done := false })

end Sys2Proof.Machine
end

