-- ==== Sys2Proof/Machine/Compression.lean ====
section
/-! DEFINITION. The meanings of the compression commands (30_encoding.md R93, group 0x1). -/

namespace Sys2Proof.Machine

/-- COMPRESS (48_control.md R267): CallInit, stages 1 to 6. -/
def execCompress (s : State) : Out :=
  acceptEntry .compression .count [.build, .gencodes, .writeTag, .writeHeader, .encode] s

/-- COUNT (41_frequency_accumulator.md R120): an entry command, stage 1. -/
def execCount (s : State) : Out := acceptEntry .compression .count [] s

/-- BUILD (42_tree_builder.md R140): stage 2, when PROG = 1. -/
def execBuild (s : State) : Out := acceptStage .count .build s

/-- GENCODES (43_code_table_gen.md R160): stage 3, when PROG = 2. -/
def execGencodes (s : State) : Out := acceptStage .build .gencodes s

/-- WRITE_TAG (44_tree_serializer.md R180): stage 4, when PROG = 3. -/
def execWriteTag (s : State) : Out := acceptStage .gencodes .writeTag s

/-- WRITE_HEADER (44_tree_serializer.md R181): stage 5, when PROG = 4. -/
def execWriteHeader (s : State) : Out := acceptStage .writeTag .writeHeader s

/-- ENCODE (46_bitstream_encoder.md R220): stage 6, when PROG = 5. -/
def execEncode (s : State) : Out := acceptStage .writeHeader .encode s

end Sys2Proof.Machine
end

