-- ==== Sys2Proof/Machine/Control.lean ====
section
/-! DEFINITION. The meanings of the control commands (48_control.md R264, R265). -/

namespace Sys2Proof.Machine

/-- NOP (R264): no effect, BUSY or not. -/
def execNop (s : State) : Out := .next s

/-- SOFT_RESET (R265): any time; all block state but MODE to its reset value. -/
def execSoftReset (s : State) : Out := .next (softReset s)

end Sys2Proof.Machine
end

