-- ==== Sys2Proof/Machine/Decompression.lean ====
section
/-! DEFINITION. The meanings of the decompression commands (30_encoding.md R93, group 0x2). -/

namespace Sys2Proof.Machine

/-- DECOMPRESS (48_control.md R268): CallInit, stages 7 to 9. -/
def execDecompress (s : State) : Out := acceptEntry .decompression .readTag [.readHeader, .decode] s

/-- READ_TAG (45_tree_deserializer.md R200): an entry command, stage 7. -/
def execReadTag (s : State) : Out := acceptEntry .decompression .readTag [] s

/-- READ_HEADER (45_tree_deserializer.md R202): stage 8, when PROG = 7. -/
def execReadHeader (s : State) : Out := acceptStage .readTag .readHeader s

/-- DECODE (47_bitstream_decoder.md R240): stage 9, when PROG = 8. -/
def execDecode (s : State) : Out := acceptStage .readHeader .decode s

end Sys2Proof.Machine
end

