-- ==== Sys2Proof/Machine/Dispatch.lean ====
section
/-! DEFINITION. The dispatch: one arm per command. -/

namespace Sys2Proof.Machine

def exec (i : Instr) (s : State) : Host.Outcome State Fault Refusal :=
  match i with
  -- control (48_control.md R264, R265)
  | .nop => Sys2Proof.Machine.execNop s
  | .softReset => Sys2Proof.Machine.execSoftReset s
  -- compression (48_control.md R267 and the stage files 41 to 46)
  | .compress => Sys2Proof.Machine.execCompress s
  | .count => Sys2Proof.Machine.execCount s
  | .build => Sys2Proof.Machine.execBuild s
  | .gencodes => Sys2Proof.Machine.execGencodes s
  | .writeTag => Sys2Proof.Machine.execWriteTag s
  | .writeHeader => Sys2Proof.Machine.execWriteHeader s
  | .encode => Sys2Proof.Machine.execEncode s
  -- decompression (48_control.md R268 and the stage files 45 and 47)
  | .decompress => Sys2Proof.Machine.execDecompress s
  | .readTag => Sys2Proof.Machine.execReadTag s
  | .readHeader => Sys2Proof.Machine.execReadHeader s
  | .decode => Sys2Proof.Machine.execDecode s

end Sys2Proof.Machine
end

