-- ==== Sys2Proof/Machine/HostAccess.lean ====
section
/-! DEFINITION. The host register space (20_memory.md R62 to R65), the MODE write (48_control.md R272, R273), and the
rest of the script: hardware reset, the environment's duties, turns, poll. -/

namespace Sys2Proof.Machine

/-- The index of a FREQ window address 0x400 + 4·s (20_memory.md R63, R64). -/
def freqWindow (addr : Nat) : Byte := freqIndex ((addr - 0x400) / 4)

/-- What a RegRead of the FREQ window answers: zext_32(FREQ[s]), a free value while BUSY (20_memory.md R64). -/
def freqRead (b : Byte) (s : State) : Word :=
  if s.busy then Config.freqDraw s.events b.toNat else freqAt s.freq b

/-- What a RegRead of a well-formed address answers (20_memory.md R63, R65). -/
def regValue (addr : Nat) (s : State) : Word :=
  if addr = 0x004 then s.status
  else if addr = 0x008 then s.modeWord
  else if addr = 0x00C then s.paramWord
  else if addr = 0x010 then s.cfg.tagTree
  else if addr = 0x014 then s.cfg.tagCounts
  else if 0x400 ≤ addr ∧ addr < 0x800 then freqRead (freqWindow addr) s
  else 0#32

/-- A write to CMD (48_control.md R260): the command its word decodes to, or a reserved word. -/
def writeCmd (w : Word) (s : State) : Out :=
  match decodeWord w with
  | .ok i => exec i s
  | .error _ => acceptReserved s

/-- A write to MODE (48_control.md R272, R273; 10_state.md R26): dropped while BUSY; bit 0 is taken when
HAS_COUNTS_HDR = 1, and HDR_MODE stays 0 otherwise. -/
def writeMode (v : Word) (s : State) : State :=
  if s.busy then dropWrite s
  else if s.cfg.hasCounts then { s with mode := HdrFormat.ofBit (v.getLsbD 0) }
  else s

/-- RegRead (20_memory.md R62, R65): no effect but the value handed to the host. -/
def regRead (addr width : Nat) (s : State) : Out :=
  if accessWf addr width then .next { s with rdata := regValue addr s } else .refused .badAccess

/-- RegWrite (20_memory.md R62, R65): only CMD and MODE take writes; every other write is ignored. -/
def regWrite (addr width : Nat) (v : Word) (s : State) : Out :=
  if accessWf addr width then
    if addr = 0x000 then writeCmd v s
    else if addr = 0x008 then .next (writeMode v s)
    else .next s
  else .refused .badAccess

/-- The environment starts the byte source on S1, with S2 for pass 2, before a call (70_reset_and_hazards.md R333).
DESIGN CHOICE (log 14): refused while a command runs, taken while the block is idle, whatever PROG is, so also between
two stage commands of one call, which then reads the new sequence. Safe. -/
def setBytes (s1 s2 : List Byte) (s : State) : Out :=
  if s.busy then .refused .streamInUse
  else .next { s with byteSrc := { s1 := s1, s2 := s2, pass := .one, pos := 0, rewinds := 0 } }

/-- The environment starts the bit source on B before a call (70_reset_and_hazards.md R333). DESIGN CHOICE (log 14), as
for `setBytes`: refused while a command runs, taken while the block is idle, also between two stage commands of one
call. Safe. -/
def setBits (b : List Bool) (s : State) : Out :=
  if s.busy then .refused .streamInUse
  else .next { s with bitSrc := { seq := b, pos := 0 } }

/-- One poll (30_encoding.md R105): RegRead of STATUS; while it shows BUSY the block takes a turn and the poll goes on. -/
def pollStatus (s : State) : Out :=
  if s.busy then takeTurn { s with rdata := s.status, host := .poll :: s.host }
  else .next { s with rdata := s.status }

/-- One script entry, already taken off the script. -/
def runHostOp (op : HostOp) (s : State) : Out :=
  match op with
  | .write addr width v => regWrite addr width v s
  | .read addr width => regRead addr width s
  | .poll => pollStatus s
  | .hwReset => .next (hardReset s)
  | .setBytes s1 s2 => setBytes s1 s2 s
  | .setBits b => setBits b s
  | .turn => takeTurn s
  | .setPace n => .next { s with pace := n }

/-- What one step does: the next script entry, or, with none left, a turn of the block, which an idle block spends
waiting (60_exceptions.md R315, 70_reset_and_hazards.md R330). -/
def advance (s : State) : Out :=
  match s.host with
  | [] => takeTurn s
  | op :: rest => runHostOp op { s with host := rest }

/-- `s` with a RegWrite of the word to CMD as the host's next access. -/
def placeCommand (s : State) (w : Word) : State := { s with host := .write 0x000 4 w :: s.host }

end Sys2Proof.Machine
end

