-- ==== Sys2Proof/Machine/Step.lean ====
section
/-! DEFINITION. The step of the machine, and how a command word comes to be its next. -/

namespace Sys2Proof.Machine

/-- One step: the next entry of the script, or a turn of the block. -/
def step (s : State) : Host.Outcome State Fault Refusal := advance s

/-- `s` with the command word of `nbits` bits and value `w` as the host's next write to CMD. A command is not fetched
(10_state.md R21): it runs because the host writes it (48_control.md R260). -/
def State.withFetchWord (s : State) (nbits w : Nat) : State := placeCommand s (tableWord nbits w)

end Sys2Proof.Machine
end

