-- ==== Sys2Proof/Safety.lean ====
section
/-! DEFINITION. What claims are stated in: the tree of the arena and its header, paths and body (30_encoding.md R96 to
R100; 43_code_table_gen.md R161), a completed or failed run (70_reset_and_hazards.md R341), and the invariants of every
state of the machine (10_state.md R34, R35, R38, R43; 60_exceptions.md R301). -/

namespace Sys2Proof.Machine

/-! ## Trees -/

/-- A full binary tree over symbols: the shape and the leaf symbols, without indices and weights (R34). -/
inductive HTree where
  | leaf (c : Sym)
  | node (l r : HTree)
  deriving DecidableEq, Repr

/-- The leaf symbols, left to right. -/
def HTree.leaves : HTree → List Sym
  | .leaf c => [c]
  | .node l r => l.leaves ++ r.leaves

/-- The number of nodes. -/
def HTree.size : HTree → Nat
  | .leaf _ => 1
  | .node l r => 1 + l.size + r.size

/-- The tree header H of a tree (30_encoding.md R97). -/
def HTree.header : HTree → List Bool
  | .leaf c => true :: symBits c
  | .node l r => false :: (l.header ++ r.header)

/-- Each leaf symbol with its path from the root, left = 0, right = 1 (43_code_table_gen.md R161). -/
def HTree.paths : HTree → List (Sym × List Bool)
  | .leaf c => [(c, [])]
  | .node l r => l.paths.map (fun e => (e.1, false :: e.2)) ++ r.paths.map (fun e => (e.1, true :: e.2))

/-- Whether the root is an internal node. -/
def HTree.isNode : HTree → Bool
  | .leaf _ => false
  | .node _ _ => true

/-- The arena holds the tree at index `i`, in the entries `is`, in pre-order: every leaf is a LEAF, every internal node
an INTERNAL with exactly two children (R34). -/
def Holds (t : Cells Node) : HTree → Idx → List Idx → Prop
  | .leaf c, i, is => is = [i] ∧ ∃ w, nodeAt t i = some (.leaf c w)
  | .node l r, i, is =>
    ∃ w a b il ir, nodeAt t i = some (.internal w a b) ∧ Holds t l a il ∧ Holds t r b ir ∧ is = i :: (il ++ ir)

/-- What R34 asks of the leaves of a tree, with an internal root and an EOS leaf: symbols are unique and at most 256. -/
structure HTree.Sound (T : HTree) : Prop where
  rootInternal : T.isNode = true
  unique : T.leaves.Nodup
  hasEos : eosSym ∈ T.leaves
  symbols : ∀ c ∈ T.leaves, c.toNat ≤ 256

/-- What one call of DesNode reads of a tree header (45_tree_deserializer.md R203): the discriminator of an internal node,
or that of a leaf with its symbol field. -/
inductive HItem where
  | node
  | leaf (c : Sym)
  deriving DecidableEq, Repr

/-- The bits of an item (30_encoding.md R97). -/
def HItem.bits : HItem → List Bool
  | .node => [false]
  | .leaf c => true :: symBits c

/-- The bits of items one after another. -/
def itemBits (xs : List HItem) : List Bool := xs.flatMap HItem.bits

/-- The leaf symbols of items, in order. -/
def itemLeaves : List HItem → List Sym
  | [] => []
  | .node :: xs => itemLeaves xs
  | .leaf c :: xs => c :: itemLeaves xs

/-- The number of internal nodes of items. -/
def itemNodes : List HItem → Nat
  | [] => 0
  | .node :: xs => itemNodes xs + 1
  | .leaf _ :: xs => itemNodes xs

/-- Items that pass checks (a) to (c) of a tree header (45_tree_deserializer.md R204) and leave its tree incomplete: with
no beginning of them is the tree complete, which it is with one leaf more than internal nodes. -/
structure Unfinished (xs : List HItem) : Prop where
  opened : ∀ k, (itemLeaves (xs.take k)).length ≤ itemNodes (xs.take k)
  unique : (itemLeaves xs).Nodup
  symbols : ∀ c ∈ itemLeaves xs, c.toNat ≤ 256
  nodes : itemNodes xs ≤ 256

/-- The tree in the arena, at ROOT: sound, rooted and acyclic, each node but the root the child of exactly one internal
node, every index below NNODES and every index below NNODES used (R34). -/
def TreeAt (s : State) (T : HTree) : Prop :=
  ∃ r is, s.root = some r ∧ Holds s.node T r is ∧ T.Sound ∧ is.Nodup ∧ is.length = s.nnodes.toNat ∧
    ∀ i ∈ is, i < s.nnodes

/-- The code table is the table of a tree: CODE[c] = p exactly for the leaves c with path p (43_code_table_gen.md R161,
R165). -/
def CodesOf (T : HTree) (code : Cells (List Bool)) : Prop :=
  ∀ c p, codeAt code c = some p ↔ (c, p) ∈ T.paths

/-- The codes of bytes one after another (30_encoding.md R100), none if one has no code. -/
def bodyBits (code : Cells (List Bool)) : List Byte → Option (List Bool)
  | [] => some []
  | b :: rest =>
    match codeAt code (byteSym b), bodyBits code rest with
    | some p, some q => some (p ++ q)
    | _, _ => none

/-- The counts header C of FREQ (30_encoding.md R99). -/
def countsHeader (c : Config) (t : Cells Word) : List Bool :=
  (List.range alphaSize).flatMap (fun n => countBits c (freqAt t (freqIndex n)))

/-- The number of symbols s in 0..255 with FREQ[s] > 0 (42_tree_builder.md R150). -/
def nonzeroCount (t : Cells Word) : Nat :=
  ((List.range alphaSize).filter (fun n => freqAt t (freqIndex n) != 0)).length

/-- The leaves BuildTree makes, each with its weight, in the order of their arena indices (42_tree_builder.md R142 to
R145): the symbols with FREQ > 0, smallest first, then EOS, then the placeholder if EOS is the only one. -/
def leafList (t : Cells Word) : List (Sym × Nat) :=
  ((List.range alphaSize).filter (fun n => freqAt t (freqIndex n) != 0)).map
      (fun n => (byteSym (freqIndex n), (freqAt t (freqIndex n)).toNat)) ++
    (eosSym, 1) :: (if nonzeroCount t = 0 then [(0, 0)] else [])

/-- L, the number of leaves BuildTree makes of FREQ (42_tree_builder.md R150). -/
def leafCount (t : Cells Word) : Nat := if nonzeroCount t = 0 then 2 else nonzeroCount t + 1

/-! ## Runs -/

/-- What the byte source has still to deliver in the pass it is in (20_memory.md R66). -/
def bytesToCome (s : State) : List Byte := s.byteSrc.seq.drop s.byteSrc.pos

/-- What the bit source has still to deliver (20_memory.md R69). -/
def bitsToCome (s : State) : List Bool := s.bitSrc.seq.drop s.bitSrc.pos

/-- A run has ended by completion with `k` the last stage run (48_control.md R263). -/
structure Completed (k : Stage) (s : State) : Prop where
  idle : s.phase = .idle
  prog : s.prog = k
  done : s.done = true
  noError : s.errcode = .none

/-- A run has ended by the error abort with code `e` in stage `k` (60_exceptions.md R302). -/
structure Aborted (e : ErrCode) (k : Stage) (s : State) : Prop where
  idle : s.phase = .idle
  prog : s.prog = .idle
  done : s.done = false
  code : s.errcode = e
  stage : s.ephase = k

/-- Execute commands one after another; a fault or a refusal ends the sequence. -/
def execAll : List Instr → State → Out
  | [], s => .next s
  | i :: rest, s =>
    match exec i s with
    | .next t => execAll rest t
    | .fault f => .fault f
    | .refused r => .refused r

/-- Turns of the block, one after another, as steps without host accesses make them; a fault ends them. -/
def turns : Nat → State → Out
  | 0, s => .next s
  | n + 1, s =>
    match takeTurn s with
    | .next t => turns n t
    | .fault f => .fault f
    | .refused r => .refused r

/-- The block stands where a host finds it in the model (log 10, DEDUCED): no command runs, or the next move is a stream
transfer, for which the block waits (20_memory.md R71). -/
def Settled (s : State) : Prop := s.phase = .idle ∨ ∃ t, blockMove s = .ok t ∧ s.events < t.events

/-- The state one outcome leads to, if it leads to one. -/
def nextOf : Out → Option State
  | .next s => some s
  | .fault _ => none
  | .refused _ => none

/-! ## Commands by their stages -/

/-- The stages a command runs, in order (30_encoding.md R93). -/
def stagesOf : Instr → List Stage
  | .nop => []
  | .softReset => []
  | .compress => [.count, .build, .gencodes, .writeTag, .writeHeader, .encode]
  | .count => [.count]
  | .build => [.build]
  | .gencodes => [.gencodes]
  | .writeTag => [.writeTag]
  | .writeHeader => [.writeHeader]
  | .encode => [.encode]
  | .decompress => [.readTag, .readHeader, .decode]
  | .readTag => [.readTag]
  | .readHeader => [.readHeader]
  | .decode => [.decode]

/-- The direction of the call an entry command starts (48_control.md R266); none for the other commands. -/
def callOf : Instr → Option Direction
  | .nop => none
  | .softReset => none
  | .compress => some .compression
  | .count => some .compression
  | .build => none
  | .gencodes => none
  | .writeTag => none
  | .writeHeader => none
  | .encode => none
  | .decompress => some .decompression
  | .readTag => some .decompression
  | .readHeader => none
  | .decode => none

/-- What PROG must hold for a stage command that is no entry command (48_control.md R269). -/
def neededBy : Instr → Option Stage
  | .nop => none
  | .softReset => none
  | .compress => none
  | .count => none
  | .build => some .count
  | .gencodes => some .build
  | .writeTag => some .gencodes
  | .writeHeader => some .writeTag
  | .encode => some .writeHeader
  | .decompress => none
  | .readTag => none
  | .readHeader => some .readTag
  | .decode => some .readHeader

/-- The stage commands of a pipeline up to a stage's own (48_control.md R275). -/
def commandsThrough : Stage → List Instr
  | .idle => []
  | .count => [.count]
  | .build => [.count, .build]
  | .gencodes => [.count, .build, .gencodes]
  | .writeTag => [.count, .build, .gencodes, .writeTag]
  | .writeHeader => [.count, .build, .gencodes, .writeTag, .writeHeader]
  | .encode => [.count, .build, .gencodes, .writeTag, .writeHeader, .encode]
  | .readTag => [.readTag]
  | .readHeader => [.readTag, .readHeader]
  | .decode => [.readTag, .readHeader, .decode]

/-- The last stage a run that has ended has run: PROG after completion, EPHASE after an abort (48_control.md R263,
60_exceptions.md R302). -/
def lastStage (s : State) : Stage := if s.errcode = .none then s.prog else s.ephase

/-- Run(op) of 48_control.md R261 for a list of stages, none of them run yet. -/
def runStages : List Stage → State → Out
  | [], s => .next s
  | k :: rest, s => runCommand k rest s

/-- The error an accepted command or a reserved word raises at acceptance (48_control.md R271). -/
def illegal (s : State) : Out := .next (raiseError .illegalCmd s)

/-- The error codes a command can end in when it has been accepted and was in sequence (60_exceptions.md R301). -/
def errorsOf : Instr → List ErrCode
  | .nop => []
  | .softReset => []
  | .compress => [.countOverflow, .missingCode]
  | .count => [.countOverflow]
  | .build => []
  | .gencodes => []
  | .writeTag => []
  | .writeHeader => []
  | .encode => [.missingCode]
  | .decompress => [.format, .hdrTrunc, .hdrMalformed, .truncated]
  | .readTag => [.format]
  | .readHeader => [.hdrTrunc, .hdrMalformed]
  | .decode => [.truncated]

/-- `s` when a command that ran stage `k` alone has completed: DONE 1, PROG `k`, the block idle, `n` transfers made
(48_control.md R263). -/
def completedIn (k : Stage) (n : Nat) (s : State) : State :=
  { s with phase := .idle, prog := k, done := true, point := .start, todo := [], events := s.events + n }

/-- `s` when the running stage `k` has raised an error after `n` transfers: the error abort (60_exceptions.md R302). -/
def abortedIn (e : ErrCode) (k : Stage) (n : Nat) (s : State) : State :=
  { s with
    phase := .idle, prog := .idle, done := false, errcode := e, ephase := k, point := .start, todo := []
    events := s.events + n }

/-! ## Invariants of the control state -/

/-- The stage whose completion a running stage follows in its pipeline; idle for the two entry stages (48_control.md
R269). -/
def stageBefore : Stage → Stage
  | .idle => .idle
  | .count => .idle
  | .build => .count
  | .gencodes => .build
  | .writeTag => .gencodes
  | .writeHeader => .writeTag
  | .encode => .writeHeader
  | .readTag => .idle
  | .readHeader => .readTag
  | .decode => .readHeader

/-- The stages after a stage in its pipeline (30_encoding.md R93). -/
def stagesAfter : Stage → List Stage
  | .idle => []
  | .count => [.build, .gencodes, .writeTag, .writeHeader, .encode]
  | .build => [.gencodes, .writeTag, .writeHeader, .encode]
  | .gencodes => [.writeTag, .writeHeader, .encode]
  | .writeTag => [.writeHeader, .encode]
  | .writeHeader => [.encode]
  | .encode => []
  | .readTag => [.readHeader, .decode]
  | .readHeader => [.decode]
  | .decode => []

/-- Whether a point is one of a stage's body; an idle block is parked at the start. -/
def pointFits : Stage → Point → Bool
  | _, .start => true
  | .count, .countByte => true
  | .build, .buildLeaves => true
  | .build, .buildMerge _ => true
  | .gencodes, .walkNode => true
  | .writeTag, .sendTag _ => true
  | .writeHeader, .serTree _ => true
  | .writeHeader, .serCounts _ _ => true
  | .encode, .encodeByte => true
  | .encode, .encodeCode _ => true
  | .encode, .encodeEos _ => true
  | .readTag, .recvTag _ _ => true
  | .readHeader, .desNode => true
  | .readHeader, .desSym _ _ _ => true
  | .readHeader, .desCheck => true
  | .readHeader, .readCounts _ _ _ => true
  | .readHeader, .buildLeaves => true
  | .readHeader, .buildMerge _ => true
  | .decode, .decodeBit => true
  | .decode, .decodeOut _ => true
  | .idle, .fin => false
  | _, .fin => true
  | _, _ => false

/-- The stage an error code is raised by; idle is acceptance, and no error (60_exceptions.md R300, R301). -/
def raisedBy : ErrCode → Stage
  | .none => .idle
  | .format => .readTag
  | .truncated => .decode
  | .missingCode => .encode
  | .hdrTrunc => .readHeader
  | .hdrMalformed => .readHeader
  | .countOverflow => .count
  | .illegalCmd => .idle

/-- The sequencing registers and flags agree with each other (10_state.md R24, R30, R35, R43; 48_control.md R261 to
R263, R269; 60_exceptions.md R301, R302). -/
structure ControlInv (s : State) : Prop where
  /-- The point is one of the running stage's body. -/
  point : pointFits s.phase s.point = true
  /-- The stages still to run are none, or all that follow in the pipeline. -/
  todo : s.todo = [] ∨ s.todo = stagesAfter s.phase
  /-- While a stage runs, PROG holds the stage before it. -/
  prog : s.phase ≠ .idle → s.prog = stageBefore s.phase
  /-- While a command runs, DONE is 0 and there is no error. -/
  running : s.phase ≠ .idle → s.done = false ∧ s.errcode = .none
  /-- PROG is 0 after an error. -/
  progClear : s.prog ≠ .idle → s.errcode = .none
  /-- DONE is set by a completed stage only. -/
  doneOf : s.done = true → s.prog ≠ .idle
  /-- EPHASE is the stage that raises ERRCODE. -/
  raised : s.ephase = raisedBy s.errcode
  /-- PQ holds nothing outside BuildTree's loop. -/
  queue : s.pq ≠ [] → ∃ n, s.point = .buildMerge n
  /-- The traversal stack holds nothing outside a walk. -/
  stack : s.walk ≠ [] → s.point = .walkNode ∨ ∃ b, s.point = .serTree b

/-! ## Invariants of the stores -/

/-- A count field being read holds only the bits read so far (45_tree_deserializer.md R205). -/
def fieldFits (c : Config) : Point → Prop
  | .readCounts _ n v => n ≤ c.wCnt ∧ v.toNat < 2 ^ (c.wCnt - n)
  | _ => True

/-- The stores are in canonical form and hold only what fits: FREQ entries in W_CNT bits (R31), arena entries below 513
(R32), code entries up to 256 (R37); HMODE and MODE select the counts header only where it is implemented (R26, R27). -/
structure StoreInv (s : State) : Prop where
  freqForm : freqWf s.freq = true
  nodeForm : Cells.wf maxNodes s.node = true
  codeForm : Cells.wf symCount s.code = true
  freqFits : ∀ b, (freqAt s.freq b).toNat < 2 ^ s.cfg.wCnt
  field : fieldFits s.cfg s.point
  hmodeLegal : s.hmode = .counts → s.cfg.hasCounts = true
  modeLegal : s.mode = .counts → s.cfg.hasCounts = true

/-! ## Invariants of the tree -/

/-- `n` arena indices from `i` on. -/
def indicesFrom (i n : Nat) : List Idx := (List.range n).map (fun k => BitVec.ofNat 10 (i + k))

/-- The trees of BuildTree's loop with `n` the next index (42_tree_builder.md R141, R147), each with its root and the
entries it uses: together they use each index below `n` once and hold unique symbols, EOS among them, at least two. -/
structure ForestOf (t : Cells Node) (F : List (Idx × HTree × List Idx)) (n : Nat) : Prop where
  holds : ∀ e ∈ F, Holds t e.2.1 e.1 e.2.2
  unique : (F.flatMap (fun e => e.2.1.leaves)).Nodup
  hasEos : eosSym ∈ F.flatMap (fun e => e.2.1.leaves)
  symbols : ∀ c ∈ F.flatMap (fun e => e.2.1.leaves), c.toNat ≤ 256
  two : 2 ≤ (F.flatMap (fun e => e.2.1.leaves)).length
  disjoint : (F.flatMap (fun e => e.2.2)).Nodup
  count : (F.flatMap (fun e => e.2.2)).length = n
  below : ∀ i ∈ F.flatMap (fun e => e.2.2), i.toNat < n

/-- Each element of PQ is the root of a tree of BuildTree's forest. -/
def Forest (s : State) (n : Nat) : Prop := ∃ F, s.pq = F.map (fun e => e.1) ∧ ForestOf s.node F n

/-- What GENCODES has still to visit, and what CODE holds so far (43_code_table_gen.md R160). -/
def WalkOf (s : State) (T : HTree) : Prop :=
  ∃ (D : List (Sym × List Bool)) (W : List (Idx × List Bool × HTree)),
    s.walk = W.map (fun e => (e.1, e.2.1)) ∧
    (∀ e ∈ W, ∃ is, Holds s.node e.2.2 e.1 is) ∧
    T.paths = D ++ W.flatMap (fun e => e.2.2.paths.map (fun q => (q.1, e.2.1 ++ q.2))) ∧
    ∀ c p, codeAt s.code c = some p ↔ (c, p) ∈ D

/-- The pending positions of DesNode with `next` the next index and `ls` the leaf symbols read so far
(45_tree_deserializer.md R203, R208): each node of STK waits for its left child, or holds its left subtree in the
indices right after its own and waits for its right child. -/
def Pending (t : Cells Node) : List Idx → Nat → List Sym → Prop
  | [], next, ls => next = 0 ∧ ls = []
  | i :: rest, next, ls =>
    (next = i.toNat + 1 ∧ Pending t rest i.toNat ls) ∨
    ∃ (L : HTree) (ls0 : List Sym), Holds t L (i + 1) (indicesFrom (i.toNat + 1) L.size) ∧
      next = i.toNat + 1 + L.size ∧ ls = ls0 ++ L.leaves ∧ Pending t rest i.toNat ls0

/-- The bookkeeping of DesNode (10_state.md R42): SEEN marks the leaf symbols read, NLEAF counts them, and NINT counts
the other nodes. -/
def Booked (s : State) (next : Nat) (ls : List Sym) : Prop :=
  ls.Nodup ∧ (∀ c ∈ ls, c.toNat ≤ 256) ∧ (∀ c : Sym, c.toNat ≤ 256 → (s.seen.getLsbD c.toNat = true ↔ c ∈ ls)) ∧
    s.nleaf.toNat = ls.length ∧ next = s.nint.toNat + ls.length ∧ s.nint.toNat ≤ 256

/-- The bookkeeping of the deserializer as CallInit leaves it (48_control.md R266). -/
def FreshBooks (s : State) : Prop :=
  s.nnodes = 0 ∧ s.seen = 0 ∧ s.nint = 0 ∧ s.nleaf = 0 ∧ s.stk = []

/-- What holds at the point the running stage has reached. -/
def PointData (s : State) : Prop :=
  match s.point with
  | .buildMerge n => Forest s n.toNat
  | .walkNode => ∃ T, TreeAt s T ∧ WalkOf s T
  | .serTree _ => ∀ e ∈ s.walk, ∃ T is, Holds s.node T e.1 is
  | .desNode => ∃ ls, Pending s.node s.stk s.nnodes.toNat ls ∧ Booked s s.nnodes.toNat ls
  | .desSym i n v =>
    s.nnodes.toNat = i.toNat + 1 ∧ n ≤ 9 ∧ v.toNat < 2 ^ (9 - n) ∧
      ∃ ls, Pending s.node s.stk i.toNat ls ∧ Booked s i.toNat ls
  | .desCheck =>
    ∃ T, s.root = some 0 ∧ Holds s.node T 0 (indicesFrom 0 T.size) ∧ s.nnodes.toNat = T.size ∧
      Booked s T.size T.leaves
  | .decodeBit => ∃ c l r is, s.cur = some c ∧ Holds s.node (.node l r) c is
  | .fin =>
    (s.phase = .build ∨ s.phase = .readHeader → ∃ T, TreeAt s T) ∧
      (s.phase = .gencodes → ∃ T, TreeAt s T ∧ CodesOf T s.code)
  | _ => True

/-- The stages after whose completion the arena holds a tree. -/
def hasTree : Stage → Bool
  | .idle => false
  | .count => false
  | .build => true
  | .gencodes => true
  | .writeTag => true
  | .writeHeader => true
  | .encode => true
  | .readTag => false
  | .readHeader => true
  | .decode => true

/-- The stages after whose completion CODE holds the tree's codes. -/
def hasCodes : Stage → Bool
  | .idle => false
  | .count => false
  | .build => false
  | .gencodes => true
  | .writeTag => true
  | .writeHeader => true
  | .encode => true
  | .readTag => false
  | .readHeader => false
  | .decode => false

/-- The tree, the code table and the deserializer's bookkeeping, at and between the moves of every command (10_state.md
R34, R38, R42). -/
structure TreeInv (s : State) : Prop where
  tree : hasTree s.prog = true → ∃ T, TreeAt s T
  codes : hasCodes s.prog = true → ∃ T, TreeAt s T ∧ CodesOf T s.code
  fresh : s.phase = .readTag ∨ (s.prog = .readTag ∧ s.point = .start) → FreshBooks s
  data : PointData s

/-- The invariant of every state of the machine. -/
structure Inv (s : State) : Prop where
  control : ControlInv s
  stores : StoreInv s
  trees : TreeInv s

end Sys2Proof.Machine
end

