-- ==== Sys2Proof/Certificates/Slice0/Obligations.lean ====
section
/-! DEFINITION. The statements for the provers. Each docstring names the rules of spec/ it formalises. `pace` is
the model's own (log 1): how many stream transfers the environment lets complete in one turn; where a statement bounds it
by what a stage transfers, the whole stage runs in the turn of its acceptance. -/

open Sys2Proof Sys2Proof.Machine

/-! ## Encoding -/

/-- 30_encoding.md R93: the words of some commands of every group, written out from the opcode map. -/
def Obligations.SampleCommandWordsDecode : Prop :=
  decodeWord 0x00000000#32 = .ok .nop ∧ decodeWord 0x00000001#32 = .ok .softReset ∧
  decodeWord 0x00000010#32 = .ok .compress ∧ decodeWord 0x00000011#32 = .ok .count ∧
  decodeWord 0x00000016#32 = .ok .encode ∧ decodeWord 0x00000020#32 = .ok .decompress ∧
  decodeWord 0x00000023#32 = .ok .decode ∧
  decodeWord 0x00000002#32 = .error .unassignedOp ∧ decodeWord 0x00000124#32 = .error .unassignedOp ∧
  decodeWord 0x00000110#32 = .error .mbzNotZero

/-- 30_encoding.md R95: a word decodes to a command exactly when it is that command's word, zext_32(OP). -/
def Obligations.DecodeAcceptsExactlyTheCommandWords : Prop :=
  (∀ i : Instr, encodeWord i = (opOf i).setWidth 32) ∧
  ∀ (w : Word) (i : Instr), decodeWord w = .ok i ↔ w = encodeWord i

/-- 00_scope.md R13, OutField: an n-bit field is its bits from n−1 down to 0. -/
def Obligations.FieldsGoMostSignificantFirst : Prop :=
  ∀ (w n : Nat) (v : BitVec w),
    (fieldBits n v).length = n ∧ ∀ k, k < n → (fieldBits n v)[k]? = some (v.getLsbD (n - 1 - k))

/-- 30_encoding.md R98: a tree of L leaves has L − 1 internal nodes, and its header 11·L − 1 bits. -/
def Obligations.TreeHeaderLength : Prop :=
  ∀ T : HTree, T.size = T.leaves.length + (T.leaves.length - 1) ∧ T.header.length = 11 * T.leaves.length - 1 ∧
    (2 ≤ T.leaves.length → T.leaves.length ≤ 257 → 21 ≤ T.header.length ∧ T.header.length ≤ 2826)

/-! ## Steps, acceptance, control commands -/

/-- A step whose next script entry is a write to CMD of a word that decodes runs exactly that command, the entry taken
off the script. -/
def Obligations.StepRunsTheDecodedCommand : Prop :=
  (∀ (s : State) (w : Word) (i : Instr) (rest : List HostOp),
    decodeWord w = .ok i → s.host = .write 0x000 4 w :: rest → step s = exec i { s with host := rest }) ∧
  ∀ (s : State) (i : Instr), step (s.withFetchWord 32 (encodeWord i).toNat) = exec i s

/-- 48_control.md R260: what a write to CMD does, in the order the controller decides. -/
def Obligations.CommandAcceptanceOrder : Prop :=
  ∀ (s : State) (w : Word) (rest : List HostOp), s.host = .write 0x000 4 w :: rest →
    step s =
      (if w = encodeWord .nop then .next { s with host := rest }
      else if w = encodeWord .softReset then .next (softReset { s with host := rest })
      else if s.phase ≠ .idle then .next { s with host := rest, ovr := true }
      else
        match Instr.all.find? (fun i => encodeWord i == w) with
        | none => illegal { s with host := rest, done := false }
        | some i =>
          match callOf i with
          | some d => runStages (stagesOf i) (callInit d { s with host := rest, done := false })
          | none =>
            if neededBy i = some s.prog then runStages (stagesOf i) { s with host := rest, done := false }
            else illegal { s with host := rest, done := false })

/-- 48_control.md R271: a reserved word, or a stage command out of sequence, while idle. -/
def Obligations.IllegalCommandWhileIdle : Prop :=
  (∀ (s : State) (w : Word) (rest : List HostOp), s.phase = .idle → s.host = .write 0x000 4 w :: rest →
    (∀ i : Instr, w ≠ encodeWord i) →
    step s = .next { s with
      host := rest, done := false, prog := .idle, errcode := .illegalCmd, ephase := .idle, phase := .idle
      point := .start, todo := [] }) ∧
  ∀ (s : State) (i : Instr) (k : Stage), s.phase = .idle → neededBy i = some k → s.prog ≠ k →
    exec i s = .next { s with
      done := false, prog := .idle, errcode := .illegalCmd, ephase := .idle, phase := .idle, point := .start, todo := [] }

/-- 48_control.md R272: while BUSY, a write to CMD of a word other than NOP's and SOFT_RESET's, and a write to MODE,
changes OVR and nothing else; and OVR, once 1, becomes 0 only by an entry command, SOFT_RESET or hardware reset. -/
def Obligations.WritesWhileBusyAreDropped : Prop :=
  (∀ (s : State) (w : Word) (rest : List HostOp), s.phase ≠ .idle → s.host = .write 0x000 4 w :: rest →
    w ≠ encodeWord .nop → w ≠ encodeWord .softReset → step s = .next { s with host := rest, ovr := true }) ∧
  (∀ (s : State) (v : Word) (rest : List HostOp), s.phase ≠ .idle → s.host = .write 0x008 4 v :: rest →
    step s = .next { s with host := rest, ovr := true }) ∧
  ∀ s t : State, step s = .next t → s.ovr = true → t.ovr = false →
    ∃ rest, s.host = .hwReset :: rest ∨ s.host = .write 0x000 4 (encodeWord .softReset) :: rest ∨
      (s.phase = .idle ∧ ∃ i d, callOf i = some d ∧ s.host = .write 0x000 4 (encodeWord i) :: rest)

/-- 48_control.md R264, R265: NOP has no effect, BUSY or not; SOFT_RESET, at any time, sets every block state but MODE
to its reset value and ends the running command, and the streams and the model's own fields stand. -/
def Obligations.ControlCommandsComplete : Prop :=
  (∀ s : State, exec .nop s = .next s) ∧
  ∀ s : State, exec .softReset s = .next { State.resetWith s.cfg with
    mode := s.mode, byteSrc := s.byteSrc, bitSink := s.bitSink, bitSrc := s.bitSrc, byteSink := s.byteSink
    pace := s.pace, events := s.events, host := s.host, rdata := s.rdata }

/-- 70_reset_and_hazards.md R330, R331, 10_state.md R45: hardware reset, BUSY or not, sets every block state to its
reset value and transfers nothing; what the machine holds right after reset, whatever the configuration; the idle block
then waits. -/
def Obligations.HardwareResetValues : Prop :=
  (∀ (s : State) (rest : List HostOp), s.host = .hwReset :: rest →
    step s = .next { s with
      phase := .idle, prog := .idle, done := false, ovr := false, errcode := .none, hmode := .tree, ephase := .idle
      mode := .tree, freq := [], node := [], nnodes := 0, root := none, pq := [], code := [], cur := none
      seen := 0, nint := 0, nleaf := 0, stk := [], walk := [], point := .start, todo := [], host := rest }) ∧
  step State.reset = .next State.reset ∧
  (∀ c : Config, (State.resetWith c).status = 0#32 ∧ (State.resetWith c).modeWord = 0#32 ∧
    (∀ b, freqAt (State.resetWith c).freq b = 0) ∧ (∀ i, nodeAt (State.resetWith c).node i = none) ∧
    (∀ x, codeAt (State.resetWith c).code x = none) ∧ (State.resetWith c).nnodes = 0 ∧
    (State.resetWith c).root = none ∧ (State.resetWith c).cur = none ∧ (State.resetWith c).pq = [] ∧
    (State.resetWith c).seen = 0 ∧ (State.resetWith c).nint = 0 ∧ (State.resetWith c).nleaf = 0 ∧
    (State.resetWith c).stk = []) ∧
  State.reset = State.resetWith Config.default

/-- 48_control.md R266: an entry command accepted by a block whose environment lets no transfer complete: CallInit, and
PHASE the first stage, which waits for its first transfer. -/
def Obligations.EntryCommandsInitialiseTheCall : Prop :=
  ∀ (s : State) (i : Instr), s.phase = .idle → s.pace = 0 →
    (callOf i = some .compression →
      exec i s = .next { s with
        freq := [], nnodes := 0, root := none, cur := none, node := [], code := [], hmode := .tree, seen := 0
        nint := 0, nleaf := 0, stk := [], prog := .idle, errcode := .none, ephase := .idle, ovr := false, done := false
        bitSink := { bits := [], ended := false }, phase := .count, point := .countByte, todo := (stagesOf i).tail
        events := s.events + 1 }) ∧
    (callOf i = some .decompression →
      exec i s = .next { s with
        freq := [], nnodes := 0, root := none, cur := none, node := [], code := [], hmode := .tree, seen := 0
        nint := 0, nleaf := 0, stk := [], prog := .idle, errcode := .none, ephase := .idle, ovr := false, done := false
        byteSink := [], phase := .readTag, point := .recvTag 32 0, todo := (stagesOf i).tail
        events := s.events + 1 })

/-- 48_control.md R261, R263: at the end of a stage body PROG takes the stage; then PHASE takes the next stage of the
command, or the command completes with DONE 1. -/
def Obligations.StageEndHandsOver : Prop :=
  ∀ s : State, s.phase ≠ .idle → s.point = .fin →
    (s.todo = [] → blockMove s = .ok (completedIn s.phase 0 s)) ∧
    ∀ k ks, s.todo = k :: ks → blockMove s = .ok { s with prog := s.phase, phase := k, point := .start, todo := ks }

/-- 60_exceptions.md R302: the error abort. -/
def Obligations.ErrorAbortEffect : Prop :=
  ∀ (e : ErrCode) (s : State), raiseError e s = { s with
    ephase := s.phase, errcode := e, phase := .idle, prog := .idle, done := false, point := .start, todo := [] }

/-- 60_exceptions.md R315, 20_memory.md R71: an idle block waits, and so does a block that stands before a transfer
while its partners complete none; and how the transfers fall into turns makes no difference. -/
def Obligations.IdleOrStalledBlockWaits : Prop :=
  (∀ s : State, s.host = [] → (s.phase = .idle ∨ (Settled s ∧ s.pace = 0)) → step s = .next s) ∧
  ∀ (s t v : State) (p q : Nat), Inv s → takeTurn { s with pace := p } = .next t →
    takeTurn { t with pace := q } = .next v → takeTurn { s with pace := p + q } = .next { v with pace := p + q }

/-! ## The host register space -/

/-- 10_state.md R24, R25, 60_exceptions.md R300: the fields of STATUS and their codes. -/
def Obligations.StatusLayout : Prop :=
  (∀ s : State, s.status.extractLsb' 0 4 = s.phase.code ∧ s.status.extractLsb' 4 4 = s.prog.code ∧
    s.status.getLsbD 8 = (s.phase != .idle) ∧ s.status.getLsbD 9 = s.done ∧
    s.status.getLsbD 10 = (s.errcode != .none) ∧ s.status.getLsbD 11 = s.ovr ∧
    s.status.extractLsb' 12 4 = s.errcode.code ∧ s.status.getLsbD 16 = (s.hmode == .counts) ∧
    s.status.extractLsb' 17 4 = s.ephase.code ∧ s.status.extractLsb' 21 11 = 0#11) ∧
  [Stage.idle, .count, .build, .gencodes, .writeTag, .writeHeader, .encode, .readTag, .readHeader, .decode].map
    (fun k => k.code.toNat) = [0, 1, 2, 3, 4, 5, 6, 7, 8, 9] ∧
  [ErrCode.none, .format, .truncated, .missingCode, .hdrTrunc, .hdrMalformed, .countOverflow, .illegalCmd].map
    (fun e => e.code.toNat) = [0, 1, 2, 3, 4, 5, 6, 7]

/-- 20_memory.md R63, 10_state.md R26, R28, R29: what a read of each register answers, while the block is idle and, but
for the FREQ window (R64, `FreqWindow`), while it is BUSY; 48_control.md R274: a read of STATUS while BUSY shows BUSY 1
and the PHASE of the running stage. -/
def Obligations.RegisterReadValues : Prop :=
  (∀ (s : State) (addr : Nat) (rest : List HostOp), (s.phase = .idle ∨ addr < 0x400 ∨ 0x800 ≤ addr) →
    s.host = .read addr 4 :: rest → addr % 4 = 0 → addr < 0x1000 →
    step s = .next { s with
      host := rest
      rdata :=
        if addr = 0x004 then s.status
        else if addr = 0x008 then (if s.cfg.hasCounts = true ∧ s.mode = .counts then 1#32 else 0#32)
        else if addr = 0x00C then BitVec.ofNat 32 (s.cfg.wCnt + 256 * s.cfg.hasCounts.toNat)
        else if addr = 0x010 then s.cfg.tagTree
        else if addr = 0x014 then s.cfg.tagCounts
        else if 0x400 ≤ addr ∧ addr < 0x800 then freqAt s.freq (BitVec.ofNat 8 ((addr - 0x400) / 4))
        else 0#32 }) ∧
  ∀ (s : State) (rest : List HostOp), s.phase ≠ .idle → s.host = .read 0x004 4 :: rest →
    ∃ v : Word, step s = .next { s with host := rest, rdata := v } ∧ v.getLsbD 8 = true ∧
      v.extractLsb' 0 4 = s.phase.code

/-- 20_memory.md R65: only writes to CMD and MODE change block state; a read changes only what the host has read; and
in a block that is idle or stands before a transfer (`Settled`; that every step of the model leaves it so is log 10)
whatever happens without a transfer, a write to CMD or MODE or a reset (a turn, a poll, a read, any other write)
leaves the answer of every read the same. -/
def Obligations.RegisterAccessSideEffects : Prop :=
  (∀ (s : State) (addr : Nat) (v : Word) (rest : List HostOp), s.host = .write addr 4 v :: rest →
    addr % 4 = 0 → addr < 0x1000 → addr ≠ 0x000 → addr ≠ 0x008 → step s = .next { s with host := rest }) ∧
  (∀ (s : State) (addr : Nat) (rest : List HostOp), s.host = .read addr 4 :: rest →
    addr % 4 = 0 → addr < 0x1000 →
    step s = .next { s with host := rest, rdata := regValue addr s } ∧
      (addr = 0x000 ∨ (0x018 ≤ addr ∧ addr < 0x400) ∨ 0x800 ≤ addr → regValue addr s = 0#32)) ∧
  ∀ s t : State, Settled s → step s = .next t → t.events = s.events → (∀ rest, s.host ≠ .hwReset :: rest) →
    (∀ addr width v rest, s.host = .write addr width v :: rest → addr ≠ 0x000 ∧ addr ≠ 0x008) →
    Settled t ∧ ∀ addr, regValue addr t = regValue addr s

/-- 20_memory.md R64: the FREQ window answers FREQ[s] while idle and some value while BUSY; a write to it is ignored. -/
def Obligations.FreqWindow : Prop :=
  ∀ (s : State) (b : Byte) (rest : List HostOp),
    (s.host = HostOp.rdfreq b :: rest → s.phase = .idle →
      step s = .next { s with host := rest, rdata := freqAt s.freq b }) ∧
    (s.host = HostOp.rdfreq b :: rest → s.phase ≠ .idle → ∃ v, step s = .next { s with host := rest, rdata := v }) ∧
    ∀ v : Word, s.host = .write (0x400 + 4 * b.toNat) 4 v :: rest → step s = .next { s with host := rest }

/-- 20_memory.md R62: the model refuses exactly the accesses that are not one aligned 32-bit word below 0x1000. -/
def Obligations.OtherAccessesAreRefused : Prop :=
  ∀ (s : State) (addr width : Nat) (v : Word) (rest : List HostOp),
    (s.host = .write addr width v :: rest →
      (step s = .refused .badAccess ↔ ¬ (width = 4 ∧ addr % 4 = 0 ∧ addr < 0x1000))) ∧
    (s.host = .read addr width :: rest →
      (step s = .refused .badAccess ↔ ¬ (width = 4 ∧ addr % 4 = 0 ∧ addr < 0x1000)))

/-- 48_control.md R273, 10_state.md R26: a MODE write while idle takes bit 0 where the counts header is implemented, and
changes nothing where it is not; HDR_MODE then reads 0. -/
def Obligations.ModeWriteWhileIdle : Prop :=
  ∀ (s : State) (v : Word) (rest : List HostOp), s.phase = .idle → s.host = .write 0x008 4 v :: rest →
    (s.cfg.hasCounts = true →
      step s = .next { s with host := rest, mode := if v.getLsbD 0 then .counts else .tree }) ∧
    (s.cfg.hasCounts = false → step s = .next { s with host := rest } ∧ s.modeWord = 0#32)

/-- 70_reset_and_hazards.md R342, 10_state.md R28, R29: MODE changes only by a MODE write to the idle block or by
hardware reset, and no command changes it; no step changes the configuration. -/
def Obligations.OnlyModeWriteOrResetChangesMode : Prop :=
  (∀ s t : State, step s = .next t → t.mode ≠ s.mode →
    ∃ rest, s.host = .hwReset :: rest ∨ (s.phase = .idle ∧ ∃ v, s.host = .write 0x008 4 v :: rest)) ∧
  (∀ (s t : State) (i : Instr), exec i s = .next t → t.mode = s.mode) ∧
  ∀ s t : State, step s = .next t → t.cfg = s.cfg

/-! ## Compression commands -/

/-- 41_frequency_accumulator.md R120, R121: COUNT of a source in which no byte value occurs 2^W_CNT or more times. -/
def Obligations.CountCompletes : Prop :=
  ∀ (s : State) (bs : List Byte), s.phase = .idle → bytesToCome s = bs → (∀ b, bs.count b < 2 ^ s.cfg.wCnt) →
    bs.length + 1 ≤ s.pace →
    ∃ f, (∀ b, (freqAt f b).toNat = bs.count b) ∧
      exec .count s = .next (completedIn .count (bs.length + 1) { callInit .compression s with
        freq := f, byteSrc := { s.byteSrc with pos := s.byteSrc.pos + bs.length } })

/-- 41_frequency_accumulator.md R120, R124: COUNT when a byte value is seen for the 2^W_CNT-th time. -/
def Obligations.CountOverflowAborts : Prop :=
  ∀ (s : State) (pre post : List Byte) (b : Byte), s.phase = .idle → bytesToCome s = pre ++ b :: post →
    (∀ c, pre.count c < 2 ^ s.cfg.wCnt) → pre.count b = 2 ^ s.cfg.wCnt - 1 → pre.length + 1 ≤ s.pace →
    ∃ f, (∀ c, (freqAt f c).toNat = pre.count c) ∧
      exec .count s = .next (abortedIn .countOverflow .count (pre.length + 1) { callInit .compression s with
        freq := f, byteSrc := { s.byteSrc with pos := s.byteSrc.pos + (pre.length + 1) } })

/-- 42_tree_builder.md R141 to R144, R147, R148, R150: BUILD after COUNT, for every FREQ and every arena: the leaves in
order, then L − 1 internal nodes, each over two smaller indices. -/
def Obligations.BuildCompletes : Prop :=
  ∀ s : State, s.phase = .idle → s.prog = .count →
    ∃ (t : Cells Node) (T : HTree),
      exec .build s = .next (completedIn .build 0 { s with
        node := t, root := some (BitVec.ofNat 10 (2 * leafCount s.freq - 2))
        nnodes := BitVec.ofNat 10 (2 * leafCount s.freq - 1), pq := [] }) ∧
      TreeAt { s with
        node := t, root := some (BitVec.ofNat 10 (2 * leafCount s.freq - 2))
        nnodes := BitVec.ofNat 10 (2 * leafCount s.freq - 1) } T ∧
      T.leaves.Perm ((leafList s.freq).map Prod.fst) ∧ T.leaves.length = leafCount s.freq ∧
      (∀ j c w, (leafList s.freq)[j]? = some (c, w) → nodeAt t (BitVec.ofNat 10 j) = some (.leaf c w)) ∧
      (∀ j, leafCount s.freq ≤ j → j < 2 * leafCount s.freq - 1 →
        ∃ w a b, nodeAt t (BitVec.ofNat 10 j) = some (.internal w a b) ∧ a.toNat < j ∧ b.toNat < j) ∧
      ∀ j, 2 * leafCount s.freq - 1 ≤ j → Cells.get t j = Cells.get s.node j

/-- 42_tree_builder.md R145: BUILD of an all-zero FREQ makes the placeholder tree. -/
def Obligations.BuildOfNothingMakesThePlaceholderTree : Prop :=
  ∀ s : State, s.phase = .idle → s.prog = .count → (∀ b, freqAt s.freq b = 0) →
    ∃ t, exec .build s = .next (completedIn .build 0 { s with node := t, root := some 2, nnodes := 3, pq := [] }) ∧
      nodeAt t 0 = some (.leaf eosSym 1) ∧ nodeAt t 1 = some (.leaf 0 0) ∧ nodeAt t 2 = some (.internal 1 1 0)

/-- 42_tree_builder.md R149, R150: where FREQ holds W_CNT-bit counts, the weight of each internal node of a built tree
is the sum of its children's weights, no sum wraps, and the root's weight is Σ FREQ + 1. -/
def Obligations.BuiltWeightsAreSums : Prop :=
  ∀ s t : State, s.phase = .idle → s.prog = .count → (∀ b, (freqAt s.freq b).toNat < 2 ^ s.cfg.wCnt) →
    exec .build s = .next t → t.phase = .idle →
    (∀ i w a b, i < t.nnodes → nodeAt t.node i = some (.internal w a b) →
      ∃ na nb, nodeAt t.node a = some na ∧ nodeAt t.node b = some nb ∧ w = na.wt + nb.wt ∧
        w < 2 ^ weightWidth s.cfg) ∧
    ∃ r nd, t.root = some r ∧ nodeAt t.node r = some nd ∧
      nd.wt = ((List.range 256).map (fun n => (freqAt s.freq (freqIndex n)).toNat)).sum + 1

/-- 42_tree_builder.md R146, R147: one iteration of BuildTree's loop takes the two nodes with the least keys
(NODE[i].wt, i) out of PQ, the first as the left child and the second as the right, and puts their parent in, whose
weight is the sum of theirs where it fits in W_WT bits (R149 says that it does; what the model does where it would not,
log 12, is left out). -/
def Obligations.MergeTakesTheTwoLeastNodes : Prop :=
  ∀ (s : State) (n : Nat), s.point = .buildMerge (BitVec.ofNat 10 n) → Forest s n → 2 ≤ s.pq.length →
    ∃ a b na nb w, a ∈ s.pq ∧ b ∈ s.pq.erase a ∧ nodeAt s.node a = some na ∧ nodeAt s.node b = some nb ∧
      (∀ j ∈ s.pq, ∃ nj, nodeAt s.node j = some nj ∧ (na.wt < nj.wt ∨ (na.wt = nj.wt ∧ a ≤ j))) ∧
      (∀ j ∈ s.pq.erase a, ∃ nj, nodeAt s.node j = some nj ∧ (nb.wt < nj.wt ∨ (nb.wt = nj.wt ∧ b ≤ j))) ∧
      (na.wt + nb.wt < 2 ^ weightWidth s.cfg → w = na.wt + nb.wt) ∧
      blockMove s = .ok { s with
        node := Cells.put s.node n (.internal w a b), pq := (s.pq.erase a).erase b ++ [BitVec.ofNat 10 n]
        point := .buildMerge (BitVec.ofNat 10 (n + 1)) }

/-- 43_code_table_gen.md R160, R161, R165: GENCODES over the tree of the call. -/
def Obligations.GencodesCompletes : Prop :=
  ∀ (s : State) (T : HTree), s.phase = .idle → s.prog = .build → TreeAt s T →
    ∃ code, exec .gencodes s = .next (completedIn .gencodes 0 { s with walk := [], code := code }) ∧
      CodesOf T code ∧ ∀ c, (∃ p, codeAt code c = some p) ↔ c ∈ T.leaves

/-- 43_code_table_gen.md R162, 10_state.md R38: no code is a prefix of another, in every state of the machine in which
PROG says that the code table stands. -/
def Obligations.CodesArePrefixFree : Prop :=
  ∀ (s : State) (c d : Sym) (p q : List Bool), TreeInv s → hasCodes s.prog = true → c ≠ d →
    codeAt s.code c = some p → codeAt s.code d = some q → ¬ p <+: q

/-- 43_code_table_gen.md R163: code lengths, and Kraft equality, here multiplied by 2^256. -/
def Obligations.CodeLengthsAndKraftEquality : Prop :=
  ∀ (s : State) (T : HTree) (code : Cells (List Bool)), TreeAt s T → CodesOf T code →
    (∀ c p, codeAt code c = some p → 1 ≤ p.length ∧ p.length ≤ T.leaves.length - 1 ∧ p.length ≤ 256) ∧
    ((List.range 257).map (fun n =>
      match codeAt code (BitVec.ofNat 9 n) with
      | none => 0
      | some p => 2 ^ (256 - p.length))).sum = 2 ^ 256

/-- 44_tree_serializer.md R180: WRITE_TAG latches MODE.HDR_MODE into HMODE and sends the tag of that format. -/
def Obligations.WriteTagCompletes : Prop :=
  ∀ s : State, s.phase = .idle → s.prog = .gencodes → 32 ≤ s.pace →
    exec .writeTag s = .next (completedIn .writeTag 32 { s with
      hmode := s.hdrMode
      bitSink := { s.bitSink with
        bits := s.bitSink.bits ++ tagBits (if s.hdrMode = .tree then s.cfg.tagTree else s.cfg.tagCounts) } })

/-- 44_tree_serializer.md R181, R182, R184, 30_encoding.md R97, R99: WRITE_HEADER with the full-tree header and with the
counts header. -/
def Obligations.WriteHeaderCompletes : Prop :=
  (∀ (s : State) (T : HTree), s.phase = .idle → s.prog = .writeTag → s.hmode = .tree → TreeAt s T →
    T.header.length ≤ s.pace →
    exec .writeHeader s = .next (completedIn .writeHeader T.header.length { s with
      walk := [], bitSink := { s.bitSink with bits := s.bitSink.bits ++ T.header } })) ∧
  ∀ s : State, s.phase = .idle → s.prog = .writeTag → s.hmode = .counts → 256 * s.cfg.wCnt ≤ s.pace →
    exec .writeHeader s = .next (completedIn .writeHeader (256 * s.cfg.wCnt) { s with
      bitSink := { s.bitSink with
        bits := s.bitSink.bits ++
          (List.range 256).flatMap (fun n => fieldBits s.cfg.wCnt (freqAt s.freq (BitVec.ofNat 8 n))) } })

/-- 46_bitstream_encoder.md R220 to R222, R224, R225: ENCODE when every byte of pass 2 has a code: one Rewind, the codes
in order, CODE[EOS], END. -/
def Obligations.EncodeCompletes : Prop :=
  ∀ (s : State) (body e : List Bool), s.phase = .idle → s.prog = .writeHeader →
    bodyBits s.code s.byteSrc.s2 = some body → codeAt s.code eosSym = some e →
    s.byteSrc.s2.length + body.length + e.length + 3 ≤ s.pace →
    exec .encode s = .next (completedIn .encode (s.byteSrc.s2.length + body.length + e.length + 3) { s with
      byteSrc := { s.byteSrc with pass := .two, pos := s.byteSrc.s2.length, rewinds := s.byteSrc.rewinds + 1 }
      bitSink := { bits := s.bitSink.bits ++ body ++ e, ended := true } })

/-- 46_bitstream_encoder.md R223: ENCODE when a byte of pass 2 has no code. -/
def Obligations.EncodeWithoutCodeAborts : Prop :=
  ∀ (s : State) (pre post : List Byte) (b : Byte) (body : List Bool), s.phase = .idle → s.prog = .writeHeader →
    s.byteSrc.s2 = pre ++ b :: post → bodyBits s.code pre = some body → codeAt s.code (byteSym b) = none →
    pre.length + body.length + 2 ≤ s.pace →
    exec .encode s = .next (abortedIn .missingCode .encode (pre.length + body.length + 2) { s with
      byteSrc := { s.byteSrc with pass := .two, pos := pre.length + 1, rewinds := s.byteSrc.rewinds + 1 }
      bitSink := { s.bitSink with bits := s.bitSink.bits ++ body } })

/-- 48_control.md R267, 30_encoding.md R96, R100: COMPRESS, when the environment lets its transfers complete, writes TAG
++ HEADER ++ BODY and END, when no byte value occurs too often in pass 1 and pass 2 holds only byte values of pass 1,
or, after an empty pass 1, only the placeholder's byte value 0 (42_tree_builder.md R145). The bound on the pace adds one
InByte for each byte of S1 and S2, at most 256 bits for each code, EOI twice, Rewind, END, the tag and the longer
header. -/
def Obligations.CompressCompletes : Prop :=
  ∀ (s : State) (bs : List Byte), s.phase = .idle → bytesToCome s = bs → (∀ b, bs.count b < 2 ^ s.cfg.wCnt) →
    (∀ b ∈ s.byteSrc.s2, b ∈ bs ∨ (bs = [] ∧ b = 0)) →
    bs.length + 257 * (s.byteSrc.s2.length + 1) + 32 + 8192 + 3 ≤ s.pace →
    ∃ t T body e, exec .compress s = .next t ∧ Completed .encode t ∧
      (∀ b, (freqAt t.freq b).toNat = bs.count b) ∧ TreeAt t T ∧ CodesOf T t.code ∧
      T.leaves.Perm ((leafList t.freq).map Prod.fst) ∧
      bodyBits t.code s.byteSrc.s2 = some body ∧ codeAt t.code eosSym = some e ∧
      t.bitSink.ended = true ∧
      t.bitSink.bits =
        (match s.hdrMode with
        | .tree => tagBits s.cfg.tagTree ++ T.header
        | .counts => tagBits s.cfg.tagCounts ++ countsHeader s.cfg t.freq) ++ (body ++ e)

/-! ## Decompression commands -/

/-- 45_tree_deserializer.md R200: READ_TAG of a recognised tag. -/
def Obligations.ReadTagCompletes : Prop :=
  ∀ (s : State) (v : Word) (m : HdrFormat) (rest : List Bool), s.phase = .idle →
    bitsToCome s = tagBits v ++ rest →
    ((v = s.cfg.tagTree ∧ m = .tree) ∨ (v = s.cfg.tagCounts ∧ s.cfg.hasCounts = true ∧ m = .counts)) →
    32 ≤ s.pace →
    exec .readTag s = .next (completedIn .readTag 32 { callInit .decompression s with
      hmode := m, bitSrc := { s.bitSrc with pos := s.bitSrc.pos + 32 } })

/-- 45_tree_deserializer.md R200, R201: READ_TAG of any other tag, or of fewer than 32 bits, is FORMAT. -/
def Obligations.ReadTagFormatError : Prop :=
  (∀ (s : State) (v : Word) (rest : List Bool), s.phase = .idle → bitsToCome s = tagBits v ++ rest →
    v ≠ s.cfg.tagTree → (v = s.cfg.tagCounts → s.cfg.hasCounts = false) → 32 ≤ s.pace →
    exec .readTag s = .next (abortedIn .format .readTag 32 { callInit .decompression s with
      bitSrc := { s.bitSrc with pos := s.bitSrc.pos + 32 } })) ∧
  ∀ (s : State) (bits : List Bool), s.phase = .idle → bitsToCome s = bits → bits.length < 32 →
    bits.length + 1 ≤ s.pace →
    exec .readTag s = .next (abortedIn .format .readTag (bits.length + 1) { callInit .decompression s with
      bitSrc := { s.bitSrc with pos := s.bitSrc.pos + bits.length } })

/-- 45_tree_deserializer.md R202, R203, R207, R208, R209: READ_HEADER of the tree header of a sound tree rebuilds the
tree in pre-order, with weights 0, and reads exactly its bits. -/
def Obligations.ReadTreeHeaderCompletes : Prop :=
  ∀ (s : State) (T : HTree) (rest : List Bool), s.phase = .idle → s.prog = .readTag → s.hmode = .tree →
    FreshBooks s → T.Sound → bitsToCome s = T.header ++ rest → T.header.length ≤ s.pace →
    ∃ (t : Cells Node) (seen : BitVec 257),
      exec .readHeader s = .next (completedIn .readHeader T.header.length { s with
        node := t, root := some 0, nnodes := BitVec.ofNat 10 T.size, seen := seen
        nint := BitVec.ofNat 9 (T.leaves.length - 1), nleaf := BitVec.ofNat 9 T.leaves.length
        bitSrc := { s.bitSrc with pos := s.bitSrc.pos + T.header.length } }) ∧
      Holds t T 0 (indicesFrom 0 T.size) ∧
      (∀ i, i.toNat < T.size → ∃ nd, nodeAt t i = some nd ∧ nd.wt = 0) ∧
      ∀ c : Sym, c.toNat ≤ 256 → (seen.getLsbD c.toNat = true ↔ c ∈ T.leaves)

/-- 45_tree_deserializer.md R205, 42_tree_builder.md R151: READ_HEADER of a counts header reads FREQ and builds the same
arena, root and NNODES as BUILD does of that FREQ. -/
def Obligations.ReadCountsHeaderCompletes : Prop :=
  ∀ (s : State) (F : Cells Word) (rest : List Bool), s.phase = .idle → s.prog = .readTag → s.hmode = .counts →
    (∀ b, (freqAt F b).toNat < 2 ^ s.cfg.wCnt) → bitsToCome s = countsHeader s.cfg F ++ rest →
    256 * s.cfg.wCnt ≤ s.pace →
    ∃ (f : Cells Word) (t : Cells Node) (T : HTree),
      exec .readHeader s = .next (completedIn .readHeader (256 * s.cfg.wCnt) { s with
        freq := f, node := t, root := some (BitVec.ofNat 10 (2 * leafCount F - 2))
        nnodes := BitVec.ofNat 10 (2 * leafCount F - 1), pq := []
        bitSrc := { s.bitSrc with pos := s.bitSrc.pos + 256 * s.cfg.wCnt } }) ∧
      (∀ b, freqAt f b = freqAt F b) ∧
      TreeAt { s with
        node := t, root := some (BitVec.ofNat 10 (2 * leafCount F - 2))
        nnodes := BitVec.ofNat 10 (2 * leafCount F - 1) } T ∧
      ∀ u : State, u.phase = .idle → u.prog = .count → u.cfg = s.cfg → u.node = s.node → u.freq = f →
        ∃ v, exec .build u = .next v ∧ v.node = t ∧ v.root = some (BitVec.ofNat 10 (2 * leafCount F - 2)) ∧
          v.nnodes = BitVec.ofNat 10 (2 * leafCount F - 1)

/-- 45_tree_deserializer.md R206: a header cut short is HDR_TRUNC, with all its bits and EOI read. A tree header is cut
short at a discriminator, or inside a symbol field whatever its bits so far, after any items that pass the checks of
R204 and leave the tree incomplete. -/
def Obligations.HeaderCutShortAborts : Prop :=
  (∀ (s : State) (xs : List HItem) (q : List Bool), s.phase = .idle → s.prog = .readTag → s.hmode = .tree →
    FreshBooks s → Unfinished xs → bitsToCome s = itemBits xs ++ q → (q = [] ∨ ∃ p, q = true :: p ∧ p.length < 9) →
    (bitsToCome s).length + 1 ≤ s.pace →
    ∃ t, exec .readHeader s = .next t ∧ Aborted .hdrTrunc .readHeader t ∧ bitsToCome t = []) ∧
  ∀ s : State, s.phase = .idle → s.prog = .readTag → s.hmode = .counts →
    (bitsToCome s).length < 256 * s.cfg.wCnt → (bitsToCome s).length + 1 ≤ s.pace →
    ∃ t, exec .readHeader s = .next t ∧ Aborted .hdrTrunc .readHeader t ∧ bitsToCome t = []

/-- 45_tree_deserializer.md R204: a tree header that fails one of the five checks ends READ_HEADER in HDR_MALFORMED with
exactly the bits up to the failing check read: (a), (b) a symbol field over 256 or repeated, (c) a discriminator 0 after
256 internal nodes, each after any items that pass the checks and leave the tree incomplete; (d), (e) a complete tree
that is a leaf or has no EOS leaf. Then each check at the move of the model that makes it (log 10). -/
def Obligations.TreeHeaderChecks : Prop :=
  (∀ (s : State) (xs : List HItem) (c : Sym) (rest : List Bool), s.phase = .idle → s.prog = .readTag →
    s.hmode = .tree → FreshBooks s → Unfinished xs →
    bitsToCome s = itemBits xs ++ (true :: (symBits c ++ rest)) → (256 < c.toNat ∨ c ∈ itemLeaves xs) →
    (itemBits xs).length + 10 ≤ s.pace →
    ∃ t, exec .readHeader s = .next t ∧ Aborted .hdrMalformed .readHeader t ∧
      t.bitSrc = { s.bitSrc with pos := s.bitSrc.pos + ((itemBits xs).length + 10) }) ∧
  (∀ (s : State) (xs : List HItem) (rest : List Bool), s.phase = .idle → s.prog = .readTag → s.hmode = .tree →
    FreshBooks s → Unfinished xs → bitsToCome s = itemBits xs ++ (false :: rest) → itemNodes xs = 256 →
    (itemBits xs).length + 1 ≤ s.pace →
    ∃ t, exec .readHeader s = .next t ∧ Aborted .hdrMalformed .readHeader t ∧
      t.bitSrc = { s.bitSrc with pos := s.bitSrc.pos + ((itemBits xs).length + 1) }) ∧
  (∀ (s : State) (T : HTree) (rest : List Bool), s.phase = .idle → s.prog = .readTag → s.hmode = .tree →
    FreshBooks s → T.leaves.Nodup → (∀ c ∈ T.leaves, c.toNat ≤ 256) → (T.isNode = false ∨ eosSym ∉ T.leaves) →
    bitsToCome s = T.header ++ rest → T.header.length ≤ s.pace →
    ∃ t, exec .readHeader s = .next t ∧ Aborted .hdrMalformed .readHeader t ∧
      t.bitSrc = { s.bitSrc with pos := s.bitSrc.pos + T.header.length }) ∧
  ∀ s : State, s.phase = .readHeader →
    (∀ i v, s.point = .desSym i 0 v → 256 < v.toNat → blockMove s = .ok (abortedIn .hdrMalformed .readHeader 0 s)) ∧
    (∀ i v, s.point = .desSym i 0 v → v.toNat ≤ 256 → s.seen.getLsbD v.toNat = true →
      blockMove s = .ok (abortedIn .hdrMalformed .readHeader 0 s)) ∧
    (∀ rest, s.point = .desNode → s.nint = 256 → bitsToCome s = false :: rest →
      blockMove s = .ok (abortedIn .hdrMalformed .readHeader 1 { s with
        nnodes := s.nnodes + 1, bitSrc := { s.bitSrc with pos := s.bitSrc.pos + 1 } })) ∧
    (∀ r c w, s.point = .desCheck → s.root = some r → nodeAt s.node r = some (.leaf c w) →
      blockMove s = .ok (abortedIn .hdrMalformed .readHeader 0 s)) ∧
    (∀ r w a b, s.point = .desCheck → s.root = some r → nodeAt s.node r = some (.internal w a b) →
      s.seen.getLsbD 256 = false → blockMove s = .ok (abortedIn .hdrMalformed .readHeader 0 s)) ∧
    ∀ r w a b, s.point = .desCheck → s.root = some r → nodeAt s.node r = some (.internal w a b) →
      s.seen.getLsbD 256 = true → blockMove s = .ok { s with point := .fin }

/-- 47_bitstream_decoder.md R248, R240, R241, R243, R245: DECODE of the codes of bytes and of EOS, with any bits after.
-/
def Obligations.DecodeCompletes : Prop :=
  ∀ (s : State) (T : HTree) (code : Cells (List Bool)) (bs : List Byte) (body e rest : List Bool),
    s.phase = .idle → s.prog = .readHeader → TreeAt s T → CodesOf T code → bodyBits code bs = some body →
    codeAt code eosSym = some e → bitsToCome s = body ++ (e ++ rest) →
    body.length + bs.length + e.length ≤ s.pace →
    ∃ k, exec .decode s = .next (completedIn .decode (body.length + bs.length + e.length) { s with
      cur := some k, byteSink := s.byteSink ++ bs
      bitSrc := { s.bitSrc with pos := s.bitSrc.pos + (body.length + e.length) } })

/-- 47_bitstream_decoder.md R244: DECODE when the bits end before the EOS leaf, at a code's end or inside a code. -/
def Obligations.DecodeCutShortAborts : Prop :=
  ∀ (s : State) (T : HTree) (code : Cells (List Bool)) (bs : List Byte) (c : Sym) (body q more : List Bool),
    s.phase = .idle → s.prog = .readHeader → TreeAt s T → CodesOf T code → bodyBits code bs = some body →
    codeAt code c = some (q ++ more) → more ≠ [] → bitsToCome s = body ++ q →
    body.length + bs.length + q.length + 1 ≤ s.pace →
    ∃ k, exec .decode s = .next (abortedIn .truncated .decode (body.length + bs.length + q.length + 1) { s with
      cur := some k, byteSink := s.byteSink ++ bs
      bitSrc := { s.bitSrc with pos := s.bitSrc.pos + (body.length + q.length) } })

/-- 48_control.md R268, 45_tree_deserializer.md R205: DECOMPRESS of a stream with a tree header, and of one with a
counts header, when the environment lets its transfers complete; in the second the body's codes are those of the tree
BUILD makes of the counts in an empty arena. -/
def Obligations.DecompressCompletes : Prop :=
  (∀ (s : State) (T : HTree) (code : Cells (List Bool)) (bs : List Byte) (body e rest : List Bool),
    s.phase = .idle → T.Sound → CodesOf T code → bodyBits code bs = some body → codeAt code eosSym = some e →
    bitsToCome s = tagBits s.cfg.tagTree ++ (T.header ++ (body ++ (e ++ rest))) →
    32 + T.header.length + body.length + e.length + bs.length ≤ s.pace →
    ∃ t, exec .decompress s = .next t ∧ Completed .decode t ∧
      t.byteSink = bs ∧ t.hmode = .tree ∧ TreeAt t T ∧
      t.bitSrc.pos = s.bitSrc.pos + (32 + T.header.length + body.length + e.length)) ∧
  ∀ (s u v : State) (T : HTree) (code : Cells (List Bool)) (bs : List Byte) (body e rest : List Bool),
    s.phase = .idle → s.cfg.hasCounts = true →
    u.cfg = s.cfg → u.phase = .idle → u.prog = .count → u.node = [] →
    (∀ b, (freqAt u.freq b).toNat < 2 ^ s.cfg.wCnt) → exec .build u = .next v → v.phase = .idle → TreeAt v T →
    CodesOf T code → bodyBits code bs = some body → codeAt code eosSym = some e →
    bitsToCome s = tagBits s.cfg.tagCounts ++ (countsHeader s.cfg u.freq ++ (body ++ (e ++ rest))) →
    32 + 256 * s.cfg.wCnt + body.length + e.length + bs.length ≤ s.pace →
    ∃ t, exec .decompress s = .next t ∧ Completed .decode t ∧
      t.byteSink = bs ∧ t.hmode = .counts ∧ (∀ b, freqAt t.freq b = freqAt u.freq b) ∧ TreeAt t T ∧
      t.bitSrc.pos = s.bitSrc.pos + (32 + 256 * s.cfg.wCnt + body.length + e.length)

/-! ## Laws of the controller -/

/-- 48_control.md R275: a COMPRESS, or a DECOMPRESS, that has ended, in its acceptance turn or `n` turns later, by
completion or by an error, leaves the state that the stage commands up to its last stage leave, when each of these is
let run to its end. -/
def Obligations.PipelineEquivalence : Prop :=
  ∀ (i : Instr) (s u t : State) (n : Nat), i = .compress ∨ i = .decompress → s.phase = .idle → exec i s = .next u →
    turns n u = .next t → t.phase = .idle →
    ∃ N, ∀ p, N ≤ p → execAll (commandsThrough (lastStage t)) { s with pace := p } = .next { t with pace := p }

/-- 48_control.md R276, in either header format: what COMPRESS has written of any bytes, DECOMPRESS of it and of any
bits after it gives back. "Given turns of enough transfers" (N, M) is the model's form of FAIR (20_memory.md R82, log
1). -/
def Obligations.CompressThenDecompressGivesTheBytes : Prop :=
  ∀ (s : State) (x : List Byte), s.phase = .idle → bytesToCome s = x → s.byteSrc.s2 = x →
    (∀ b, x.count b < 2 ^ s.cfg.wCnt) →
    ∃ N, ∀ p, N ≤ p → ∃ t, exec .compress { s with pace := p } = .next t ∧ Completed .encode t ∧
      t.bitSink.ended = true ∧
      ∀ (u : State) (r : List Bool), u.phase = .idle → u.cfg = s.cfg → bitsToCome u = t.bitSink.bits ++ r →
        ∃ M, ∀ q, M ≤ q → ∃ v, exec .decompress { u with pace := q } = .next v ∧ Completed .decode v ∧
          v.byteSink = x

/-- 48_control.md R277: two COMPRESS calls with the same byte source, MODE.HDR_MODE and configuration that have ended
leave the same O, FREQ, tree and CODE, and two DECOMPRESS calls with the same bits to come and configuration the same D,
whatever else differs, in the turn of their acceptance or any number of turns later, however many transfers the
environment lets complete in each. -/
def Obligations.CallsAreDeterministic : Prop :=
  (∀ (s u s1 u1 t v : State) (m n : Nat), s.phase = .idle → u.phase = .idle → s.cfg = u.cfg → s.hdrMode = u.hdrMode →
    s.byteSrc = u.byteSrc → exec .compress s = .next s1 → turns m s1 = .next t → t.phase = .idle →
    exec .compress u = .next u1 → turns n u1 = .next v → v.phase = .idle →
    v.status = t.status ∧ v.freq = t.freq ∧ v.node = t.node ∧ v.nnodes = t.nnodes ∧ v.root = t.root ∧
      v.code = t.code ∧ v.bitSink = t.bitSink ∧ v.byteSrc = t.byteSrc) ∧
  ∀ (s u s1 u1 t v : State) (m n : Nat), s.phase = .idle → u.phase = .idle → s.cfg = u.cfg →
    bitsToCome s = bitsToCome u → exec .decompress s = .next s1 → turns m s1 = .next t → t.phase = .idle →
    exec .decompress u = .next u1 → turns n u1 = .next v → v.phase = .idle →
    v.status = t.status ∧ v.freq = t.freq ∧ v.node = t.node ∧ v.nnodes = t.nnodes ∧ v.root = t.root ∧
      v.byteSink = t.byteSink ∧ bitsToCome v = bitsToCome t

/-- 60_exceptions.md R301: what each command can end in, in the turn of its acceptance or any number of turns later. -/
def Obligations.ErrorsOfEachCommand : Prop :=
  (∀ (s u t : State) (i : Instr) (d : Direction) (n : Nat), s.phase = .idle → callOf i = some d →
    exec i s = .next u → turns n u = .next t → t.errcode = .none ∨ t.errcode ∈ errorsOf i) ∧
  (∀ (s u t : State) (i : Instr) (k : Stage) (n : Nat), s.phase = .idle → neededBy i = some k → s.prog = k →
    exec i s = .next u → turns n u = .next t → t.errcode = s.errcode ∨ t.errcode ∈ errorsOf i) ∧
  ∀ (s u t : State) (i : Instr) (k : Stage) (n : Nat), s.phase = .idle → neededBy i = some k → s.prog ≠ k →
    exec i s = .next u → turns n u = .next t → t.errcode = .illegalCmd ∧ t.ephase = .idle

/-- 60_exceptions.md R305, 20_memory.md R68, R70: outputs are not rolled back: a turn only appends to O and to D, never
moves a source back but by Rewind, and a move that raises an error sends nothing. -/
def Obligations.OutputsAreNotRolledBack : Prop :=
  (∀ s t : State, takeTurn s = .next t →
    s.bitSink.bits <+: t.bitSink.bits ∧ (s.bitSink.ended = true → t.bitSink.ended = true) ∧
    s.byteSink <+: t.byteSink ∧ t.bitSrc.seq = s.bitSrc.seq ∧ s.bitSrc.pos ≤ t.bitSrc.pos) ∧
  ∀ s t : State, s.phase ≠ .idle → s.errcode = .none → blockMove s = .ok t → t.errcode ≠ .none →
    t.bitSink = s.bitSink ∧ t.byteSink = s.byteSink ∧ t.phase = .idle ∧ t.ephase = s.phase ∧ t.prog = .idle

/-! ## Frames: what a command leaves unchanged whenever it answers a next state -/

/-- COMPRESS and COUNT (48_control.md R267, 41_frequency_accumulator.md R120): every other piece of state, and what the
byte source delivers, stays. -/
def Obligations.CompressionEntryFrame : Prop :=
  (∀ s t : State, exec .compress s = .next t →
    t.cfg = s.cfg ∧ t.mode = s.mode ∧ t.bitSrc = s.bitSrc ∧ t.byteSink = s.byteSink ∧
    t.byteSrc.s1 = s.byteSrc.s1 ∧ t.byteSrc.s2 = s.byteSrc.s2 ∧ t.pace = s.pace ∧ t.host = s.host ∧
    t.rdata = s.rdata ∧ (s.phase = .idle → t.cur = none ∧ t.seen = 0 ∧ t.nint = 0 ∧ t.nleaf = 0 ∧ t.stk = [])) ∧
  ∀ s t : State, exec .count s = .next t →
    t.cfg = s.cfg ∧ t.mode = s.mode ∧ t.bitSrc = s.bitSrc ∧ t.byteSink = s.byteSink ∧
    t.byteSrc = { s.byteSrc with pos := t.byteSrc.pos } ∧ t.pq = s.pq ∧ t.walk = s.walk ∧ t.pace = s.pace ∧
    t.host = s.host ∧ t.rdata = s.rdata ∧
    (s.phase = .idle → t.node = [] ∧ t.nnodes = 0 ∧ t.root = none ∧ t.code = [] ∧ t.cur = none ∧ t.hmode = .tree ∧
      t.seen = 0 ∧ t.nint = 0 ∧ t.nleaf = 0 ∧ t.stk = [] ∧ t.bitSink = { bits := [], ended := false })

/-- BUILD (42_tree_builder.md R148) writes NODE, NNODES and ROOT; GENCODES (43_code_table_gen.md R160) writes CODE;
FREQ, the streams and every other register stay. -/
def Obligations.BuildAndGencodesFrame : Prop :=
  (∀ s t : State, exec .build s = .next t → t = { s with
    phase := t.phase, prog := t.prog, done := t.done, ovr := t.ovr, errcode := t.errcode, ephase := t.ephase
    node := t.node, nnodes := t.nnodes, root := t.root, pq := t.pq, point := t.point, todo := t.todo
    events := t.events }) ∧
  ∀ s t : State, exec .gencodes s = .next t → t = { s with
    phase := t.phase, prog := t.prog, done := t.done, ovr := t.ovr, errcode := t.errcode, ephase := t.ephase
    code := t.code, walk := t.walk, point := t.point, todo := t.todo, events := t.events }

/-- WRITE_TAG writes HMODE (44_tree_serializer.md R180); WRITE_TAG, WRITE_HEADER and ENCODE (R181,
46_bitstream_encoder.md R220) only append to O; ENCODE moves the byte source; every other register stays. -/
def Obligations.WritingStagesFrame : Prop :=
  (∀ s t : State, exec .writeTag s = .next t → t = { s with
    phase := t.phase, prog := t.prog, done := t.done, ovr := t.ovr, errcode := t.errcode, ephase := t.ephase
    hmode := t.hmode, bitSink := { s.bitSink with bits := t.bitSink.bits }, point := t.point, todo := t.todo
    events := t.events } ∧ s.bitSink.bits <+: t.bitSink.bits) ∧
  (∀ s t : State, exec .writeHeader s = .next t → t = { s with
    phase := t.phase, prog := t.prog, done := t.done, ovr := t.ovr, errcode := t.errcode, ephase := t.ephase
    walk := t.walk, bitSink := { s.bitSink with bits := t.bitSink.bits }, point := t.point, todo := t.todo
    events := t.events } ∧ s.bitSink.bits <+: t.bitSink.bits) ∧
  ∀ s t : State, exec .encode s = .next t → t = { s with
    phase := t.phase, prog := t.prog, done := t.done, ovr := t.ovr, errcode := t.errcode, ephase := t.ephase
    byteSrc := { s.byteSrc with pass := t.byteSrc.pass, pos := t.byteSrc.pos, rewinds := t.byteSrc.rewinds }
    bitSink := t.bitSink, point := t.point, todo := t.todo, events := t.events } ∧
    s.bitSink.bits <+: t.bitSink.bits

/-- DECOMPRESS and READ_TAG (48_control.md R268, 45_tree_deserializer.md R200): the byte source, O, MODE and what the
bit source delivers stay; neither writes CODE after CallInit. -/
def Obligations.DecompressionEntryFrame : Prop :=
  (∀ s t : State, exec .decompress s = .next t →
    t.cfg = s.cfg ∧ t.mode = s.mode ∧ t.byteSrc = s.byteSrc ∧ t.bitSink = s.bitSink ∧
    t.bitSrc.seq = s.bitSrc.seq ∧ t.walk = s.walk ∧ t.pace = s.pace ∧ t.host = s.host ∧ t.rdata = s.rdata ∧
    (s.phase = .idle → t.code = [])) ∧
  ∀ s t : State, exec .readTag s = .next t →
    t.cfg = s.cfg ∧ t.mode = s.mode ∧ t.byteSrc = s.byteSrc ∧ t.bitSink = s.bitSink ∧
    t.bitSrc = { s.bitSrc with pos := t.bitSrc.pos } ∧ t.pq = s.pq ∧ t.walk = s.walk ∧ t.pace = s.pace ∧
    t.host = s.host ∧ t.rdata = s.rdata ∧
    (s.phase = .idle → t.freq = [] ∧ t.node = [] ∧ t.nnodes = 0 ∧ t.root = none ∧ t.code = [] ∧ t.cur = none ∧
      t.seen = 0 ∧ t.nint = 0 ∧ t.nleaf = 0 ∧ t.stk = [] ∧ t.byteSink = [])

/-- READ_HEADER (45_tree_deserializer.md R202) writes the tree, the bookkeeping and, in counts mode, FREQ, and reads
bits; DECODE (47_bitstream_decoder.md R240, R247) moves CUR, reads bits and appends to D; every other register stays. -/
def Obligations.ReadHeaderAndDecodeFrame : Prop :=
  (∀ s t : State, exec .readHeader s = .next t → t = { s with
    phase := t.phase, prog := t.prog, done := t.done, ovr := t.ovr, errcode := t.errcode, ephase := t.ephase
    freq := t.freq, node := t.node, nnodes := t.nnodes, root := t.root, pq := t.pq, seen := t.seen, nint := t.nint
    nleaf := t.nleaf, stk := t.stk, bitSrc := { s.bitSrc with pos := t.bitSrc.pos }, point := t.point
    todo := t.todo, events := t.events } ∧ (s.hmode = .tree → t.freq = s.freq ∧ t.pq = s.pq) ∧
    (s.hmode = .counts → t.seen = s.seen ∧ t.nint = s.nint ∧ t.nleaf = s.nleaf ∧ t.stk = s.stk)) ∧
  ∀ s t : State, exec .decode s = .next t → t = { s with
    phase := t.phase, prog := t.prog, done := t.done, ovr := t.ovr, errcode := t.errcode, ephase := t.ephase
    cur := t.cur, bitSrc := { s.bitSrc with pos := t.bitSrc.pos }, byteSink := t.byteSink, point := t.point
    todo := t.todo, events := t.events } ∧ s.byteSink <+: t.byteSink

/-! ## Invariants -/

/-- The invariant holds at reset. -/
def Obligations.InvariantHoldsAtReset : Prop := Inv State.reset

/-- 10_state.md R24, R30, R35, R43, 60_exceptions.md R301, R302: every step keeps the agreement of the sequencing
registers and flags. -/
def Obligations.EveryStepKeepsControlInv : Prop :=
  ∀ s t : State, ControlInv s → step s = .next t → ControlInv t

/-- 10_state.md R26, R27, R31, R32, R37: every step keeps the canonical form of the stores and the widths of FREQ. -/
def Obligations.EveryStepKeepsStoreInv : Prop :=
  ∀ s t : State, StoreInv s → step s = .next t → StoreInv t

/-- 10_state.md R34, R38, R42: every step keeps the whole invariant, the tree, the code table and the deserializer's
bookkeeping included. -/
def Obligations.EveryStepKeepsTheInvariant : Prop :=
  ∀ s t : State, Inv s → step s = .next t → Inv t

/-- The model's own deduction (log 10, DEDUCED and unsafe), which no rule of the spec states: every step leaves the block
idle or before a stream transfer, so a host never sees the work between two transfers half done. The log deduces it from
the steps of 00_scope.md section 2 and the repeated reads of 20_memory.md section 2. -/
def Obligations.EveryStepLeavesTheBlockSettled : Prop :=
  ∀ s t : State, Inv s → Settled s → step s = .next t → Settled t

/-- 10_state.md R45, 47_bitstream_decoder.md R246: no step of a state with the invariant reads an absent value, a
missing child or an entry that does not exist. -/
def Obligations.NoFaultUnderTheInvariant : Prop :=
  ∀ (s : State) (f : Fault), Inv s → step s ≠ .fault f
end

