-- ==== Sys2Proof/Laws/State.lean ====
section
/-! SUPPORT. One lemma per field and named update of the state: what the update makes of the field. -/

namespace Sys2Proof.Machine

/-! ## raiseError -/

@[simp] theorem raiseError_cfg (e : ErrCode) (s : State) : (raiseError e s).cfg = s.cfg := rfl

@[simp] theorem raiseError_phase (e : ErrCode) (s : State) : (raiseError e s).phase = .idle := rfl

@[simp] theorem raiseError_prog (e : ErrCode) (s : State) : (raiseError e s).prog = .idle := rfl

@[simp] theorem raiseError_done (e : ErrCode) (s : State) : (raiseError e s).done = false := rfl

@[simp] theorem raiseError_ovr (e : ErrCode) (s : State) : (raiseError e s).ovr = s.ovr := rfl

@[simp] theorem raiseError_errcode (e : ErrCode) (s : State) : (raiseError e s).errcode = e := rfl

@[simp] theorem raiseError_hmode (e : ErrCode) (s : State) : (raiseError e s).hmode = s.hmode := rfl

@[simp] theorem raiseError_ephase (e : ErrCode) (s : State) : (raiseError e s).ephase = s.phase := rfl

@[simp] theorem raiseError_mode (e : ErrCode) (s : State) : (raiseError e s).mode = s.mode := rfl

@[simp] theorem raiseError_freq (e : ErrCode) (s : State) : (raiseError e s).freq = s.freq := rfl

@[simp] theorem raiseError_node (e : ErrCode) (s : State) : (raiseError e s).node = s.node := rfl

@[simp] theorem raiseError_nnodes (e : ErrCode) (s : State) : (raiseError e s).nnodes = s.nnodes := rfl

@[simp] theorem raiseError_root (e : ErrCode) (s : State) : (raiseError e s).root = s.root := rfl

@[simp] theorem raiseError_pq (e : ErrCode) (s : State) : (raiseError e s).pq = s.pq := rfl

@[simp] theorem raiseError_code (e : ErrCode) (s : State) : (raiseError e s).code = s.code := rfl

@[simp] theorem raiseError_cur (e : ErrCode) (s : State) : (raiseError e s).cur = s.cur := rfl

@[simp] theorem raiseError_seen (e : ErrCode) (s : State) : (raiseError e s).seen = s.seen := rfl

@[simp] theorem raiseError_nint (e : ErrCode) (s : State) : (raiseError e s).nint = s.nint := rfl

@[simp] theorem raiseError_nleaf (e : ErrCode) (s : State) : (raiseError e s).nleaf = s.nleaf := rfl

@[simp] theorem raiseError_stk (e : ErrCode) (s : State) : (raiseError e s).stk = s.stk := rfl

@[simp] theorem raiseError_walk (e : ErrCode) (s : State) : (raiseError e s).walk = s.walk := rfl

@[simp] theorem raiseError_point (e : ErrCode) (s : State) : (raiseError e s).point = .start := rfl

@[simp] theorem raiseError_todo (e : ErrCode) (s : State) : (raiseError e s).todo = [] := rfl

@[simp] theorem raiseError_byteSrc (e : ErrCode) (s : State) : (raiseError e s).byteSrc = s.byteSrc := rfl

@[simp] theorem raiseError_bitSink (e : ErrCode) (s : State) : (raiseError e s).bitSink = s.bitSink := rfl

@[simp] theorem raiseError_bitSrc (e : ErrCode) (s : State) : (raiseError e s).bitSrc = s.bitSrc := rfl

@[simp] theorem raiseError_byteSink (e : ErrCode) (s : State) : (raiseError e s).byteSink = s.byteSink := rfl

@[simp] theorem raiseError_pace (e : ErrCode) (s : State) : (raiseError e s).pace = s.pace := rfl

@[simp] theorem raiseError_events (e : ErrCode) (s : State) : (raiseError e s).events = s.events := rfl

@[simp] theorem raiseError_host (e : ErrCode) (s : State) : (raiseError e s).host = s.host := rfl

@[simp] theorem raiseError_rdata (e : ErrCode) (s : State) : (raiseError e s).rdata = s.rdata := rfl

/-! ## clearCall -/

@[simp] theorem clearCall_cfg (s : State) : (clearCall s).cfg = s.cfg := rfl

@[simp] theorem clearCall_phase (s : State) : (clearCall s).phase = s.phase := rfl

@[simp] theorem clearCall_prog (s : State) : (clearCall s).prog = .idle := rfl

@[simp] theorem clearCall_done (s : State) : (clearCall s).done = s.done := rfl

@[simp] theorem clearCall_ovr (s : State) : (clearCall s).ovr = false := rfl

@[simp] theorem clearCall_errcode (s : State) : (clearCall s).errcode = .none := rfl

@[simp] theorem clearCall_hmode (s : State) : (clearCall s).hmode = .tree := rfl

@[simp] theorem clearCall_ephase (s : State) : (clearCall s).ephase = .idle := rfl

@[simp] theorem clearCall_mode (s : State) : (clearCall s).mode = s.mode := rfl

@[simp] theorem clearCall_freq (s : State) : (clearCall s).freq = [] := rfl

@[simp] theorem clearCall_node (s : State) : (clearCall s).node = [] := rfl

@[simp] theorem clearCall_nnodes (s : State) : (clearCall s).nnodes = 0 := rfl

@[simp] theorem clearCall_root (s : State) : (clearCall s).root = none := rfl

@[simp] theorem clearCall_pq (s : State) : (clearCall s).pq = s.pq := rfl

@[simp] theorem clearCall_code (s : State) : (clearCall s).code = [] := rfl

@[simp] theorem clearCall_cur (s : State) : (clearCall s).cur = none := rfl

@[simp] theorem clearCall_seen (s : State) : (clearCall s).seen = 0 := rfl

@[simp] theorem clearCall_nint (s : State) : (clearCall s).nint = 0 := rfl

@[simp] theorem clearCall_nleaf (s : State) : (clearCall s).nleaf = 0 := rfl

@[simp] theorem clearCall_stk (s : State) : (clearCall s).stk = [] := rfl

@[simp] theorem clearCall_walk (s : State) : (clearCall s).walk = s.walk := rfl

@[simp] theorem clearCall_point (s : State) : (clearCall s).point = s.point := rfl

@[simp] theorem clearCall_todo (s : State) : (clearCall s).todo = s.todo := rfl

@[simp] theorem clearCall_byteSrc (s : State) : (clearCall s).byteSrc = s.byteSrc := rfl

@[simp] theorem clearCall_bitSink (s : State) : (clearCall s).bitSink = s.bitSink := rfl

@[simp] theorem clearCall_bitSrc (s : State) : (clearCall s).bitSrc = s.bitSrc := rfl

@[simp] theorem clearCall_byteSink (s : State) : (clearCall s).byteSink = s.byteSink := rfl

@[simp] theorem clearCall_pace (s : State) : (clearCall s).pace = s.pace := rfl

@[simp] theorem clearCall_events (s : State) : (clearCall s).events = s.events + 1 := rfl

@[simp] theorem clearCall_host (s : State) : (clearCall s).host = s.host := rfl

@[simp] theorem clearCall_rdata (s : State) : (clearCall s).rdata = s.rdata := rfl

/-! ## softReset -/

@[simp] theorem softReset_cfg (s : State) : (softReset s).cfg = s.cfg := rfl

@[simp] theorem softReset_phase (s : State) : (softReset s).phase = .idle := rfl

@[simp] theorem softReset_prog (s : State) : (softReset s).prog = .idle := rfl

@[simp] theorem softReset_done (s : State) : (softReset s).done = false := rfl

@[simp] theorem softReset_ovr (s : State) : (softReset s).ovr = false := rfl

@[simp] theorem softReset_errcode (s : State) : (softReset s).errcode = .none := rfl

@[simp] theorem softReset_hmode (s : State) : (softReset s).hmode = .tree := rfl

@[simp] theorem softReset_ephase (s : State) : (softReset s).ephase = .idle := rfl

@[simp] theorem softReset_mode (s : State) : (softReset s).mode = s.mode := rfl

@[simp] theorem softReset_freq (s : State) : (softReset s).freq = [] := rfl

@[simp] theorem softReset_node (s : State) : (softReset s).node = [] := rfl

@[simp] theorem softReset_nnodes (s : State) : (softReset s).nnodes = 0 := rfl

@[simp] theorem softReset_root (s : State) : (softReset s).root = none := rfl

@[simp] theorem softReset_pq (s : State) : (softReset s).pq = [] := rfl

@[simp] theorem softReset_code (s : State) : (softReset s).code = [] := rfl

@[simp] theorem softReset_cur (s : State) : (softReset s).cur = none := rfl

@[simp] theorem softReset_seen (s : State) : (softReset s).seen = 0 := rfl

@[simp] theorem softReset_nint (s : State) : (softReset s).nint = 0 := rfl

@[simp] theorem softReset_nleaf (s : State) : (softReset s).nleaf = 0 := rfl

@[simp] theorem softReset_stk (s : State) : (softReset s).stk = [] := rfl

@[simp] theorem softReset_walk (s : State) : (softReset s).walk = [] := rfl

@[simp] theorem softReset_point (s : State) : (softReset s).point = .start := rfl

@[simp] theorem softReset_todo (s : State) : (softReset s).todo = [] := rfl

@[simp] theorem softReset_byteSrc (s : State) : (softReset s).byteSrc = s.byteSrc := rfl

@[simp] theorem softReset_bitSink (s : State) : (softReset s).bitSink = s.bitSink := rfl

@[simp] theorem softReset_bitSrc (s : State) : (softReset s).bitSrc = s.bitSrc := rfl

@[simp] theorem softReset_byteSink (s : State) : (softReset s).byteSink = s.byteSink := rfl

@[simp] theorem softReset_pace (s : State) : (softReset s).pace = s.pace := rfl

@[simp] theorem softReset_events (s : State) : (softReset s).events = s.events := rfl

@[simp] theorem softReset_host (s : State) : (softReset s).host = s.host := rfl

@[simp] theorem softReset_rdata (s : State) : (softReset s).rdata = s.rdata := rfl

/-! ## dropWrite -/

@[simp] theorem dropWrite_cfg (s : State) : (dropWrite s).cfg = s.cfg := rfl

@[simp] theorem dropWrite_phase (s : State) : (dropWrite s).phase = s.phase := rfl

@[simp] theorem dropWrite_prog (s : State) : (dropWrite s).prog = s.prog := rfl

@[simp] theorem dropWrite_done (s : State) : (dropWrite s).done = s.done := rfl

@[simp] theorem dropWrite_ovr (s : State) : (dropWrite s).ovr = true := rfl

@[simp] theorem dropWrite_errcode (s : State) : (dropWrite s).errcode = s.errcode := rfl

@[simp] theorem dropWrite_hmode (s : State) : (dropWrite s).hmode = s.hmode := rfl

@[simp] theorem dropWrite_ephase (s : State) : (dropWrite s).ephase = s.ephase := rfl

@[simp] theorem dropWrite_mode (s : State) : (dropWrite s).mode = s.mode := rfl

@[simp] theorem dropWrite_freq (s : State) : (dropWrite s).freq = s.freq := rfl

@[simp] theorem dropWrite_node (s : State) : (dropWrite s).node = s.node := rfl

@[simp] theorem dropWrite_nnodes (s : State) : (dropWrite s).nnodes = s.nnodes := rfl

@[simp] theorem dropWrite_root (s : State) : (dropWrite s).root = s.root := rfl

@[simp] theorem dropWrite_pq (s : State) : (dropWrite s).pq = s.pq := rfl

@[simp] theorem dropWrite_code (s : State) : (dropWrite s).code = s.code := rfl

@[simp] theorem dropWrite_cur (s : State) : (dropWrite s).cur = s.cur := rfl

@[simp] theorem dropWrite_seen (s : State) : (dropWrite s).seen = s.seen := rfl

@[simp] theorem dropWrite_nint (s : State) : (dropWrite s).nint = s.nint := rfl

@[simp] theorem dropWrite_nleaf (s : State) : (dropWrite s).nleaf = s.nleaf := rfl

@[simp] theorem dropWrite_stk (s : State) : (dropWrite s).stk = s.stk := rfl

@[simp] theorem dropWrite_walk (s : State) : (dropWrite s).walk = s.walk := rfl

@[simp] theorem dropWrite_point (s : State) : (dropWrite s).point = s.point := rfl

@[simp] theorem dropWrite_todo (s : State) : (dropWrite s).todo = s.todo := rfl

@[simp] theorem dropWrite_byteSrc (s : State) : (dropWrite s).byteSrc = s.byteSrc := rfl

@[simp] theorem dropWrite_bitSink (s : State) : (dropWrite s).bitSink = s.bitSink := rfl

@[simp] theorem dropWrite_bitSrc (s : State) : (dropWrite s).bitSrc = s.bitSrc := rfl

@[simp] theorem dropWrite_byteSink (s : State) : (dropWrite s).byteSink = s.byteSink := rfl

@[simp] theorem dropWrite_pace (s : State) : (dropWrite s).pace = s.pace := rfl

@[simp] theorem dropWrite_events (s : State) : (dropWrite s).events = s.events := rfl

@[simp] theorem dropWrite_host (s : State) : (dropWrite s).host = s.host := rfl

@[simp] theorem dropWrite_rdata (s : State) : (dropWrite s).rdata = s.rdata := rfl

/-! ## rewind -/

@[simp] theorem rewind_cfg (s : State) : (rewind s).cfg = s.cfg := rfl

@[simp] theorem rewind_phase (s : State) : (rewind s).phase = s.phase := rfl

@[simp] theorem rewind_prog (s : State) : (rewind s).prog = s.prog := rfl

@[simp] theorem rewind_done (s : State) : (rewind s).done = s.done := rfl

@[simp] theorem rewind_ovr (s : State) : (rewind s).ovr = s.ovr := rfl

@[simp] theorem rewind_errcode (s : State) : (rewind s).errcode = s.errcode := rfl

@[simp] theorem rewind_hmode (s : State) : (rewind s).hmode = s.hmode := rfl

@[simp] theorem rewind_ephase (s : State) : (rewind s).ephase = s.ephase := rfl

@[simp] theorem rewind_mode (s : State) : (rewind s).mode = s.mode := rfl

@[simp] theorem rewind_freq (s : State) : (rewind s).freq = s.freq := rfl

@[simp] theorem rewind_node (s : State) : (rewind s).node = s.node := rfl

@[simp] theorem rewind_nnodes (s : State) : (rewind s).nnodes = s.nnodes := rfl

@[simp] theorem rewind_root (s : State) : (rewind s).root = s.root := rfl

@[simp] theorem rewind_pq (s : State) : (rewind s).pq = s.pq := rfl

@[simp] theorem rewind_code (s : State) : (rewind s).code = s.code := rfl

@[simp] theorem rewind_cur (s : State) : (rewind s).cur = s.cur := rfl

@[simp] theorem rewind_seen (s : State) : (rewind s).seen = s.seen := rfl

@[simp] theorem rewind_nint (s : State) : (rewind s).nint = s.nint := rfl

@[simp] theorem rewind_nleaf (s : State) : (rewind s).nleaf = s.nleaf := rfl

@[simp] theorem rewind_stk (s : State) : (rewind s).stk = s.stk := rfl

@[simp] theorem rewind_walk (s : State) : (rewind s).walk = s.walk := rfl

@[simp] theorem rewind_point (s : State) : (rewind s).point = s.point := rfl

@[simp] theorem rewind_todo (s : State) : (rewind s).todo = s.todo := rfl

@[simp] theorem rewind_byteSrc (s : State) : (rewind s).byteSrc = { s.byteSrc with pass := .two, pos := 0, rewinds := s.byteSrc.rewinds + 1 } := rfl

@[simp] theorem rewind_bitSink (s : State) : (rewind s).bitSink = s.bitSink := rfl

@[simp] theorem rewind_bitSrc (s : State) : (rewind s).bitSrc = s.bitSrc := rfl

@[simp] theorem rewind_byteSink (s : State) : (rewind s).byteSink = s.byteSink := rfl

@[simp] theorem rewind_pace (s : State) : (rewind s).pace = s.pace := rfl

@[simp] theorem rewind_events (s : State) : (rewind s).events = s.events + 1 := rfl

@[simp] theorem rewind_host (s : State) : (rewind s).host = s.host := rfl

@[simp] theorem rewind_rdata (s : State) : (rewind s).rdata = s.rdata := rfl

/-! ## outBit -/

@[simp] theorem outBit_cfg (b : Bool) (s : State) : (outBit b s).cfg = s.cfg := rfl

@[simp] theorem outBit_phase (b : Bool) (s : State) : (outBit b s).phase = s.phase := rfl

@[simp] theorem outBit_prog (b : Bool) (s : State) : (outBit b s).prog = s.prog := rfl

@[simp] theorem outBit_done (b : Bool) (s : State) : (outBit b s).done = s.done := rfl

@[simp] theorem outBit_ovr (b : Bool) (s : State) : (outBit b s).ovr = s.ovr := rfl

@[simp] theorem outBit_errcode (b : Bool) (s : State) : (outBit b s).errcode = s.errcode := rfl

@[simp] theorem outBit_hmode (b : Bool) (s : State) : (outBit b s).hmode = s.hmode := rfl

@[simp] theorem outBit_ephase (b : Bool) (s : State) : (outBit b s).ephase = s.ephase := rfl

@[simp] theorem outBit_mode (b : Bool) (s : State) : (outBit b s).mode = s.mode := rfl

@[simp] theorem outBit_freq (b : Bool) (s : State) : (outBit b s).freq = s.freq := rfl

@[simp] theorem outBit_node (b : Bool) (s : State) : (outBit b s).node = s.node := rfl

@[simp] theorem outBit_nnodes (b : Bool) (s : State) : (outBit b s).nnodes = s.nnodes := rfl

@[simp] theorem outBit_root (b : Bool) (s : State) : (outBit b s).root = s.root := rfl

@[simp] theorem outBit_pq (b : Bool) (s : State) : (outBit b s).pq = s.pq := rfl

@[simp] theorem outBit_code (b : Bool) (s : State) : (outBit b s).code = s.code := rfl

@[simp] theorem outBit_cur (b : Bool) (s : State) : (outBit b s).cur = s.cur := rfl

@[simp] theorem outBit_seen (b : Bool) (s : State) : (outBit b s).seen = s.seen := rfl

@[simp] theorem outBit_nint (b : Bool) (s : State) : (outBit b s).nint = s.nint := rfl

@[simp] theorem outBit_nleaf (b : Bool) (s : State) : (outBit b s).nleaf = s.nleaf := rfl

@[simp] theorem outBit_stk (b : Bool) (s : State) : (outBit b s).stk = s.stk := rfl

@[simp] theorem outBit_walk (b : Bool) (s : State) : (outBit b s).walk = s.walk := rfl

@[simp] theorem outBit_point (b : Bool) (s : State) : (outBit b s).point = s.point := rfl

@[simp] theorem outBit_todo (b : Bool) (s : State) : (outBit b s).todo = s.todo := rfl

@[simp] theorem outBit_byteSrc (b : Bool) (s : State) : (outBit b s).byteSrc = s.byteSrc := rfl

@[simp] theorem outBit_bitSink (b : Bool) (s : State) : (outBit b s).bitSink = { s.bitSink with bits := s.bitSink.bits ++ [b] } := rfl

@[simp] theorem outBit_bitSrc (b : Bool) (s : State) : (outBit b s).bitSrc = s.bitSrc := rfl

@[simp] theorem outBit_byteSink (b : Bool) (s : State) : (outBit b s).byteSink = s.byteSink := rfl

@[simp] theorem outBit_pace (b : Bool) (s : State) : (outBit b s).pace = s.pace := rfl

@[simp] theorem outBit_events (b : Bool) (s : State) : (outBit b s).events = s.events + 1 := rfl

@[simp] theorem outBit_host (b : Bool) (s : State) : (outBit b s).host = s.host := rfl

@[simp] theorem outBit_rdata (b : Bool) (s : State) : (outBit b s).rdata = s.rdata := rfl

/-! ## endOut -/

@[simp] theorem endOut_cfg (s : State) : (endOut s).cfg = s.cfg := rfl

@[simp] theorem endOut_phase (s : State) : (endOut s).phase = s.phase := rfl

@[simp] theorem endOut_prog (s : State) : (endOut s).prog = s.prog := rfl

@[simp] theorem endOut_done (s : State) : (endOut s).done = s.done := rfl

@[simp] theorem endOut_ovr (s : State) : (endOut s).ovr = s.ovr := rfl

@[simp] theorem endOut_errcode (s : State) : (endOut s).errcode = s.errcode := rfl

@[simp] theorem endOut_hmode (s : State) : (endOut s).hmode = s.hmode := rfl

@[simp] theorem endOut_ephase (s : State) : (endOut s).ephase = s.ephase := rfl

@[simp] theorem endOut_mode (s : State) : (endOut s).mode = s.mode := rfl

@[simp] theorem endOut_freq (s : State) : (endOut s).freq = s.freq := rfl

@[simp] theorem endOut_node (s : State) : (endOut s).node = s.node := rfl

@[simp] theorem endOut_nnodes (s : State) : (endOut s).nnodes = s.nnodes := rfl

@[simp] theorem endOut_root (s : State) : (endOut s).root = s.root := rfl

@[simp] theorem endOut_pq (s : State) : (endOut s).pq = s.pq := rfl

@[simp] theorem endOut_code (s : State) : (endOut s).code = s.code := rfl

@[simp] theorem endOut_cur (s : State) : (endOut s).cur = s.cur := rfl

@[simp] theorem endOut_seen (s : State) : (endOut s).seen = s.seen := rfl

@[simp] theorem endOut_nint (s : State) : (endOut s).nint = s.nint := rfl

@[simp] theorem endOut_nleaf (s : State) : (endOut s).nleaf = s.nleaf := rfl

@[simp] theorem endOut_stk (s : State) : (endOut s).stk = s.stk := rfl

@[simp] theorem endOut_walk (s : State) : (endOut s).walk = s.walk := rfl

@[simp] theorem endOut_point (s : State) : (endOut s).point = s.point := rfl

@[simp] theorem endOut_todo (s : State) : (endOut s).todo = s.todo := rfl

@[simp] theorem endOut_byteSrc (s : State) : (endOut s).byteSrc = s.byteSrc := rfl

@[simp] theorem endOut_bitSink (s : State) : (endOut s).bitSink = { s.bitSink with ended := true } := rfl

@[simp] theorem endOut_bitSrc (s : State) : (endOut s).bitSrc = s.bitSrc := rfl

@[simp] theorem endOut_byteSink (s : State) : (endOut s).byteSink = s.byteSink := rfl

@[simp] theorem endOut_pace (s : State) : (endOut s).pace = s.pace := rfl

@[simp] theorem endOut_events (s : State) : (endOut s).events = s.events + 1 := rfl

@[simp] theorem endOut_host (s : State) : (endOut s).host = s.host := rfl

@[simp] theorem endOut_rdata (s : State) : (endOut s).rdata = s.rdata := rfl

/-! ## outByte -/

@[simp] theorem outByte_cfg (v : Byte) (s : State) : (outByte v s).cfg = s.cfg := rfl

@[simp] theorem outByte_phase (v : Byte) (s : State) : (outByte v s).phase = s.phase := rfl

@[simp] theorem outByte_prog (v : Byte) (s : State) : (outByte v s).prog = s.prog := rfl

@[simp] theorem outByte_done (v : Byte) (s : State) : (outByte v s).done = s.done := rfl

@[simp] theorem outByte_ovr (v : Byte) (s : State) : (outByte v s).ovr = s.ovr := rfl

@[simp] theorem outByte_errcode (v : Byte) (s : State) : (outByte v s).errcode = s.errcode := rfl

@[simp] theorem outByte_hmode (v : Byte) (s : State) : (outByte v s).hmode = s.hmode := rfl

@[simp] theorem outByte_ephase (v : Byte) (s : State) : (outByte v s).ephase = s.ephase := rfl

@[simp] theorem outByte_mode (v : Byte) (s : State) : (outByte v s).mode = s.mode := rfl

@[simp] theorem outByte_freq (v : Byte) (s : State) : (outByte v s).freq = s.freq := rfl

@[simp] theorem outByte_node (v : Byte) (s : State) : (outByte v s).node = s.node := rfl

@[simp] theorem outByte_nnodes (v : Byte) (s : State) : (outByte v s).nnodes = s.nnodes := rfl

@[simp] theorem outByte_root (v : Byte) (s : State) : (outByte v s).root = s.root := rfl

@[simp] theorem outByte_pq (v : Byte) (s : State) : (outByte v s).pq = s.pq := rfl

@[simp] theorem outByte_code (v : Byte) (s : State) : (outByte v s).code = s.code := rfl

@[simp] theorem outByte_cur (v : Byte) (s : State) : (outByte v s).cur = s.cur := rfl

@[simp] theorem outByte_seen (v : Byte) (s : State) : (outByte v s).seen = s.seen := rfl

@[simp] theorem outByte_nint (v : Byte) (s : State) : (outByte v s).nint = s.nint := rfl

@[simp] theorem outByte_nleaf (v : Byte) (s : State) : (outByte v s).nleaf = s.nleaf := rfl

@[simp] theorem outByte_stk (v : Byte) (s : State) : (outByte v s).stk = s.stk := rfl

@[simp] theorem outByte_walk (v : Byte) (s : State) : (outByte v s).walk = s.walk := rfl

@[simp] theorem outByte_point (v : Byte) (s : State) : (outByte v s).point = s.point := rfl

@[simp] theorem outByte_todo (v : Byte) (s : State) : (outByte v s).todo = s.todo := rfl

@[simp] theorem outByte_byteSrc (v : Byte) (s : State) : (outByte v s).byteSrc = s.byteSrc := rfl

@[simp] theorem outByte_bitSink (v : Byte) (s : State) : (outByte v s).bitSink = s.bitSink := rfl

@[simp] theorem outByte_bitSrc (v : Byte) (s : State) : (outByte v s).bitSrc = s.bitSrc := rfl

@[simp] theorem outByte_byteSink (v : Byte) (s : State) : (outByte v s).byteSink = s.byteSink ++ [v] := rfl

@[simp] theorem outByte_pace (v : Byte) (s : State) : (outByte v s).pace = s.pace := rfl

@[simp] theorem outByte_events (v : Byte) (s : State) : (outByte v s).events = s.events + 1 := rfl

@[simp] theorem outByte_host (v : Byte) (s : State) : (outByte v s).host = s.host := rfl

@[simp] theorem outByte_rdata (v : Byte) (s : State) : (outByte v s).rdata = s.rdata := rfl

/-! ## openStreams and callInit -/

theorem callInit_compression (s : State) :
    callInit .compression s = { clearCall s with bitSink := { bits := [], ended := false } } := rfl

theorem callInit_decompression (s : State) :
    callInit .decompression s = { clearCall s with byteSink := [] } := rfl

theorem hardReset_eq (s : State) : hardReset s = { softReset s with mode := .tree } := rfl

/-! ## putNode and putCode: they change one store, or fault -/

/-- Everything `putNode` can do when it answers a state. -/
theorem putNode_ok {i : Idx} {nd : Node} {s t : State} (h : putNode i nd s = .ok t) :
    i.toNat < maxNodes ∧ t = { s with node := Cells.put s.node i.toNat nd } := by
  unfold putNode at h
  split at h
  · exact ⟨‹_›, by simpa using h.symm⟩
  · cases h

theorem putNode_of_lt {i : Idx} (nd : Node) (s : State) (h : i.toNat < maxNodes) :
    putNode i nd s = .ok { s with node := Cells.put s.node i.toNat nd } := by
  simp [putNode, h]

/-- Everything `putCode` can do when it answers a state. -/
theorem putCode_ok {c : Sym} {p : List Bool} {s t : State} (h : putCode c p s = .ok t) :
    c.toNat < symCount ∧ t = { s with code := Cells.put s.code c.toNat p } := by
  unfold putCode at h
  split at h
  · exact ⟨‹_›, by simpa using h.symm⟩
  · cases h

theorem putCode_of_lt {c : Sym} (p : List Bool) (s : State) (h : c.toNat < symCount) :
    putCode c p s = .ok { s with code := Cells.put s.code c.toNat p } := by
  simp [putCode, h]

/-! ## The input transfers: EOI changes nothing, an item events the position on by one -/

theorem inByte_cases (s : State) :
    (inByte s = (none, { s with events := s.events + 1 }) ∧ s.byteSrc.seq[s.byteSrc.pos]? = none) ∨
    ∃ b, s.byteSrc.seq[s.byteSrc.pos]? = some b ∧
      inByte s = (some b, { s with byteSrc := { s.byteSrc with pos := s.byteSrc.pos + 1 }, events := s.events + 1 }) := by
  unfold inByte
  cases h : s.byteSrc.seq[s.byteSrc.pos]? with
  | none => exact .inl ⟨rfl, rfl⟩
  | some b => exact .inr ⟨b, rfl, rfl⟩

theorem inBit_cases (s : State) :
    (inBit s = (none, { s with events := s.events + 1 }) ∧ s.bitSrc.seq[s.bitSrc.pos]? = none) ∨
    ∃ b, s.bitSrc.seq[s.bitSrc.pos]? = some b ∧
      inBit s = (some b, { s with bitSrc := { s.bitSrc with pos := s.bitSrc.pos + 1 }, events := s.events + 1 }) := by
  unfold inBit
  cases h : s.bitSrc.seq[s.bitSrc.pos]? with
  | none => exact .inl ⟨rfl, rfl⟩
  | some b => exact .inr ⟨b, rfl, rfl⟩

/-- InByte when the source has delivered all but `b :: rest`. -/
theorem inByte_of_cons {s : State} {b : Byte} {rest : List Byte} (h : bytesToCome s = b :: rest) :
    inByte s = (some b, { s with byteSrc := { s.byteSrc with pos := s.byteSrc.pos + 1 }, events := s.events + 1 }) ∧
      bytesToCome { s with byteSrc := { s.byteSrc with pos := s.byteSrc.pos + 1 }, events := s.events + 1 } = rest := by
  have h1 : s.byteSrc.seq[s.byteSrc.pos]? = some b := by
    have := congrArg List.head? h
    simpa [bytesToCome, List.head?_drop] using this
  refine ⟨by simp [inByte, h1], ?_⟩
  have := congrArg List.tail h
  simpa [bytesToCome, List.tail_drop, ByteSource.seq] using this

theorem inByte_of_nil {s : State} (h : bytesToCome s = []) : inByte s = (none, { s with events := s.events + 1 }) := by
  have h1 : s.byteSrc.seq[s.byteSrc.pos]? = none := by
    have := congrArg List.head? h
    simpa [bytesToCome, List.head?_drop] using this
  simp [inByte, h1]

/-- InBit when the source has delivered all but `b :: rest`. -/
theorem inBit_of_cons {s : State} {b : Bool} {rest : List Bool} (h : bitsToCome s = b :: rest) :
    inBit s = (some b, { s with bitSrc := { s.bitSrc with pos := s.bitSrc.pos + 1 }, events := s.events + 1 }) ∧
      bitsToCome { s with bitSrc := { s.bitSrc with pos := s.bitSrc.pos + 1 }, events := s.events + 1 } = rest := by
  have h1 : s.bitSrc.seq[s.bitSrc.pos]? = some b := by
    have := congrArg List.head? h
    simpa [bitsToCome, List.head?_drop] using this
  refine ⟨by simp [inBit, h1], ?_⟩
  have := congrArg List.tail h
  simpa [bitsToCome, List.tail_drop] using this

theorem inBit_of_nil {s : State} (h : bitsToCome s = []) : inBit s = (none, { s with events := s.events + 1 }) := by
  have h1 : s.bitSrc.seq[s.bitSrc.pos]? = none := by
    have := congrArg List.head? h
    simpa [bitsToCome, List.head?_drop] using this
  simp [inBit, h1]

end Sys2Proof.Machine
end

