-- ==== Sys2Proof/Laws/Cells.lean ====
section
/-! SUPPORT. The laws of the indexed stores: read after write, and every write keeps the canonical form. -/

namespace Sys2Proof.Machine

variable {α : Type}

/-! ## Read after write -/

@[simp] theorem Cells.get_put_same (t : Cells α) (k : Nat) (v : α) : Cells.get (Cells.put t k v) k = some v := by
  induction t with
  | nil => simp [Cells.put, Cells.get]
  | cons c t ih =>
    obtain ⟨a, x⟩ := c
    simp only [Cells.put]
    split
    · simp [Cells.get]
    · split
      · simp [Cells.get]
      · next h => simp [Cells.get, Ne.symm h, ih]

theorem Cells.get_put_ne (t : Cells α) {k j : Nat} (v : α) (h : j ≠ k) :
    Cells.get (Cells.put t k v) j = Cells.get t j := by
  induction t with
  | nil => simp [Cells.put, Cells.get, Ne.symm h]
  | cons c t ih =>
    obtain ⟨a, x⟩ := c
    simp only [Cells.put]
    split
    · simp [Cells.get, Ne.symm h]
    · split
      · next hk => subst hk; simp [Cells.get, Ne.symm h]
      · simp [Cells.get, ih]

@[simp] theorem Cells.get_erase_same (t : Cells α) (k : Nat) : Cells.get (Cells.erase t k) k = none := by
  induction t with
  | nil => rfl
  | cons c t ih =>
    obtain ⟨a, x⟩ := c
    simp only [Cells.erase]
    split
    · exact ih
    · next h => simp [Cells.get, h, ih]

theorem Cells.get_erase_ne (t : Cells α) {k j : Nat} (h : j ≠ k) :
    Cells.get (Cells.erase t k) j = Cells.get t j := by
  induction t with
  | nil => rfl
  | cons c t ih =>
    obtain ⟨a, x⟩ := c
    simp only [Cells.erase]
    split
    · next hk => subst hk; simp [Cells.get, Ne.symm h, ih]
    · simp [Cells.get, ih]

/-- What a read finds is listed. -/
theorem Cells.mem_of_get {t : Cells α} {k : Nat} {v : α} (h : Cells.get t k = some v) : (k, v) ∈ t := by
  induction t with
  | nil => cases h
  | cons c t ih =>
    obtain ⟨a, x⟩ := c
    simp only [Cells.get] at h
    split at h
    · next ha => cases h; simp [ha]
    · exact List.mem_cons_of_mem _ (ih h)

/-! ## The canonical form -/

theorem Cells.rising_put {lo k : Nat} (t : Cells α) (v : α) (h : Cells.risingFrom lo t = true) (hk : lo ≤ k) :
    Cells.risingFrom lo (Cells.put t k v) = true := by
  induction t generalizing lo with
  | nil => simp [Cells.put, Cells.risingFrom, hk]
  | cons c t ih =>
    obtain ⟨a, x⟩ := c
    simp only [Cells.risingFrom, Bool.and_eq_true, decide_eq_true_eq] at h
    simp only [Cells.put]
    split
    · simp only [Cells.risingFrom, Bool.and_eq_true, decide_eq_true_eq]
      exact ⟨hk, by omega, h.2⟩
    · split
      · next hka => subst hka; simp [Cells.risingFrom, hk, h.2]
      · simp only [Cells.risingFrom, Bool.and_eq_true, decide_eq_true_eq]
        exact ⟨h.1, ih h.2 (by omega)⟩

theorem Cells.rising_mono {lo lo' : Nat} (t : Cells α) (h : Cells.risingFrom lo t = true) (hl : lo' ≤ lo) :
    Cells.risingFrom lo' t = true := by
  cases t with
  | nil => rfl
  | cons c t =>
    simp only [Cells.risingFrom, Bool.and_eq_true, decide_eq_true_eq] at h ⊢
    exact ⟨by omega, h.2⟩

theorem Cells.rising_erase {lo : Nat} (k : Nat) (t : Cells α) (h : Cells.risingFrom lo t = true) :
    Cells.risingFrom lo (Cells.erase t k) = true := by
  induction t generalizing lo with
  | nil => rfl
  | cons c t ih =>
    obtain ⟨a, x⟩ := c
    simp only [Cells.risingFrom, Bool.and_eq_true, decide_eq_true_eq] at h
    simp only [Cells.erase]
    split
    · exact ih (Cells.rising_mono t h.2 (by omega))
    · simp only [Cells.risingFrom, Bool.and_eq_true, decide_eq_true_eq]
      exact ⟨h.1, ih h.2⟩

theorem Cells.mem_put {t : Cells α} {k : Nat} {v : α} {c : Nat × α} (h : c ∈ Cells.put t k v) :
    c = (k, v) ∨ c ∈ t := by
  induction t with
  | nil => simpa [Cells.put] using h
  | cons d t ih =>
    obtain ⟨a, x⟩ := d
    simp only [Cells.put] at h
    split at h
    · simpa using h
    · split at h
      · rcases List.mem_cons.1 h with h | h
        · exact .inl h
        · exact .inr (List.mem_cons_of_mem _ h)
      · rcases List.mem_cons.1 h with h | h
        · exact .inr (by simp [h])
        · exact (ih h).imp id (List.mem_cons_of_mem _)

theorem Cells.mem_erase {t : Cells α} {k : Nat} {c : Nat × α} (h : c ∈ Cells.erase t k) : c ∈ t := by
  induction t with
  | nil => cases h
  | cons d t ih =>
    obtain ⟨a, x⟩ := d
    simp only [Cells.erase] at h
    split at h
    · exact List.mem_cons_of_mem _ (ih h)
    · rcases List.mem_cons.1 h with h | h
      · simp [h]
      · exact List.mem_cons_of_mem _ (ih h)

/-- Writing an entry below the size keeps the canonical form. -/
theorem Cells.wf_put {n k : Nat} {t : Cells α} (v : α) (h : Cells.wf n t = true) (hk : k < n) :
    Cells.wf n (Cells.put t k v) = true := by
  simp only [Cells.wf, Bool.and_eq_true, List.all_eq_true, decide_eq_true_eq] at h ⊢
  refine ⟨Cells.rising_put t v h.1 (Nat.zero_le k), fun c hc => ?_⟩
  rcases Cells.mem_put hc with rfl | hc
  · exact hk
  · exact h.2 c hc

/-- Unlisting an entry keeps the canonical form. -/
theorem Cells.wf_erase {n : Nat} (k : Nat) {t : Cells α} (h : Cells.wf n t = true) :
    Cells.wf n (Cells.erase t k) = true := by
  simp only [Cells.wf, Bool.and_eq_true, List.all_eq_true, decide_eq_true_eq] at h ⊢
  exact ⟨Cells.rising_erase k t h.1, fun c hc => h.2 c (Cells.mem_erase hc)⟩

/-! ## FREQ -/

@[simp] theorem freqAt_nil (b : Byte) : freqAt [] b = 0 := rfl

@[simp] theorem freqAt_put_same (t : Cells Word) (b : Byte) (v : Word) : freqAt (freqPut t b v) b = v := by
  unfold freqAt freqPut
  split
  · next h => simp [h]
  · simp

theorem freqAt_put_ne (t : Cells Word) {b c : Byte} (v : Word) (h : c ≠ b) :
    freqAt (freqPut t b v) c = freqAt t c := by
  have hn : c.toNat ≠ b.toNat := fun e => h (BitVec.eq_of_toNat_eq e)
  unfold freqAt freqPut
  split
  · rw [Cells.get_erase_ne _ hn]
  · rw [Cells.get_put_ne _ _ hn]

/-- Every write of FREQ keeps its canonical form. -/
theorem freqWf_put {t : Cells Word} (b : Byte) (v : Word) (h : freqWf t = true) : freqWf (freqPut t b v) = true := by
  simp only [freqWf, Bool.and_eq_true, List.all_eq_true] at h ⊢
  unfold freqPut
  split
  · exact ⟨Cells.wf_erase _ h.1, fun c hc => h.2 c (Cells.mem_erase hc)⟩
  · next hv =>
    refine ⟨Cells.wf_put v h.1 (by have := b.isLt; simpa [alphaSize] using this), fun c hc => ?_⟩
    rcases Cells.mem_put hc with rfl | hc
    · simpa using hv
    · exact h.2 c hc

/-! ## NODE and CODE -/

@[simp] theorem nodeAt_nil (i : Idx) : nodeAt [] i = none := rfl

@[simp] theorem codeAt_nil (c : Sym) : codeAt [] c = none := rfl

@[simp] theorem nodeAt_put_same (t : Cells Node) (i : Idx) (nd : Node) :
    nodeAt (Cells.put t i.toNat nd) i = some nd := by simp [nodeAt]

theorem nodeAt_put_ne (t : Cells Node) {i j : Idx} (nd : Node) (h : j ≠ i) :
    nodeAt (Cells.put t i.toNat nd) j = nodeAt t j :=
  Cells.get_put_ne _ _ fun e => h (BitVec.eq_of_toNat_eq e)

@[simp] theorem codeAt_put_same (t : Cells (List Bool)) (c : Sym) (p : List Bool) :
    codeAt (Cells.put t c.toNat p) c = some p := by simp [codeAt]

theorem codeAt_put_ne (t : Cells (List Bool)) {c d : Sym} (p : List Bool) (h : d ≠ c) :
    codeAt (Cells.put t c.toNat p) d = codeAt t d :=
  Cells.get_put_ne _ _ fun e => h (BitVec.eq_of_toNat_eq e)

end Sys2Proof.Machine
end

