-- ==== Sys2Proof/Laws/Moves.lean ====
section
/-! SUPPORT. The laws of runs of moves, turns and acceptance. -/

namespace Sys2Proof.Machine

theorem busy_iff (s : State) : s.busy = true ↔ s.phase ≠ .idle := by simp [State.busy]

theorem not_busy_iff (s : State) : s.busy = false ↔ s.phase = .idle := by simp [State.busy]

/-! ## Runs of moves -/

/-- Up to `n` moves of the block, ending early when no command runs. -/
def runMoves : Nat → State → Result
  | 0, s => .ok s
  | n + 1, s =>
    if s.busy then
      match blockMove s with
      | .ok s1 => runMoves n s1
      | .error f => .error f
    else .ok s

@[simp] theorem runMoves_zero (s : State) : runMoves 0 s = .ok s := rfl

theorem runMoves_idle {s : State} (h : s.phase = .idle) (n : Nat) : runMoves n s = .ok s := by
  cases n with
  | zero => rfl
  | succ n => simp [runMoves, State.busy, h]

theorem runMoves_succ {s t : State} (hb : s.phase ≠ .idle) (h : blockMove s = .ok t) (n : Nat) :
    runMoves (n + 1) s = runMoves n t := by
  simp [runMoves, (busy_iff s).2 hb, h]

/-- A move and then a run. -/
theorem runMoves_step {s t : State} {r : Result} {n : Nat} (hb : s.phase ≠ .idle) (h : blockMove s = .ok t)
    (hr : runMoves n t = r) : runMoves (n + 1) s = r :=
  (runMoves_succ hb h n).trans hr

/-- A run of one move. -/
theorem runMoves_one {s : State} (hb : s.phase ≠ .idle) : runMoves 1 s = blockMove s := by
  simp only [runMoves, (busy_iff s).2 hb, if_true]
  cases blockMove s <;> rfl

/-- A run and then another. -/
theorem runMoves_then {s t : State} {r : Result} {m n : Nat} (h : runMoves m s = .ok t) (hr : runMoves n t = r) :
    runMoves (m + n) s = r := by
  induction m generalizing s with
  | zero => cases h; simpa using hr
  | succ m ih =>
    by_cases hb : s.phase = .idle
    · rw [runMoves_idle hb] at h
      cases h
      rw [runMoves_idle hb] at hr ⊢
      exact hr
    · rw [show m + 1 + n = (m + n) + 1 by omega]
      simp only [runMoves, (busy_iff s).2 hb, if_true] at h ⊢
      cases hm : blockMove s with
      | error f => rw [hm] at h; cases h
      | ok u => rw [hm] at h; exact ih h

/-- A run of m + n moves is a run of m moves and then one of n. -/
theorem runMoves_add (m n : Nat) {s t : State} (h : runMoves m s = .ok t) :
    runMoves (m + n) s = runMoves n t :=
  runMoves_then h rfl

/-- More moves than a run needs to end leave the same state. -/
theorem runMoves_le {m n : Nat} {s t : State} (h : runMoves m s = .ok t) (ht : t.phase = .idle) (hn : m ≤ n) :
    runMoves n s = .ok t := by
  obtain ⟨k, rfl⟩ := Nat.exists_eq_add_of_le hn
  rw [runMoves_add m k h, runMoves_idle ht]

/-- A property of states that every move of the block keeps holds after a run of moves. -/
theorem runMoves_induction {P : State → Prop}
    (hP : ∀ s t, s.phase ≠ .idle → P s → blockMove s = .ok t → P t) :
    ∀ (n : Nat) (s t : State), P s → runMoves n s = .ok t → P t
  | 0, _, _, hs, h => by cases h; exact hs
  | n + 1, s, t, hs, h => by
    simp only [runMoves] at h
    split at h
    · next hb =>
      cases hm : blockMove s with
      | error f => rw [hm] at h; cases h
      | ok u =>
        rw [hm] at h
        exact runMoves_induction hP n u t (hP s u ((busy_iff s).1 hb) hs hm) h
    · cases h; exact hs

/-- If no move faults from a state with a property that every move keeps, no run of moves does. -/
theorem runMoves_no_fault {P : State → Prop}
    (hP : ∀ s t, s.phase ≠ .idle → P s → blockMove s = .ok t → P t)
    (hF : ∀ s f, s.phase ≠ .idle → P s → blockMove s ≠ .error f) :
    ∀ (n : Nat) (s : State) (f : Fault), P s → runMoves n s ≠ .error f
  | 0, _, _, _, h => by cases h
  | n + 1, s, f, hs, h => by
    simp only [runMoves] at h
    split at h
    · next hb =>
      cases hm : blockMove s with
      | error g => exact hF s g ((busy_iff s).1 hb) hs hm
      | ok u =>
        rw [hm] at h
        exact runMoves_no_fault hP hF n u f (hP s u ((busy_iff s).1 hb) hs hm) h
    · cases h

/-! ## One move, by the point it starts at -/

theorem blockMove_start {s : State} (h : s.point = .start) :
    blockMove s = stageStart s := by
  simp [blockMove, h]

theorem blockMove_countByte {s : State} (h : s.point = .countByte) :
    blockMove s = countMove s := by
  simp [blockMove, h]

theorem blockMove_buildLeaves {s : State} (h : s.point = .buildLeaves) :
    blockMove s = buildLeavesMove s := by
  simp [blockMove, h]

theorem blockMove_buildMerge {s : State} {n : Idx} (h : s.point = .buildMerge n) :
    blockMove s = buildMergeMove n s := by
  simp [blockMove, h]

theorem blockMove_walkNode {s : State} (h : s.point = .walkNode) :
    blockMove s = walkMove s := by
  simp [blockMove, h]

theorem blockMove_sendTag {s : State} {b : List Bool} (h : s.point = .sendTag b) :
    blockMove s = sendTagMove b s := by
  simp [blockMove, h]

theorem blockMove_serTree {s : State} {b : List Bool} (h : s.point = .serTree b) :
    blockMove s = serTreeMove b s := by
  simp [blockMove, h]

theorem blockMove_serCounts {s : State} {n : Nat} {b : List Bool} (h : s.point = .serCounts n b) :
    blockMove s = serCountsMove n b s := by
  simp [blockMove, h]

theorem blockMove_encodeByte {s : State} (h : s.point = .encodeByte) :
    blockMove s = encodeByteMove s := by
  simp [blockMove, h]

theorem blockMove_encodeCode {s : State} {b : List Bool} (h : s.point = .encodeCode b) :
    blockMove s = encodeCodeMove b s := by
  simp [blockMove, h]

theorem blockMove_encodeEos {s : State} {b : List Bool} (h : s.point = .encodeEos b) :
    blockMove s = encodeEosMove b s := by
  simp [blockMove, h]

theorem blockMove_recvTag {s : State} {n : Nat} {v : Word} (h : s.point = .recvTag n v) :
    blockMove s = recvTagMove n v s := by
  simp [blockMove, h]

theorem blockMove_desNode {s : State} (h : s.point = .desNode) :
    blockMove s = desNodeMove s := by
  simp [blockMove, h]

theorem blockMove_desSym {s : State} {i : Idx} {n : Nat} {v : Word} (h : s.point = .desSym i n v) :
    blockMove s = desSymMove i n v s := by
  simp [blockMove, h]

theorem blockMove_desCheck {s : State} (h : s.point = .desCheck) :
    blockMove s = desCheckMove s := by
  simp [blockMove, h]

theorem blockMove_readCounts {s : State} {k : Nat} {n : Nat} {v : Word} (h : s.point = .readCounts k n v) :
    blockMove s = readCountsMove k n v s := by
  simp [blockMove, h]

theorem blockMove_decodeBit {s : State} (h : s.point = .decodeBit) :
    blockMove s = decodeBitMove s := by
  simp [blockMove, h]

theorem blockMove_decodeOut {s : State} {c : Sym} (h : s.point = .decodeOut c) :
    blockMove s = decodeOutMove c s := by
  simp [blockMove, h]

theorem blockMove_fin {s : State} (h : s.point = .fin) : blockMove s = .ok (stageEnd s) := by
  simp [blockMove, h]

/-! ## Turns -/

theorem outcome_next {r : Result} {t : State} : outcome r = .next t ↔ r = .ok t := by
  cases r <;> simp [outcome]

theorem outcome_fault {r : Result} {f : Fault} : outcome r = .fault f ↔ r = .error f := by
  cases r <;> simp [outcome]

theorem outcome_not_refused {r : Result} {f : Refusal} : outcome r ≠ .refused f := by
  cases r <;> simp [outcome]

theorem turn_idle {s : State} (h : s.phase = .idle) (n p : Nat) : turn n p s = .ok s := by
  cases n with
  | zero => rfl
  | succ n => simp [turn, State.busy, h]

theorem takeTurn_next {s t : State} : takeTurn s = .next t ↔ turn ((s.pace + 1) * quietMoves) s.pace s = .ok t :=
  outcome_next

theorem takeTurn_fault {s : State} {f : Fault} :
    takeTurn s = .fault f ↔ turn ((s.pace + 1) * quietMoves) s.pace s = .error f := outcome_fault

theorem takeTurn_idle {s : State} (h : s.phase = .idle) : takeTurn s = .next s := by
  simp [takeTurn, turn_idle h, outcome]

/-! ## Acceptance -/

theorem acceptEntry_busy {d : Direction} {k : Stage} {ks : List Stage} {s : State} (h : s.phase ≠ .idle) :
    acceptEntry d k ks s = .next (dropWrite s) := by
  simp [acceptEntry, (busy_iff s).2 h]

theorem acceptEntry_idle {d : Direction} {k : Stage} {ks : List Stage} {s : State} (h : s.phase = .idle) :
    acceptEntry d k ks s = runCommand k ks (callInit d { s with done := false }) := by
  simp [acceptEntry, (not_busy_iff s).2 h]

theorem acceptStage_busy {need k : Stage} {s : State} (h : s.phase ≠ .idle) :
    acceptStage need k s = .next (dropWrite s) := by
  simp [acceptStage, (busy_iff s).2 h]

theorem acceptStage_legal {need k : Stage} {s : State} (h : s.phase = .idle) (hp : s.prog = need) :
    acceptStage need k s = runCommand k [] { s with done := false } := by
  simp [acceptStage, (not_busy_iff s).2 h, hp]

theorem acceptStage_illegal {need k : Stage} {s : State} (h : s.phase = .idle) (hp : s.prog ≠ need) :
    acceptStage need k s = .next (raiseError .illegalCmd { s with done := false }) := by
  simp [acceptStage, (not_busy_iff s).2 h, hp]

theorem acceptReserved_busy {s : State} (h : s.phase ≠ .idle) : acceptReserved s = .next (dropWrite s) := by
  simp [acceptReserved, (busy_iff s).2 h]

theorem acceptReserved_idle {s : State} (h : s.phase = .idle) :
    acceptReserved s = .next (raiseError .illegalCmd { s with done := false }) := by
  simp [acceptReserved, (not_busy_iff s).2 h]

/-! ## Commands by their acceptance -/

/-- How a command is accepted: an entry command opens a call, a stage command needs the stage before it. -/
inductive Acceptance where
  | control
  | entry (d : Direction) (first : Stage) (rest : List Stage)
  | stage (need k : Stage)

/-- The acceptance of each command (48_control.md R266, R269; 30_encoding.md R93). -/
def acceptanceOf : Instr → Acceptance
  | .nop => .control
  | .softReset => .control
  | .compress => .entry .compression .count [.build, .gencodes, .writeTag, .writeHeader, .encode]
  | .count => .entry .compression .count []
  | .build => .stage .count .build
  | .gencodes => .stage .build .gencodes
  | .writeTag => .stage .gencodes .writeTag
  | .writeHeader => .stage .writeTag .writeHeader
  | .encode => .stage .writeHeader .encode
  | .decompress => .entry .decompression .readTag [.readHeader, .decode]
  | .readTag => .entry .decompression .readTag []
  | .readHeader => .stage .readTag .readHeader
  | .decode => .stage .readHeader .decode

theorem exec_entry {i : Instr} {d : Direction} {k : Stage} {ks : List Stage} (h : acceptanceOf i = .entry d k ks)
    (s : State) : exec i s = acceptEntry d k ks s := by
  cases i <;> simp_all [acceptanceOf, exec, execCompress, execCount, execDecompress, execReadTag]

theorem exec_stage {i : Instr} {need k : Stage} (h : acceptanceOf i = .stage need k) (s : State) :
    exec i s = acceptStage need k s := by
  cases i <;> simp_all [acceptanceOf, exec, execBuild, execGencodes, execWriteTag, execWriteHeader, execEncode,
    execReadHeader, execDecode]

end Sys2Proof.Machine
end

