-- ==== Sys2Proof/Laws/Trees.lean ====
section
/-! SUPPORT. The laws of trees: sizes, paths, the prefix property, and when the arena holds a tree. -/

namespace Sys2Proof.Machine

/-! ## Sizes, leaves, paths -/

theorem HTree.size_pos (T : HTree) : 0 < T.size := by cases T <;> simp [HTree.size]

theorem HTree.leaves_pos (T : HTree) : 0 < T.leaves.length := by
  induction T with
  | leaf c => simp [HTree.leaves]
  | node l r ihl ihr => simp [HTree.leaves]; omega

/-- A full tree of L leaves has 2·L − 1 nodes. -/
theorem HTree.size_leaves (T : HTree) : T.size + 1 = 2 * T.leaves.length := by
  induction T with
  | leaf c => rfl
  | node l r ihl ihr => simp [HTree.size, HTree.leaves]; omega

@[simp] theorem fieldBits_length {w : Nat} (n : Nat) (v : BitVec w) : (fieldBits n v).length = n := by
  induction n with
  | zero => rfl
  | succ n ih => simp [fieldBits, ih]

@[simp] theorem symBits_length (c : Sym) : (symBits c).length = 9 := fieldBits_length 9 c

@[simp] theorem tagBits_length (t : Word) : (tagBits t).length = 32 := fieldBits_length 32 t

@[simp] theorem countBits_length (c : Config) (v : Word) : (countBits c v).length = c.wCnt := fieldBits_length _ v

/-- The paths name the leaves, left to right. -/
theorem HTree.paths_fst (T : HTree) : T.paths.map Prod.fst = T.leaves := by
  induction T with
  | leaf c => rfl
  | node l r ihl ihr => simp [HTree.paths, HTree.leaves, ← ihl, ← ihr, Function.comp_def]

theorem HTree.leaf_of_path {T : HTree} {c : Sym} {p : List Bool} (h : (c, p) ∈ T.paths) : c ∈ T.leaves := by
  rw [← T.paths_fst]
  exact List.mem_map_of_mem (f := Prod.fst) h

theorem HTree.path_of_leaf {T : HTree} {c : Sym} (h : c ∈ T.leaves) : ∃ p, (c, p) ∈ T.paths := by
  rw [← T.paths_fst] at h
  obtain ⟨⟨d, p⟩, hp, rfl⟩ := List.mem_map.1 h
  exact ⟨p, hp⟩

/-- Of two paths of one tree, neither extends the other unless they are the same. -/
theorem HTree.path_prefix {T : HTree} {c d : Sym} {p q : List Bool} (hp : (c, p) ∈ T.paths) (hq : (d, q) ∈ T.paths)
    (h : p <+: q) : c = d ∧ p = q := by
  induction T generalizing p q with
  | leaf e =>
    simp only [HTree.paths, List.mem_singleton, Prod.mk.injEq] at hp hq
    exact ⟨hp.1.trans hq.1.symm, hp.2.trans hq.2.symm⟩
  | node l r ihl ihr =>
    simp only [HTree.paths, List.mem_append, List.mem_map, Prod.mk.injEq, Prod.exists] at hp hq
    rcases hp with ⟨c', p', hp', rfl, rfl⟩ | ⟨c', p', hp', rfl, rfl⟩ <;>
      rcases hq with ⟨d', q', hq', rfl, rfl⟩ | ⟨d', q', hq', rfl, rfl⟩ <;>
      simp only [List.cons_prefix_cons, reduceCtorEq, false_and, true_and] at h
    · exact (ihl hp' hq' h).imp id (congrArg _)
    · exact (ihr hp' hq' h).imp id (congrArg _)

/-- A path is shorter than the number of leaves. -/
theorem HTree.path_length {T : HTree} {c : Sym} {p : List Bool} (h : (c, p) ∈ T.paths) :
    p.length < T.leaves.length := by
  induction T generalizing p with
  | leaf e => simp_all [HTree.paths, HTree.leaves]
  | node l r ihl ihr =>
    simp only [HTree.paths, List.mem_append, List.mem_map, Prod.mk.injEq, Prod.exists] at h
    have hl := l.leaves_pos
    have hr := r.leaves_pos
    rcases h with ⟨c', p', hp', rfl, rfl⟩ | ⟨c', p', hp', rfl, rfl⟩
    · have := ihl hp'; simp [HTree.leaves]; omega
    · have := ihr hp'; simp [HTree.leaves]; omega

/-- In a tree with unique symbols a symbol has one path. -/
theorem HTree.path_unique {T : HTree} (hT : T.leaves.Nodup) {c : Sym} {p q : List Bool} (hp : (c, p) ∈ T.paths)
    (hq : (c, q) ∈ T.paths) : p = q := by
  rw [← T.paths_fst] at hT
  have := List.inj_on_of_nodup_map hT hp hq rfl
  exact (Prod.mk.inj this).2

/-- Symbols that are unique and at most 256 are at most 257. -/
theorem length_le_of_symbols {ls : List Sym} (hn : ls.Nodup) (h : ∀ c ∈ ls, c.toNat ≤ 256) : ls.length ≤ 257 := by
  have h1 : (ls.map BitVec.toNat).Nodup := hn.map fun a b h => BitVec.eq_of_toNat_eq h
  have h2 : ls.map BitVec.toNat ⊆ List.range 257 := by
    intro n hm
    obtain ⟨c, hc, rfl⟩ := List.mem_map.1 hm
    have := h c hc
    exact List.mem_range.2 (by omega)
  have := (List.subperm_of_subset h1 h2).length_le
  simpa using this

/-! ## The arena holds a tree -/

theorem Holds.root_mem {t : Cells Node} {T : HTree} {i : Idx} {is : List Idx} (h : Holds t T i is) : i ∈ is := by
  cases T with
  | leaf c => simp [h.1]
  | node l r => obtain ⟨w, a, b, il, ir, -, -, -, rfl⟩ := h; simp

/-- The tree at an index uses as many entries as it has nodes. -/
theorem Holds.length {t : Cells Node} {T : HTree} {i : Idx} {is : List Idx} (h : Holds t T i is) :
    is.length = T.size := by
  induction T generalizing i is with
  | leaf c => simp [h.1, HTree.size]
  | node l r ihl ihr =>
    obtain ⟨w, a, b, il, ir, -, hl, hr, rfl⟩ := h
    simp [ihl hl, ihr hr, HTree.size]
    omega

/-- The tree at an index depends on its own entries only. -/
theorem Holds.congr {t u : Cells Node} {T : HTree} {i : Idx} {is : List Idx} (h : Holds t T i is)
    (hu : ∀ j ∈ is, nodeAt u j = nodeAt t j) : Holds u T i is := by
  induction T generalizing i is with
  | leaf c =>
    obtain ⟨rfl, w, hw⟩ := h
    exact ⟨rfl, w, by rw [hu i (by simp), hw]⟩
  | node l r ihl ihr =>
    obtain ⟨w, a, b, il, ir, hw, hl, hr, rfl⟩ := h
    refine ⟨w, a, b, il, ir, by rw [hu i (by simp), hw], ihl hl fun j hj => hu j ?_, ihr hr fun j hj => hu j ?_, rfl⟩
    · simp [hj]
    · simp [hj]

/-- Writing an entry the tree does not use leaves the tree. -/
theorem Holds.put {t : Cells Node} {T : HTree} {i k : Idx} {is : List Idx} (nd : Node) (h : Holds t T i is)
    (hk : k ∉ is) : Holds (Cells.put t k.toNat nd) T i is :=
  h.congr fun _ hj => nodeAt_put_ne t nd fun e => hk (e ▸ hj)

theorem Holds.leaf_put (t : Cells Node) (i : Idx) (c : Sym) (w : Nat) :
    Holds (Cells.put t i.toNat (.leaf c w)) (.leaf c) i [i] := ⟨rfl, w, by simp⟩

/-- Writing an internal node over two trees that do not use its entry makes their parent. -/
theorem Holds.node_put {t : Cells Node} {l r : HTree} {i a b : Idx} {il ir : List Idx} (w : Nat)
    (hl : Holds t l a il) (hr : Holds t r b ir) (h1 : i ∉ il) (h2 : i ∉ ir) :
    Holds (Cells.put t i.toNat (.internal w a b)) (.node l r) i (i :: (il ++ ir)) :=
  ⟨w, a, b, il, ir, by simp, hl.put _ h1, hr.put _ h2, rfl⟩

/-- An index holds at most one tree. -/
theorem Holds.unique {t : Cells Node} {T U : HTree} {i : Idx} {is js : List Idx} (hT : Holds t T i is)
    (hU : Holds t U i js) : T = U ∧ is = js := by
  induction T generalizing U i is js with
  | leaf c =>
    obtain ⟨rfl, w, hw⟩ := hT
    cases U with
    | leaf d =>
      obtain ⟨rfl, v, hv⟩ := hU
      rw [hw] at hv
      cases hv
      exact ⟨rfl, rfl⟩
    | node l r =>
      obtain ⟨v, a, b, il, ir, hv, -, -, -⟩ := hU
      rw [hw] at hv
      cases hv
  | node l r ihl ihr =>
    obtain ⟨w, a, b, il, ir, hw, hl, hr, rfl⟩ := hT
    cases U with
    | leaf d =>
      obtain ⟨-, v, hv⟩ := hU
      rw [hw] at hv
      cases hv
    | node l' r' =>
      obtain ⟨v, a', b', il', ir', hv, hl', hr', rfl⟩ := hU
      rw [hw] at hv
      cases hv
      obtain ⟨rfl, rfl⟩ := ihl hl hl'
      obtain ⟨rfl, rfl⟩ := ihr hr hr'
      exact ⟨rfl, rfl⟩

/-- The tree at ROOT is one. -/
theorem TreeAt.unique {s : State} {T U : HTree} (hT : TreeAt s T) (hU : TreeAt s U) : T = U := by
  obtain ⟨r, is, hr, hh, -⟩ := hT
  obtain ⟨r', js, hr', hh', -⟩ := hU
  rw [hr] at hr'
  cases hr'
  exact (hh.unique hh').1

/-- Some entry is listed at the index of a held tree. -/
theorem Holds.present {t : Cells Node} {T : HTree} {i : Idx} {is : List Idx} (h : Holds t T i is) :
    ∃ nd, nodeAt t i = some nd := by
  cases T with
  | leaf c => exact ⟨_, h.2.choose_spec⟩
  | node l r => obtain ⟨w, a, b, il, ir, hw, -⟩ := h; exact ⟨_, hw⟩

theorem indicesFrom_zero (i : Nat) : indicesFrom i 0 = [] := rfl

@[simp] theorem indicesFrom_length (i n : Nat) : (indicesFrom i n).length = n := by simp [indicesFrom]

theorem indicesFrom_succ (i n : Nat) : indicesFrom i (n + 1) = BitVec.ofNat 10 i :: indicesFrom (i + 1) n := by
  simp [indicesFrom, List.range_succ_eq_map, Function.comp_def, Nat.add_comm, Nat.add_left_comm]

theorem indicesFrom_add (i m n : Nat) : indicesFrom i (m + n) = indicesFrom i m ++ indicesFrom (i + m) n := by
  simp [indicesFrom, List.range_add, Function.comp_def, Nat.add_assoc]

theorem mem_indicesFrom {i n : Nat} (h : i + n ≤ 1024) {j : Idx} :
    j ∈ indicesFrom i n ↔ i ≤ j.toNat ∧ j.toNat < i + n := by
  simp only [indicesFrom, List.mem_map, List.mem_range]
  constructor
  · rintro ⟨k, hk, rfl⟩
    simp only [BitVec.toNat_ofNat]
    omega
  · rintro ⟨h1, h2⟩
    refine ⟨j.toNat - i, by omega, BitVec.eq_of_toNat_eq ?_⟩
    simp only [BitVec.toNat_ofNat]
    omega

theorem indicesFrom_nodup {i n : Nat} (h : i + n ≤ 1024) : (indicesFrom i n).Nodup := by
  refine List.Nodup.map_on ?_ List.nodup_range
  intro a ha b hb e
  have := congrArg BitVec.toNat e
  simp only [List.mem_range, BitVec.toNat_ofNat] at *
  omega

end Sys2Proof.Machine
end

