-- ==== Sys2Proof/Laws/Stages.lean ====
section
/-! SUPPORT. What a run of moves does in the loops that only send: the tag, a code, the headers, the walk of GENCODES. -/

namespace Sys2Proof.Machine

/-- O with more bits after it. -/
def BitSink.append (o : BitSink) (bits : List Bool) : BitSink := { o with bits := o.bits ++ bits }

@[simp] theorem BitSink.append_bits (o : BitSink) (bits : List Bool) : (o.append bits).bits = o.bits ++ bits := rfl

@[simp] theorem BitSink.append_ended (o : BitSink) (bits : List Bool) : (o.append bits).ended = o.ended := rfl

@[simp] theorem BitSink.append_nil (o : BitSink) : o.append [] = o := by simp [BitSink.append]

theorem BitSink.append_append (o : BitSink) (p q : List Bool) : (o.append p).append q = o.append (p ++ q) := by
  simp [BitSink.append]

/-! ## Sending a list of bits -/

/-- WRITE_TAG sends the bits it holds, in order, and comes to its end. -/
theorem run_sendTag (bits : List Bool) {s : State} (hb : s.phase ≠ .idle) (hp : s.point = .sendTag bits) :
    runMoves (bits.length + 1) s =
      .ok { s with point := .fin, events := s.events + bits.length, bitSink := s.bitSink.append bits } := by
  induction bits generalizing s with
  | nil =>
    rw [runMoves_succ (t := { s with point := .fin }) hb (by simp [blockMove_sendTag hp, sendTagMove])]
    simp
  | cons b bits ih =>
    rw [List.length_cons]
    refine runMoves_step (t := { s with bitSink := s.bitSink.append [b], point := .sendTag bits, events := s.events + 1 }) hb
      (by simp [blockMove_sendTag hp, sendTagMove, outBit, BitSink.append]) ((ih ?_ rfl).trans ?_)
    · exact hb
    simp [BitSink.append, Nat.add_comm, Nat.add_left_comm]

/-- ENCODE sends the bits of a byte's code, in order, and comes back to its loop. -/
theorem run_encodeCode (bits : List Bool) {s : State} (hb : s.phase ≠ .idle) (hp : s.point = .encodeCode bits) :
    runMoves (bits.length + 1) s =
      .ok { s with point := .encodeByte, events := s.events + bits.length, bitSink := s.bitSink.append bits } := by
  induction bits generalizing s with
  | nil =>
    rw [runMoves_succ (t := { s with point := .encodeByte }) hb
      (by simp [blockMove_encodeCode hp, encodeCodeMove])]
    simp
  | cons b bits ih =>
    rw [List.length_cons]
    refine runMoves_step (t := { s with bitSink := s.bitSink.append [b], point := .encodeCode bits, events := s.events + 1 }) hb
      (by simp [blockMove_encodeCode hp, encodeCodeMove, outBit, BitSink.append]) ((ih ?_ rfl).trans ?_)
    · exact hb
    simp [BitSink.append, Nat.add_comm, Nat.add_left_comm]

/-- ENCODE sends the bits of CODE[EOS], in order, then END. -/
theorem run_encodeEos (bits : List Bool) {s : State} (hb : s.phase ≠ .idle) (hp : s.point = .encodeEos bits) :
    runMoves (bits.length + 1) s =
      .ok { s with point := .fin, events := s.events + (bits.length + 1),
                   bitSink := { bits := s.bitSink.bits ++ bits, ended := true } } := by
  induction bits generalizing s with
  | nil =>
    rw [runMoves_succ (t := { s with bitSink := { s.bitSink with ended := true }, point := .fin, events := s.events + 1 }) hb
      (by simp [blockMove_encodeEos hp, encodeEosMove, endOut])]
    simp
  | cons b bits ih =>
    rw [List.length_cons]
    refine runMoves_step (t := { s with bitSink := s.bitSink.append [b], point := .encodeEos bits, events := s.events + 1 }) hb
      (by simp [blockMove_encodeEos hp, encodeEosMove, outBit, BitSink.append]) ((ih ?_ rfl).trans ?_)
    · exact hb
    simp [BitSink.append, Nat.add_comm, Nat.add_left_comm]

/-- SerTree sends the bits of a symbol it holds, in order, and goes on to the next node. -/
theorem run_serBits (bits : List Bool) {s : State} (hb : s.phase ≠ .idle) (hp : s.point = .serTree bits) :
    runMoves bits.length s =
      .ok { s with point := .serTree [], events := s.events + bits.length, bitSink := s.bitSink.append bits } := by
  induction bits generalizing s with
  | nil => simp [← hp]
  | cons b bits ih =>
    rw [List.length_cons]
    refine runMoves_step (t := { s with bitSink := s.bitSink.append [b], point := .serTree bits, events := s.events + 1 }) hb
      (by simp [blockMove_serTree hp, serTreeMove, outBit, BitSink.append]) ((ih ?_ rfl).trans ?_)
    · exact hb
    simp [BitSink.append, Nat.add_comm, Nat.add_left_comm]

/-- SerCounts sends the bits it holds, in order. -/
theorem run_serCountBits (n : Nat) (bits : List Bool) {s : State} (hb : s.phase ≠ .idle)
    (hp : s.point = .serCounts n bits) :
    runMoves bits.length s =
      .ok { s with point := .serCounts n [], events := s.events + bits.length, bitSink := s.bitSink.append bits } := by
  induction bits generalizing s with
  | nil => simp [← hp]
  | cons b bits ih =>
    rw [List.length_cons]
    refine runMoves_step (t := { s with bitSink := s.bitSink.append [b], point := .serCounts n bits, events := s.events + 1 }) hb
      (by simp [blockMove_serCounts hp, serCountsMove, outBit, BitSink.append]) ((ih ?_ rfl).trans ?_)
    · exact hb
    simp [BitSink.append, Nat.add_comm, Nat.add_left_comm]

/-! ## The headers -/

/-- SerTree writes the header of the tree at the next node of its stack, one bit a move, and drops the node. -/
theorem run_serTree {T : HTree} {s : State} {i : Idx} {p : List Bool} {rest : List (Idx × List Bool)} {is : List Idx}
    (hT : Holds s.node T i is) (hb : s.phase ≠ .idle) (hp : s.point = .serTree []) (hw : s.walk = (i, p) :: rest) :
    runMoves T.header.length s =
      .ok { s with point := .serTree [], walk := rest, events := s.events + T.header.length,
                   bitSink := s.bitSink.append T.header } := by
  induction T generalizing s i p rest is with
  | leaf c =>
    obtain ⟨-, w, hn⟩ := hT
    rw [HTree.header, List.length_cons]
    have h1 := run_serBits (symBits c) (s := { s with bitSink := s.bitSink.append [true], walk := rest, point := .serTree (symBits c), events := s.events + 1 }) hb rfl
    rw [runMoves_succ hb (by simp [blockMove_serTree hp, serTreeMove, hw, hn, outBit]; rfl)]
    refine Eq.trans ?_ (h1.trans ?_)
    · rfl
    simp [BitSink.append, Nat.add_assoc, Nat.add_comm]
  | node l r ihl ihr =>
    obtain ⟨w, a, b, il, ir, hn, hl, hr, -⟩ := hT
    rw [HTree.header, List.length_cons, List.length_append]
    refine runMoves_step (t := { s with bitSink := s.bitSink.append [false], walk := (a, p ++ [false]) :: (b, p ++ [true]) :: rest, point := .serTree [], events := s.events + 1 }) hb
      (by simp [blockMove_serTree hp, serTreeMove, hw, hn, outBit, BitSink.append])
      (runMoves_then (ihl (is := il) ?_ ?_ rfl rfl) ((ihr (is := ir) ?_ ?_ rfl rfl).trans ?_))
    · exact hl
    · exact hb
    · exact hr
    · exact hb
    simp [BitSink.append, Nat.add_assoc, Nat.add_comm]

/-- SerCounts writes the fields of FREQ[n] .. FREQ[255], in order, and comes to its end. -/
theorem run_serCounts (k : Nat) {n : Nat} {s : State} (hk : n + k = alphaSize) (hb : s.phase ≠ .idle)
    (hp : s.point = .serCounts n []) :
    runMoves (k * (s.cfg.wCnt + 1) + 1) s =
      .ok { s with point := .fin, events := s.events + k * s.cfg.wCnt,
                   bitSink := s.bitSink.append
                     ((List.range' n k).flatMap (fun m => countBits s.cfg (freqAt s.freq (freqIndex m)))) } := by
  induction k generalizing n s with
  | zero =>
    have hn : ¬ n < alphaSize := by omega
    rw [runMoves_succ (t := { s with point := .fin }) hb
      (by simp [blockMove_serCounts hp, serCountsMove, hn])]
    simp
  | succ k ih =>
    have hn : n < alphaSize := by omega
    have h1 := runMoves_succ (s := s) (n := s.cfg.wCnt)
      (t := { s with point := .serCounts (n + 1) (countBits s.cfg (freqAt s.freq (freqIndex n))) })
      hb (by simp [blockMove_serCounts hp, serCountsMove, hn])
    have h2 := run_serCountBits (n + 1) (countBits s.cfg (freqAt s.freq (freqIndex n)))
      (s := { s with point := .serCounts (n + 1) (countBits s.cfg (freqAt s.freq (freqIndex n))) })
      hb rfl
    rw [countBits_length] at h2
    rw [h2] at h1
    rw [show (k + 1) * (s.cfg.wCnt + 1) + 1 = (s.cfg.wCnt + 1) + (k * (s.cfg.wCnt + 1) + 1) by ring]
    refine runMoves_then h1 ((ih (n := n + 1) (by omega) ?_ rfl).trans ?_)
    · exact hb
    simp [List.range'_succ, BitSink.append]
    ring

/-! ## GENCODES -/

/-- CODE after the paths of a list have been entered, in order. -/
def enterPaths (code : Cells (List Bool)) : List (Sym × List Bool) → Cells (List Bool)
  | [] => code
  | (c, p) :: rest => enterPaths (Cells.put code c.toNat p) rest

theorem enterPaths_append (code : Cells (List Bool)) (a b : List (Sym × List Bool)) :
    enterPaths code (a ++ b) = enterPaths (enterPaths code a) b := by
  induction a generalizing code with
  | nil => rfl
  | cons e a ih => exact ih _

/-- Walk enters the paths of the tree at the next node of its stack, one node a move, and drops the node. -/
theorem run_walk {T : HTree} {s : State} {i : Idx} {p : List Bool} {rest : List (Idx × List Bool)} {is : List Idx}
    (hT : Holds s.node T i is) (hs : ∀ c ∈ T.leaves, c.toNat ≤ 256) (hb : s.phase ≠ .idle)
    (hp : s.point = .walkNode) (hw : s.walk = (i, p) :: rest) :
    runMoves T.size s =
      .ok { s with walk := rest,
                   code := enterPaths s.code (T.paths.map (fun e => (e.1, p ++ e.2))) } := by
  induction T generalizing s i p rest is with
  | leaf c =>
    obtain ⟨-, w, hn⟩ := hT
    have hc : c.toNat < symCount := by have := hs c (by simp [HTree.leaves]); simp [symCount]; omega
    rw [HTree.size, runMoves_succ (n := 0)
      (t := { s with walk := rest, code := Cells.put s.code c.toNat p }) hb
      (by simp [blockMove_walkNode hp, walkMove, hw, hn, putCode_of_lt _ _ hc])]
    simp [HTree.paths, enterPaths]
  | node l r ihl ihr =>
    obtain ⟨w, a, b, il, ir, hn, hl, hr, -⟩ := hT
    simp only [HTree.leaves, List.mem_append] at hs
    rw [HTree.size, show 1 + l.size + r.size = (l.size + r.size) + 1 by omega]
    refine runMoves_step (t := { s with walk := (a, p ++ [false]) :: (b, p ++ [true]) :: rest }) hb
      (by simp [blockMove_walkNode hp, walkMove, hw, hn])
      (runMoves_then (ihl (is := il) ?_ (fun c hc => hs c (.inl hc)) ?_ ?_ rfl)
        ((ihr (is := ir) ?_ (fun c hc => hs c (.inr hc)) ?_ ?_ rfl).trans ?_))
    · exact hl
    · exact hb
    · exact hp
    · exact hr
    · exact hb
    · exact hp
    simp [HTree.paths, enterPaths_append, Function.comp_def, Nat.add_assoc, Nat.add_comm]

/-- Entering the paths of distinct symbols into an empty table gives the table of those paths. -/
theorem codeAt_enterPaths {es : List (Sym × List Bool)} (hn : (es.map Prod.fst).Nodup) (code : Cells (List Bool))
    (c : Sym) (p : List Bool) :
    codeAt (enterPaths code es) c = some p ↔ (c, p) ∈ es ∨ (c ∉ es.map Prod.fst ∧ codeAt code c = some p) := by
  induction es generalizing code with
  | nil => simp [enterPaths]
  | cons e es ih =>
    obtain ⟨d, q⟩ := e
    simp only [List.map_cons, List.nodup_cons] at hn
    rw [enterPaths, ih hn.2]
    by_cases hcd : c = d
    · subst hcd
      have h1 : (c, p) ∉ es := fun h => hn.1 (List.mem_map_of_mem (f := Prod.fst) h)
      simp only [h1, false_or, codeAt_put_same, Option.some.injEq, List.map_cons, List.mem_cons, true_or, not_true,
        false_and, or_false, Prod.mk.injEq, true_and]
      exact ⟨fun h => h.2.symm, fun h => ⟨hn.1, h.symm⟩⟩
    · rw [codeAt_put_ne _ _ hcd]
      simp [hcd]

end Sys2Proof.Machine
end

