-- ==== Sys2Proof/Laws/Streams.lean ====
section
/-! SUPPORT. What a run of moves does in the loops that read a source: COUNT, ENCODE, the tag, the fields of the
headers. -/

namespace Sys2Proof.Machine

/-! ## Positions of the sources -/

/-- The byte source `n` bytes further. -/
def ByteSource.skip (p : ByteSource) (n : Nat) : ByteSource := { p with pos := p.pos + n }

/-- The bit source `n` bits further. -/
def BitSource.skip (p : BitSource) (n : Nat) : BitSource := { p with pos := p.pos + n }

@[simp] theorem ByteSource.skip_zero (p : ByteSource) : p.skip 0 = p := rfl

@[simp] theorem BitSource.skip_zero (p : BitSource) : p.skip 0 = p := rfl

theorem ByteSource.skip_skip (p : ByteSource) (m n : Nat) : (p.skip m).skip n = p.skip (m + n) := by
  simp [ByteSource.skip, Nat.add_assoc]

theorem BitSource.skip_skip (p : BitSource) (m n : Nat) : (p.skip m).skip n = p.skip (m + n) := by
  simp [BitSource.skip, Nat.add_assoc]

/-- What is to come after the first bytes of what is to come. -/
theorem bytesToCome_skip {s t : State} {a b : List Byte} (h : bytesToCome s = a ++ b)
    (ht : t.byteSrc = s.byteSrc.skip a.length) : bytesToCome t = b := by
  have := congrArg (List.drop a.length) h
  simpa [bytesToCome, ht, ByteSource.skip, ByteSource.seq, List.drop_drop] using this

/-- What is to come after the first bits of what is to come. -/
theorem bitsToCome_skip {s t : State} {a b : List Bool} (h : bitsToCome s = a ++ b)
    (ht : t.bitSrc = s.bitSrc.skip a.length) : bitsToCome t = b := by
  have := congrArg (List.drop a.length) h
  simpa [bitsToCome, ht, BitSource.skip, List.drop_drop] using this

theorem inByte_cons {s : State} {b : Byte} {rest : List Byte} (h : bytesToCome s = b :: rest) :
    inByte s = (some b, { s with byteSrc := s.byteSrc.skip 1, events := s.events + 1 }) := (inByte_of_cons h).1

theorem inBit_cons {s : State} {b : Bool} {rest : List Bool} (h : bitsToCome s = b :: rest) :
    inBit s = (some b, { s with bitSrc := s.bitSrc.skip 1, events := s.events + 1 }) := (inBit_of_cons h).1

/-! ## COUNT -/

/-- FREQ after the bytes of a list have been counted. -/
def countInto (t : Cells Word) : List Byte → Cells Word
  | [] => t
  | b :: rest => countInto (freqPut t b (freqAt t b + 1)) rest

theorem freqAt_countInto (bs : List Byte) (t : Cells Word) (b : Byte) :
    freqAt (countInto t bs) b = freqAt t b + BitVec.ofNat 32 (bs.count b) := by
  induction bs generalizing t with
  | nil => simp [countInto]
  | cons c bs ih =>
    rw [countInto, ih, List.count_cons]
    by_cases h : c = b
    · subst h
      rw [freqAt_put_same]
      simp only [beq_self_eq_true, if_true]
      apply BitVec.eq_of_toNat_eq
      have : (1 : Word).toNat = 1 := rfl
      simp only [BitVec.toNat_add, BitVec.toNat_ofNat]
      omega
    · rw [freqAt_put_ne _ _ (Ne.symm h)]
      simp [h]

/-- Where nothing overflows, counting adds the number of occurrences. -/
theorem freqAt_countInto_toNat {bs : List Byte} {t : Cells Word} {b : Byte} {c : Config}
    (h : (freqAt t b).toNat + bs.count b ≤ maxCount c) :
    (freqAt (countInto t bs) b).toNat = (freqAt t b).toNat + bs.count b := by
  have h2 : 2 ^ c.wCnt ≤ 2 ^ 32 := Nat.pow_le_pow_right (by decide) c.wCnt_le
  rw [freqAt_countInto, BitVec.toNat_add, BitVec.toNat_ofNat]
  unfold maxCount at h
  have := (freqAt t b).isLt
  omega

/-- COUNT counts the next bytes, one a move, while no counter is full. -/
theorem run_countBytes (bs : List Byte) {rest : List Byte} {s : State} (hb : s.phase ≠ .idle)
    (hp : s.point = .countByte) (hr : bytesToCome s = bs ++ rest)
    (hf : ∀ b, (freqAt s.freq b).toNat + bs.count b ≤ maxCount s.cfg) :
    runMoves bs.length s =
      .ok { s with events := s.events + bs.length, byteSrc := s.byteSrc.skip bs.length, freq := countInto s.freq bs } := by
  induction bs generalizing s with
  | nil => simp [countInto]
  | cons b bs ih =>
    have hne : (freqAt s.freq b).toNat ≠ maxCount s.cfg := by
      have := hf b
      rw [List.count_cons] at this
      simp at this
      omega
    have hstep : (freqAt s.freq b + 1).toNat = (freqAt s.freq b).toNat + 1 := by
      have h2 : 2 ^ s.cfg.wCnt ≤ 2 ^ 32 := Nat.pow_le_pow_right (by decide) s.cfg.wCnt_le
      have := hf b
      rw [List.count_cons] at this
      unfold maxCount at this
      simp only [beq_self_eq_true, if_true] at this
      rw [BitVec.toNat_add]
      have : (1 : Word).toNat = 1 := rfl
      omega
    rw [List.length_cons]
    refine runMoves_step (t := { s with freq := freqPut s.freq b (freqAt s.freq b + 1), byteSrc := s.byteSrc.skip 1, events := s.events + 1 })
      hb ?_ ((ih ?_ ?_ ?_ ?_).trans ?_)
    · rw [blockMove_countByte hp]
      simp only [countMove, inByte_cons hr]
      simp [hne]
    · exact hb
    · exact hp
    · exact bytesToCome_skip (a := [b]) hr rfl
    · intro c
      have := hf c
      rw [List.count_cons] at this
      by_cases h : b = c
      · subst h
        simp only [freqAt_put_same, hstep]
        simp at this
        omega
      · simp only [freqAt_put_ne _ _ (Ne.symm h)]
        simpa [h] using this
    simp [countInto, ByteSource.skip_skip, Nat.add_assoc, Nat.add_comm]

/-! ## ENCODE -/

/-- ENCODE reads the next bytes and sends their codes. -/
theorem run_encodeBytes (bs : List Byte) {rest : List Byte} {body : List Bool} {s : State} (hb : s.phase ≠ .idle)
    (hp : s.point = .encodeByte) (hr : bytesToCome s = bs ++ rest) (hc : bodyBits s.code bs = some body) :
    runMoves (body.length + 2 * bs.length) s =
      .ok { s with events := s.events + (body.length + bs.length), byteSrc := s.byteSrc.skip bs.length,
                   bitSink := s.bitSink.append body } := by
  induction bs generalizing s body with
  | nil =>
    simp only [bodyBits, Option.some.injEq] at hc
    subst hc
    simp
  | cons b bs ih =>
    simp only [bodyBits] at hc
    split at hc
    · next p q h1 h2 =>
      cases hc
      have hm := runMoves_succ (s := s) (n := p.length + 1)
        (t := { s with byteSrc := s.byteSrc.skip 1, events := s.events + 1, point := .encodeCode p }) hb
        (by rw [blockMove_encodeByte hp]; simp [encodeByteMove, inByte_cons hr, h1])
      have hk := run_encodeCode p
        (s := { s with byteSrc := s.byteSrc.skip 1, events := s.events + 1, point := .encodeCode p }) hb rfl
      rw [List.length_append, List.length_cons,
        show p.length + q.length + 2 * (bs.length + 1) = (p.length + 1 + 1) + (q.length + 2 * bs.length) by omega]
      refine runMoves_then (hm.trans hk) ((ih (body := q) ?_ ?_ ?_ ?_).trans ?_)
      · exact hb
      · rfl
      · exact bytesToCome_skip (a := [b]) hr rfl
      · exact h2
      simp [hp, BitSink.append, ByteSource.skip_skip, Nat.add_comm]
      omega
    · cases hc

/-! ## InField -/

/-- The value after the bits of a list have been shifted in (00_scope.md R13). -/
def shiftAll (v : Word) : List Bool → Word
  | [] => v
  | b :: rest => shiftAll (shiftIn v b) rest

theorem shiftIn_toNat {v : Word} {b : Bool} (h : v.toNat < 2 ^ 31) : (shiftIn v b).toNat = 2 * v.toNat + b.toNat := by
  have h1 : shiftIn v b = BitVec.ofNat 32 (2 * v.toNat + b.toNat) := by
    apply BitVec.eq_of_getLsbD_eq
    intro i hi
    unfold shiftIn
    rw [BitVec.getLsbD_ofNat, BitVec.getLsbD_or, BitVec.getLsbD_shiftLeft]
    have hb : 2 * v.toNat + b.toNat = Nat.bit b v.toNat := by cases b <;> simp [Nat.bit] 
    rw [hb]
    cases i with
    | zero => cases b <;> simp
    | succ i =>
      rw [Nat.testBit_bit_succ]
      have h1 : Nat.testBit 1 (i + 1) = false := by simp [Nat.testBit_succ]
      cases b <;> simp [BitVec.getLsbD, hi, h1]
  have := Bool.toNat_le b
  rw [h1, BitVec.toNat_ofNat, Nat.mod_eq_of_lt]
  omega

/-- Reading the n bits OutField(n, x) sends gives x[n−1:0] (00_scope.md R13). -/
theorem shiftAll_fieldBits {w : Nat} (n : Nat) (x : BitVec w) (v : Word) (h : v.toNat * 2 ^ n + 2 ^ n ≤ 2 ^ 32) :
    (shiftAll v (fieldBits n x)).toNat = v.toNat * 2 ^ n + x.toNat % 2 ^ n := by
  induction n generalizing v with
  | zero => simp [shiftAll, fieldBits, Nat.mod_one]
  | succ n ih =>
    have hv : v.toNat < 2 ^ 31 := by
      have : 1 ≤ 2 ^ n := Nat.one_le_two_pow
      have h1 : v.toNat * 2 ^ (n + 1) + 2 ^ (n + 1) = (v.toNat + 1) * 2 * 2 ^ n := by ring
      have h2 : (v.toNat + 1) * 2 * 1 ≤ (v.toNat + 1) * 2 * 2 ^ n := Nat.mul_le_mul_left _ this
      omega
    have hs := shiftIn_toNat (b := x.getLsbD n) hv
    rw [fieldBits, shiftAll, ih]
    · rw [hs, show n + 1 = n.succ from rfl, Nat.mod_pow_succ, ← Nat.toNat_testBit]
      simp only [BitVec.getLsbD, Nat.succ_eq_add_one]
      ring
    · rw [hs]
      have : (x.getLsbD n).toNat ≤ 1 := Bool.toNat_le _
      have h3 : (2 * v.toNat + (x.getLsbD n).toNat) * 2 ^ n ≤ (2 * v.toNat + 1) * 2 ^ n := Nat.mul_le_mul_right _ (by omega)
      have h4 : (2 * v.toNat + 1) * 2 ^ n + 2 ^ n = v.toNat * 2 ^ (n + 1) + 2 ^ (n + 1) := by ring
      omega

/-- InField of n ≤ 32 bits from 0. -/
theorem shiftAll_zero {w : Nat} {n : Nat} (hn : n ≤ 32) (x : BitVec w) :
    (shiftAll 0 (fieldBits n x)).toNat = x.toNat % 2 ^ n := by
  have h2 : 2 ^ n ≤ 2 ^ 32 := Nat.pow_le_pow_right (by decide) hn
  rw [shiftAll_fieldBits _ _ _ (by simpa using h2)]
  simp

/-- READ_TAG shifts in the next bits. -/
theorem run_recvTag (bits : List Bool) {rest : List Bool} {n : Nat} {v : Word} {s : State} (hb : s.phase ≠ .idle)
    (hp : s.point = .recvTag (bits.length + n) v) (hr : bitsToCome s = bits ++ rest) :
    runMoves bits.length s =
      .ok { s with events := s.events + bits.length, bitSrc := s.bitSrc.skip bits.length,
                   point := .recvTag n (shiftAll v bits) } := by
  induction bits generalizing s v with
  | nil =>
    rw [List.length_nil, Nat.zero_add] at hp
    simp [shiftAll, ← hp]
  | cons b bits ih =>
    rw [List.length_cons, show bits.length + 1 + n = (bits.length + n) + 1 by omega] at hp
    refine runMoves_step (t := { s with bitSrc := s.bitSrc.skip 1, events := s.events + 1, point := .recvTag (bits.length + n) (shiftIn v b) })
      hb ?_ ((ih ?_ rfl ?_).trans ?_)
    · rw [blockMove_recvTag hp]
      simp [recvTagMove, inBit_cons hr]
    · exact hb
    · exact bitsToCome_skip (a := [b]) hr rfl
    simp [shiftAll, BitSource.skip_skip, Nat.add_comm, Nat.add_left_comm]

/-- DesNode shifts in the next bits of a leaf's symbol. -/
theorem run_desSym (bits : List Bool) {rest : List Bool} {i : Idx} {n : Nat} {v : Word} {s : State}
    (hb : s.phase ≠ .idle) (hp : s.point = .desSym i (bits.length + n) v) (hr : bitsToCome s = bits ++ rest) :
    runMoves bits.length s =
      .ok { s with events := s.events + bits.length, bitSrc := s.bitSrc.skip bits.length,
                   point := .desSym i n (shiftAll v bits) } := by
  induction bits generalizing s v with
  | nil =>
    rw [List.length_nil, Nat.zero_add] at hp
    simp [shiftAll, ← hp]
  | cons b bits ih =>
    rw [List.length_cons, show bits.length + 1 + n = (bits.length + n) + 1 by omega] at hp
    refine runMoves_step (t := { s with bitSrc := s.bitSrc.skip 1, events := s.events + 1, point := .desSym i (bits.length + n) (shiftIn v b) })
      hb ?_ ((ih ?_ rfl ?_).trans ?_)
    · rw [blockMove_desSym hp]
      simp [desSymMove, inBit_cons hr]
    · exact hb
    · exact bitsToCome_skip (a := [b]) hr rfl
    simp [shiftAll, BitSource.skip_skip, Nat.add_comm, Nat.add_left_comm]

/-- ReadCounts shifts in the next bits of a count field. -/
theorem run_readCountBits (bits : List Bool) {rest : List Bool} {k n : Nat} {v : Word} {s : State}
    (hb : s.phase ≠ .idle) (hp : s.point = .readCounts k (bits.length + n) v) (hr : bitsToCome s = bits ++ rest) :
    runMoves bits.length s =
      .ok { s with events := s.events + bits.length, bitSrc := s.bitSrc.skip bits.length,
                   point := .readCounts k n (shiftAll v bits) } := by
  induction bits generalizing s v with
  | nil =>
    rw [List.length_nil, Nat.zero_add] at hp
    simp [shiftAll, ← hp]
  | cons b bits ih =>
    rw [List.length_cons, show bits.length + 1 + n = (bits.length + n) + 1 by omega] at hp
    refine runMoves_step (t := { s with bitSrc := s.bitSrc.skip 1, events := s.events + 1, point := .readCounts k (bits.length + n) (shiftIn v b) })
      hb ?_ ((ih ?_ rfl ?_).trans ?_)
    · rw [blockMove_readCounts hp]
      simp [readCountsMove, inBit_cons hr]
    · exact hb
    · exact bitsToCome_skip (a := [b]) hr rfl
    simp [shiftAll, BitSource.skip_skip, Nat.add_comm, Nat.add_left_comm]

end Sys2Proof.Machine
end

