-- ==== Sys2Proof/Laws/Headers.lean ====
section
/-! SUPPORT. What a run of moves does when READ_HEADER reads a header: DesNode over the header of a tree, ReadCounts
over a counts header. -/

namespace Sys2Proof.Machine

/-! ## The arena DesNode leaves -/

/-- The arena after DesNode has read the tree at pre-order index `n` (45_tree_deserializer.md R203, R207, R208). -/
def writeTree : HTree → Nat → Cells Node → Cells Node
  | .leaf c, n, t => Cells.put t n (.leaf c 0)
  | .node l r, n, t =>
    Cells.put (writeTree r (n + 1 + l.size) (writeTree l (n + 1) t)) n
      (.internal 0 (BitVec.ofNat 10 (n + 1)) (BitVec.ofNat 10 (n + 1 + l.size)))

theorem idx_toNat {n : Nat} (h : n < 1024) : (BitVec.ofNat 10 n).toNat = n := by
  rw [BitVec.toNat_ofNat]
  exact Nat.mod_eq_of_lt h

/-- DesNode writes only the entries of its tree. -/
theorem get_writeTree_ne (T : HTree) {n k : Nat} (t : Cells Node) (h : k < n ∨ n + T.size ≤ k) :
    Cells.get (writeTree T n t) k = Cells.get t k := by
  induction T generalizing n t with
  | leaf c =>
    simp only [HTree.size] at h
    exact Cells.get_put_ne _ _ (by omega)
  | node l r ihl ihr =>
    simp only [HTree.size] at h
    have hl := l.size_pos
    have hr := r.size_pos
    rw [writeTree, Cells.get_put_ne _ _ (by omega), ihr _ (by omega), ihl _ (by omega)]

/-- The root DesNode writes has weight 0 (R207). -/
theorem nodeAt_writeTree (T : HTree) {n : Nat} (t : Cells Node) (h : n < 1024) :
    ∃ nd, nodeAt (writeTree T n t) (BitVec.ofNat 10 n) = some nd ∧ nd.wt = 0 := by
  cases T with
  | leaf c => exact ⟨.leaf c 0, by simp [nodeAt, idx_toNat h, writeTree], rfl⟩
  | node l r => exact ⟨_, by rw [nodeAt, idx_toNat h, writeTree, Cells.get_put_same], rfl⟩

/-- DesNode writes the tree, in pre-order from `n` on. -/
theorem holds_writeTree (T : HTree) {n : Nat} (t : Cells Node) (h : n + T.size ≤ maxNodes) :
    Holds (writeTree T n t) T (BitVec.ofNat 10 n) (indicesFrom n T.size) := by
  induction T generalizing n t with
  | leaf c =>
    simp only [HTree.size, maxNodes] at h
    have := Holds.leaf_put t (BitVec.ofNat 10 n) c 0
    rw [idx_toNat (by omega)] at this
    simpa [writeTree, HTree.size, indicesFrom_succ, indicesFrom_zero] using this
  | node l r ihl ihr =>
    simp only [HTree.size, maxNodes] at h
    have hL := (ihl t (n := n + 1) (by simp [maxNodes]; omega)).congr
      (u := writeTree r (n + 1 + l.size) (writeTree l (n + 1) t)) (fun j hj => by
        rw [mem_indicesFrom (by omega)] at hj
        exact get_writeTree_ne r _ (by omega))
    have hR := ihr (writeTree l (n + 1) t) (n := n + 1 + l.size) (by simp [maxNodes]; omega)
    have hn : (BitVec.ofNat 10 n).toNat = n := idx_toNat (by omega)
    have := Holds.node_put (i := BitVec.ofNat 10 n) 0 hL hR
      (by rw [mem_indicesFrom (by omega), hn]; omega) (by rw [mem_indicesFrom (by omega), hn]; omega)
    rw [hn] at this
    rw [writeTree, HTree.size, show 1 + l.size + r.size = (l.size + r.size) + 1 by omega, indicesFrom_succ,
      indicesFrom_add]
    exact this

/-- SEEN after the symbols of a list have been seen (45_tree_deserializer.md R203). -/
def markSeen (v : BitVec 257) : List Sym → BitVec 257
  | [] => v
  | c :: rest => markSeen (v ||| (1#257 <<< c.toNat)) rest

theorem markSeen_append (v : BitVec 257) (a b : List Sym) : markSeen v (a ++ b) = markSeen (markSeen v a) b := by
  induction a generalizing v with
  | nil => rfl
  | cons c a ih => exact ih _

theorem getLsbD_mark (v : BitVec 257) (i k : Nat) (h : k ≤ 256) :
    (v ||| (1#257 <<< i)).getLsbD k = (v.getLsbD k || decide (k = i)) := by
  simp only [BitVec.getLsbD_or, BitVec.getLsbD_shiftLeft, BitVec.getLsbD_one]
  have : k < 257 := by omega
  by_cases hk : k = i
  · subst hk
    simp [this]
  · by_cases h2 : k < i
    · simp [hk, h2]
    · simp [hk, this, show k - i ≠ 0 by omega]

theorem getLsbD_markSeen (v : BitVec 257) (cs : List Sym) (c : Sym) (h : c.toNat ≤ 256) :
    (markSeen v cs).getLsbD c.toNat = (v.getLsbD c.toNat || decide (c ∈ cs)) := by
  induction cs generalizing v with
  | nil => simp [markSeen]
  | cons d cs ih =>
    rw [markSeen, ih, getLsbD_mark _ _ _ h]
    have : (c.toNat = d.toNat) ↔ c = d := ⟨BitVec.eq_of_toNat_eq, fun h => h ▸ rfl⟩
    simp [this, Bool.or_assoc]

/-! ## DesNode -/

/-- Returning an index does not depend on the point and the stack the callee left. -/
theorem closeNode_congr (st : List Idx) (c : Idx) (s : State) (x : Point) (y : List Idx) :
    closeNode st c { s with point := x, stk := y } = closeNode st c s := by
  induction st generalizing c s with
  | nil => rfl
  | cons i rest ih =>
    by_cases hc : c = i + 1
    · simp only [closeNode, hc, if_true]
    · cases hl : nodeAt s.node (i + 1) with
      | none => simp only [closeNode, hc, hl, if_false]
      | some nl =>
        cases hr : nodeAt s.node c with
        | none => simp only [closeNode, hc, hl, hr, if_false]
        | some nr =>
          by_cases hi : i.toNat < maxNodes
          · simp only [closeNode, hc, hl, hr, if_false, putNode_of_lt _ _ hi]
            exact ih i { s with node := Cells.put s.node i.toNat (.internal (addWt s.cfg nl.wt nr.wt) (i + 1) c) }
          · simp only [closeNode, hc, hl, hr, putNode, hi, if_false]

/-- What READ_HEADER has changed when DesNode has read the tree whose header came next. -/
def afterTree (T : HTree) (s : State) : State :=
  { s with
    nnodes := BitVec.ofNat 10 (s.nnodes.toNat + T.size)
    seen := markSeen s.seen T.leaves
    nint := s.nint + BitVec.ofNat 9 (T.leaves.length - 1)
    nleaf := s.nleaf + BitVec.ofNat 9 T.leaves.length
    node := writeTree T s.nnodes.toNat s.node
    bitSrc := s.bitSrc.skip T.header.length
    events := s.events + T.header.length }

theorem closeNode_eq {st : List Idx} {c : Idx} {s t : State}
    (h : { s with point := .fin, stk := [] } = { t with point := .fin, stk := [] }) :
    closeNode st c s = closeNode st c t := by
  rw [← closeNode_congr st c s .fin [], ← closeNode_congr st c t .fin [], h]

/-- DesNode reads the header of a tree of symbols not seen before, one bit a move and one move for each leaf, and
returns the tree's index to its callers. -/
theorem run_desNode (T : HTree) {rest : List Bool} {s : State} (hb : s.phase ≠ .idle) (hp : s.point = .desNode)
    (hz : s.nnodes.toNat + T.size ≤ maxNodes) (hr : bitsToCome s = T.header ++ rest)
    (hs : ∀ c ∈ T.leaves, c.toNat ≤ 256) (hn : T.leaves.Nodup) (hf : ∀ c ∈ T.leaves, s.seen.getLsbD c.toNat = false)
    (hi : s.nint.toNat + T.leaves.length ≤ 257) :
    runMoves (T.header.length + T.leaves.length) s = closeNode s.stk s.nnodes (afterTree T s) := by
  induction T generalizing s rest with
  | leaf c =>
    have h1 := runMoves_succ (s := s) (n := 10)
      (t := { s with bitSrc := s.bitSrc.skip 1, nnodes := s.nnodes + 1, events := s.events + 1, point := .desSym s.nnodes 9 0 })
      hb (by rw [blockMove_desNode hp]; simp [desNodeMove, inBit_cons hr])
    have h2 := run_desSym (symBits c) (rest := rest) (n := 0) (v := 0) (i := s.nnodes)
      (s := { s with bitSrc := s.bitSrc.skip 1, nnodes := s.nnodes + 1, events := s.events + 1, point := .desSym s.nnodes 9 0 })
      hb (by simp) (bitsToCome_skip (a := [true]) (by simpa [HTree.header] using hr) rfl)
    rw [symBits_length] at h2
    have hc := hs c (by simp [HTree.leaves])
    have hv : (shiftAll 0 (symBits c)).toNat = c.toNat := by
      rw [symBits, shiftAll_zero (by decide)]
      exact Nat.mod_eq_of_lt c.isLt
    have hcl : (shiftAll 0 (symBits c)).setWidth 9 = c := by
      apply BitVec.eq_of_toNat_eq
      rw [BitVec.toNat_setWidth, hv]
      exact Nat.mod_eq_of_lt c.isLt
    have hseen := hf c (by simp [HTree.leaves])
    simp only [HTree.size] at hz
    have h3 := runMoves_then h2 (runMoves_one hb)
    rw [blockMove_desSym rfl] at h3
    rw [HTree.header, HTree.leaves, List.length_cons, symBits_length, List.length_singleton, h1, h3]
    simp only [desSymMove, closeLeaf, hv, hcl, hseen]
    rw [if_neg (by omega), if_neg (by simp), putNode_of_lt _ _ (by omega)]
    simp only []
    refine closeNode_eq ?_
    simp [afterTree, markSeen, HTree.leaves, HTree.header, writeTree, HTree.size, BitSource.skip_skip]
    apply BitVec.eq_of_toNat_eq
    rw [BitVec.toNat_add, BitVec.toNat_ofNat]
    rfl
  | node l r ihl ihr =>
    have hlp := l.leaves_pos
    have hrp := r.leaves_pos
    have hls := l.size_pos
    have hrs := r.size_pos
    simp only [HTree.size, maxNodes] at hz
    simp only [HTree.leaves, List.length_append] at hi
    have h1 : (s.nnodes + 1).toNat = s.nnodes.toNat + 1 := by
      rw [BitVec.toNat_add]
      have : (1 : Idx).toNat = 1 := rfl
      omega
    have h1i : (s.nint + 1).toNat = s.nint.toNat + 1 := by
      rw [BitVec.toNat_add]
      have : (1 : BitVec 9).toNat = 1 := rfl
      omega
    have hni : s.nint ≠ 256#9 := by
      intro h
      rw [h] at hi
      have : (256#9).toNat = 256 := rfl
      omega
    rw [HTree.header, List.cons_append, List.append_assoc] at hr
    simp only [HTree.leaves, List.mem_append] at hs hf
    simp only [HTree.leaves, List.nodup_append] at hn
    -- the discriminator
    have hA := runMoves_succ (s := s) (n := (l.header.length + l.leaves.length) + (r.header.length + r.leaves.length))
      (t := { s with bitSrc := s.bitSrc.skip 1, nnodes := s.nnodes + 1, nint := s.nint + 1, events := s.events + 1,
                     stk := s.nnodes :: s.stk, point := .desNode })
      hb (by rw [blockMove_desNode hp]; simp [desNodeMove, inBit_cons hr, hni])
    obtain ⟨u, hu⟩ : ∃ u : State, u = { s with
      bitSrc := s.bitSrc.skip 1
      nnodes := s.nnodes + 1
      nint := s.nint + 1
      events := s.events + 1
      stk := s.nnodes :: s.stk
      point := .desNode } := ⟨_, rfl⟩
    rw [← hu] at hA
    -- the left subtree
    have hB := ihl (s := u) (rest := r.header ++ rest) (by subst hu; exact hb) (by subst hu; rfl)
      (by subst hu; simp only [h1, maxNodes]; omega) (by subst hu; exact bitsToCome_skip (a := [false]) hr rfl)
      (fun c hc => hs c (.inl hc)) hn.1 (by subst hu; exact fun c hc => hf c (.inl hc))
      (by subst hu; simp only [h1i]; omega)
    have hstk : u.stk = s.nnodes :: s.stk := by subst hu; rfl
    have hnn : u.nnodes = s.nnodes + 1 := by subst hu; rfl
    rw [hstk, hnn, closeNode, if_pos rfl] at hB
    obtain ⟨v, hv⟩ : ∃ v : State, v = { afterTree l u with stk := s.nnodes :: s.stk, point := .desNode } := ⟨_, rfl⟩
    rw [← hv] at hB
    have hvn : v.nnodes.toNat = s.nnodes.toNat + 1 + l.size := by
      subst hv
      simp only [afterTree, hnn, h1]
      exact idx_toNat (by omega)
    have hvi : v.nint.toNat = s.nint.toNat + l.leaves.length := by
      subst hv hu
      simp only [afterTree, BitVec.toNat_add, BitVec.toNat_ofNat]
      have : (1 : BitVec 9).toNat = 1 := rfl
      omega
    -- the right subtree
    have hC := ihr (s := v) (rest := rest) (by subst hv hu; exact hb) (by subst hv; rfl)
      (by rw [hvn]; simp only [maxNodes]; omega)
      (by
        subst hv
        refine bitsToCome_skip (s := u) (a := l.header) ?_ rfl
        subst hu
        exact bitsToCome_skip (a := [false]) hr rfl)
      (fun c hc => hs c (.inr hc)) hn.2.1
      (by
        subst hv hu
        intro c hc
        simp only [afterTree]
        rw [getLsbD_markSeen _ _ _ (hs c (.inr hc)), hf c (.inr hc)]
        have : c ∉ l.leaves := fun h => hn.2.2 c h c hc rfl
        simp [this])
      (by rw [hvi]; omega)
    have hstk2 : v.stk = s.nnodes :: s.stk := by subst hv; rfl
    have hvne : v.nnodes ≠ s.nnodes + 1 := by
      intro h
      have := congrArg BitVec.toNat h
      omega
    have hvc : v.nnodes = BitVec.ofNat 10 (s.nnodes.toNat + 1 + l.size) := by
      apply BitVec.eq_of_toNat_eq
      rw [hvn, idx_toNat (by omega)]
    have hsc : s.nnodes + 1 = BitVec.ofNat 10 (s.nnodes.toNat + 1) := by
      apply BitVec.eq_of_toNat_eq
      rw [h1, idx_toNat (by omega)]
    have hnode : (afterTree r v).node =
        writeTree r (s.nnodes.toNat + 1 + l.size) (writeTree l (s.nnodes.toNat + 1) s.node) := by
      simp only [afterTree, hvn]
      subst hv
      simp only [afterTree, hnn, h1]
      subst hu
      rfl
    obtain ⟨nr, hnr, hwr⟩ := nodeAt_writeTree r (n := s.nnodes.toNat + 1 + l.size)
      (writeTree l (s.nnodes.toNat + 1) s.node) (by omega)
    obtain ⟨nl, hnl, hwl⟩ := nodeAt_writeTree l (n := s.nnodes.toNat + 1) s.node (by omega)
    have hnl' : nodeAt (afterTree r v).node (s.nnodes + 1) = some nl := by
      rw [hnode, nodeAt, h1, get_writeTree_ne r _ (by omega), ← hnl, nodeAt, idx_toNat (by omega)]
    have hnr' : nodeAt (afterTree r v).node v.nnodes = some nr := by
      rw [hnode, hvc, hnr]
    have hlt : s.nnodes.toNat < maxNodes := by simp only [maxNodes]; omega
    have hwt : addWt (afterTree r v).cfg nl.wt nr.wt = 0 := by simp [addWt, hwl, hwr]
    rw [hstk2, closeNode, if_neg hvne, hnl', hnr'] at hC
    simp only [putNode_of_lt _ _ hlt, hwt] at hC
    rw [HTree.header, HTree.leaves, List.length_cons, List.length_append, List.length_append,
      show l.header.length + r.header.length + 1 + (l.leaves.length + r.leaves.length) =
        (l.header.length + l.leaves.length) + (r.header.length + r.leaves.length) + 1 by omega, hA,
      runMoves_then hB hC]
    refine closeNode_eq ?_
    rw [hnode, hvc, hsc]
    subst hv hu
    simp only [afterTree, h1, HTree.size, HTree.leaves, HTree.header, List.length_cons, List.length_append,
      markSeen_append, writeTree, BitSource.skip_skip, State.mk.injEq, true_and, and_true]
    refine ⟨?_, ?_, ?_, ?_, ?_⟩
    · rw [idx_toNat (by omega)]
      congr 1
      omega
    · rw [BitVec.add_assoc, BitVec.add_assoc]
      congr 1
      apply BitVec.eq_of_toNat_eq
      have : (1 : BitVec 9).toNat = 1 := rfl
      simp only [BitVec.toNat_add, BitVec.toNat_ofNat]
      omega
    · rw [BitVec.add_assoc]
      congr 1
      apply BitVec.eq_of_toNat_eq
      simp only [BitVec.toNat_add, BitVec.toNat_ofNat]
      omega
    · congr 1
      omega
    · omega

/-! ## ReadCounts -/

/-- FREQ after ReadCounts has read the fields of `F` at the entries of a list (45_tree_deserializer.md R205). -/
def readInto (F t : Cells Word) : List Nat → Cells Word
  | [] => t
  | k :: rest => readInto F (freqPut t (freqIndex k) (freqAt F (freqIndex k))) rest

theorem freqIndex_eq {j k : Nat} (hj : j < 256) (hk : k < 256) : freqIndex j = freqIndex k ↔ j = k := by
  constructor
  · intro h
    have := congrArg BitVec.toNat h
    simp only [freqIndex, BitVec.toNat_ofNat] at this
    omega
  · rintro rfl; rfl

theorem freqIndex_toNat (b : Byte) : freqIndex b.toNat = b := by
  apply BitVec.eq_of_toNat_eq
  simp only [freqIndex, BitVec.toNat_ofNat]
  exact Nat.mod_eq_of_lt b.isLt

theorem freqAt_readInto (F : Cells Word) (ks : List Nat) (hk : ∀ k ∈ ks, k < 256) (t : Cells Word) (b : Byte) :
    freqAt (readInto F t ks) b = if b.toNat ∈ ks then freqAt F b else freqAt t b := by
  induction ks generalizing t with
  | nil => simp [readInto]
  | cons k ks ih =>
    rw [readInto, ih (fun j hj => hk j (by simp [hj]))]
    by_cases h : b.toNat ∈ ks
    · simp [h]
    · by_cases hb : b.toNat = k
      · subst hb
        simp [h, freqIndex_toNat]
      · rw [freqAt_put_ne _ _ (by
          intro e
          rw [← freqIndex_toNat b] at e
          exact hb ((freqIndex_eq b.isLt (hk k (by simp))).1 e))]
        simp [h, hb]

/-- ReadCounts reads one field, one bit a move and one move more. -/
theorem run_readCount {n : Nat} {v : Word} {rest : List Bool} {s : State} (hb : s.phase ≠ .idle)
    (hp : s.point = .readCounts n s.cfg.wCnt 0) (hr : bitsToCome s = countBits s.cfg v ++ rest)
    (hv : v.toNat < 2 ^ s.cfg.wCnt) :
    runMoves (s.cfg.wCnt + 1) s =
      .ok { s with events := s.events + s.cfg.wCnt, bitSrc := s.bitSrc.skip s.cfg.wCnt,
                   freq := freqPut s.freq (freqIndex n) v,
                   point := if n + 1 < alphaSize then .readCounts (n + 1) s.cfg.wCnt 0 else .buildLeaves } := by
  have h1 := run_readCountBits (countBits s.cfg v) (k := n) (n := 0) (v := 0) hb (by rw [countBits_length]; exact hp) hr
  rw [countBits_length] at h1
  have h2 : shiftAll 0 (countBits s.cfg v) = v := by
    apply BitVec.eq_of_toNat_eq
    rw [countBits, shiftAll_zero s.cfg.wCnt_le]
    exact Nat.mod_eq_of_lt hv
  rw [h2] at h1
  rw [runMoves_then h1 (runMoves_one hb), blockMove_readCounts rfl]
  simp only [readCountsMove]
  split <;> simp [Nat.add_assoc]

/-- ReadCounts reads the fields of the entries from `n` on, and goes to BuildTree. -/
theorem run_readCounts (k : Nat) {n : Nat} {F : Cells Word} {rest : List Bool} {s : State} (hk : n + (k + 1) = alphaSize)
    (hb : s.phase ≠ .idle) (hp : s.point = .readCounts n s.cfg.wCnt 0)
    (hr : bitsToCome s = (List.range' n (k + 1)).flatMap (fun m => countBits s.cfg (freqAt F (freqIndex m))) ++ rest)
    (hF : ∀ b, (freqAt F b).toNat < 2 ^ s.cfg.wCnt) :
    runMoves ((k + 1) * (s.cfg.wCnt + 1)) s =
      .ok { s with events := s.events + (k + 1) * s.cfg.wCnt,
                   bitSrc := s.bitSrc.skip ((k + 1) * s.cfg.wCnt),
                   freq := readInto F s.freq (List.range' n (k + 1)), point := .buildLeaves } := by
  induction k generalizing n s with
  | zero =>
    have hn : ¬ n + 1 < alphaSize := by omega
    have h := run_readCount hb hp (by simpa using hr) (hF (freqIndex n))
    rw [if_neg hn] at h
    simpa [readInto] using h
  | succ k ih =>
    have hn : n + 1 < alphaSize := by omega
    rw [List.range'_succ, List.flatMap_cons, List.append_assoc] at hr
    have h := run_readCount hb hp hr (hF (freqIndex n))
    rw [if_pos hn] at h
    rw [show (k + 1 + 1) * (s.cfg.wCnt + 1) = (s.cfg.wCnt + 1) + (k + 1) * (s.cfg.wCnt + 1) by ring]
    refine runMoves_then h ((ih (n := n + 1) (by omega) ?_ rfl ?_ ?_).trans ?_)
    · exact hb
    · exact bitsToCome_skip hr (by simp)
    · exact hF
    rw [List.range'_succ (s := n)]
    simp [readInto, BitSource.skip_skip, Nat.add_assoc]
    ring_nf
    exact ⟨trivial, trivial⟩

end Sys2Proof.Machine
end

