-- ==== Sys2Proof/Laws/Build.lean ====
section
/-! SUPPORT. What BuildTree does: the leaves it makes, ExtractMin, one merge, and the whole loop. -/

namespace Sys2Proof.Machine

/-! ## The leaves -/

/-- The arena after leaves have been written from index `n` on. -/
def putLeaves : List (Sym × Nat) → Nat → Cells Node → Cells Node
  | [], _, t => t
  | (c, w) :: rest, n, t => putLeaves rest (n + 1) (Cells.put t n (.leaf c w))

theorem putLeaves_append (a b : List (Sym × Nat)) (n : Nat) (t : Cells Node) :
    putLeaves (a ++ b) n t = putLeaves b (n + a.length) (putLeaves a n t) := by
  induction a generalizing n t with
  | nil => rfl
  | cons e a ih =>
    rw [List.cons_append, putLeaves, ih, putLeaves, List.length_cons]
    congr 1
    omega

theorem get_putLeaves_lt (ls : List (Sym × Nat)) {n k : Nat} (t : Cells Node) (h : k < n) :
    Cells.get (putLeaves ls n t) k = Cells.get t k := by
  induction ls generalizing n t with
  | nil => rfl
  | cons e ls ih => rw [putLeaves, ih _ (by omega), Cells.get_put_ne _ _ (by omega)]

theorem get_putLeaves_ge (ls : List (Sym × Nat)) {n k : Nat} (t : Cells Node) (h : n + ls.length ≤ k) :
    Cells.get (putLeaves ls n t) k = Cells.get t k := by
  induction ls generalizing n t with
  | nil => rfl
  | cons e ls ih =>
    rw [List.length_cons] at h
    rw [putLeaves, ih _ (by omega), Cells.get_put_ne _ _ (by omega)]

theorem get_putLeaves (ls : List (Sym × Nat)) {n k : Nat} (t : Cells Node) {c : Sym} {w : Nat}
    (h : ls[k]? = some (c, w)) : Cells.get (putLeaves ls n t) (n + k) = some (.leaf c w) := by
  induction ls generalizing n k t with
  | nil => simp at h
  | cons e ls ih =>
    cases k with
    | zero =>
      simp only [List.getElem?_cons_zero, Option.some.injEq] at h
      subst h
      rw [putLeaves, get_putLeaves_lt _ _ (by omega)]
      simp
    | succ k =>
      rw [putLeaves, show n + (k + 1) = (n + 1) + k by omega]
      exact ih _ (by simpa using h)

theorem idx_add (n m : Nat) : BitVec.ofNat 10 n + BitVec.ofNat 10 m = BitVec.ofNat 10 (n + m) := by
  apply BitVec.eq_of_toNat_eq
  simp

theorem idx_succ (n : Nat) : BitVec.ofNat 10 n + 1 = BitVec.ofNat 10 (n + 1) := idx_add n 1

/-- addByteLeaves writes a leaf for each byte of the list with a positive count. -/
theorem addByteLeaves_eq (bs : List Nat) {n : Nat} (s : State)
    (h : n + (bs.filter (fun b => freqAt s.freq (freqIndex b) != 0)).length ≤ maxNodes) :
    addByteLeaves bs (BitVec.ofNat 10 n) s =
      .ok (BitVec.ofNat 10 (n + (bs.filter (fun b => freqAt s.freq (freqIndex b) != 0)).length),
        { s with node := putLeaves ((bs.filter (fun b => freqAt s.freq (freqIndex b) != 0)).map
          (fun b => (byteSym (freqIndex b), (freqAt s.freq (freqIndex b)).toNat))) n s.node }) := by
  induction bs generalizing n s with
  | nil => simp [addByteLeaves, putLeaves]
  | cons b bs ih =>
    by_cases hb : freqAt s.freq (freqIndex b) = 0
    · have hf : (freqAt s.freq (freqIndex b) != 0) = false := by rw [hb]; rfl
      rw [List.filter_cons, hf] at h ⊢
      rw [addByteLeaves, if_pos hb]
      exact ih s h
    · have hf : (freqAt s.freq (freqIndex b) != 0) = true := by simpa using hb
      rw [List.filter_cons, if_pos hf, List.length_cons] at h
      simp only [maxNodes] at h
      have hn : (BitVec.ofNat 10 n).toNat = n := idx_toNat (by omega)
      rw [addByteLeaves, if_neg hb, putNode_of_lt _ _ (by rw [hn]; simp only [maxNodes]; omega), hn]
      simp only [idx_succ]
      rw [ih _ (by simp only [maxNodes]; omega), List.filter_cons, if_pos hf]
      simp only [List.map_cons, putLeaves, List.length_cons]
      simp only [Nat.add_assoc, Nat.add_comm 1]

theorem nonzeroCount_le (t : Cells Word) : nonzeroCount t ≤ 256 := by
  have := List.length_filter_le (fun n => freqAt t (freqIndex n) != 0) (List.range alphaSize)
  simpa [nonzeroCount, alphaSize] using this

theorem leafList_length (t : Cells Word) : (leafList t).length = leafCount t := by
  have h : ((List.range alphaSize).filter (fun n => freqAt t (freqIndex n) != 0)).length = nonzeroCount t := rfl
  simp only [leafList, leafCount, List.length_append, List.length_map, List.length_cons, h]
  split <;> simp_all

theorem leafCount_bounds (t : Cells Word) : 2 ≤ leafCount t ∧ leafCount t ≤ 257 := by
  have := nonzeroCount_le t
  unfold leafCount
  split <;> omega

/-- BuildTree makes its leaves at the indices 0 .. L−1 and puts all of them into PQ. -/
theorem buildLeavesMove_eq (s : State) :
    buildLeavesMove s =
      .ok { s with node := putLeaves (leafList s.freq) 0 s.node, pq := indicesBelow (leafCount s.freq),
                   point := .buildMerge (BitVec.ofNat 10 (leafCount s.freq)) } := by
  have hle := nonzeroCount_le s.freq
  have h := addByteLeaves_eq (n := 0) (List.range alphaSize) s (by
    change 0 + nonzeroCount s.freq ≤ 513; omega)
  have hk : ((List.range alphaSize).filter (fun b => freqAt s.freq (freqIndex b) != 0)).length = nonzeroCount s.freq := rfl
  rw [hk, Nat.zero_add] at h
  have hn : (BitVec.ofNat 10 (nonzeroCount s.freq)).toNat = nonzeroCount s.freq := idx_toNat (by omega)
  rw [buildLeavesMove, show (0 : Idx) = BitVec.ofNat 10 0 from rfl, h]
  simp only [addEosLeaf]
  rw [putNode_of_lt _ _ (by rw [hn]; simp only [maxNodes]; omega), hn]
  simp only [idx_succ]
  by_cases hz : nonzeroCount s.freq = 0
  · have hnil : (List.range alphaSize).filter (fun b => freqAt s.freq (freqIndex b) != 0) = [] :=
      List.eq_nil_of_length_eq_zero hz
    simp only [leafList, hnil, leafCount, hz]
    simp [putNode, maxNodes, putLeaves]
  · have h1 : ¬ BitVec.ofNat 10 (nonzeroCount s.freq + 1) = 1 := by
      intro e
      have := congrArg BitVec.toNat e
      rw [idx_toNat (by omega)] at this
      have h2 : (1 : Idx).toNat = 1 := rfl
      omega
    rw [if_neg h1]
    have h2 : (BitVec.ofNat 10 (nonzeroCount s.freq + 1)).toNat = nonzeroCount s.freq + 1 := idx_toNat (by omega)
    simp only [h2, leafList, leafCount, hz, if_false, putLeaves_append, putLeaves, List.length_map, hk, Nat.zero_add]

/-- The leaves BuildTree makes are unique symbols up to 256. -/
theorem leafList_nodup (t : Cells Word) : ((leafList t).map Prod.fst).Nodup := by
  have hinj : ∀ a ∈ List.range alphaSize, ∀ b ∈ List.range alphaSize,
      byteSym (freqIndex a) = byteSym (freqIndex b) → a = b := by
    intro a ha b hb h
    simp only [alphaSize, List.mem_range] at ha hb
    have := congrArg BitVec.toNat h
    simp only [byteSym, freqIndex, BitVec.toNat_setWidth, BitVec.toNat_ofNat] at this
    omega
  have hf : (((List.range alphaSize).filter (fun n => freqAt t (freqIndex n) != 0)).map
      (fun n => byteSym (freqIndex n))).Nodup :=
    (List.nodup_range.filter _).map_on fun a ha b hb => hinj a (List.mem_filter.1 ha).1 b (List.mem_filter.1 hb).1
  simp only [leafList, List.map_append, List.map_map, Function.comp_def, List.map_cons]
  have he : ∀ b : Byte, byteSym b ≠ eosSym := by
    intro b h
    have := congrArg BitVec.toNat h
    simp only [byteSym, eosSym, BitVec.toNat_setWidth, BitVec.toNat_ofNat] at this
    have := b.isLt
    omega
  by_cases hz : nonzeroCount t = 0
  · have hnil : (List.range alphaSize).filter (fun b => freqAt t (freqIndex b) != 0) = [] :=
      List.eq_nil_of_length_eq_zero hz
    rw [hnil, if_pos hz]
    decide
  · rw [if_neg hz]
    refine List.nodup_append.2 ⟨hf, by simp, ?_⟩
    intro a ha b hb
    obtain ⟨n, -, rfl⟩ := List.mem_map.1 ha
    simp only [List.map_nil, List.mem_singleton] at hb
    subst hb
    exact he _

theorem mem_leafList {t : Cells Word} {c : Sym} :
    c ∈ (leafList t).map Prod.fst ↔
      c = eosSym ∨ (∃ b : Byte, freqAt t b ≠ 0 ∧ c = byteSym b) ∨ (nonzeroCount t = 0 ∧ c = 0) := by
  simp only [leafList, List.map_append, List.map_map, Function.comp_def, List.map_cons, List.mem_append, List.mem_map,
    List.mem_filter, List.mem_range, bne_iff_ne, List.mem_cons]
  constructor
  · rintro (⟨n, ⟨-, hn⟩, rfl⟩ | rfl | h)
    · exact .inr (.inl ⟨_, hn, rfl⟩)
    · exact .inl rfl
    · split at h
      · simp only [List.mem_singleton] at h
        obtain ⟨a, rfl, rfl⟩ := h
        exact .inr (.inr ⟨‹_›, rfl⟩)
      · simp at h
  · rintro (rfl | ⟨b, hb, rfl⟩ | ⟨hz, rfl⟩)
    · exact .inr (.inl rfl)
    · exact .inl ⟨b.toNat, ⟨b.isLt, by rwa [freqIndex_toNat]⟩, by rw [freqIndex_toNat]⟩
    · exact .inr (.inr ⟨(0, 0), by simp [hz], rfl⟩)

theorem leafList_symbols {t : Cells Word} {c : Sym} (h : c ∈ (leafList t).map Prod.fst) : c.toNat ≤ 256 := by
  rcases mem_leafList.1 h with rfl | ⟨b, -, rfl⟩ | ⟨-, rfl⟩
  · decide
  · have := b.isLt
    simp only [byteSym, BitVec.toNat_setWidth]
    omega
  · decide

theorem indicesBelow_eq (n : Nat) : indicesBelow n = indicesFrom 0 n := by
  simp [indicesBelow, indicesFrom]

/-- The forest of leaves. -/
def leafForest (ls : List (Sym × Nat)) (n : Nat) : List (Idx × HTree × List Idx) :=
  (ls.mapIdx (fun k e => (BitVec.ofNat 10 (n + k), HTree.leaf e.1, [BitVec.ofNat 10 (n + k)])))

theorem leafForest_cons (e : Sym × Nat) (ls : List (Sym × Nat)) (n : Nat) :
    leafForest (e :: ls) n = (BitVec.ofNat 10 n, HTree.leaf e.1, [BitVec.ofNat 10 n]) :: leafForest ls (n + 1) := by
  simp [leafForest, List.mapIdx_cons, Nat.add_comm, Nat.add_left_comm]

theorem leafForest_roots (ls : List (Sym × Nat)) (n : Nat) :
    (leafForest ls n).map (fun e => e.1) = indicesFrom n ls.length := by
  induction ls generalizing n with
  | nil => rfl
  | cons e ls ih => rw [leafForest_cons, List.map_cons, ih, List.length_cons, indicesFrom_succ]

theorem leafForest_leaves (ls : List (Sym × Nat)) (n : Nat) :
    (leafForest ls n).flatMap (fun e => e.2.1.leaves) = ls.map Prod.fst := by
  induction ls generalizing n with
  | nil => rfl
  | cons e ls ih => rw [leafForest_cons, List.flatMap_cons, ih]; rfl

theorem leafForest_entries (ls : List (Sym × Nat)) (n : Nat) :
    (leafForest ls n).flatMap (fun e => e.2.2) = indicesFrom n ls.length := by
  induction ls generalizing n with
  | nil => rfl
  | cons e ls ih => rw [leafForest_cons, List.flatMap_cons, ih, List.length_cons, indicesFrom_succ]; rfl

theorem leafForest_holds (ls : List (Sym × Nat)) {n : Nat} (t : Cells Node) (h : n + ls.length ≤ 1024) :
    ∀ e ∈ leafForest ls n, Holds (putLeaves ls n t) e.2.1 e.1 e.2.2 := by
  induction ls generalizing n t with
  | nil => simp [leafForest]
  | cons e ls ih =>
    rw [List.length_cons] at h
    rw [leafForest_cons]
    intro e' he'
    rcases List.mem_cons.1 he' with rfl | he'
    · refine ⟨rfl, e.2, ?_⟩
      rw [nodeAt, idx_toNat (by omega)]
      exact get_putLeaves (e :: ls) (k := 0) t rfl
    · exact ih _ (by omega) e' he'

/-- The leaves of BuildTree are a forest. -/
theorem leafForest_of (F : Cells Word) (t : Cells Node) :
    ForestOf (putLeaves (leafList F) 0 t) (leafForest (leafList F) 0) (leafCount F) := by
  have hb := leafCount_bounds F
  have hl := leafList_length F
  refine ⟨leafForest_holds _ t (by omega), ?_, ?_, ?_, ?_, ?_, ?_, ?_⟩
  · rw [leafForest_leaves]; exact leafList_nodup F
  · rw [leafForest_leaves]; exact mem_leafList.2 (.inl rfl)
  · rw [leafForest_leaves]; exact fun c => leafList_symbols
  · rw [leafForest_leaves, List.length_map, hl]; exact hb.1
  · rw [leafForest_entries]; exact indicesFrom_nodup (by omega)
  · rw [leafForest_entries, indicesFrom_length, hl]
  · rw [leafForest_entries]
    intro i hi
    rw [mem_indicesFrom (by omega)] at hi
    omega

/-! ## ExtractMin -/

theorem keyOf_some {t : Cells Node} {i : Idx} {k : Nat × Idx} (h : keyOf t i = some k) :
    ∃ nd, nodeAt t i = some nd ∧ k = (nd.wt, i) := by
  unfold keyOf at h
  split at h
  · next nd h1 => exact ⟨nd, h1, by simpa using h.symm⟩
  · cases h

/-- The order of keys is total and transitive. -/
theorem keyLess_trans {a b c : Nat × Idx} (h1 : keyLess b a = false) (h2 : keyLess c b = false) : keyLess c a = false := by
  simp only [keyLess, Bool.or_eq_false_iff, Bool.and_eq_false_iff, decide_eq_false_iff_not, beq_eq_false_iff_ne] at *
  simp only [BitVec.lt_def] at *
  omega

theorem keyLess_asymm {a b : Nat × Idx} (h : keyLess a b = true) : keyLess b a = false := by
  simp only [keyLess, Bool.or_eq_true, Bool.and_eq_true, decide_eq_true_eq, beq_iff_eq, Bool.or_eq_false_iff,
    Bool.and_eq_false_iff, decide_eq_false_iff_not, beq_eq_false_iff_ne, BitVec.lt_def] at *
  omega

theorem keyLess_irrefl (a : Nat × Idx) : keyLess a a = false := by
  simp [keyLess]

/-- The least key is the key of an element, and no element's key is less. -/
theorem leastKey_spec {t : Cells Node} {q : List Idx} {k : Nat × Idx} (h : leastKey t q = some k) :
    k.2 ∈ q ∧ keyOf t k.2 = some k ∧ ∀ j ∈ q, ∃ kj, keyOf t j = some kj ∧ keyLess kj k = false := by
  induction q generalizing k with
  | nil => cases h
  | cons i q ih =>
    cases q with
    | nil =>
      rw [leastKey] at h
      obtain ⟨nd, -, rfl⟩ := keyOf_some h
      exact ⟨by simp, h, fun j hj => by rw [List.mem_singleton.1 hj]; exact ⟨_, h, keyLess_irrefl _⟩⟩
    | cons j q =>
      rw [leastKey] at h
      split at h
      · next a b ha hb =>
        obtain ⟨h1, h2, h3⟩ := ih hb
        obtain ⟨nd, -, hai⟩ := keyOf_some ha
        split at h
        · next hlt =>
          cases h
          refine ⟨List.mem_cons_of_mem _ h1, h2, fun x hx => ?_⟩
          rcases List.mem_cons.1 hx with rfl | hx
          · exact ⟨a, ha, keyLess_asymm hlt⟩
          · exact h3 x hx
        · next hge =>
          cases h
          subst hai
          refine ⟨by simp, ha, fun x hx => ?_⟩
          rcases List.mem_cons.1 hx with rfl | hx
          · exact ⟨_, ha, keyLess_irrefl _⟩
          · obtain ⟨kx, hkx, hl⟩ := h3 x hx
            exact ⟨kx, hkx, keyLess_trans (by simpa using hge) hl⟩
      · cases h

/-- A PQ that is not empty, all its entries present, has a least key. -/
theorem leastKey_some {t : Cells Node} {q : List Idx} (hne : q ≠ []) (h : ∀ j ∈ q, ∃ nd, nodeAt t j = some nd) :
    ∃ k, leastKey t q = some k := by
  induction q with
  | nil => exact absurd rfl hne
  | cons i q ih =>
    obtain ⟨nd, hi⟩ := h i (by simp)
    cases q with
    | nil => exact ⟨_, by rw [leastKey, keyOf, hi]⟩
    | cons j q =>
      obtain ⟨k, hk⟩ := ih (by simp) (fun x hx => h x (List.mem_cons_of_mem _ hx))
      rw [leastKey, keyOf, hi, hk]
      simp only []
      split <;> exact ⟨_, rfl⟩

/-- Everything ExtractMin can do when it answers: it takes an element with the least key (42_tree_builder.md R146). -/
theorem extractMin_ok {t : Cells Node} {q r : List Idx} {i : Idx} (h : extractMin t q = .ok (i, r)) :
    i ∈ q ∧ r = q.erase i ∧
      ∃ ki, keyOf t i = some ki ∧ ∀ j ∈ q, ∃ kj, keyOf t j = some kj ∧ keyLess kj ki = false := by
  unfold extractMin at h
  split at h
  · next w k hk =>
    obtain ⟨h1, h2, h3⟩ := leastKey_spec hk
    cases h
    exact ⟨h1, rfl, _, h2, h3⟩
  · split at h <;> cases h

theorem extractMin_some {t : Cells Node} {q : List Idx} (hne : q ≠ []) (h : ∀ j ∈ q, ∃ nd, nodeAt t j = some nd) :
    ∃ i, extractMin t q = .ok (i, q.erase i) := by
  obtain ⟨⟨w, i⟩, hk⟩ := leastKey_some hne h
  exact ⟨i, by simp [extractMin, hk]⟩

/-! ## Forests -/

theorem ForestOf.perm {t : Cells Node} {F G : List (Idx × HTree × List Idx)} {n : Nat} (h : ForestOf t F n)
    (hp : F.Perm G) : ForestOf t G n := by
  have h1 := hp.flatMap_right (fun e => e.2.1.leaves)
  have h2 := hp.flatMap_right (fun e => e.2.2)
  exact
    { holds := fun e he => h.holds e (hp.mem_iff.2 he)
      unique := h1.nodup_iff.1 h.unique
      hasEos := h1.mem_iff.1 h.hasEos
      symbols := fun c hc => h.symbols c (h1.mem_iff.2 hc)
      two := h1.length_eq ▸ h.two
      disjoint := h2.nodup_iff.1 h.disjoint
      count := h2.length_eq ▸ h.count
      below := fun i hi => h.below i (h2.mem_iff.2 hi) }

theorem ForestOf.sizes {t : Cells Node} {F : List (Idx × HTree × List Idx)} (h : ∀ e ∈ F, Holds t e.2.1 e.1 e.2.2) :
    (F.flatMap (fun e => e.2.2)).length + F.length = 2 * (F.flatMap (fun e => e.2.1.leaves)).length := by
  induction F with
  | nil => rfl
  | cons e F ih =>
    have h1 := ih fun e' he' => h e' (List.mem_cons_of_mem _ he')
    have h2 := (h e (by simp)).length
    have h3 := e.2.1.size_leaves
    simp only [List.flatMap_cons, List.length_append, List.length_cons]
    omega

/-- Two trees or more leave an index free. -/
theorem ForestOf.next_lt {t : Cells Node} {F : List (Idx × HTree × List Idx)} {n : Nat} (h : ForestOf t F n)
    (hF : 2 ≤ F.length) : n < maxNodes := by
  have h1 := ForestOf.sizes h.holds
  have h2 := length_le_of_symbols h.unique h.symbols
  have h3 := h.count
  simp only [maxNodes]
  omega

theorem ForestOf.roots_nodup {t : Cells Node} {F : List (Idx × HTree × List Idx)}
    (h : ∀ e ∈ F, Holds t e.2.1 e.1 e.2.2) (hd : (F.flatMap (fun e => e.2.2)).Nodup) :
    (F.map (fun e => e.1)).Nodup := by
  induction F with
  | nil => simp
  | cons e F ih =>
    rw [List.flatMap_cons, List.nodup_append] at hd
    rw [List.map_cons, List.nodup_cons]
    refine ⟨fun hm => ?_, ih (fun e' he' => h e' (List.mem_cons_of_mem _ he')) hd.2.1⟩
    obtain ⟨e', he', heq⟩ := List.mem_map.1 hm
    exact hd.2.2 e.1 (h e (by simp)).root_mem e.1
      (List.mem_flatMap.2 ⟨e', he', heq ▸ (h e' (List.mem_cons_of_mem _ he')).root_mem⟩) rfl

/-- Merging two trees of a forest at the next index. -/
theorem ForestOf.merge {t : Cells Node} {a b : Idx × HTree × List Idx} {F : List (Idx × HTree × List Idx)} {n w : Nat}
    (h : ForestOf t (a :: b :: F) n) (hn : n < maxNodes) :
    ForestOf (Cells.put t n (.internal w a.1 b.1))
      ((BitVec.ofNat 10 n, HTree.node a.2.1 b.2.1, BitVec.ofNat 10 n :: (a.2.2 ++ b.2.2)) :: F) (n + 1) := by
  simp only [maxNodes] at hn
  have hi : (BitVec.ofNat 10 n).toNat = n := idx_toNat (by omega)
  have hbel := h.below
  have hnot : ∀ e ∈ a :: b :: F, BitVec.ofNat 10 n ∉ e.2.2 := by
    intro e he hm
    have := hbel _ (List.mem_flatMap.2 ⟨e, he, hm⟩)
    omega
  have hun := h.unique
  have heos := h.hasEos
  have hsy := h.symbols
  have htwo := h.two
  have hdis := h.disjoint
  have hcnt := h.count
  simp only [List.flatMap_cons, ← List.append_assoc] at hun heos hsy htwo hdis hcnt hbel
  refine ⟨?_, ?_, ?_, ?_, ?_, ?_, ?_, ?_⟩
  · intro e he
    rcases List.mem_cons.1 he with rfl | he
    · have := Holds.node_put (i := BitVec.ofNat 10 n) w (h.holds a (by simp)) (h.holds b (by simp))
        (hnot a (by simp)) (hnot b (by simp))
      rwa [hi] at this
    · have := (h.holds e (by simp [he])).put (k := BitVec.ofNat 10 n) (.internal w a.1 b.1) (hnot e (by simp [he]))
      rwa [hi] at this
  · simpa [List.flatMap_cons, HTree.leaves] using hun
  · simpa [List.flatMap_cons, HTree.leaves] using heos
  · simpa [List.flatMap_cons, HTree.leaves] using hsy
  · simpa [List.flatMap_cons, HTree.leaves] using htwo
  · rw [List.flatMap_cons, List.cons_append]
    refine List.nodup_cons.2 ⟨?_, hdis⟩
    intro hm
    have := hbel _ hm
    omega
  · rw [List.flatMap_cons, List.cons_append, List.length_cons, hcnt]
  · rw [List.flatMap_cons, List.cons_append]
    intro i hi'
    rcases List.mem_cons.1 hi' with rfl | hi'
    · omega
    · have := hbel i hi'
      omega

/-- Taking one root out of PQ takes its tree out of the forest. -/
theorem forest_take {F : List (Idx × HTree × List Idx)} {i : Idx} (hm : i ∈ F.map (fun e => e.1)) :
    ∃ e F', e.1 = i ∧ F.Perm (e :: F') ∧ (F.map (fun e => e.1)).erase i = F'.map (fun e => e.1) := by
  induction F with
  | nil => simp at hm
  | cons e F ih =>
    by_cases h : e.1 = i
    · exact ⟨e, F, h, .refl _, by simp [h]⟩
    · rw [List.map_cons, List.mem_cons] at hm
      obtain ⟨e', F', h1, h2, h3⟩ := ih (hm.resolve_left (Ne.symm h))
      refine ⟨e', e :: F', h1, (h2.cons e).trans (.swap _ _ _), ?_⟩
      rw [List.map_cons, List.erase_cons_tail (by simpa using h), h3, List.map_cons]

/-- What one merge does to a forest of two trees or more (42_tree_builder.md R146, R147). -/
theorem mergeMove_forest {s : State} {n : Nat} (hF : Forest s n) (hq : 2 ≤ s.pq.length) :
    ∃ a b na nb q, extractMin s.node s.pq = .ok (a, s.pq.erase a) ∧
      extractMin s.node (s.pq.erase a) = .ok (b, q) ∧ q.length + 2 = s.pq.length ∧
      nodeAt s.node a = some na ∧ nodeAt s.node b = some nb ∧ a.toNat < n ∧ b.toNat < n ∧ n < maxNodes ∧
      mergeMove (BitVec.ofNat 10 n) s =
        .ok { s with node := Cells.put s.node n (.internal (addWt s.cfg na.wt nb.wt) a b),
                     pq := q ++ [BitVec.ofNat 10 n], point := .buildMerge (BitVec.ofNat 10 (n + 1)) } ∧
      ∀ F, s.pq = F.map (fun e => e.1) → ForestOf s.node F n →
        ∃ G, q ++ [BitVec.ofNat 10 n] = G.map (fun e => e.1) ∧
          ForestOf (Cells.put s.node n (.internal (addWt s.cfg na.wt nb.wt) a b)) G (n + 1) ∧
          (G.flatMap (fun e => e.2.1.leaves)).Perm (F.flatMap (fun e => e.2.1.leaves)) := by
  obtain ⟨F, hpq, hf⟩ := hF
  have hpres : ∀ j ∈ s.pq, (∃ nd, nodeAt s.node j = some nd) ∧ j.toNat < n := by
    intro j hj
    rw [hpq] at hj
    obtain ⟨e, he, rfl⟩ := List.mem_map.1 hj
    exact ⟨(hf.holds e he).present, hf.below _ (List.mem_flatMap.2 ⟨e, he, (hf.holds e he).root_mem⟩)⟩
  have hne : s.pq ≠ [] := by
    intro h
    rw [h] at hq
    simp at hq
  obtain ⟨a, ha⟩ := extractMin_some hne fun j hj => (hpres j hj).1
  obtain ⟨haq, -, -⟩ := extractMin_ok ha
  have hlen1 : (s.pq.erase a).length + 1 = s.pq.length := by
    rw [List.length_erase_of_mem haq]
    omega
  have hne2 : s.pq.erase a ≠ [] := by
    intro h
    rw [h] at hlen1
    simp at hlen1
    omega
  obtain ⟨b, hb⟩ := extractMin_some hne2 fun j hj => (hpres j (List.mem_of_mem_erase hj)).1
  obtain ⟨hbq, -, -⟩ := extractMin_ok hb
  have hlen2 : ((s.pq.erase a).erase b).length + 1 = (s.pq.erase a).length := by
    rw [List.length_erase_of_mem hbq]
    omega
  obtain ⟨⟨na, hna⟩, han⟩ := hpres a haq
  obtain ⟨⟨nb, hnb⟩, hbn⟩ := hpres b (List.mem_of_mem_erase hbq)
  have hn : n < maxNodes := hf.next_lt (by
    have := congrArg List.length hpq
    simp only [List.length_map] at this
    omega)
  have hi : (BitVec.ofNat 10 n).toNat = n := idx_toNat (by simp only [maxNodes] at hn; omega)
  refine ⟨a, b, na, nb, _, ha, hb, by omega, hna, hnb, han, hbn, hn, ?_, ?_⟩
  · simp only [mergeMove, ha, hb, hna, hnb]
    rw [putNode_of_lt _ _ (by rw [hi]; exact hn), hi]
    simp only [idx_succ]
  · intro G hG hg
    rw [hG] at haq hbq ⊢
    obtain ⟨ea, G1, rfl, hp1, he1⟩ := forest_take haq
    rw [he1] at hbq ⊢
    obtain ⟨eb, G2, rfl, hp2, he2⟩ := forest_take hbq
    have hp : G.Perm (ea :: eb :: G2) := hp1.trans (hp2.cons ea)
    have hm := (hg.perm hp).merge (w := addWt s.cfg na.wt nb.wt) hn
    rw [he2]
    refine ⟨G2 ++ [(BitVec.ofNat 10 n, HTree.node ea.2.1 eb.2.1, BitVec.ofNat 10 n :: (ea.2.2 ++ eb.2.2))], by simp,
      hm.perm (List.perm_append_singleton _ _).symm, ?_⟩
    have h1 := hp.flatMap_right (fun e => e.2.1.leaves)
    refine List.Perm.trans ?_ h1.symm
    simp only [List.flatMap_append, List.flatMap_cons, List.flatMap_nil, HTree.leaves, List.append_nil]
    exact List.perm_append_comm.trans (by simp)

/-- Each index from `lo` to `n` holds an internal node over two smaller indices, with the sum of their weights
(42_tree_builder.md R147, R149). -/
def MergedFrom (c : Config) (t : Cells Node) (lo n : Nat) : Prop :=
  ∀ j, lo ≤ j → j < n → ∃ a b na nb, nodeAt t (BitVec.ofNat 10 j) = some (.internal (addWt c na.wt nb.wt) a b) ∧
    a.toNat < j ∧ b.toNat < j ∧ nodeAt t a = some na ∧ nodeAt t b = some nb

/-- BuildTree's loop: k merges bring a forest of k + 1 trees to one, use the next k indices, and leave the other
entries. -/
theorem run_merges (k : Nat) {n : Nat} {s : State} (hb : s.phase ≠ .idle)
    (hp : s.point = .buildMerge (BitVec.ofNat 10 n)) {F : List (Idx × HTree × List Idx)}
    (hq : s.pq = F.map (fun e => e.1)) (hF : ForestOf s.node F n) (hk : s.pq.length = k + 1) :
    ∃ t e, runMoves k s =
        .ok { s with node := t, pq := [e.1], point := .buildMerge (BitVec.ofNat 10 (n + k)) } ∧
      ForestOf t [e] (n + k) ∧ e.2.1.leaves.Perm (F.flatMap (fun e => e.2.1.leaves)) ∧
      (0 < k → e.1 = BitVec.ofNat 10 (n + k - 1)) ∧
      (∀ j, j < n ∨ n + k ≤ j → Cells.get t j = Cells.get s.node j) ∧
      ∀ lo, lo ≤ n → MergedFrom s.cfg s.node lo n → MergedFrom s.cfg t lo (n + k) := by
  induction k generalizing n s F with
  | zero =>
    have hl := congrArg List.length hq
    rw [hk, List.length_map] at hl
    obtain ⟨e, rfl⟩ := List.length_eq_one_iff.1 hl.symm
    refine ⟨s.node, e, ?_, hF, by simp, by simp, fun _ _ => rfl, fun _ _ h => h⟩
    simp only [runMoves_zero, Nat.add_zero, Except.ok.injEq]
    rw [← hp]
    simp only [List.map_cons, List.map_nil] at hq
    rw [← hq]
  | succ k ih =>
    obtain ⟨a, b, na, nb, q, -, -, hql, hna, hnb, han, hbn, hn, hm, hG⟩ := mergeMove_forest (s := s) (n := n)
      ⟨F, hq, hF⟩ (by omega)
    obtain ⟨G, hG1, hG2, hG3⟩ := hG F hq hF
    have hi : (BitVec.ofNat 10 n).toNat = n := idx_toNat (by simp only [maxNodes] at hn; omega)
    obtain ⟨u, hu⟩ : ∃ u : State, u = { s with
        node := Cells.put s.node n (.internal (addWt s.cfg na.wt nb.wt) a b)
        pq := q ++ [BitVec.ofNat 10 n]
        point := .buildMerge (BitVec.ofNat 10 (n + 1)) } := ⟨_, rfl⟩
    have hstep : blockMove s = .ok u := by
      rw [blockMove_buildMerge hp, buildMergeMove]
      obtain ⟨x, y, z, hxyz⟩ : ∃ x y z, s.pq = x :: y :: z := by
        match hs : s.pq, hk with
        | x :: y :: z, _ => exact ⟨x, y, z, rfl⟩
      simp only [hxyz]
      rw [hm, hu]
    have hun : u.node = Cells.put s.node n (.internal (addWt s.cfg na.wt nb.wt) a b) := by rw [hu]
    have hlow : ∀ j, j < n → Cells.get u.node j = Cells.get s.node j := fun j hj => by
      rw [hun, Cells.get_put_ne _ _ (by omega)]
    have hlowN : ∀ {j : Idx} {nd : Node}, j.toNat < n → nodeAt s.node j = some nd → nodeAt u.node j = some nd := by
      intro j nd hj h
      rw [nodeAt, hlow _ hj]
      exact h
    obtain ⟨t, e, h1, h2, h3, h4, h5, h6⟩ := ih (n := n + 1) (s := u) (F := G) (by rw [hu]; exact hb) (by rw [hu])
      (by rw [hu]; exact hG1) (by rw [hun]; exact hG2) (by rw [hu, List.length_append, List.length_singleton]; omega)
    refine ⟨t, e, ?_, ?_, h3.trans hG3, ?_, ?_, ?_⟩
    · rw [runMoves_succ hb hstep, h1, hu]
      simp only [Except.ok.injEq, State.mk.injEq, true_and, and_true]
      rw [show n + 1 + k = n + (k + 1) by omega]
    · rw [show n + (k + 1) = n + 1 + k by omega]
      exact h2
    · intro _
      cases k with
      | zero =>
        have hq0 : q = [] := List.eq_nil_of_length_eq_zero (by omega)
        have := h1
        rw [runMoves_zero, hu, hq0] at this
        simp only [Except.ok.injEq, State.mk.injEq, List.nil_append, List.cons.injEq] at this
        rw [show n + (0 + 1) - 1 = n by omega]
        tauto
      | succ k =>
        rw [h4 (by omega)]
        congr 1
        omega
    · intro j hj
      rw [h5 j (by omega), hun, Cells.get_put_ne _ _ (by omega)]
    · intro lo hlo hM
      rw [show n + (k + 1) = n + 1 + k by omega]
      have hc : u.cfg = s.cfg := by rw [hu]
      rw [hc] at h6
      refine h6 lo (by omega) ?_
      intro j hj1 hj2
      by_cases hjn : j = n
      · subst hjn
        exact ⟨a, b, na, nb, by rw [nodeAt, hi, hun, Cells.get_put_same], han, hbn, hlowN han hna, hlowN hbn hnb⟩
      · obtain ⟨a', b', na', nb', e1, e2, e3, e4, e5⟩ := hM j hj1 (by omega)
        simp only [maxNodes] at hn
        exact ⟨a', b', na', nb', hlowN (by rw [idx_toNat (by omega)]; omega) e1, e2, e3, hlowN (by omega) e4,
          hlowN (by omega) e5⟩

/-- A forest of one tree is the tree at ROOT. -/
theorem ForestOf.treeAt {s : State} {e : Idx × HTree × List Idx} {n : Nat} (h : ForestOf s.node [e] n)
    (hr : s.root = some e.1) (hn : s.nnodes = BitVec.ofNat 10 n) (hlt : n < 1024) : TreeAt s e.2.1 := by
  obtain ⟨r, T, is⟩ := e
  have h1 := h.unique
  have h2 := h.hasEos
  have h3 := h.symbols
  have h4 := h.two
  have h5 := h.disjoint
  have h6 := h.count
  have h7 := h.below
  simp only [List.flatMap_cons, List.flatMap_nil, List.append_nil] at h1 h2 h3 h4 h5 h6 h7
  have hn' : s.nnodes.toNat = n := by rw [hn, idx_toNat hlt]
  refine ⟨r, is, hr, h.holds _ (by simp), ⟨?_, h1, h2, h3⟩, h5, by omega, fun i hi => ?_⟩
  · cases T with
    | leaf c => simp [HTree.leaves] at h4
    | node l r => rfl
  · rw [BitVec.lt_def, hn']
    exact h7 i hi

/-- BuildTree (42_tree_builder.md R141): from any arena, L + 1 moves leave the tree of FREQ. -/
theorem run_build {s : State} (hb : s.phase ≠ .idle) (hp : s.point = .buildLeaves) :
    ∃ t T, runMoves (leafCount s.freq + 1) s =
        .ok { s with node := t, root := some (BitVec.ofNat 10 (2 * leafCount s.freq - 2)),
                     nnodes := BitVec.ofNat 10 (2 * leafCount s.freq - 1), pq := [], point := .fin } ∧
      TreeAt { s with node := t, root := some (BitVec.ofNat 10 (2 * leafCount s.freq - 2)),
                      nnodes := BitVec.ofNat 10 (2 * leafCount s.freq - 1) } T ∧
      T.leaves.Perm ((leafList s.freq).map Prod.fst) ∧
      (∀ j c w, (leafList s.freq)[j]? = some (c, w) → nodeAt t (BitVec.ofNat 10 j) = some (.leaf c w)) ∧
      (∀ j, 2 * leafCount s.freq - 1 ≤ j → Cells.get t j = Cells.get s.node j) ∧
      MergedFrom s.cfg t (leafCount s.freq) (2 * leafCount s.freq - 1) := by
  have hL := leafCount_bounds s.freq
  have hl := leafList_length s.freq
  obtain ⟨u, hu⟩ : ∃ u : State, u = { s with
      node := putLeaves (leafList s.freq) 0 s.node
      pq := indicesBelow (leafCount s.freq)
      point := .buildMerge (BitVec.ofNat 10 (leafCount s.freq)) } := ⟨_, rfl⟩
  have h1 : blockMove s = .ok u := by
    rw [blockMove_buildLeaves hp, buildLeavesMove_eq, hu]
  have hf := leafForest_of s.freq s.node
  obtain ⟨t, e, hr, hF, hperm, hroot, hlow, hM⟩ := run_merges (leafCount s.freq - 1) (n := leafCount s.freq) (s := u)
    (F := leafForest (leafList s.freq) 0) (by rw [hu]; exact hb) (by rw [hu])
    (by rw [hu, leafForest_roots, hl]; exact indicesBelow_eq _) (by rw [hu]; exact hf)
    (by rw [hu]; simp [indicesBelow]; omega)
  have hnn : leafCount s.freq + (leafCount s.freq - 1) = 2 * leafCount s.freq - 1 := by omega
  rw [hnn] at hr hF hM
  have he := hroot (by omega)
  rw [hnn, show 2 * leafCount s.freq - 1 - 1 = 2 * leafCount s.freq - 2 by omega] at he
  rw [leafForest_leaves] at hperm
  refine ⟨t, e.2.1, ?_, ?_, hperm, ?_, ?_, ?_⟩
  · rw [show leafCount s.freq + 1 = (leafCount s.freq - 1 + 1) + 1 by omega, runMoves_succ hb h1,
      runMoves_then hr (runMoves_one (by rw [hu]; exact hb)), blockMove_buildMerge rfl]
    simp only [buildMergeMove, he, hu, Except.ok.injEq, State.mk.injEq, true_and, and_true]
  · exact ForestOf.treeAt hF (by rw [he]) rfl (by omega)
  · intro j c w hj
    have hjl : j < leafCount s.freq := by
      have := (List.getElem?_eq_some_iff.1 hj).1
      omega
    rw [nodeAt, idx_toNat (by omega), hlow j (.inl hjl), hu]
    have := get_putLeaves (leafList s.freq) (n := 0) s.node hj
    rwa [Nat.zero_add] at this
  · intro j hj
    rw [hlow j (.inr (by omega)), hu, get_putLeaves_ge _ _ (by omega)]
  · have := hM (leafCount s.freq) (Nat.le_refl _) (fun j h1 h2 => absurd h2 (by omega))
    rw [hu] at this
    exact this

/-! ## BuildTree depends on FREQ and the arena only -/

/-- `x` with what BuildTree reads and writes taken from `s`. -/
def withBuild (x s : State) : State :=
  { x with
    cfg := s.cfg
    freq := s.freq
    node := s.node
    root := s.root
    nnodes := s.nnodes
    pq := s.pq
    point := s.point }

/-- A merge does the same whatever else the state holds. -/
theorem mergeMove_withBuild (n : Idx) (x s : State) :
    mergeMove n (withBuild x s) = (mergeMove n s).map (withBuild x) := by
  simp only [mergeMove, withBuild]
  cases h1 : extractMin s.node s.pq with
  | error f => rfl
  | ok a =>
    obtain ⟨a, q⟩ := a
    simp only []
    cases h2 : extractMin s.node q with
    | error f => rfl
    | ok b =>
      obtain ⟨b, q2⟩ := b
      simp only []
      cases h3 : nodeAt s.node a with
      | none => rfl
      | some na =>
        cases h4 : nodeAt s.node b with
        | none => rfl
        | some nb =>
          by_cases hn : n.toNat < maxNodes
          · simp only [putNode_of_lt _ _ hn]
            rfl
          · simp only [putNode, hn, if_false]
            rfl

/-- A move of BuildTree does the same whatever else the state holds. -/
theorem blockMove_withBuild {x s : State} (h : s.point = .buildLeaves ∨ ∃ n, s.point = .buildMerge n) :
    blockMove (withBuild x s) = (blockMove s).map (withBuild x) := by
  rcases h with h | ⟨n, h⟩
  · rw [blockMove_buildLeaves h, blockMove_buildLeaves (s := withBuild x s) h, buildLeavesMove_eq, buildLeavesMove_eq]
    rfl
  · rw [blockMove_buildMerge h, blockMove_buildMerge (s := withBuild x s) h]
    simp only [buildMergeMove]
    rw [show (withBuild x s).pq = s.pq from rfl]
    split
    · rfl
    · rfl
    · exact mergeMove_withBuild n x s

/-- Everything a merge can do when it answers: PQ is one shorter, and the next index is used. -/
theorem mergeMove_ok {n : Idx} {s t : State} (h : mergeMove n s = .ok t) :
    ∃ a b na nb q, extractMin s.node s.pq = .ok (a, s.pq.erase a) ∧ extractMin s.node (s.pq.erase a) = .ok (b, q) ∧
      nodeAt s.node a = some na ∧ nodeAt s.node b = some nb ∧ n.toNat < maxNodes ∧ q.length + 2 = s.pq.length ∧
      t = { s with node := Cells.put s.node n.toNat (.internal (addWt s.cfg na.wt nb.wt) a b), pq := q ++ [n],
                   point := .buildMerge (n + 1) } := by
  simp only [mergeMove] at h
  split at h
  · cases h
  · next a q1 h1 =>
    split at h
    · cases h
    · next b q2 h2 =>
      split at h
      · next na nb h3 h4 =>
        split at h
        · cases h
        · next s1 h5 =>
          obtain ⟨h6, rfl⟩ := putNode_ok h5
          cases h
          obtain ⟨m1, rfl, -⟩ := extractMin_ok h1
          obtain ⟨m2, rfl, -⟩ := extractMin_ok h2
          refine ⟨a, b, na, nb, _, h1, h2, h3, h4, h6, ?_, rfl⟩
          have l1 := List.length_pos_of_mem m1
          have l2 := List.length_pos_of_mem m2
          rw [List.length_erase_of_mem m1] at l2
          rw [List.length_erase_of_mem m2, List.length_erase_of_mem m1]
          omega
      · cases h

theorem run_merges_withBuild (k : Nat) {n : Idx} {x s : State} (hs : s.phase ≠ .idle) (hx : x.phase ≠ .idle)
    (hp : s.point = .buildMerge n) (hk : s.pq.length = k + 1) :
    runMoves (k + 1) (withBuild x s) = (runMoves (k + 1) s).map (withBuild x) := by
  induction k generalizing n s with
  | zero =>
    rw [runMoves_one hs, runMoves_one (s := withBuild x s) hx]
    exact blockMove_withBuild (.inr ⟨n, hp⟩)
  | succ k ih =>
    have hw := blockMove_withBuild (x := x) (.inr ⟨n, hp⟩)
    have hbs := (busy_iff s).2 hs
    have hbx : (withBuild x s).busy = true := (busy_iff _).2 hx
    rw [runMoves, runMoves, if_pos hbx, if_pos hbs, hw]
    cases hm : blockMove s with
    | error f => rfl
    | ok u =>
      rw [blockMove_buildMerge hp, buildMergeMove] at hm
      obtain ⟨i, j, r, hq⟩ : ∃ i j r, s.pq = i :: j :: r := by
        match hs : s.pq, hk with
        | i :: j :: r, _ => exact ⟨i, j, r, rfl⟩
      simp only [hq] at hm
      obtain ⟨a, b, na, nb, q, -, -, -, -, -, hl, rfl⟩ := mergeMove_ok hm
      simp only [Except.map]
      refine ih ?_ rfl ?_
      · exact hs
      · simp only [List.length_append, List.length_singleton]
        omega

/-- BuildTree does the same whatever else the state holds. -/
theorem run_build_withBuild {x s : State} (hs : s.phase ≠ .idle) (hx : x.phase ≠ .idle) (hp : s.point = .buildLeaves) :
    runMoves (leafCount s.freq + 1) (withBuild x s) = (runMoves (leafCount s.freq + 1) s).map (withBuild x) := by
  have hL := leafCount_bounds s.freq
  have hw := blockMove_withBuild (x := x) (.inl hp)
  have hbs := (busy_iff s).2 hs
  have hbx : (withBuild x s).busy = true := (busy_iff _).2 hx
  rw [runMoves, runMoves, if_pos hbx, if_pos hbs, hw, blockMove_buildLeaves hp, buildLeavesMove_eq]
  simp only [Except.map]
  rw [show leafCount s.freq = (leafCount s.freq - 1) + 1 by omega]
  refine run_merges_withBuild _ ?_ hx rfl ?_
  · exact hs
  · simp only [indicesBelow, List.length_map, List.length_range]

end Sys2Proof.Machine
end

