-- ==== Sys2Proof/Laws/Decoder.lean ====
section
/-! SUPPORT. What a run of moves does when DECODE reads paths and bytes. -/

namespace Sys2Proof.Machine

/-- The entry a path leads to, from index `i` (47_bitstream_decoder.md R242). -/
inductive Leads (t : Cells Node) : Idx → List Bool → Idx → Prop
  | here (i : Idx) : Leads t i [] i
  | left {i a b k : Idx} {w : Nat} {p : List Bool} (h : nodeAt t i = some (.internal w a b)) (hp : Leads t a p k) :
      Leads t i (false :: p) k
  | right {i a b k : Idx} {w : Nat} {p : List Bool} (h : nodeAt t i = some (.internal w a b)) (hp : Leads t b p k) :
      Leads t i (true :: p) k

/-- The path of a leaf of a held tree leads to a leaf with its symbol. -/
theorem Holds.leads {t : Cells Node} {T : HTree} {i : Idx} {is : List Idx} (hT : Holds t T i is) {c : Sym}
    {p : List Bool} (hp : (c, p) ∈ T.paths) : ∃ k w, Leads t i p k ∧ nodeAt t k = some (.leaf c w) := by
  induction T generalizing i is p with
  | leaf d =>
    simp only [HTree.paths, List.mem_singleton, Prod.mk.injEq] at hp
    obtain ⟨rfl, rfl⟩ := hp
    obtain ⟨-, w, hw⟩ := hT
    exact ⟨i, w, .here i, hw⟩
  | node l r ihl ihr =>
    obtain ⟨w, a, b, il, ir, hw, hl, hr, -⟩ := hT
    simp only [HTree.paths, List.mem_append, List.mem_map, Prod.mk.injEq, Prod.exists] at hp
    rcases hp with ⟨c', p', hp', rfl, rfl⟩ | ⟨c', p', hp', rfl, rfl⟩
    · obtain ⟨k, v, h1, h2⟩ := ihl hl hp'
      exact ⟨k, v, .left hw h1, h2⟩
    · obtain ⟨k, v, h1, h2⟩ := ihr hr hp'
      exact ⟨k, v, .right hw h1, h2⟩

/-- A prefix of a path that is not all of it leads to an internal node. -/
theorem Holds.leads_prefix {t : Cells Node} {T : HTree} {i : Idx} {is : List Idx} (hT : Holds t T i is) {c : Sym}
    {p q : List Bool} (hp : (c, p ++ q) ∈ T.paths) (hq : q ≠ []) :
    ∃ k w a b, Leads t i p k ∧ nodeAt t k = some (.internal w a b) := by
  induction T generalizing i is p with
  | leaf d =>
    simp only [HTree.paths, List.mem_singleton, Prod.mk.injEq, List.append_eq_nil_iff] at hp
    exact absurd hp.2.2 hq
  | node l r ihl ihr =>
    obtain ⟨w, a, b, il, ir, hw, hl, hr, -⟩ := hT
    cases p with
    | nil => exact ⟨i, w, a, b, .here i, hw⟩
    | cons x p =>
      simp only [HTree.paths, List.mem_append, List.mem_map, Prod.mk.injEq, Prod.exists, List.cons_append,
        List.cons.injEq] at hp
      rcases hp with ⟨c', p', hp', rfl, rfl, rfl⟩ | ⟨c', p', hp', rfl, rfl, rfl⟩
      · obtain ⟨k, v, a', b', h1, h2⟩ := ihl hl hp'
        exact ⟨k, v, a', b', .left hw h1, h2⟩
      · obtain ⟨k, v, a', b', h1, h2⟩ := ihr hr hp'
        exact ⟨k, v, a', b', .right hw h1, h2⟩

/-- DECODE follows a path that stays inside the tree up to an internal node. -/
theorem run_inner {i k : Idx} {p : List Bool} {s : State} (hL : Leads s.node i p k) {w : Nat} {a b : Idx}
    (hk : nodeAt s.node k = some (.internal w a b)) {rest : List Bool} (hb : s.phase ≠ .idle)
    (hp : s.point = .decodeBit) (hc : s.cur = some i) (hr : bitsToCome s = p ++ rest) :
    runMoves p.length s =
      .ok { s with events := s.events + p.length, bitSrc := s.bitSrc.skip p.length, cur := some k } := by
  obtain ⟨t, ht⟩ : ∃ t, s.node = t := ⟨_, rfl⟩
  rw [ht] at hL hk
  revert hk
  induction hL generalizing s with
  | here i =>
    intro _
    simp [← hc]
  | @left i a' b' k w' p h hp' ih =>
    intro hk
    obtain ⟨nd, hnd, hin⟩ : ∃ nd, nodeAt t a' = some nd ∧ nd.isLeaf = false := by
      cases hp' with
      | here => exact ⟨_, hk, rfl⟩
      | left h _ => exact ⟨_, h, rfl⟩
      | right h _ => exact ⟨_, h, rfl⟩
    have hne : nd.isEos = false := by cases nd <;> simp_all [Node.isLeaf, Node.isEos]
    rw [List.length_cons]
    refine runMoves_step (t := { s with bitSrc := s.bitSrc.skip 1, events := s.events + 1, cur := some a' }) hb ?_
      ((ih ?_ ?_ rfl ?_ ?_ hk).trans ?_)
    · rw [blockMove_decodeBit hp]
      simp [decodeBitMove, inBit_cons hr, hc, ht, h, Node.child, decodeArrive, hnd, hne, hin, ← hp]
    · exact hb
    · exact hp
    · exact bitsToCome_skip (a := [false]) hr rfl
    · exact ht
    simp [BitSource.skip_skip, Nat.add_comm, Nat.add_left_comm]
  | @right i a' b' k w' p h hp' ih =>
    intro hk
    obtain ⟨nd, hnd, hin⟩ : ∃ nd, nodeAt t b' = some nd ∧ nd.isLeaf = false := by
      cases hp' with
      | here => exact ⟨_, hk, rfl⟩
      | left h _ => exact ⟨_, h, rfl⟩
      | right h _ => exact ⟨_, h, rfl⟩
    have hne : nd.isEos = false := by cases nd <;> simp_all [Node.isLeaf, Node.isEos]
    rw [List.length_cons]
    refine runMoves_step (t := { s with bitSrc := s.bitSrc.skip 1, events := s.events + 1, cur := some b' }) hb ?_
      ((ih ?_ ?_ rfl ?_ ?_ hk).trans ?_)
    · rw [blockMove_decodeBit hp]
      simp [decodeBitMove, inBit_cons hr, hc, ht, h, Node.child, decodeArrive, hnd, hne, hin, ← hp]
    · exact hb
    · exact hp
    · exact bitsToCome_skip (a := [true]) hr rfl
    · exact ht
    simp [BitSource.skip_skip, Nat.add_comm, Nat.add_left_comm]

/-- Where DECODE stands after the last bit of a leaf's path. -/
def leafPoint (c : Sym) : Point := if c = eosSym then .fin else .decodeOut c

/-- DECODE reads the path of a leaf of a held tree, one bit a move. -/
theorem run_path {T : HTree} {i : Idx} {is : List Idx} {s : State} (hT : Holds s.node T i is) {c : Sym}
    {p rest : List Bool} (hpc : (c, p) ∈ T.paths) (hpn : p ≠ []) (hb : s.phase ≠ .idle) (hp : s.point = .decodeBit)
    (hc : s.cur = some i) (hr : bitsToCome s = p ++ rest) :
    ∃ k, runMoves p.length s =
      .ok { s with events := s.events + p.length, bitSrc := s.bitSrc.skip p.length, cur := some k,
                   point := leafPoint c } := by
  induction T generalizing s i is p with
  | leaf d =>
    simp only [HTree.paths, List.mem_singleton, Prod.mk.injEq] at hpc
    exact absurd hpc.2 hpn
  | node l r ihl ihr =>
    obtain ⟨w, a, b, il, ir, hw, hl, hr', -⟩ := hT
    simp only [HTree.paths, List.mem_append, List.mem_map, Prod.mk.injEq, Prod.exists] at hpc
    obtain ⟨x, p', U, j, js, hU, hpU, rfl, hj, hx⟩ : ∃ x p' U j js, Holds s.node U j js ∧ (c, p') ∈ U.paths ∧
        p = x :: p' ∧ j = (if x then b else a) ∧ (U = l ∨ U = r) := by
      rcases hpc with ⟨c', p', hp', rfl, rfl⟩ | ⟨c', p', hp', rfl, rfl⟩
      · exact ⟨false, p', l, a, il, hl, hp', rfl, rfl, .inl rfl⟩
      · exact ⟨true, p', r, b, ir, hr', hp', rfl, rfl, .inr rfl⟩
    cases hcase : U with
    | leaf d =>
      subst hcase
      simp only [HTree.paths, List.mem_singleton, Prod.mk.injEq] at hpU
      obtain ⟨rfl, rfl⟩ := hpU
      obtain ⟨-, v, hv⟩ := hU
      refine ⟨j, ?_⟩
      rw [List.length_singleton, runMoves_one hb, blockMove_decodeBit hp]
      by_cases he : c = eosSym
      · subst he
        simp [decodeBitMove, inBit_cons hr, hc, hw, Node.child, decodeArrive, ← hj, hv, Node.isEos, leafPoint]
      · simp [decodeBitMove, inBit_cons hr, hc, hw, Node.child, decodeArrive, ← hj, hv, Node.isEos, leafPoint, he,
          Node.isLeaf, Node.sym]
    | node l2 r2 =>
      obtain ⟨v, a2, b2, _, _, hv, -⟩ := hcase ▸ hU
      have hp'n : p' ≠ [] := by
        rintro rfl
        rw [hcase] at hpU
        simp [HTree.paths] at hpU
      have hih : ∀ {s : State}, Holds s.node U j js → s.phase ≠ .idle → s.point = .decodeBit → s.cur = some j →
          bitsToCome s = p' ++ rest → ∃ k, runMoves p'.length s =
            .ok { s with events := s.events + p'.length, bitSrc := s.bitSrc.skip p'.length, cur := some k,
                         point := leafPoint c } := by
        intro s h1 h2 h3 h4 h5
        rcases hx with rfl | rfl
        · exact ihl h1 hpU hp'n h2 h3 h4 h5
        · exact ihr h1 hpU hp'n h2 h3 h4 h5
      obtain ⟨k, hk⟩ := hih (s := { s with bitSrc := s.bitSrc.skip 1, events := s.events + 1, cur := some j }) hU hb hp rfl
        (bitsToCome_skip (a := [x]) hr rfl)
      refine ⟨k, ?_⟩
      rw [List.length_cons]
      refine runMoves_step hb ?_ (hk.trans ?_)
      · rw [blockMove_decodeBit hp]
        simp [decodeBitMove, inBit_cons hr, hc, hw, Node.child, decodeArrive, ← hj, hv, Node.isEos, Node.isLeaf, ← hp]
      simp [BitSource.skip_skip, Nat.add_comm, Nat.add_left_comm]

/-- In a tree with an internal root no path is empty. -/
theorem HTree.path_ne_nil {T : HTree} (hT : T.isNode = true) {c : Sym} {p : List Bool} (hp : (c, p) ∈ T.paths) : p ≠ [] := by
  cases T with
  | leaf d => cases hT
  | node l r =>
    simp only [HTree.paths, List.mem_append, List.mem_map, Prod.mk.injEq, Prod.exists] at hp
    rcases hp with ⟨_, _, _, _, rfl⟩ | ⟨_, _, _, _, rfl⟩ <;> simp

theorem byteSym_ne_eos (b : Byte) : byteSym b ≠ eosSym := by
  intro h
  have := congrArg BitVec.toNat h
  simp only [byteSym, eosSym, BitVec.toNat_setWidth, BitVec.toNat_ofNat] at this
  have := b.isLt
  omega

theorem byteSym_low (b : Byte) : (byteSym b).extractLsb' 0 8 = b := by
  apply BitVec.eq_of_toNat_eq
  simp only [byteSym, BitVec.extractLsb'_toNat, BitVec.toNat_setWidth, Nat.shiftRight_zero]
  have := b.isLt
  omega

/-- DECODE reads the codes of bytes and writes the bytes. -/
theorem run_decodeBytes (bs : List Byte) {T : HTree} {i : Idx} {is : List Idx} {code : Cells (List Bool)} {s : State}
    (hT : Holds s.node T i is) (hi : T.isNode = true) (hC : CodesOf T code) {body rest : List Bool}
    (hbody : bodyBits code bs = some body) (hb : s.phase ≠ .idle) (hp : s.point = .decodeBit) (hc : s.cur = some i)
    (hroot : s.root = some i) (hr : bitsToCome s = body ++ rest) :
    runMoves (body.length + bs.length) s =
      .ok { s with events := s.events + (body.length + bs.length), bitSrc := s.bitSrc.skip body.length,
                   byteSink := s.byteSink ++ bs } := by
  induction bs generalizing s body with
  | nil =>
    simp only [bodyBits, Option.some.injEq] at hbody
    subst hbody
    simp
  | cons b bs ih =>
    simp only [bodyBits] at hbody
    split at hbody
    · next p q h1 h2 =>
      cases hbody
      have hpp := (hC _ _).1 h1
      rw [List.append_assoc] at hr
      obtain ⟨k, hk⟩ := run_path hT hpp (HTree.path_ne_nil hi hpp) hb hp hc hr
      simp only [leafPoint, byteSym_ne_eos, if_false] at hk
      have h3 := runMoves_then hk (runMoves_one hb)
      rw [blockMove_decodeOut rfl] at h3
      simp only [decodeOutMove, hroot, byteSym_low, outByte] at h3
      rw [List.length_append, List.length_cons,
        show p.length + q.length + (bs.length + 1) = (p.length + 1) + (q.length + bs.length) by omega]
      refine runMoves_then h3 ((ih ?_ h2 ?_ ?_ ?_ ?_ ?_).trans ?_)
      · exact hT
      · exact hb
      · rfl
      · rfl
      · rfl
      · exact bitsToCome_skip hr rfl
      simp [hp, hc, hroot, BitSource.skip_skip]
      omega
    · cases hbody

end Sys2Proof.Machine
end

