-- ==== Sys2Proof/Laws/StageRuns.lean ====
section
/-! SUPPORT. Whole stage bodies: from a stage's start to its last statement, and that statement. -/

namespace Sys2Proof.Machine

/-- The last statement of a stage. -/
theorem run_fin {s : State} (hb : s.phase ≠ .idle) (hp : s.point = .fin) : runMoves 1 s = .ok (stageEnd s) := by
  rw [runMoves_one hb, blockMove_fin hp]

/-- The first statement of a stage. -/
theorem run_start {s t : State} {r : Result} {n : Nat} (hb : s.phase ≠ .idle) (hp : s.point = .start)
    (h : stageStart s = .ok t) (hr : runMoves n t = r) : runMoves (n + 1) s = r :=
  runMoves_step hb ((blockMove_start hp).trans h) hr

/-- Stage 1: COUNT counts all that is to come, while no counter is full. -/
theorem stage_count {bs : List Byte} {s : State} (hs : s.phase = .count) (hp : s.point = .start)
    (hr : bytesToCome s = bs) (hf : ∀ b, (freqAt s.freq b).toNat + bs.count b ≤ maxCount s.cfg) :
    runMoves (bs.length + 2) s =
      .ok { s with point := .fin, events := s.events + (bs.length + 1), byteSrc := s.byteSrc.skip bs.length,
                   freq := countInto s.freq bs } := by
  have hb : s.phase ≠ .idle := by rw [hs]; decide
  have h1 := run_countBytes bs (rest := []) (s := { s with point := .countByte }) hb rfl
    (by rw [List.append_nil]; exact hr) hf
  refine run_start hb hp (by simp only [stageStart, hs, countStart]) ((runMoves_then h1 (runMoves_one hb)).trans ?_)
  rw [blockMove_countByte rfl, countMove, inByte_of_nil]
  · simp [Nat.add_assoc]
  · refine bytesToCome_skip (s := s) (a := bs) (by simpa using hr) ?_
    rfl

/-- Stage 2: BUILD. -/
theorem stage_build {s : State} (hs : s.phase = .build) (hp : s.point = .start) :
    ∃ t T, runMoves (leafCount s.freq + 2) s =
        .ok { s with node := t, root := some (BitVec.ofNat 10 (2 * leafCount s.freq - 2)),
                     nnodes := BitVec.ofNat 10 (2 * leafCount s.freq - 1), pq := [], point := .fin } ∧
      TreeAt { s with node := t, root := some (BitVec.ofNat 10 (2 * leafCount s.freq - 2)),
                      nnodes := BitVec.ofNat 10 (2 * leafCount s.freq - 1) } T ∧
      T.leaves.Perm ((leafList s.freq).map Prod.fst) ∧
      (∀ j c w, (leafList s.freq)[j]? = some (c, w) → nodeAt t (BitVec.ofNat 10 j) = some (.leaf c w)) ∧
      (∀ j, 2 * leafCount s.freq - 1 ≤ j → Cells.get t j = Cells.get s.node j) ∧
      MergedFrom s.cfg t (leafCount s.freq) (2 * leafCount s.freq - 1) := by
  have hb : s.phase ≠ .idle := by rw [hs]; decide
  obtain ⟨t, T, h1, h2, h3⟩ := run_build (s := { s with point := .buildLeaves }) hb rfl
  refine ⟨t, T, ?_, h2, h3⟩
  exact run_start hb hp (by simp only [stageStart, hs, buildStart]) h1

/-- The table GENCODES makes of a sound tree is its table. -/
theorem codesOf_enterPaths {T : HTree} (hT : T.leaves.Nodup) : CodesOf T (enterPaths [] T.paths) := by
  intro c p
  rw [codeAt_enterPaths (by rw [T.paths_fst]; exact hT)]
  simp

/-- Stage 3: GENCODES makes the code table of the tree. -/
theorem stage_gencodes {T : HTree} {s : State} (hs : s.phase = .gencodes) (hp : s.point = .start) (hT : TreeAt s T) :
    runMoves (T.size + 2) s =
      .ok { s with point := .fin, walk := [], code := enterPaths [] T.paths } := by
  have hb : s.phase ≠ .idle := by rw [hs]; decide
  obtain ⟨r, is, hr, hh, hsound, -⟩ := hT
  have h1 := run_walk (T := T) (s := { s with point := .walkNode, code := [], walk := [(r, [])] })
    (rest := []) hh hsound.symbols hb rfl rfl
  refine run_start hb hp (by simp only [stageStart, hs, gencodesStart, hr])
    ((runMoves_then h1 (runMoves_one hb)).trans ?_)
  rw [blockMove_walkNode rfl]
  simp [walkMove]

/-- Stage 4: WRITE_TAG sends the tag of the selected header format. -/
theorem stage_writeTag {s : State} (hs : s.phase = .writeTag) (hp : s.point = .start) :
    runMoves 34 s =
      .ok { s with point := .fin, events := s.events + 32, hmode := s.hdrMode,
                   bitSink := s.bitSink.append (tagBits (tagOf s.cfg s.hdrMode)) } := by
  have hb : s.phase ≠ .idle := by rw [hs]; decide
  have h1 := run_sendTag (tagBits (tagOf s.cfg s.hdrMode))
    (s := { s with point := .sendTag (tagBits (tagOf s.cfg s.hdrMode)), hmode := s.hdrMode }) hb rfl
  rw [tagBits_length] at h1
  refine run_start hb hp (by simp only [stageStart, hs, writeTagStart]) (h1.trans ?_)
  rfl

/-- Stage 5 with the full-tree header. -/
theorem stage_writeHeader_tree {T : HTree} {r : Idx} {is : List Idx} {s : State} (hs : s.phase = .writeHeader)
    (hp : s.point = .start) (hm : s.hmode = .tree) (hr : s.root = some r) (hT : Holds s.node T r is) :
    runMoves (T.header.length + 2) s =
      .ok { s with point := .fin, events := s.events + T.header.length, walk := [],
                   bitSink := s.bitSink.append T.header } := by
  have hb : s.phase ≠ .idle := by rw [hs]; decide
  have h1 := run_serTree (T := T) (s := { s with point := .serTree [], walk := [(r, [])] })
    (rest := []) hT hb rfl rfl
  refine run_start hb hp (by simp only [stageStart, hs, writeHeaderStart, hm, hr])
    ((runMoves_then h1 (runMoves_one hb)).trans ?_)
  rw [blockMove_serTree rfl]
  simp [serTreeMove]

/-- Stage 5 with the counts header. -/
theorem stage_writeHeader_counts {s : State} (hs : s.phase = .writeHeader) (hp : s.point = .start)
    (hm : s.hmode = .counts) :
    runMoves (alphaSize * (s.cfg.wCnt + 1) + 2) s =
      .ok { s with point := .fin, events := s.events + alphaSize * s.cfg.wCnt,
                   bitSink := s.bitSink.append (countsHeader s.cfg s.freq) } := by
  have hb : s.phase ≠ .idle := by rw [hs]; decide
  have h1 := run_serCounts alphaSize (n := 0) (s := { s with point := .serCounts 0 [] })
    (Nat.zero_add _) hb rfl
  refine run_start hb hp (by simp only [stageStart, hs, writeHeaderStart, hm]) (h1.trans ?_)
  simp only [countsHeader, List.range_eq_range']

/-- Stage 6: ENCODE. -/
theorem stage_encode {body e : List Bool} {s : State} (hs : s.phase = .encode) (hp : s.point = .start)
    (hbody : bodyBits s.code s.byteSrc.s2 = some body) (he : codeAt s.code eosSym = some e) :
    runMoves (body.length + 2 * s.byteSrc.s2.length + e.length + 3) s =
      .ok { s with point := .fin, events := s.events + (body.length + s.byteSrc.s2.length + e.length + 3),
                   byteSrc := { s.byteSrc with pass := .two, pos := s.byteSrc.s2.length,
                                               rewinds := s.byteSrc.rewinds + 1 },
                   bitSink := { bits := s.bitSink.bits ++ body ++ e, ended := true } } := by
  have hb : s.phase ≠ .idle := by rw [hs]; decide
  have h1 := run_encodeBytes s.byteSrc.s2 (rest := []) (body := body)
    (s := { s with
      point := .encodeByte
      events := s.events + 1
      byteSrc := { s.byteSrc with pass := .two, pos := 0, rewinds := s.byteSrc.rewinds + 1 } })
    hb rfl (by simp [bytesToCome, ByteSource.seq]) hbody
  rw [show body.length + 2 * s.byteSrc.s2.length + e.length + 3 =
    ((body.length + 2 * s.byteSrc.s2.length) + ((e.length + 1) + 1)) + 1 by omega]
  refine run_start hb hp (by simp only [stageStart, hs, encodeStart, rewind]) (runMoves_then h1 ?_)
  refine runMoves_step hb (t := { s with
      point := .encodeEos e
      events := s.events + 1 + (body.length + s.byteSrc.s2.length) + 1
      byteSrc := { s.byteSrc with pass := .two, pos := s.byteSrc.s2.length, rewinds := s.byteSrc.rewinds + 1 }
      bitSink := s.bitSink.append body }) ?_ ?_
  · rw [blockMove_encodeByte rfl, encodeByteMove, inByte_of_nil]
    · simp [he, ByteSource.skip]
    · simp [bytesToCome, ByteSource.seq, ByteSource.skip]
  · rw [run_encodeEos e (s := { s with
      point := .encodeEos e
      events := s.events + 1 + (body.length + s.byteSrc.s2.length) + 1
      byteSrc := { s.byteSrc with pass := .two, pos := s.byteSrc.s2.length, rewinds := s.byteSrc.rewinds + 1 }
      bitSink := s.bitSink.append body }) hb rfl]
    simp
    omega

/-- Stage 7: READ_TAG reads the 32 bits of a tag and checks it. -/
theorem stage_readTag {v : Word} {rest : List Bool} {s : State} (hs : s.phase = .readTag) (hp : s.point = .start)
    (hr : bitsToCome s = tagBits v ++ rest) :
    runMoves 34 s =
      .ok (checkTag v { s with point := .recvTag 0 v, events := s.events + 32, bitSrc := s.bitSrc.skip 32 }) := by
  have hb : s.phase ≠ .idle := by rw [hs]; decide
  have h1 := run_recvTag (tagBits v) (n := 0) (v := 0) (s := { s with point := .recvTag 32 0 }) hb
    (by simp) hr
  have hv : shiftAll 0 (tagBits v) = v := by
    apply BitVec.eq_of_toNat_eq
    rw [tagBits, shiftAll_zero (by decide)]
    exact Nat.mod_eq_of_lt v.isLt
  rw [tagBits_length, hv] at h1
  refine run_start hb hp (by simp only [stageStart, hs, readTagStart]) ((runMoves_then h1 (runMoves_one hb)).trans ?_)
  rw [blockMove_recvTag rfl]
  rfl

/-- Stage 8 reads the header of a tree with distinct symbols, with the bookkeeping of a fresh call, and comes to checks
(d) and (e) of R204. -/
theorem run_readHeader_tree {T : HTree} {rest : List Bool} {s : State} (hs : s.phase = .readHeader)
    (hp : s.point = .start) (hm : s.hmode = .tree) (hfr : FreshBooks s) (hn : T.leaves.Nodup)
    (hc : ∀ c ∈ T.leaves, c.toNat ≤ 256) (hr : bitsToCome s = T.header ++ rest) :
    runMoves (T.header.length + T.leaves.length + 1) s =
      .ok { s with
        point := .desCheck
        events := s.events + T.header.length
        bitSrc := s.bitSrc.skip T.header.length
        root := some 0
        nnodes := BitVec.ofNat 10 T.size
        seen := markSeen 0 T.leaves
        nint := BitVec.ofNat 9 (T.leaves.length - 1)
        nleaf := BitVec.ofNat 9 T.leaves.length
        node := writeTree T 0 s.node } := by
  have hb : s.phase ≠ .idle := by rw [hs]; decide
  obtain ⟨f1, f2, f3, f4, f5⟩ := hfr
  have hle := length_le_of_symbols hn hc
  have hsz := T.size_leaves
  have hz : s.nnodes.toNat = 0 := by rw [f1]; rfl
  have hi0 : s.nint.toNat = 0 := by rw [f3]; rfl
  refine run_start hb hp (by simp only [stageStart, hs, readHeaderStart, hm])
    ((run_desNode T (rest := rest) (s := { s with point := .desNode }) hb rfl (by simp only [hz, maxNodes]; omega) hr hc
      hn (by simp [f2]) (by simp only [hi0]; omega)).trans ?_)
  simp [closeNode, afterTree, f1, f2, f3, f4, f5]

/-- Stage 8 with the full-tree header of a sound tree, with the bookkeeping of a fresh call. -/
theorem stage_readHeader_tree {T : HTree} {rest : List Bool} {s : State} (hs : s.phase = .readHeader)
    (hp : s.point = .start) (hm : s.hmode = .tree) (hfr : FreshBooks s) (hT : T.Sound)
    (hr : bitsToCome s = T.header ++ rest) :
    runMoves (T.header.length + T.leaves.length + 2) s =
      .ok { s with
        point := .fin
        events := s.events + T.header.length
        bitSrc := s.bitSrc.skip T.header.length
        root := some 0
        nnodes := BitVec.ofNat 10 T.size
        seen := markSeen 0 T.leaves
        nint := BitVec.ofNat 9 (T.leaves.length - 1)
        nleaf := BitVec.ofNat 9 T.leaves.length
        node := writeTree T 0 s.node } := by
  have hb : s.phase ≠ .idle := by rw [hs]; decide
  refine (runMoves_then (run_readHeader_tree hs hp hm hfr hT.unique hT.symbols hr) (runMoves_one hb)).trans ?_
  have hroot : ∃ w a b, nodeAt (writeTree T 0 s.node) 0 = some (.internal w a b) := by
    cases T with
    | leaf c => exact absurd hT.rootInternal (by simp [HTree.isNode])
    | node l r => exact ⟨_, _, _, by rw [nodeAt, show (0 : Idx).toNat = 0 from rfl, writeTree, Cells.get_put_same]⟩
  obtain ⟨w, a, b, hw⟩ := hroot
  have hseen : (markSeen 0 T.leaves).getLsbD 256 = true := by
    have := getLsbD_markSeen 0 T.leaves eosSym (by decide)
    rw [show eosSym.toNat = 256 from rfl] at this
    rw [this]
    simp [hT.hasEos]
  rw [blockMove_desCheck rfl]
  simp only [desCheckMove, hw, Node.isLeaf, hseen]
  simp

/-- The bits of a counts header, as ReadCounts reads them. -/
theorem countsHeader_range' (c : Config) (F : Cells Word) :
    countsHeader c F = (List.range' 0 256).flatMap (fun n => countBits c (freqAt F (freqIndex n))) := by
  rw [countsHeader, List.range_eq_range']
  rfl

/-- Stage 8 with a counts header, up to BuildTree. -/
theorem run_readHeader_counts {F : Cells Word} {rest : List Bool} {s : State} (hs : s.phase = .readHeader)
    (hp : s.point = .start) (hm : s.hmode = .counts) (hr : bitsToCome s = countsHeader s.cfg F ++ rest)
    (hF : ∀ b, (freqAt F b).toNat < 2 ^ s.cfg.wCnt) :
    ∃ f, (∀ b, freqAt f b = freqAt F b) ∧
      runMoves (256 * (s.cfg.wCnt + 1) + 1) s =
        .ok { s with point := .buildLeaves, events := s.events + 256 * s.cfg.wCnt,
                     bitSrc := s.bitSrc.skip (256 * s.cfg.wCnt), freq := f } := by
  have hb : s.phase ≠ .idle := by rw [hs]; decide
  rw [countsHeader_range'] at hr
  have h1 := run_readCounts 255 (n := 0) (F := F) (rest := rest)
    (s := { s with point := .readCounts 0 s.cfg.wCnt 0 }) rfl hb rfl hr hF
  refine ⟨readInto F s.freq (List.range' 0 256), fun b => ?_, ?_⟩
  · rw [freqAt_readInto _ _ (by simp)]
    have := b.isLt
    simp [List.mem_range'_1]
    omega
  · refine run_start hb hp (by simp only [stageStart, hs, readHeaderStart, hm]) h1

/-- FREQ enters BuildTree's leaves by its values only. -/
theorem leafList_congr {F G : Cells Word} (h : ∀ b, freqAt F b = freqAt G b) : leafList F = leafList G := by
  simp [leafList, nonzeroCount, h]

theorem leafCount_congr {F G : Cells Word} (h : ∀ b, freqAt F b = freqAt G b) : leafCount F = leafCount G := by
  rw [← leafList_length, ← leafList_length, leafList_congr h]

/-- Stage 9: DECODE reads the codes of bytes and of EOS, and writes the bytes. -/
theorem stage_decode {T : HTree} {code : Cells (List Bool)} {bs : List Byte} {body e rest : List Bool} {s : State}
    (hs : s.phase = .decode) (hp : s.point = .start) (hT : TreeAt s T) (hC : CodesOf T code)
    (hbody : bodyBits code bs = some body) (he : codeAt code eosSym = some e)
    (hr : bitsToCome s = body ++ (e ++ rest)) :
    ∃ k, runMoves (body.length + bs.length + e.length + 1) s =
      .ok { s with point := .fin, events := s.events + (body.length + bs.length + e.length), cur := some k,
                   bitSrc := s.bitSrc.skip (body.length + e.length), byteSink := s.byteSink ++ bs } := by
  have hb : s.phase ≠ .idle := by rw [hs]; decide
  obtain ⟨r, is, hroot, hh, hsound, -⟩ := hT
  have h1 := run_decodeBytes bs (s := { s with point := .decodeBit, cur := some r }) hh
    hsound.rootInternal hC hbody hb rfl rfl hroot hr
  have hpe := (hC _ _).1 he
  obtain ⟨k, h2⟩ := run_path (rest := rest) (s := { s with
      point := .decodeBit
      events := s.events + (body.length + bs.length)
      cur := some r
      bitSrc := s.bitSrc.skip body.length
      byteSink := s.byteSink ++ bs }) hh hpe (HTree.path_ne_nil hsound.rootInternal hpe) hb rfl rfl
    (bitsToCome_skip hr rfl)
  refine ⟨k, ?_⟩
  refine run_start hb hp (by simp only [stageStart, hs, decodeStart, hroot])
    ((runMoves_then h1 h2).trans ?_)
  simp [leafPoint, BitSource.skip_skip]
  omega

end Sys2Proof.Machine
end

