-- ==== Sys2Proof/Laws/MoveCases.lean ====
section
/-! SUPPORT. Everything one move of the block can do when it answers a state, one constructor for each way. -/

namespace Sys2Proof.Machine

/-- The ways of a move; those that make a transfer count one event. -/
inductive Moved (s : State) : State → Prop where
  /-- An idle block, parked. -/
  | parked : s.phase = .idle → s.point = .start → Moved s s
  /-- COUNT begins. -/
  | countStart : s.phase = .count → s.point = .start → Moved s { s with point := .countByte }
  /-- COUNT at EOI. -/
  | countEnd : s.point = .countByte → bytesToCome s = [] → Moved s { s with point := .fin, events := s.events + 1 }
  /-- COUNT with the counter full. -/
  | countFull (b : Byte) (rest : List Byte) : s.point = .countByte → bytesToCome s = b :: rest →
    (freqAt s.freq b).toNat = maxCount s.cfg → Moved s (raiseError .countOverflow { s with byteSrc := s.byteSrc.skip 1, events := s.events + 1 })
  /-- COUNT counts a byte. -/
  | countOne (b : Byte) (rest : List Byte) : s.point = .countByte → bytesToCome s = b :: rest →
    (freqAt s.freq b).toNat ≠ maxCount s.cfg →
    Moved s { s with byteSrc := s.byteSrc.skip 1, events := s.events + 1, freq := freqPut s.freq b (freqAt s.freq b + 1) }
  /-- BUILD begins. -/
  | buildStart : s.phase = .build → s.point = .start → Moved s { s with point := .buildLeaves }
  /-- BuildTree makes its leaves. -/
  | leaves : s.point = .buildLeaves →
    Moved s { s with node := putLeaves (leafList s.freq) 0 s.node, pq := indicesBelow (leafCount s.freq)
                     point := .buildMerge (BitVec.ofNat 10 (leafCount s.freq)) }
  /-- BuildTree merges two nodes. -/
  | merge (n a b : Idx) (na nb : Node) (q : List Idx) : s.point = .buildMerge n → 2 ≤ s.pq.length →
    extractMin s.node s.pq = .ok (a, s.pq.erase a) → extractMin s.node (s.pq.erase a) = .ok (b, q) →
    nodeAt s.node a = some na → nodeAt s.node b = some nb → n.toNat < maxNodes → q.length + 2 = s.pq.length →
    Moved s { s with node := Cells.put s.node n.toNat (.internal (addWt s.cfg na.wt nb.wt) a b), pq := q ++ [n]
                     point := .buildMerge (n + 1) }
  /-- BuildTree ends. -/
  | buildEnd (n r : Idx) : s.point = .buildMerge n → s.pq = [r] →
    Moved s { s with root := some r, nnodes := n, pq := [], point := .fin }
  /-- GENCODES begins. -/
  | gencodesStart (r : Idx) : s.phase = .gencodes → s.point = .start → s.root = some r →
    Moved s { s with code := [], walk := [(r, [])], point := .walkNode }
  /-- Walk ends. -/
  | walkEnd : s.point = .walkNode → s.walk = [] → Moved s { s with point := .fin }
  /-- Walk at a leaf. -/
  | walkLeaf (i : Idx) (p : List Bool) (rest : List (Idx × List Bool)) (c : Sym) (w : Nat) : s.point = .walkNode →
    s.walk = (i, p) :: rest → nodeAt s.node i = some (.leaf c w) → c.toNat < symCount →
    Moved s { s with walk := rest, code := Cells.put s.code c.toNat p }
  /-- Walk at an internal node. -/
  | walkInternal (i : Idx) (p : List Bool) (rest : List (Idx × List Bool)) (w : Nat) (l r : Idx) :
    s.point = .walkNode → s.walk = (i, p) :: rest → nodeAt s.node i = some (.internal w l r) →
    Moved s { s with walk := (l, p ++ [false]) :: (r, p ++ [true]) :: rest }
  /-- WRITE_TAG begins. -/
  | writeTagStart : s.phase = .writeTag → s.point = .start →
    Moved s { s with hmode := s.hdrMode, point := .sendTag (tagBits (tagOf s.cfg s.hdrMode)) }
  /-- WRITE_TAG has sent its tag. -/
  | sendTagEnd : s.point = .sendTag [] → Moved s { s with point := .fin }
  /-- WRITE_TAG sends a bit. -/
  | sendTagBit (b : Bool) (rest : List Bool) : s.point = .sendTag (b :: rest) →
    Moved s { s with bitSink := { s.bitSink with bits := s.bitSink.bits ++ [b] }, events := s.events + 1, point := .sendTag rest }
  /-- WRITE_HEADER begins, full tree. -/
  | writeTreeStart (r : Idx) : s.phase = .writeHeader → s.point = .start → s.hmode = .tree → s.root = some r →
    Moved s { s with walk := [(r, [])], point := .serTree [] }
  /-- WRITE_HEADER begins, counts. -/
  | writeCountsStart : s.phase = .writeHeader → s.point = .start → s.hmode = .counts →
    Moved s { s with point := .serCounts 0 [] }
  /-- SerTree sends a bit of a symbol. -/
  | serBit (b : Bool) (rest : List Bool) : s.point = .serTree (b :: rest) →
    Moved s { s with bitSink := { s.bitSink with bits := s.bitSink.bits ++ [b] }, events := s.events + 1, point := .serTree rest }
  /-- SerTree ends. -/
  | serEnd : s.point = .serTree [] → s.walk = [] → Moved s { s with point := .fin }
  /-- SerTree at a leaf. -/
  | serLeaf (i : Idx) (p : List Bool) (rest : List (Idx × List Bool)) (c : Sym) (w : Nat) : s.point = .serTree [] →
    s.walk = (i, p) :: rest → nodeAt s.node i = some (.leaf c w) →
    Moved s { s with bitSink := { s.bitSink with bits := s.bitSink.bits ++ [true] }, events := s.events + 1, walk := rest
                     point := .serTree (symBits c) }
  /-- SerTree at an internal node. -/
  | serInternal (i : Idx) (p : List Bool) (rest : List (Idx × List Bool)) (w : Nat) (l r : Idx) :
    s.point = .serTree [] → s.walk = (i, p) :: rest → nodeAt s.node i = some (.internal w l r) →
    Moved s { s with bitSink := { s.bitSink with bits := s.bitSink.bits ++ [false] }, events := s.events + 1
                     walk := (l, p ++ [false]) :: (r, p ++ [true]) :: rest, point := .serTree [] }
  /-- SerCounts sends a bit. -/
  | serCountBit (n : Nat) (b : Bool) (rest : List Bool) : s.point = .serCounts n (b :: rest) →
    Moved s { s with bitSink := { s.bitSink with bits := s.bitSink.bits ++ [b] }, events := s.events + 1, point := .serCounts n rest }
  /-- SerCounts takes up the next count. -/
  | serCountNext (n : Nat) : s.point = .serCounts n [] → n < alphaSize →
    Moved s { s with point := .serCounts (n + 1) (countBits s.cfg (freqAt s.freq (freqIndex n))) }
  /-- SerCounts ends. -/
  | serCountsEnd (n : Nat) : s.point = .serCounts n [] → alphaSize ≤ n → Moved s { s with point := .fin }
  /-- ENCODE begins. -/
  | encodeStart : s.phase = .encode → s.point = .start →
    Moved s { s with byteSrc := { s.byteSrc with pass := .two, pos := 0, rewinds := s.byteSrc.rewinds + 1 }, events := s.events + 1
                     point := .encodeByte }
  /-- ENCODE at EOI. -/
  | encodeEoi (p : List Bool) : s.point = .encodeByte → bytesToCome s = [] → codeAt s.code eosSym = some p →
    Moved s { s with point := .encodeEos p, events := s.events + 1 }
  /-- ENCODE takes up the code of a byte. -/
  | encodeTake (b : Byte) (rest : List Byte) (p : List Bool) : s.point = .encodeByte → bytesToCome s = b :: rest →
    codeAt s.code (byteSym b) = some p →
    Moved s { s with byteSrc := s.byteSrc.skip 1, events := s.events + 1, point := .encodeCode p }
  /-- ENCODE meets a byte without a code. -/
  | encodeMissing (b : Byte) (rest : List Byte) : s.point = .encodeByte → bytesToCome s = b :: rest →
    codeAt s.code (byteSym b) = none →
    Moved s (raiseError .missingCode { s with byteSrc := s.byteSrc.skip 1, events := s.events + 1 })
  /-- ENCODE has sent a code. -/
  | encodeNext : s.point = .encodeCode [] → Moved s { s with point := .encodeByte }
  /-- ENCODE sends a bit of a code. -/
  | encodeBit (b : Bool) (rest : List Bool) : s.point = .encodeCode (b :: rest) →
    Moved s { s with bitSink := { s.bitSink with bits := s.bitSink.bits ++ [b] }, events := s.events + 1, point := .encodeCode rest }
  /-- ENCODE sends END. -/
  | encodeEnd : s.point = .encodeEos [] →
    Moved s { s with bitSink := { s.bitSink with ended := true }, events := s.events + 1, point := .fin }
  /-- ENCODE sends a bit of CODE[EOS]. -/
  | encodeEosBit (b : Bool) (rest : List Bool) : s.point = .encodeEos (b :: rest) →
    Moved s { s with bitSink := { s.bitSink with bits := s.bitSink.bits ++ [b] }, events := s.events + 1, point := .encodeEos rest }
  /-- READ_TAG begins. -/
  | readTagStart : s.phase = .readTag → s.point = .start → Moved s { s with point := .recvTag 32 0 }
  /-- READ_TAG accepts a tag. -/
  | tagGood (v : Word) (m : HdrFormat) : s.point = .recvTag 0 v →
    (v = s.cfg.tagTree ∧ m = .tree ∨ v ≠ s.cfg.tagTree ∧ v = s.cfg.tagCounts ∧ s.cfg.hasCounts = true ∧ m = .counts) →
    Moved s { s with hmode := m, point := .fin }
  /-- READ_TAG refuses a tag. -/
  | tagBad (v : Word) : s.point = .recvTag 0 v → v ≠ s.cfg.tagTree →
    ¬ (v = s.cfg.tagCounts ∧ s.cfg.hasCounts = true) → Moved s (raiseError .format s)
  /-- READ_TAG at EOI. -/
  | tagShort (n : Nat) (v : Word) : s.point = .recvTag (n + 1) v → bitsToCome s = [] → Moved s (raiseError .format { s with events := s.events + 1 })
  /-- READ_TAG reads a bit. -/
  | tagBit (n : Nat) (v : Word) (b : Bool) (rest : List Bool) : s.point = .recvTag (n + 1) v →
    bitsToCome s = b :: rest → Moved s { s with bitSrc := s.bitSrc.skip 1, events := s.events + 1, point := .recvTag n (shiftIn v b) }
  /-- READ_HEADER begins, full tree. -/
  | readTreeStart : s.phase = .readHeader → s.point = .start → s.hmode = .tree → Moved s { s with point := .desNode }
  /-- READ_HEADER begins, counts. -/
  | readCountsStart : s.phase = .readHeader → s.point = .start → s.hmode = .counts →
    Moved s { s with point := .readCounts 0 s.cfg.wCnt 0 }
  /-- DesNode at EOI. -/
  | desShort : s.point = .desNode → bitsToCome s = [] → Moved s (raiseError .hdrTrunc { s with events := s.events + 1 })
  /-- DesNode opens a leaf. -/
  | desLeaf (rest : List Bool) : s.point = .desNode → bitsToCome s = true :: rest →
    Moved s { s with bitSrc := s.bitSrc.skip 1, events := s.events + 1, nnodes := s.nnodes + 1, point := .desSym s.nnodes 9 0 }
  /-- DesNode meets one internal node too many. -/
  | desTooMany (rest : List Bool) : s.point = .desNode → bitsToCome s = false :: rest → s.nint = 256 →
    Moved s (raiseError .hdrMalformed { s with bitSrc := s.bitSrc.skip 1, events := s.events + 1, nnodes := s.nnodes + 1 })
  /-- DesNode opens an internal node. -/
  | desInternal (rest : List Bool) : s.point = .desNode → bitsToCome s = false :: rest → s.nint ≠ 256 →
    Moved s { s with bitSrc := s.bitSrc.skip 1, events := s.events + 1, nnodes := s.nnodes + 1, nint := s.nint + 1, stk := s.nnodes :: s.stk
                     point := .desNode }
  /-- DesNode reads a symbol that is above 256 or not new. -/
  | symBad (i : Idx) (v : Word) : s.point = .desSym i 0 v → 256 < v.toNat ∨ s.seen.getLsbD v.toNat = true →
    Moved s (raiseError .hdrMalformed s)
  /-- DesNode closes a leaf. -/
  | symGood (i : Idx) (v : Word) (t : State) : s.point = .desSym i 0 v → v.toNat ≤ 256 →
    s.seen.getLsbD v.toNat = false → i.toNat < maxNodes →
    closeNode s.stk i { s with seen := s.seen ||| (1#257 <<< v.toNat), nleaf := s.nleaf + 1
                               node := Cells.put s.node i.toNat (.leaf (v.setWidth 9) 0) } = .ok t →
    Moved s t
  /-- DesNode at EOI inside a symbol. -/
  | symShort (i : Idx) (n : Nat) (v : Word) : s.point = .desSym i (n + 1) v → bitsToCome s = [] →
    Moved s (raiseError .hdrTrunc { s with events := s.events + 1 })
  /-- DesNode reads a bit of a symbol. -/
  | symBit (i : Idx) (n : Nat) (v : Word) (b : Bool) (rest : List Bool) : s.point = .desSym i (n + 1) v →
    bitsToCome s = b :: rest → Moved s { s with bitSrc := s.bitSrc.skip 1, events := s.events + 1, point := .desSym i n (shiftIn v b) }
  /-- Checks (d) and (e) fail. -/
  | checkBad (r : Idx) (nd : Node) : s.point = .desCheck → s.root = some r → nodeAt s.node r = some nd →
    nd.isLeaf = true ∨ s.seen.getLsbD 256 = false → Moved s (raiseError .hdrMalformed s)
  /-- Checks (d) and (e) pass. -/
  | checkGood (r : Idx) (nd : Node) : s.point = .desCheck → s.root = some r → nodeAt s.node r = some nd →
    nd.isLeaf = false → s.seen.getLsbD 256 = true → Moved s { s with point := .fin }
  /-- ReadCounts ends a count. -/
  | countRead (k : Nat) (v : Word) : s.point = .readCounts k 0 v →
    Moved s { s with freq := freqPut s.freq (freqIndex k) v
                     point := if k + 1 < alphaSize then .readCounts (k + 1) s.cfg.wCnt 0 else .buildLeaves }
  /-- ReadCounts at EOI. -/
  | countShort (k n : Nat) (v : Word) : s.point = .readCounts k (n + 1) v → bitsToCome s = [] →
    Moved s (raiseError .hdrTrunc { s with events := s.events + 1 })
  /-- ReadCounts reads a bit. -/
  | countBit (k n : Nat) (v : Word) (b : Bool) (rest : List Bool) : s.point = .readCounts k (n + 1) v →
    bitsToCome s = b :: rest → Moved s { s with bitSrc := s.bitSrc.skip 1, events := s.events + 1, point := .readCounts k n (shiftIn v b) }
  /-- DECODE begins. -/
  | decodeStart (r : Idx) : s.phase = .decode → s.point = .start → s.root = some r →
    Moved s { s with cur := some r, point := .decodeBit }
  /-- DECODE at EOI. -/
  | decodeShort : s.point = .decodeBit → bitsToCome s = [] → Moved s (raiseError .truncated { s with events := s.events + 1 })
  /-- DECODE walks an edge to a node `k`, and goes on at `p`: the end, the byte of a leaf, or the next bit. -/
  | decodeEdge (b : Bool) (rest : List Bool) (c k : Idx) (w : Nat) (l r : Idx) (nd : Node) (p : Point) :
    s.point = .decodeBit → bitsToCome s = b :: rest → s.cur = some c → nodeAt s.node c = some (.internal w l r) →
    k = (if b then r else l) → nodeAt s.node k = some nd →
    (nd.isEos = true ∧ p = .fin ∨ nd.isEos = false ∧ nd.isLeaf = true ∧ p = .decodeOut nd.sym ∨
      nd.isEos = false ∧ nd.isLeaf = false ∧ p = .decodeBit) →
    Moved s { s with bitSrc := s.bitSrc.skip 1, events := s.events + 1, cur := some k, point := p }
  /-- DECODE writes a byte. -/
  | decodeOut (c : Sym) (r : Idx) : s.point = .decodeOut c → s.root = some r →
    Moved s { s with byteSink := s.byteSink ++ [c.extractLsb' 0 8], events := s.events + 1, cur := some r, point := .decodeBit }
  /-- A stage body ends. -/
  | stageEnd : s.point = .fin → Moved s (stageEnd s)

/-- What InByte does, by what is to come. -/
theorem inByte_come (s : State) :
    bytesToCome s = [] ∧ inByte s = (none, { s with events := s.events + 1 }) ∨
      ∃ b rest, bytesToCome s = b :: rest ∧ inByte s = (some b, { s with byteSrc := s.byteSrc.skip 1, events := s.events + 1 }) := by
  cases h : bytesToCome s with
  | nil => exact .inl ⟨rfl, inByte_of_nil h⟩
  | cons b rest => exact .inr ⟨b, rest, rfl, inByte_cons h⟩

/-- What InBit does, by what is to come. -/
theorem inBit_come (s : State) :
    bitsToCome s = [] ∧ inBit s = (none, { s with events := s.events + 1 }) ∨
      ∃ b rest, bitsToCome s = b :: rest ∧ inBit s = (some b, { s with bitSrc := s.bitSrc.skip 1, events := s.events + 1 }) := by
  cases h : bitsToCome s with
  | nil => exact .inl ⟨rfl, inBit_of_nil h⟩
  | cons b rest => exact .inr ⟨b, rest, rfl, inBit_cons h⟩

theorem stageStart_moved {s t : State} (hp : s.point = .start) (h : stageStart s = .ok t) : Moved s t := by
  unfold stageStart at h
  split at h
  · next hs => cases h; exact .parked hs hp
  · next hs => cases h; exact .countStart hs hp
  · next hs => cases h; exact .buildStart hs hp
  · next hs =>
    unfold Sys2Proof.Machine.gencodesStart at h
    split at h
    · cases h
    · next r hr => cases h; exact .gencodesStart r hs hp hr
  · next hs => cases h; exact .writeTagStart hs hp
  · next hs =>
    unfold writeHeaderStart at h
    split at h
    · next hm =>
      split at h
      · cases h
      · next r hr => cases h; exact .writeTreeStart r hs hp hm hr
    · next hm => cases h; exact .writeCountsStart hs hp hm
  · next hs => cases h; exact .encodeStart hs hp
  · next hs => cases h; exact .readTagStart hs hp
  · next hs =>
    unfold readHeaderStart at h
    split at h
    · next hm => cases h; exact .readTreeStart hs hp hm
    · next hm => cases h; exact .readCountsStart hs hp hm
  · next hs =>
    unfold Sys2Proof.Machine.decodeStart at h
    split at h
    · cases h
    · next r hr => cases h; exact .decodeStart r hs hp hr

theorem countMove_moved {s t : State} (hp : s.point = .countByte) (h : countMove s = .ok t) : Moved s t := by
  unfold countMove at h
  rcases inByte_come s with ⟨hc, he⟩ | ⟨b, rest, hc, he⟩ <;> rw [he] at h
  · cases h; exact .countEnd hp hc
  · simp only [] at h
    split at h
    · next hm => cases h; exact .countFull b rest hp hc hm
    · next hm => cases h; exact .countOne b rest hp hc hm

theorem buildMergeMove_moved {n : Idx} {s t : State} (hp : s.point = .buildMerge n) (h : buildMergeMove n s = .ok t) :
    Moved s t := by
  unfold buildMergeMove at h
  split at h
  · cases h
  · next r hq => cases h; exact .buildEnd n r hp hq
  · next x y z hq =>
    obtain ⟨a, b, na, nb, q, h1, h2, h3, h4, h5, h6, rfl⟩ := mergeMove_ok h
    exact .merge n a b na nb q hp (by simp [hq]) h1 h2 h3 h4 h5 h6

theorem walkMove_moved {s t : State} (hp : s.point = .walkNode) (h : walkMove s = .ok t) : Moved s t := by
  unfold walkMove at h
  split at h
  · next hw => cases h; exact .walkEnd hp hw
  · next i p rest hw =>
    split at h
    · cases h
    · next c w hn =>
      obtain ⟨h1, rfl⟩ := putCode_ok h
      exact .walkLeaf i p rest c w hp hw hn h1
    · next w l r hn => cases h; exact .walkInternal i p rest w l r hp hw hn

theorem serTreeMove_moved {bits : List Bool} {s t : State} (hp : s.point = .serTree bits) (h : serTreeMove bits s = .ok t) :
    Moved s t := by
  unfold serTreeMove at h
  split at h
  · next b rest => cases h; exact .serBit b rest hp
  · split at h
    · next hw => cases h; exact .serEnd hp hw
    · next i p rest hw =>
      split at h
      · cases h
      · next c w hn => cases h; exact .serLeaf i p rest c w hp hw hn
      · next w l r hn => cases h; exact .serInternal i p rest w l r hp hw hn

theorem serCountsMove_moved {n : Nat} {bits : List Bool} {s t : State} (hp : s.point = .serCounts n bits)
    (h : serCountsMove n bits s = .ok t) : Moved s t := by
  unfold serCountsMove at h
  split at h
  · next b rest => cases h; exact .serCountBit n b rest hp
  · split at h
    · next hn => cases h; exact .serCountNext n hp hn
    · next hn => cases h; exact .serCountsEnd n hp (by omega)

theorem encodeByteMove_moved {s t : State} (hp : s.point = .encodeByte) (h : encodeByteMove s = .ok t) : Moved s t := by
  unfold encodeByteMove at h
  rcases inByte_come s with ⟨hc, he⟩ | ⟨b, rest, hc, he⟩ <;> rw [he] at h <;> simp only [] at h <;> split at h
  · next p hp' => cases h; exact .encodeEoi p hp hc hp'
  · cases h
  · next p hp' => cases h; exact .encodeTake b rest p hp hc hp'
  · next hp' => cases h; exact .encodeMissing b rest hp hc hp'

theorem recvTagMove_moved {n : Nat} {v : Word} {s t : State} (hp : s.point = .recvTag n v)
    (h : recvTagMove n v s = .ok t) : Moved s t := by
  unfold recvTagMove at h
  split at h
  · unfold checkTag at h
    split at h
    · next h1 => cases h; exact .tagGood v .tree hp (.inl ⟨h1, rfl⟩)
    · next h1 =>
      split at h
      · next h2 => cases h; exact .tagGood v .counts hp (.inr ⟨h1, h2.1, h2.2, rfl⟩)
      · next h2 => cases h; exact .tagBad v hp h1 h2
  · next n =>
    rcases inBit_come s with ⟨hc, he⟩ | ⟨b, rest, hc, he⟩ <;> rw [he] at h
    · cases h; exact .tagShort n v hp hc
    · cases h; exact .tagBit n v b rest hp hc

theorem desNodeMove_moved {s t : State} (hp : s.point = .desNode) (h : desNodeMove s = .ok t) : Moved s t := by
  unfold desNodeMove at h
  rcases inBit_come s with ⟨hc, he⟩ | ⟨b, rest, hc, he⟩ <;> rw [he] at h
  · cases h; exact .desShort hp hc
  · cases b with
    | true => cases h; exact .desLeaf rest hp hc
    | false =>
      simp only [Bool.false_eq_true, if_false] at h
      split at h
      · next hn => cases h; exact .desTooMany rest hp hc hn
      · next hn => cases h; exact .desInternal rest hp hc hn

theorem desSymMove_moved {i : Idx} {n : Nat} {v : Word} {s t : State} (hp : s.point = .desSym i n v)
    (h : desSymMove i n v s = .ok t) : Moved s t := by
  unfold desSymMove at h
  split at h
  · unfold closeLeaf at h
    split at h
    · next h1 => cases h; exact .symBad i v hp (.inl h1)
    · next h1 =>
      split at h
      · next h2 => cases h; exact .symBad i v hp (.inr h2)
      · next h2 =>
        split at h
        · cases h
        · next s1 h3 =>
          obtain ⟨h4, rfl⟩ := putNode_ok h3
          exact .symGood i v t hp (by omega) (by simpa using h2) h4 h
  · next n =>
    rcases inBit_come s with ⟨hc, he⟩ | ⟨b, rest, hc, he⟩ <;> rw [he] at h
    · cases h; exact .symShort i n v hp hc
    · cases h; exact .symBit i n v b rest hp hc

theorem desCheckMove_moved {s t : State} (hp : s.point = .desCheck) (h : desCheckMove s = .ok t) : Moved s t := by
  unfold desCheckMove at h
  split at h
  · cases h
  · next r hr =>
    split at h
    · cases h
    · next nd hn =>
      split at h
      · next h1 => cases h; exact .checkBad r nd hp hr hn (.inl h1)
      · next h1 =>
        split at h
        · next h2 => cases h; exact .checkGood r nd hp hr hn (by simpa using h1) h2
        · next h2 => cases h; exact .checkBad r nd hp hr hn (.inr (by simpa using h2))

theorem readCountsMove_moved {k n : Nat} {v : Word} {s t : State} (hp : s.point = .readCounts k n v)
    (h : readCountsMove k n v s = .ok t) : Moved s t := by
  unfold readCountsMove at h
  split at h
  · have := Moved.countRead k v hp
    split at h
    · next hk => cases h; simpa only [if_pos hk] using this
    · next hk => cases h; simpa only [if_neg hk] using this
  · next n =>
    rcases inBit_come s with ⟨hc, he⟩ | ⟨b, rest, hc, he⟩ <;> rw [he] at h
    · cases h; exact .countShort k n v hp hc
    · cases h; exact .countBit k n v b rest hp hc

theorem decodeBitMove_moved {s t : State} (hp : s.point = .decodeBit) (h : decodeBitMove s = .ok t) : Moved s t := by
  unfold decodeBitMove at h
  rcases inBit_come s with ⟨hc, he⟩ | ⟨b, rest, hc, he⟩ <;> rw [he] at h
  · cases h; exact .decodeShort hp hc
  · simp only [] at h
    split at h
    · cases h
    · next c hcur =>
      split at h
      · cases h
      · next nd hn =>
        cases nd with
        | leaf c w => cases h
        | internal w l r =>
          simp only [Node.child, decodeArrive] at h
          split at h
          · cases h
          · next nk hk =>
            have hm := fun p hp' => Moved.decodeEdge b rest c _ w l r nk p hp hc hcur hn rfl hk hp'
            split at h
            · next h1 => cases h; exact hm _ (.inl ⟨h1, rfl⟩)
            · next h1 =>
              split at h
              · next h2 => cases h; exact hm _ (.inr (.inl ⟨by simpa using h1, h2, rfl⟩))
              · next h2 => cases h; exact hm _ (.inr (.inr ⟨by simpa using h1, by simpa using h2, rfl⟩))

/-- Everything a move can do when it answers a state. -/
theorem blockMove_moved {s t : State} (h : blockMove s = .ok t) : Moved s t := by
  cases hp : s.point with
  | start => exact stageStart_moved hp ((blockMove_start hp).symm.trans h)
  | countByte => exact countMove_moved hp ((blockMove_countByte hp).symm.trans h)
  | buildLeaves =>
    rw [blockMove_buildLeaves hp, buildLeavesMove_eq] at h
    cases h
    exact .leaves hp
  | buildMerge n => exact buildMergeMove_moved hp ((blockMove_buildMerge hp).symm.trans h)
  | walkNode => exact walkMove_moved hp ((blockMove_walkNode hp).symm.trans h)
  | sendTag bits =>
    rw [blockMove_sendTag hp] at h
    cases bits with
    | nil => cases h; exact .sendTagEnd hp
    | cons b rest => cases h; exact .sendTagBit b rest hp
  | serTree bits => exact serTreeMove_moved hp ((blockMove_serTree hp).symm.trans h)
  | serCounts n bits => exact serCountsMove_moved hp ((blockMove_serCounts hp).symm.trans h)
  | encodeByte => exact encodeByteMove_moved hp ((blockMove_encodeByte hp).symm.trans h)
  | encodeCode bits =>
    rw [blockMove_encodeCode hp] at h
    cases bits with
    | nil => cases h; exact .encodeNext hp
    | cons b rest => cases h; exact .encodeBit b rest hp
  | encodeEos bits =>
    rw [blockMove_encodeEos hp] at h
    cases bits with
    | nil => cases h; exact .encodeEnd hp
    | cons b rest => cases h; exact .encodeEosBit b rest hp
  | recvTag n v => exact recvTagMove_moved hp ((blockMove_recvTag hp).symm.trans h)
  | desNode => exact desNodeMove_moved hp ((blockMove_desNode hp).symm.trans h)
  | desSym i n v => exact desSymMove_moved hp ((blockMove_desSym hp).symm.trans h)
  | desCheck => exact desCheckMove_moved hp ((blockMove_desCheck hp).symm.trans h)
  | readCounts k n v => exact readCountsMove_moved hp ((blockMove_readCounts hp).symm.trans h)
  | decodeBit => exact decodeBitMove_moved hp ((blockMove_decodeBit hp).symm.trans h)
  | decodeOut c =>
    rw [blockMove_decodeOut hp] at h
    unfold decodeOutMove at h
    split at h
    · cases h
    · next r hr => cases h; exact .decodeOut c r hp hr
  | fin =>
    rw [blockMove_fin hp] at h
    cases h
    exact .stageEnd hp

end Sys2Proof.Machine
end

