-- ==== Sys2Proof/Laws/Invariants.lean ====
section
/-! SUPPORT. Each part of the invariant over one move of the block; progress; what a run keeps. -/

namespace Sys2Proof.Machine

/-! ## The control state -/

/-- An idle block is parked at the start, with nothing in PQ and on the traversal stack. -/
theorem ControlInv.parked {s : State} (h : ControlInv s) (hi : s.phase = .idle) :
    s.point = .start ∧ s.pq = [] ∧ s.walk = [] := by
  have hp := h.point
  have h1 : s.point = .start := by
    rw [hi] at hp
    cases hq : s.point <;> rw [hq] at hp <;> first | rfl | exact Bool.noConfusion hp
  refine ⟨h1, ?_, ?_⟩
  · by_contra hc
    obtain ⟨n, hn⟩ := h.queue hc
    simp [h1] at hn
  · by_contra hc
    rcases h.stack hc with hn | ⟨b, hn⟩ <;> simp [h1] at hn

/-- Outside BuildTree's loop PQ is empty. -/
theorem ControlInv.noQueue {s : State} (h : ControlInv s) (hp : ∀ n, s.point ≠ .buildMerge n) : s.pq = [] := by
  by_contra hc
  obtain ⟨n, hn⟩ := h.queue hc
  exact hp n hn

/-- Outside a walk the traversal stack is empty. -/
theorem ControlInv.noWalk {s : State} (h : ControlInv s) (hp : s.point ≠ .walkNode) (hp' : ∀ b, s.point ≠ .serTree b) :
    s.walk = [] := by
  by_contra hc
  rcases h.stack hc with hn | ⟨b, hn⟩
  · exact hp hn
  · exact hp' b hn

/-- The stages whose body a point belongs to. -/
def PointIn (k : Stage) : Point → Prop
  | .start => True
  | .countByte => k = .count
  | .buildLeaves => k = .build ∨ k = .readHeader
  | .buildMerge _ => k = .build ∨ k = .readHeader
  | .walkNode => k = .gencodes
  | .sendTag _ => k = .writeTag
  | .serTree _ => k = .writeHeader
  | .serCounts _ _ => k = .writeHeader
  | .encodeByte => k = .encode
  | .encodeCode _ => k = .encode
  | .encodeEos _ => k = .encode
  | .recvTag _ _ => k = .readTag
  | .desNode => k = .readHeader
  | .desSym _ _ _ => k = .readHeader
  | .desCheck => k = .readHeader
  | .readCounts _ _ _ => k = .readHeader
  | .decodeBit => k = .decode
  | .decodeOut _ => k = .decode
  | .fin => k ≠ .idle

theorem pointIn_of_fits {k : Stage} {p : Point} (h : pointFits k p = true) : PointIn k p := by
  cases p <;> cases k <;>
    first | exact Bool.noConfusion h | trivial | exact .inl rfl | exact .inr rfl | exact Stage.noConfusion

/-- A move on to another point of the same stage body. -/
theorem ControlInv.goTo {s t : State} (h : ControlInv s) (hp : pointFits s.phase t.point = true)
    (hq : t.pq ≠ [] → ∃ n, t.point = .buildMerge n)
    (hw : t.walk ≠ [] → t.point = .walkNode ∨ ∃ b, t.point = .serTree b)
    (h1 : t.phase = s.phase := by rfl) (h2 : t.todo = s.todo := by rfl) (h3 : t.prog = s.prog := by rfl)
    (h4 : t.done = s.done := by rfl) (h5 : t.errcode = s.errcode := by rfl) (h6 : t.ephase = s.ephase := by rfl) :
    ControlInv t where
  point := by rw [h1]; exact hp
  todo := by rw [h1, h2]; exact h.todo
  prog := by rw [h1, h3]; exact h.prog
  running := by rw [h1, h4, h5]; exact h.running
  progClear := by rw [h3, h5]; exact h.progClear
  doneOf := by rw [h4, h3]; exact h.doneOf
  raised := by rw [h6, h5]; exact h.raised
  queue := hq
  stack := hw

/-- The points outside BuildTree's loop and outside a walk. -/
def quiet : Point → Bool
  | .start => true
  | .countByte => true
  | .buildLeaves => true
  | .buildMerge _ => false
  | .walkNode => false
  | .sendTag _ => true
  | .serTree _ => false
  | .serCounts _ _ => true
  | .encodeByte => true
  | .encodeCode _ => true
  | .encodeEos _ => true
  | .recvTag _ _ => true
  | .desNode => true
  | .desSym _ _ _ => true
  | .desCheck => true
  | .readCounts _ _ _ => true
  | .decodeBit => true
  | .decodeOut _ => true
  | .fin => true

/-- At a quiet point PQ and the traversal stack are empty. -/
theorem ControlInv.quiet {s : State} (h : ControlInv s) (hp : quiet s.point = true) : s.pq = [] ∧ s.walk = [] := by
  refine ⟨h.noQueue fun n hn => ?_, h.noWalk (fun hn => ?_) fun b hn => ?_⟩ <;> rw [hn] at hp <;> cases hp

/-- A move from a quiet point to another point of the same stage body. -/
theorem ControlInv.goQuiet {s t : State} (h : ControlInv s) (hs : Machine.quiet s.point = true)
    (hp : pointFits s.phase t.point = true) (hq : t.pq = s.pq := by rfl) (hw : t.walk = s.walk := by rfl)
    (h1 : t.phase = s.phase := by rfl) (h2 : t.todo = s.todo := by rfl) (h3 : t.prog = s.prog := by rfl)
    (h4 : t.done = s.done := by rfl) (h5 : t.errcode = s.errcode := by rfl) (h6 : t.ephase = s.ephase := by rfl) :
    ControlInv t :=
  h.goTo hp (fun h' => absurd (hq.trans (h.quiet hs).1) h') (fun h' => absurd (hw.trans (h.quiet hs).2) h')
    h1 h2 h3 h4 h5 h6

/-- The error abort of the running stage. -/
theorem ControlInv.abort {s : State} {e : ErrCode} (hq : s.pq = []) (hw : s.walk = []) (he : raisedBy e = s.phase) :
    ControlInv (raiseError e s) where
  point := rfl
  todo := .inl rfl
  prog := fun h => absurd rfl h
  running := fun h => absurd rfl h
  progClear := fun h => absurd rfl h
  doneOf := fun h => nomatch h
  raised := he.symm
  queue := fun h => absurd hq h
  stack := fun h => absurd hw h

theorem stageBefore_next {k j : Stage} {ks : List Stage} (h : stagesAfter k = j :: ks) :
    stageBefore j = k ∧ stagesAfter j = ks := by
  cases k <;> simp [stagesAfter] at h <;> (obtain ⟨rfl, rfl⟩ := h; exact ⟨rfl, rfl⟩)

/-- The end of a stage body. -/
theorem ControlInv.stageEnd {s : State} (h : ControlInv s) (hp : s.point = .fin) :
    ControlInv (stageEnd s) := by
  have hb : s.phase ≠ .idle := by
    have := pointIn_of_fits h.point
    rwa [hp] at this
  have hq := h.noQueue (by simp [hp])
  have hw := h.noWalk (by simp [hp]) (by simp [hp])
  unfold Sys2Proof.Machine.stageEnd
  split
  · next ht =>
    exact
      { point := rfl, todo := .inl ht, prog := fun h => absurd rfl h, running := fun h => absurd rfl h
        progClear := fun _ => (h.running hb).2, doneOf := fun _ => hb, raised := h.raised
        queue := fun h => absurd hq h, stack := fun h => absurd hw h }
  · next k ks ht =>
    have hk := h.todo
    rw [ht] at hk
    obtain ⟨h1, h2⟩ := stageBefore_next (hk.resolve_left (by simp)).symm
    exact
      { point := by cases k <;> rfl
        todo := .inr h2.symm, prog := fun _ => h1.symm, running := fun _ => h.running hb
        progClear := fun _ => (h.running hb).2, doneOf := fun _ => hb, raised := h.raised
        queue := fun h => absurd hq h, stack := fun h => absurd hw h }

/-- What DesNode's returns change: the arena, ROOT, STK and the point. -/
theorem closeNode_ok {l : List Idx} {c : Idx} {s t : State} (h : closeNode l c s = .ok t) :
    ∃ node root stk p, t = { s with node := node, root := root, stk := stk, point := p } ∧
      (p = .desNode ∨ p = .desCheck) ∧ (Cells.wf maxNodes s.node = true → Cells.wf maxNodes node = true) := by
  induction l generalizing c s t with
  | nil =>
    rw [closeNode] at h
    cases h
    exact ⟨_, _, _, _, rfl, .inr rfl, id⟩
  | cons i l ih =>
    rw [closeNode] at h
    split at h
    · cases h
      exact ⟨_, _, _, _, rfl, .inl rfl, id⟩
    · split at h
      · split at h
        · cases h
        · next s1 h1 =>
          obtain ⟨h2, rfl⟩ := putNode_ok h1
          obtain ⟨node, root, stk, p, h3, h4, h5⟩ := ih h
          exact ⟨node, root, stk, p, h3, h4, fun hw => h5 (Cells.wf_put _ hw h2)⟩
      · cases h

/-- Every move of a running stage keeps the control state in order. -/
theorem Moved.control {s t : State} (h : Moved s t) (hi : ControlInv s) : ControlInv t := by
  have hf := pointIn_of_fits hi.point
  have hq := hi.queue
  have hw := hi.stack
  cases h
  case parked h1 h2 => exact hi
  case symGood i v h1 h2 h3 h4 h5 =>
    rw [h1] at hf
    obtain ⟨node, root, stk, p, rfl, h7, -⟩ := closeNode_ok h5
    refine hi.goQuiet (by rw [h1]; rfl) ?_
    rw [hf]
    rcases h7 with rfl | rfl <;> rfl
  case stageEnd h1 => exact hi.stageEnd h1
  case decodeEdge b rest c k w l r nd p h1 h2 h3 h4 h5 h6 h7 =>
    rw [h1] at hf
    refine hi.goQuiet (by rw [h1]; rfl) ?_
    rw [hf]
    rcases h7 with ⟨-, rfl⟩ | ⟨-, -, rfl⟩ | ⟨-, -, rfl⟩ <;> rfl
  case countRead k v h1 =>
    rw [h1] at hf
    refine hi.goQuiet (by rw [h1]; rfl) ?_
    rw [hf]
    dsimp only
    split <;> rfl
  case leaves h1 =>
    rw [h1] at hf
    refine hi.goTo ?_ (fun _ => ⟨_, rfl⟩) (fun h => absurd (hi.quiet (by rw [h1]; rfl)).2 h)
    rcases hf with hf | hf <;> rw [hf] <;> rfl
  case merge n a b na nb q h1 h2 h3 h4 h5 h6 h7 h8 =>
    rw [h1] at hf
    refine hi.goTo ?_ (fun _ => ⟨_, rfl⟩) (fun h => absurd (hi.noWalk (by simp [h1]) (by simp [h1])) h)
    rcases hf with hf | hf <;> rw [hf] <;> rfl
  case buildEnd n r h1 h2 =>
    rw [h1] at hf
    refine hi.goTo ?_ (fun h => absurd rfl h) (fun h => absurd (hi.noWalk (by simp [h1]) (by simp [h1])) h)
    rcases hf with hf | hf <;> rw [hf] <;> rfl
  case gencodesStart r h1 h2 h3 =>
    exact hi.goTo (by rw [h1]; rfl) (fun h => absurd (hi.quiet (by rw [h2]; rfl)).1 h) (fun _ => .inl rfl)
  case writeTreeStart r h1 h2 h3 h4 =>
    exact hi.goTo (by rw [h1]; rfl) (fun h => absurd (hi.quiet (by rw [h2]; rfl)).1 h) (fun _ => .inr ⟨_, rfl⟩)
  case walkLeaf h1 h2 h3 h4 =>
    exact hi.goTo hi.point (fun h => absurd (hi.noQueue (by simp [h1])) h) (fun _ => .inl h1)
  case walkInternal h1 h2 h3 =>
    exact hi.goTo hi.point (fun h => absurd (hi.noQueue (by simp [h1])) h) (fun _ => .inl h1)
  case walkEnd h1 h2 =>
    rw [h1] at hf
    exact hi.goTo (by rw [hf]; rfl) (fun h => absurd (hi.noQueue (by simp [h1])) h) (fun h => absurd h2 h)
  case serEnd h1 h2 =>
    rw [h1] at hf
    exact hi.goTo (by rw [hf]; rfl) (fun h => absurd (hi.noQueue (by simp [h1])) h) (fun h => absurd h2 h)
  case serBit h1 =>
    rw [h1] at hf
    exact hi.goTo (by rw [hf]; rfl) (fun h => absurd (hi.noQueue (by simp [h1])) h) (fun _ => .inr ⟨_, rfl⟩)
  case serLeaf h1 h2 h3 =>
    rw [h1] at hf
    exact hi.goTo (by rw [hf]; rfl) (fun h => absurd (hi.noQueue (by simp [h1])) h) (fun _ => .inr ⟨_, rfl⟩)
  case serInternal h1 h2 h3 =>
    rw [h1] at hf
    exact hi.goTo (by rw [hf]; rfl) (fun h => absurd (hi.noQueue (by simp [h1])) h) (fun _ => .inr ⟨_, rfl⟩)
  all_goals
    have hq := hi.quiet (by rw [‹s.point = _›]; rfl)
    rw [‹s.point = _›] at hf
    first
    | exact .abort hq.1 hq.2 hf.symm
    | exact hi.goQuiet (by rw [‹s.point = _›]; rfl) (by rw [hf]; rfl)
    | exact hi.goQuiet (by rw [‹s.point = _›]; rfl) (by rw [‹s.phase = _›]; rfl)
    | exact hi.goQuiet (by rw [‹s.point = _›]; rfl) hi.point

/-! ## The stores -/

/-- A move that leaves FREQ, the arena, the code table, the formats and the configuration as they are. -/
theorem StoreInv.goTo {s t : State} (h : StoreInv s) (hp : fieldFits s.cfg t.point := by trivial)
    (h1 : t.freq = s.freq := by rfl) (h2 : t.node = s.node := by rfl) (h3 : t.code = s.code := by rfl)
    (h4 : t.cfg = s.cfg := by rfl) (h5 : t.hmode = s.hmode := by rfl) (h6 : t.mode = s.mode := by rfl) :
    StoreInv t where
  freqForm := by rw [h1]; exact h.freqForm
  nodeForm := by rw [h2]; exact h.nodeForm
  codeForm := by rw [h3]; exact h.codeForm
  freqFits := by rw [h1, h4]; exact h.freqFits
  field := by rw [h4]; exact hp
  hmodeLegal := by rw [h4, h5]; exact h.hmodeLegal
  modeLegal := by rw [h4, h6]; exact h.modeLegal

/-- A count written to FREQ fits its entry. -/
theorem freqFits_put {f : Cells Word} {n : Nat} (h : ∀ b, (freqAt f b).toNat < n) {b : Byte} {v : Word}
    (hv : v.toNat < n) (c : Byte) : (freqAt (freqPut f b v) c).toNat < n := by
  by_cases hc : c = b
  · rw [hc, freqAt_put_same]; exact hv
  · rw [freqAt_put_ne _ _ hc]; exact h c

/-- The leaves of BuildTree keep the form of the arena. -/
theorem wf_putLeaves {ls : List (Sym × Nat)} {n : Nat} {t : Cells Node} (h : Cells.wf maxNodes t = true)
    (hn : n + ls.length ≤ maxNodes) : Cells.wf maxNodes (putLeaves ls n t) = true := by
  induction ls generalizing n t with
  | nil => exact h
  | cons e ls ih =>
    rw [List.length_cons] at hn
    exact ih (Cells.wf_put _ h (by omega)) (by omega)

/-- One more bit of a field that is being read. -/
theorem shiftIn_lt {v : Word} {k : Nat} (b : Bool) (hk : k < 32) (h : v.toNat < 2 ^ k) :
    (shiftIn v b).toNat < 2 ^ (k + 1) := by
  rw [shiftIn_toNat (Nat.lt_of_lt_of_le h (Nat.pow_le_pow_right (by decide) (by omega)))]
  rw [Nat.pow_succ]
  have := Bool.toNat_le b
  omega

/-- Every move keeps the stores in order. -/
theorem Moved.stores {s t : State} (h : Moved s t) (hi : StoreInv s) : StoreInv t := by
  cases h
  case parked h1 h2 => exact hi
  case countOne b rest h1 h2 h3 =>
    have h4 := hi.freqFits b
    have h5 : 2 ^ s.cfg.wCnt ≤ 2 ^ 32 := Nat.pow_le_pow_right (by decide) s.cfg.wCnt_le
    simp only [maxCount] at h3
    exact { hi with
      freqForm := freqWf_put _ _ hi.freqForm
      freqFits := freqFits_put hi.freqFits (by
        rw [BitVec.toNat_add, show (1 : Word).toNat = 1 from rfl, Nat.mod_eq_of_lt (by omega)]
        omega)
      field := by rw [h1]; trivial }
  case leaves h1 =>
    exact { hi with
      nodeForm := wf_putLeaves hi.nodeForm (by
        have := leafCount_bounds s.freq
        rw [leafList_length, maxNodes]
        omega)
      field := trivial }
  case merge n a b na nb q h1 h2 h3 h4 h5 h6 h7 h8 =>
    exact { hi with nodeForm := Cells.wf_put _ hi.nodeForm h7, field := trivial }
  case gencodesStart r h1 h2 h3 => exact { hi with codeForm := rfl, field := trivial }
  case walkLeaf i p rest c w h1 h2 h3 h4 =>
    exact { hi with codeForm := Cells.wf_put _ hi.codeForm h4 }
  case writeTagStart h1 h2 =>
    exact { hi with
      hmodeLegal := fun h => by
        have : s.hdrMode = .counts := h
        simp only [State.hdrMode] at this
        split at this
        · assumption
        · cases this
      field := trivial }
  case tagGood v m h1 h2 =>
    exact { hi with
      hmodeLegal := fun h => by
        rcases h2 with ⟨-, h3⟩ | ⟨-, -, h3, -⟩
        · rw [h3] at h; cases h
        · exact h3
      field := trivial }
  case readCountsStart h1 h2 h3 =>
    exact hi.goTo ⟨Nat.le_refl _, by simp⟩
  case symGood i v h1 h2 h3 h4 h5 =>
    obtain ⟨node, root, stk, p, rfl, h7, h8⟩ := closeNode_ok h5
    exact { hi with
      nodeForm := h8 (Cells.wf_put _ hi.nodeForm h4)
      field := by rcases h7 with rfl | rfl <;> trivial }
  case countRead k v h1 =>
    have h2 := hi.field
    rw [h1] at h2
    exact { hi with
      freqForm := freqWf_put _ _ hi.freqForm
      freqFits := freqFits_put hi.freqFits (by simpa using h2.2)
      field := by
        dsimp only
        split
        · exact ⟨Nat.le_refl _, by simp⟩
        · trivial }
  case countBit k n v b rest h1 h2 =>
    have h3 := hi.field
    rw [h1] at h3
    obtain ⟨h4, h5⟩ := h3
    have h6 := s.cfg.wCnt_le
    refine hi.goTo ⟨by omega, ?_⟩
    have := shiftIn_lt b (by omega) h5
    rwa [show s.cfg.wCnt - (n + 1) + 1 = s.cfg.wCnt - n by omega] at this
  case decodeEdge b rest c k w l r nd p h1 h2 h3 h4 h5 h6 h7 =>
    refine hi.goTo ?_
    rcases h7 with ⟨-, rfl⟩ | ⟨-, -, rfl⟩ | ⟨-, -, rfl⟩ <;> trivial
  case stageEnd h1 =>
    unfold Sys2Proof.Machine.stageEnd
    split <;> exact hi.goTo
  all_goals
    first
    | exact hi.goTo
    | exact hi.goTo (by rw [‹s.point = _›]; trivial)

/-! ## The tree -/

/-- Only ROOT, the arena and NNODES say which tree the arena holds. -/
theorem TreeAt.congr {s t : State} {T : HTree} (h : TreeAt s T) (h1 : t.root = s.root) (h2 : t.node = s.node)
    (h3 : t.nnodes = s.nnodes) : TreeAt t T := by
  unfold TreeAt at *
  rw [h1, h2, h3]
  exact h

/-- A move to another point that leaves the tree, the code table and the bookkeeping as they are. -/
theorem TreeInv.goTo {s t : State} (h : TreeInv s) (hp : t.point ≠ .start) (hd : PointData t)
    (h1 : t.root = s.root := by rfl) (h2 : t.node = s.node := by rfl) (h3 : t.nnodes = s.nnodes := by rfl)
    (h4 : t.code = s.code := by rfl) (h5 : t.prog = s.prog := by rfl) (h6 : t.phase = s.phase := by rfl)
    (h7 : t.seen = s.seen := by rfl) (h8 : t.nint = s.nint := by rfl) (h9 : t.nleaf = s.nleaf := by rfl)
    (h10 : t.stk = s.stk := by rfl) : TreeInv t where
  tree h' := by
    rw [h5] at h'
    obtain ⟨T, hT⟩ := h.tree h'
    exact ⟨T, hT.congr h1 h2 h3⟩
  codes h' := by
    rw [h5] at h'
    obtain ⟨T, hT, hC⟩ := h.codes h'
    exact ⟨T, hT.congr h1 h2 h3, by rwa [h4]⟩
  fresh h' := by
    rcases h' with h' | h'
    · have := h.fresh (.inl (h6 ▸ h'))
      simpa only [FreshBooks, h3, h7, h8, h9, h10] using this
    · exact absurd h'.2 hp
  data := hd

/-- A move to another point while the call has no tree yet. -/
theorem TreeInv.build {t : State} {k : Stage} (h1 : t.prog = stageBefore k) (h2 : k = .build ∨ k = .readHeader)
    (h3 : t.phase = k) (hp : t.point ≠ .start) (hd : PointData t) : TreeInv t where
  tree h' := by rw [h1] at h'; rcases h2 with rfl | rfl <;> cases h'
  codes h' := by rw [h1] at h'; rcases h2 with rfl | rfl <;> cases h'
  fresh h' := by
    rcases h' with h' | h'
    · rw [h3] at h'; rcases h2 with rfl | rfl <;> cases h'
    · exact absurd h'.2 hp
  data := hd

/-- After an error the call has no tree. -/
theorem TreeInv.abort (e : ErrCode) (s : State) : TreeInv (raiseError e s) where
  tree h' := nomatch h'
  codes h' := nomatch h'
  fresh h' := by rcases h' with h' | h' <;> simp [raiseError] at h'
  data := trivial

/-- Entries that the pending positions do not use may change. -/
theorem Pending.congr {t u : Cells Node} {l : List Idx} {next : Nat} {ls : List Sym} (h : Pending t l next ls)
    (hn : next ≤ 1024) (hu : ∀ j : Idx, j.toNat < next → nodeAt u j = nodeAt t j) : Pending u l next ls := by
  induction l generalizing next ls with
  | nil => exact h
  | cons i l ih =>
    rcases h with ⟨rfl, h⟩ | ⟨L, ls0, h1, rfl, rfl, h⟩
    · exact .inl ⟨rfl, ih h (by omega) fun j hj => hu j (by omega)⟩
    · refine .inr ⟨L, ls0, h1.congr fun j hj => hu j ?_, rfl, rfl, ih h (by omega) fun j hj => hu j (by omega)⟩
      exact ((mem_indicesFrom hn).1 hj).2

/-- The node on top of STK has an index below the next one. -/
theorem Pending.top_lt {t : Cells Node} {i : Idx} {l : List Idx} {next : Nat} {ls : List Sym}
    (h : Pending t (i :: l) next ls) : i.toNat < next := by
  rcases h with ⟨rfl, -⟩ | ⟨L, ls0, -, rfl, -, -⟩ <;> omega

/-- The bookkeeping bounds the next index. -/
theorem Booked.next_le {s : State} {next : Nat} {ls : List Sym} (h : Booked s next ls) : next ≤ maxNodes := by
  obtain ⟨h1, h2, -, -, h5, h6⟩ := h
  have := length_le_of_symbols h1 h2
  rw [maxNodes]
  omega

/-- What DesNode's returns lead to: the next discriminator, or the checks on the complete tree. -/
theorem closeNode_pending {l : List Idx} {c : Idx} {C : HTree} {s : State} {ls : List Sym}
    (hC : Holds s.node C c (indicesFrom c.toNat C.size)) (hP : Pending s.node l c.toNat ls)
    (hn : c.toNat + C.size = s.nnodes.toNat) (hB : Booked s s.nnodes.toNat (ls ++ C.leaves)) :
    ∃ node root stk p, closeNode l c s = .ok { s with node := node, root := root, stk := stk, point := p } ∧
      p ≠ .start ∧ PointData { s with node := node, root := root, stk := stk, point := p } := by
  induction l generalizing c C s ls with
  | nil =>
    obtain ⟨h0, rfl⟩ := hP
    have hc : c = 0 := BitVec.eq_of_toNat_eq h0
    subst hc
    refine ⟨s.node, _, _, _, rfl, Point.noConfusion, C, rfl, hC, ?_, ?_⟩
    · exact hn.symm.trans (by simp)
    · rw [← hn] at hB
      have h : Booked s C.size C.leaves := by simpa using hB
      exact h
  | cons i l ih =>
    have hle := hB.next_le
    rw [maxNodes] at hle
    have hi : i.toNat < c.toNat := hP.top_lt
    have hs := C.size_pos
    have h1 : (i + 1).toNat = i.toNat + 1 := by
      rw [BitVec.toNat_add, show (1 : Idx).toNat = 1 from rfl, Nat.mod_eq_of_lt (by omega)]
    rw [closeNode]
    by_cases hc : c = i + 1
    · rw [if_pos hc]
      refine ⟨s.node, s.root, _, _, rfl, Point.noConfusion, ls ++ C.leaves, ?_, hB⟩
      rcases hP with ⟨h2, h3⟩ | ⟨L, ls0, -, h2, -, -⟩
      · refine .inr ⟨C, ls, ?_, ?_, rfl, h3⟩
        · rw [← hc, ← h2]; exact hC
        · rw [← hn, h2]
      · have := L.size_pos
        rw [hc, h1] at h2
        omega
    · rw [if_neg hc]
      rcases hP with ⟨h2, -⟩ | ⟨L, ls0, h2, h3, rfl, h4⟩
      · exact absurd (BitVec.eq_of_toNat_eq (h2.trans h1.symm)) hc
      · obtain ⟨nl, hl⟩ := h2.present
        obtain ⟨nr, hr⟩ := hC.present
        have hcs : c.toNat + C.size ≤ 1024 := by omega
        have hls : i.toNat + 1 + L.size ≤ 1024 := by omega
        have hnl : i ∉ indicesFrom (i.toNat + 1) L.size := by
          rw [mem_indicesFrom hls]
          omega
        have hnr : i ∉ indicesFrom c.toNat C.size := by
          rw [mem_indicesFrom hcs]
          omega
        have hN := Holds.node_put (addWt s.cfg nl.wt nr.wt) h2 hC hnl hnr
        have hidx : i :: (indicesFrom (i.toNat + 1) L.size ++ indicesFrom c.toNat C.size) =
            indicesFrom i.toNat (HTree.node L C).size := by
          rw [HTree.size, Nat.add_assoc, Nat.add_comm 1, indicesFrom_succ, indicesFrom_add, h3]
          simp
        rw [hidx] at hN
        simp only [hl, hr]
        rw [putNode_of_lt _ _ (by rw [maxNodes]; omega)]
        simp only []
        have := ih (c := i) (C := .node L C) (ls := ls0)
          (s := { s with node := Cells.put s.node i.toNat (.internal (addWt s.cfg nl.wt nr.wt) (i + 1) c) }) hN
          (h4.congr (by omega) fun j hj => nodeAt_put_ne _ _ fun e => by rw [e] at hj; omega)
          (by rw [HTree.size, ← hn, h3]; omega)
          (by
            have h : Booked s s.nnodes.toNat (ls0 ++ (L.leaves ++ C.leaves)) := by simpa using hB
            exact h)
        exact this

/-- The tree of a call that has one. -/
theorem Inv.tree {s : State} (h : Inv s) (hb : s.phase ≠ .idle) (ht : hasTree (stageBefore s.phase) = true) :
    ∃ T, TreeAt s T := h.trees.tree (by rw [h.control.prog hb]; exact ht)

/-- The code table of a call that has one. -/
theorem Inv.codes {s : State} (h : Inv s) (hb : s.phase ≠ .idle) (ht : hasCodes (stageBefore s.phase) = true) :
    ∃ T, TreeAt s T ∧ CodesOf T s.code := h.trees.codes (by rw [h.control.prog hb]; exact ht)

/-- DesNode after a discriminator 0. -/
theorem desNode_open {s : State} {ls : List Sym} (hP : Pending s.node s.stk s.nnodes.toNat ls)
    (hB : Booked s s.nnodes.toNat ls) (hn : s.nint ≠ 256) :
    Pending s.node (s.nnodes :: s.stk) (s.nnodes + 1).toNat ls ∧
      Booked { s with nint := s.nint + 1 } (s.nnodes + 1).toNat ls ∧ (s.nnodes + 1).toNat = s.nnodes.toNat + 1 := by
  have hle := hB.next_le
  rw [maxNodes] at hle
  obtain ⟨b1, b2, b3, b4, b5, b6⟩ := hB
  have h1 : (s.nnodes + 1).toNat = s.nnodes.toNat + 1 := by
    rw [BitVec.toNat_add, show (1 : BitVec 10).toNat = 1 from rfl, Nat.mod_eq_of_lt (by omega)]
  have h3 : s.nint.toNat ≠ 256 := fun e => hn (BitVec.eq_of_toNat_eq e)
  have h2 : (s.nint + 1).toNat = s.nint.toNat + 1 := by
    rw [BitVec.toNat_add, show (1 : BitVec 9).toNat = 1 from rfl, Nat.mod_eq_of_lt (by omega)]
  refine ⟨.inl ⟨h1, hP⟩, ⟨b1, b2, b3, b4, ?_, ?_⟩, h1⟩
  · show (s.nnodes + 1).toNat = (s.nint + 1).toNat + ls.length
    omega
  · show (s.nint + 1).toNat ≤ 256
    omega

/-- DesNode after a discriminator 1. -/
theorem desNode_leaf {s : State} {ls : List Sym} (hB : Booked s s.nnodes.toNat ls) :
    (s.nnodes + 1).toNat = s.nnodes.toNat + 1 := by
  have hle := hB.next_le
  rw [maxNodes] at hle
  rw [BitVec.toNat_add, show (1 : BitVec 10).toNat = 1 from rfl, Nat.mod_eq_of_lt (by omega)]

/-- DesNode after a leaf's symbol that is at most 256 and new. -/
theorem desSym_close {s : State} {i : Idx} {v : Word} {ls : List Sym} (hn : s.nnodes.toNat = i.toNat + 1)
    (hv : v.toNat ≤ 256) (hseen : s.seen.getLsbD v.toNat = false) (hP : Pending s.node s.stk i.toNat ls)
    (hB : Booked s i.toNat ls) :
    i.toNat < maxNodes ∧ ∃ node root stk p,
      closeNode s.stk i { s with seen := s.seen ||| (1#257 <<< v.toNat), nleaf := s.nleaf + 1
                                 node := Cells.put s.node i.toNat (.leaf (v.setWidth 9) 0) } =
        .ok { s with seen := s.seen ||| (1#257 <<< v.toNat), nleaf := s.nleaf + 1
                     node := node, root := root, stk := stk, point := p } ∧
      p ≠ .start ∧
      PointData { s with seen := s.seen ||| (1#257 <<< v.toNat), nleaf := s.nleaf + 1
                         node := node, root := root, stk := stk, point := p } := by
  obtain ⟨b1, b2, b3, b4, b5, b6⟩ := hB
  have hc : (v.setWidth 9).toNat = v.toNat := by
    rw [BitVec.toNat_setWidth, Nat.mod_eq_of_lt (by omega)]
  have hnot : v.setWidth 9 ∉ ls := by
    intro h
    have := (b3 _ (by omega)).2 h
    rw [hc, hseen] at this
    cases this
  have hnd : (ls ++ [v.setWidth 9]).Nodup := List.nodup_append.2 ⟨b1, by simp, by
    intro a ha b hb
    rw [List.mem_singleton.1 hb]
    exact fun e => hnot (e ▸ ha)⟩
  have hsy : ∀ c ∈ ls ++ [v.setWidth 9], c.toNat ≤ 256 := by
    intro c hcm
    rcases List.mem_append.1 hcm with h | h
    · exact b2 c h
    · rw [List.mem_singleton.1 h]; omega
  have hlen := length_le_of_symbols hnd hsy
  rw [List.length_append, List.length_singleton] at hlen
  have hi : i.toNat < maxNodes := by rw [maxNodes]; omega
  have hnl : (s.nleaf + 1).toNat = s.nleaf.toNat + 1 := by
    rw [BitVec.toNat_add, show (1 : BitVec 9).toNat = 1 from rfl, Nat.mod_eq_of_lt (by omega)]
  have hix : indicesFrom i.toNat (HTree.leaf (v.setWidth 9)).size = [i] := by
    rw [HTree.size, indicesFrom_succ, indicesFrom_zero]
    simp
  refine ⟨hi, closeNode_pending (C := .leaf (v.setWidth 9)) (ls := ls)
    (s := { s with seen := s.seen ||| (1#257 <<< v.toNat), nleaf := s.nleaf + 1
                   node := Cells.put s.node i.toNat (.leaf (v.setWidth 9) 0) }) ?_ ?_ hn.symm ?_⟩
  · rw [hix]; exact Holds.leaf_put _ _ _ _
  · rw [maxNodes] at hi
    exact hP.congr (by omega) fun j hj => nodeAt_put_ne _ _ fun e => by rw [e] at hj; omega
  · refine ⟨hnd, hsy, fun c hcl => ?_, ?_, ?_, b6⟩
    · show (s.seen ||| (1#257 <<< v.toNat)).getLsbD c.toNat = true ↔ _
      rw [getLsbD_mark _ _ _ hcl, Bool.or_eq_true, b3 c hcl, HTree.leaves, List.mem_append, List.mem_singleton, decide_eq_true_eq]
      constructor
      · rintro (h | h)
        · exact .inl h
        · exact .inr (BitVec.eq_of_toNat_eq (by omega))
      · rintro (h | h)
        · exact .inl h
        · exact .inr (by rw [h, hc])
    · show (s.nleaf + 1).toNat = _
      rw [hnl, b4, HTree.leaves, List.length_append, List.length_singleton]
    · show s.nnodes.toNat = s.nint.toNat + _
      rw [hn, HTree.leaves, List.length_append, List.length_singleton]
      omega

/-- A tree read whole, with an internal root and EOS among its leaves, is the tree of the arena. -/
theorem treeAt_of_read {s : State} {T : HTree} (hr : s.root = some 0) (hT : Holds s.node T 0 (indicesFrom 0 T.size))
    (hn : s.nnodes.toNat = T.size) (hB : Booked s T.size T.leaves) (hi : T.isNode = true)
    (he : s.seen.getLsbD 256 = true) : TreeAt s T := by
  have hle := hB.next_le
  rw [maxNodes] at hle
  obtain ⟨b1, b2, b3, b4, b5, b6⟩ := hB
  refine ⟨0, _, hr, hT, ⟨hi, b1, (b3 eosSym (by decide)).1 he, b2⟩, indicesFrom_nodup (by omega),
    by rw [indicesFrom_length, hn], fun i hi => ?_⟩
  rw [mem_indicesFrom (by omega)] at hi
  rw [BitVec.lt_def, hn]
  omega

/-- A node in the arena is a leaf or internal as its tree is. -/
theorem Holds.isLeaf {t : Cells Node} {T : HTree} {i : Idx} {is : List Idx} {nd : Node} (h : Holds t T i is)
    (hn : nodeAt t i = some nd) : nd.isLeaf = !T.isNode := by
  cases T with
  | leaf c =>
    obtain ⟨-, w, hw⟩ := h
    rw [hw] at hn
    cases hn
    rfl
  | node l r =>
    obtain ⟨w, a, b, il, ir, hw, -⟩ := h
    rw [hw] at hn
    cases hn
    rfl

/-- The subtree an edge leads to. -/
theorem Holds.child {t : Cells Node} {l r : HTree} {c : Idx} {is : List Idx} {w : Nat} {a b : Idx}
    (h : Holds t (.node l r) c is) (hn : nodeAt t c = some (.internal w a b)) :
    (∃ il, Holds t l a il) ∧ ∃ ir, Holds t r b ir := by
  obtain ⟨w', a', b', il, ir, hw, hl, hr, -⟩ := h
  rw [hw] at hn
  cases hn
  exact ⟨⟨il, hl⟩, ir, hr⟩

/-- Walk begins. -/
theorem walkOf_start {s : State} {T : HTree} {r : Idx} {is : List Idx} (hw : s.walk = [(r, [])]) (hc : s.code = [])
    (hT : Holds s.node T r is) : WalkOf s T := by
  refine ⟨[], [(r, [], T)], hw, fun e he => ?_, by simp, fun c p => ?_⟩
  · rw [List.mem_singleton.1 he]
    exact ⟨is, hT⟩
  · rw [hc]
    simp [codeAt, Cells.get]

/-- Walk ends: the code table is the tree's. -/
theorem WalkOf.codes {s : State} {T : HTree} (h : WalkOf s T) (hw : s.walk = []) : CodesOf T s.code := by
  obtain ⟨D, W, h1, -, h3, h4⟩ := h
  rw [hw] at h1
  have hW : W = [] := List.map_eq_nil_iff.1 h1.symm
  subst hW
  intro c p
  rw [h4, h3]
  simp

/-- Walk at a leaf. -/
theorem WalkOf.leaf {s : State} {T : HTree} {i : Idx} {p : List Bool} {rest : List (Idx × List Bool)} {c : Sym} {w : Nat}
    (h : WalkOf s T) (hT : T.leaves.Nodup) (hw : s.walk = (i, p) :: rest) (hn : nodeAt s.node i = some (.leaf c w)) :
    WalkOf { s with walk := rest, code := Cells.put s.code c.toNat p } T := by
  obtain ⟨D, W, h1, h2, h3, h4⟩ := h
  rw [hw] at h1
  obtain ⟨⟨j, q, U⟩, W, rfl, hj, h5⟩ := List.map_eq_cons_iff.1 h1.symm
  obtain ⟨rfl, rfl⟩ := Prod.mk.inj hj
  obtain ⟨is, hU⟩ := h2 _ (List.mem_cons_self ..)
  cases U with
  | node l r =>
    obtain ⟨w', a, b, il, ir, hw', -⟩ := hU
    rw [hn] at hw'
    cases hw'
  | leaf d =>
    obtain ⟨-, w', hw'⟩ := hU
    rw [hn] at hw'
    cases hw'
    simp only [List.flatMap_cons, HTree.paths, List.map_cons, List.map_nil, List.append_nil] at h3
    refine ⟨D ++ [(c, q)], W, h5.symm, fun e he => h2 e (List.mem_cons_of_mem _ he), by simpa using h3, fun d p => ?_⟩
    have hnot : ∀ p, (c, p) ∉ D := by
      intro p hq
      rw [← T.paths_fst, h3, List.map_append, List.nodup_append] at hT
      exact hT.2.2 c (List.mem_map_of_mem (f := Prod.fst) hq) c (by simp) rfl
    show codeAt (Cells.put s.code c.toNat q) d = some p ↔ _
    by_cases hd : d = c
    · subst hd
      rw [codeAt_put_same]
      simp [hnot, eq_comm]
    · rw [codeAt_put_ne _ _ hd, h4]
      simp [hd]

/-- Walk at an internal node. -/
theorem WalkOf.node {s : State} {T : HTree} {i : Idx} {p : List Bool} {rest : List (Idx × List Bool)} {l r : Idx} {w : Nat}
    (h : WalkOf s T) (hw : s.walk = (i, p) :: rest) (hn : nodeAt s.node i = some (.internal w l r)) :
    WalkOf { s with walk := (l, p ++ [false]) :: (r, p ++ [true]) :: rest } T := by
  obtain ⟨D, W, h1, h2, h3, h4⟩ := h
  rw [hw] at h1
  obtain ⟨⟨j, q, U⟩, W, rfl, hj, h5⟩ := List.map_eq_cons_iff.1 h1.symm
  obtain ⟨rfl, rfl⟩ := Prod.mk.inj hj
  obtain ⟨is, hU⟩ := h2 _ (List.mem_cons_self ..)
  cases U with
  | leaf d =>
    obtain ⟨-, w', hw'⟩ := hU
    rw [hn] at hw'
    cases hw'
  | node L R =>
    obtain ⟨hl, hr⟩ := hU.child hn
    refine ⟨D, (l, q ++ [false], L) :: (r, q ++ [true], R) :: W, by simp [h5], fun e he => ?_, ?_, h4⟩
    · rcases List.mem_cons.1 he with rfl | he
      · exact hl
      · rcases List.mem_cons.1 he with rfl | he
        · exact hr
        · exact h2 e (List.mem_cons_of_mem _ he)
    · rw [h3]
      simp [HTree.paths, Function.comp_def]

/-- Every move of a running stage keeps the tree, the code table and the bookkeeping in order. -/
theorem Moved.trees {s t : State} (h : Moved s t) (hi : Inv s) : TreeInv t := by
  have hf := pointIn_of_fits hi.control.point
  have hd := hi.trees.data
  cases h
  case parked h1 h2 => exact hi.trees
  case leaves h1 =>
    rw [h1] at hf
    have hb : s.phase ≠ .idle := by rcases hf with hf | hf <;> rw [hf] <;> exact Stage.noConfusion
    refine .build (hi.control.prog hb) hf rfl Point.noConfusion ?_
    have hL := leafCount_bounds s.freq
    show Forest _ (BitVec.ofNat 10 (leafCount s.freq)).toNat
    rw [idx_toNat (by omega)]
    exact ⟨_, by rw [leafForest_roots, leafList_length]; exact indicesBelow_eq _, leafForest_of s.freq s.node⟩
  case merge n a b na nb q h1 h2 h3 h4 h5 h6 h7 h8 =>
    rw [h1] at hf
    have hb : s.phase ≠ .idle := by rcases hf with hf | hf <;> rw [hf] <;> exact Stage.noConfusion
    refine .build (hi.control.prog hb) hf rfl Point.noConfusion ?_
    unfold PointData at hd
    rw [h1] at hd
    obtain ⟨a', b', na', nb', q', e1, e2, -, e4, e5, -, -, e8, -, e10⟩ := mergeMove_forest hd h2
    obtain ⟨F, hF1, hF2⟩ := hd
    obtain ⟨G, hG1, hG2, -⟩ := e10 F hF1 hF2
    rw [h3] at e1
    obtain ⟨rfl, -⟩ := Prod.mk.inj (Except.ok.inj e1)
    rw [h4] at e2
    obtain ⟨rfl, rfl⟩ := Prod.mk.inj (Except.ok.inj e2)
    rw [h5] at e4
    cases e4
    rw [h6] at e5
    cases e5
    rw [maxNodes] at h7
    refine ⟨G, ?_, ?_⟩
    · rw [← hG1]
      show q ++ [n] = q ++ [BitVec.ofNat 10 n.toNat]
      simp
    · have : (n + 1).toNat = n.toNat + 1 := by
        rw [BitVec.toNat_add, show (1 : Idx).toNat = 1 from rfl, Nat.mod_eq_of_lt (by omega)]
      rw [this]
      exact hG2
  case buildEnd n r h1 h2 =>
    rw [h1] at hf
    have hb : s.phase ≠ .idle := by rcases hf with hf | hf <;> rw [hf] <;> exact Stage.noConfusion
    refine .build (hi.control.prog hb) hf rfl Point.noConfusion ⟨fun _ => ?_, fun h => ?_⟩
    · unfold PointData at hd
      rw [h1] at hd
      obtain ⟨F, hF1, hF2⟩ := hd
      rw [h2] at hF1
      obtain ⟨e, rfl, he⟩ : ∃ e, F = [e] ∧ e.1 = r := by
        match F, hF1 with
        | [e], h => exact ⟨e, rfl, (List.cons.inj h).1.symm⟩
      refine ⟨e.2.1, ForestOf.treeAt hF2 ?_ ?_ n.isLt⟩
      · rw [he]
      · simp
    · exact absurd (show s.phase = .gencodes from h) (by rcases hf with hf | hf <;> rw [hf] <;> exact Stage.noConfusion)
  case gencodesStart r h1 h2 h3 =>
    have hp := hi.control.prog (by rw [h1]; exact Stage.noConfusion)
    rw [h1] at hp
    obtain ⟨T, hT⟩ := hi.trees.tree (by rw [hp]; rfl)
    exact {
      tree := fun _ => ⟨T, hT.congr rfl rfl rfl⟩
      codes := fun h => by
        have : hasCodes s.prog = true := h
        rw [hp] at this
        cases this
      fresh := fun h => by
        rcases h with h | ⟨-, h⟩
        · exact absurd (h1.symm.trans h) Stage.noConfusion
        · exact Point.noConfusion h
      data := by
        obtain ⟨r', is, hr, hh, hrest⟩ := hT
        rw [h3] at hr
        cases hr
        exact ⟨T, ⟨r, is, h3, hh, hrest⟩, walkOf_start rfl rfl hh⟩ }
  case walkEnd h1 h2 =>
    unfold PointData at hd
    rw [h1] at hd hf
    obtain ⟨T, hT, hW⟩ := hd
    refine hi.trees.goTo Point.noConfusion ⟨fun h => ?_, fun _ => ⟨T, hT.congr rfl rfl rfl, hW.codes h2⟩⟩
    rcases h with h | h <;> exact absurd (hf.symm.trans h) Stage.noConfusion
  case walkLeaf i p rest c w h1 h2 h3 h4 =>
    unfold PointData at hd
    rw [h1] at hd hf
    obtain ⟨T, hT, hW⟩ := hd
    have hp := hi.control.prog (by rw [hf]; exact Stage.noConfusion)
    rw [hf] at hp
    exact {
      tree := fun _ => ⟨T, hT.congr rfl rfl rfl⟩
      codes := fun h => by
        have : hasCodes s.prog = true := h
        rw [hp] at this
        cases this
      fresh := fun h => by
        rcases h with h | ⟨-, h⟩
        · exact absurd (hf.symm.trans h) Stage.noConfusion
        · exact absurd (h1.symm.trans h) Point.noConfusion
      data := by
        unfold PointData
        simp only [h1]
        obtain ⟨r, is, -, -, hS, -⟩ := id hT
        exact ⟨T, hT.congr rfl rfl rfl, hW.leaf hS.unique h2 h3⟩ }
  case walkInternal i p rest w l r h1 h2 h3 =>
    unfold PointData at hd
    rw [h1] at hd
    obtain ⟨T, hT, hW⟩ := hd
    refine hi.trees.goTo (by simp [h1]) ?_
    unfold PointData
    simp only [h1]
    exact ⟨T, hT.congr rfl rfl rfl, hW.node h2 h3⟩
  case writeTreeStart r h1 h2 h3 h4 =>
    obtain ⟨T, r', is, hr, hh, -⟩ := hi.tree (by rw [h1]; exact Stage.noConfusion) (by rw [h1]; rfl)
    rw [h4] at hr
    cases hr
    refine hi.trees.goTo Point.noConfusion fun e he => ?_
    rw [List.mem_singleton.1 he]
    exact ⟨T, is, hh⟩
  case serBit b rest h1 =>
    unfold PointData at hd
    rw [h1] at hd
    exact hi.trees.goTo Point.noConfusion hd
  case serLeaf i p rest c w h1 h2 h3 =>
    unfold PointData at hd
    rw [h1, h2] at hd
    exact hi.trees.goTo Point.noConfusion fun e he => hd e (List.mem_cons_of_mem _ he)
  case serInternal i p rest w l r h1 h2 h3 =>
    unfold PointData at hd
    rw [h1, h2] at hd
    refine hi.trees.goTo Point.noConfusion fun e he => ?_
    obtain ⟨T, is, hT⟩ := hd _ (List.mem_cons_self ..)
    cases T with
    | leaf c =>
      obtain ⟨-, w', hw'⟩ := hT
      rw [h3] at hw'
      cases hw'
    | node L R =>
      obtain ⟨⟨il, hl⟩, ir, hr⟩ := hT.child h3
      rcases List.mem_cons.1 he with rfl | he
      · exact ⟨L, il, hl⟩
      · rcases List.mem_cons.1 he with rfl | he
        · exact ⟨R, ir, hr⟩
        · exact hd e (List.mem_cons_of_mem _ he)
  case readTreeStart h1 h2 h3 =>
    have hp := hi.control.prog (by rw [h1]; exact Stage.noConfusion)
    rw [h1] at hp
    obtain ⟨f1, f2, f3, f4, f5⟩ := hi.trees.fresh (.inr ⟨hp, h2⟩)
    refine .build (k := .readHeader) hp (.inr rfl) h1 Point.noConfusion ⟨[], ?_, ?_⟩
    · show Pending s.node s.stk s.nnodes.toNat []
      rw [f5, f1]
      exact ⟨rfl, rfl⟩
    · refine ⟨List.nodup_nil, by simp, fun c _ => ?_, ?_, ?_, ?_⟩
      · show s.seen.getLsbD c.toNat = true ↔ _
        rw [f2]
        simp
      · show s.nleaf.toNat = _
        rw [f4]
        rfl
      · show s.nnodes.toNat = s.nint.toNat + _
        rw [f1, f3]
        rfl
      · show s.nint.toNat ≤ 256
        rw [f3]
        decide
  case desLeaf rest h1 h2 =>
    unfold PointData at hd
    rw [h1] at hd hf
    obtain ⟨ls, hP, hB⟩ := hd
    refine .build (k := .readHeader) (by rw [← hf]; exact hi.control.prog (by rw [hf]; exact Stage.noConfusion)) (.inr rfl) hf Point.noConfusion
      ⟨desNode_leaf hB, Nat.le_refl _, by simp, ls, hP, hB⟩
  case desInternal rest h1 h2 h3 =>
    unfold PointData at hd
    rw [h1] at hd hf
    obtain ⟨ls, hP, hB⟩ := hd
    obtain ⟨hP', hB', -⟩ := desNode_open hP hB h3
    exact .build (k := .readHeader) (by rw [← hf]; exact hi.control.prog (by rw [hf]; exact Stage.noConfusion)) (.inr rfl) hf Point.noConfusion ⟨ls, hP', hB'⟩
  case symGood i v h1 h2 h3 h4 h5 =>
    unfold PointData at hd
    rw [h1] at hd hf
    obtain ⟨e1, -, -, ls, hP, hB⟩ := hd
    obtain ⟨-, node, root, stk, p, e2, e3, e4⟩ := desSym_close e1 h2 h3 hP hB
    rw [e2] at h5
    cases h5
    exact .build (k := .readHeader) (by rw [← hf]; exact hi.control.prog (by rw [hf]; exact Stage.noConfusion)) (.inr rfl) hf e3 e4
  case symBit i n v b rest h1 h2 =>
    unfold PointData at hd
    rw [h1] at hd hf
    obtain ⟨e1, e2, e3, ls, hP, hB⟩ := hd
    refine hi.trees.goTo Point.noConfusion ⟨e1, by omega, ?_, ls, hP, hB⟩
    have := shiftIn_lt b (by omega) e3
    rwa [show 9 - (n + 1) + 1 = 9 - n by omega] at this
  case checkGood r nd h1 h2 h3 h4 h5 =>
    unfold PointData at hd
    rw [h1] at hd hf
    obtain ⟨T, e1, e2, e3, e4⟩ := hd
    rw [e1] at h2
    cases h2
    refine hi.trees.goTo Point.noConfusion ⟨fun _ => ⟨T, ?_⟩, fun h => absurd (hf.symm.trans h) Stage.noConfusion⟩
    have h6 := e2.isLeaf h3
    rw [h4] at h6
    exact treeAt_of_read e1 e2 e3 e4 (by simpa using h6.symm) h5
  case countRead k v h1 =>
    refine hi.trees.goTo ?_ ?_
    · dsimp only; split <;> exact Point.noConfusion
    · unfold PointData
      split <;> rename_i heq <;> dsimp only at heq <;> split at heq <;> first | cases heq | trivial
  case decodeStart r h1 h2 h3 =>
    obtain ⟨T, r', is, hr, hh, hS, -⟩ := hi.tree (by rw [h1]; exact Stage.noConfusion) (by rw [h1]; rfl)
    rw [h3] at hr
    cases hr
    refine hi.trees.goTo Point.noConfusion ?_
    have hn := hS.rootInternal
    cases T with
    | leaf c => cases hn
    | node L R => exact ⟨r, L, R, is, rfl, hh⟩
  case decodeOut c r h1 h2 =>
    rw [h1] at hf
    obtain ⟨T, r', is, hr, hh, hS, -⟩ := hi.tree (by rw [hf]; exact Stage.noConfusion) (by rw [hf]; rfl)
    rw [h2] at hr
    cases hr
    refine hi.trees.goTo Point.noConfusion ?_
    have hn := hS.rootInternal
    cases T with
    | leaf c => cases hn
    | node L R => exact ⟨r, L, R, is, rfl, hh⟩
  case decodeEdge b rest c k w l r nd p h1 h2 h3 h4 h5 h6 h7 =>
    unfold PointData at hd
    rw [h1] at hd hf
    obtain ⟨c', L, R, is, e1, e2⟩ := hd
    rw [e1] at h3
    cases h3
    obtain ⟨⟨il, hl⟩, ir, hr⟩ := e2.child h4
    obtain ⟨U, iu, hU⟩ : ∃ U iu, Holds s.node U k iu := by
      rw [h5]
      cases b
      · exact ⟨L, il, hl⟩
      · exact ⟨R, ir, hr⟩
    rcases h7 with ⟨-, rfl⟩ | ⟨-, -, rfl⟩ | ⟨-, h8, rfl⟩
    · refine hi.trees.goTo Point.noConfusion ⟨fun h => ?_, fun h => absurd (hf.symm.trans h) Stage.noConfusion⟩
      rcases h with h | h <;> exact absurd (hf.symm.trans h) Stage.noConfusion
    · exact hi.trees.goTo Point.noConfusion trivial
    · refine hi.trees.goTo Point.noConfusion ?_
      have := hU.isLeaf h6
      rw [h8] at this
      cases U with
      | leaf d => cases this
      | node L' R' => exact ⟨k, L', R', iu, rfl, hU⟩
  case stageEnd h1 =>
    unfold PointData at hd
    rw [h1] at hd hf
    have hprog := hi.control.prog hf
    have key : ∀ t : State, t.prog = s.phase → t.root = s.root → t.node = s.node → t.nnodes = s.nnodes →
        t.code = s.code → t.seen = s.seen → t.nint = s.nint → t.nleaf = s.nleaf → t.stk = s.stk → t.point = .start →
        t.phase ≠ .readTag → TreeInv t := by
      intro t a1 a2 a3 a4 a5 a6 a7 a8 a9 a10 a11
      refine ⟨fun h => ?_, fun h => ?_, fun h => ?_, by unfold PointData; rw [a10]; trivial⟩
      · rw [a1] at h
        by_cases hb : hasTree (stageBefore s.phase) = true
        · obtain ⟨T, hT⟩ := hi.tree hf hb
          exact ⟨T, hT.congr a2 a3 a4⟩
        · obtain ⟨T, hT⟩ := hd.1 (by
            cases hk : s.phase <;> rw [hk] at h hb <;> first | exact .inl rfl | exact .inr rfl | exact absurd rfl hb | exact Bool.noConfusion h)
          exact ⟨T, hT.congr a2 a3 a4⟩
      · rw [a1] at h
        by_cases hb : hasCodes (stageBefore s.phase) = true
        · obtain ⟨T, hT, hC⟩ := hi.codes hf hb
          exact ⟨T, hT.congr a2 a3 a4, by rwa [a5]⟩
        · obtain ⟨T, hT, hC⟩ := hd.2 (by
            cases hk : s.phase <;> rw [hk] at h hb <;> first | rfl | exact absurd rfl hb | exact Bool.noConfusion h)
          exact ⟨T, hT.congr a2 a3 a4, by rwa [a5]⟩
      · rcases h with h | h
        · exact absurd h a11
        · have := hi.trees.fresh (.inl (a1.symm.trans h.1))
          simpa only [FreshBooks, a4, a6, a7, a8, a9] using this
    unfold Sys2Proof.Machine.stageEnd
    split
    · exact key _ rfl rfl rfl rfl rfl rfl rfl rfl rfl rfl Stage.noConfusion
    · next k ks ht =>
      refine key _ rfl rfl rfl rfl rfl rfl rfl rfl rfl rfl ?_
      have hk := hi.control.todo
      rw [ht] at hk
      have := (stageBefore_next (hk.resolve_left (by simp)).symm).1
      intro h
      have h' : k = .readTag := h
      rw [h'] at this
      exact hf this.symm
  all_goals
    first
    | exact .abort _ _
    | exact hi.trees.goTo Point.noConfusion trivial
    | exact hi.trees.goTo (by rw [‹s.point = _›]; exact Point.noConfusion) (by unfold PointData; rw [‹s.point = _›]; trivial)
    | (rw [‹s.point = _›] at hf
       refine hi.trees.goTo Point.noConfusion ⟨fun h => ?_, fun h => absurd (hf.symm.trans h) Stage.noConfusion⟩
       rcases h with h | h <;> exact absurd (hf.symm.trans h) Stage.noConfusion)

/-! ## Progress -/

/-- A running stage in order makes its next move: nothing absent is read. -/
theorem Inv.progress {s : State} (hi : Inv s) (hb : s.phase ≠ .idle) : ∃ t, blockMove s = .ok t := by
  have hf := pointIn_of_fits hi.control.point
  have hd := hi.trees.data
  unfold PointData at hd
  cases hp : s.point with
  | start =>
    rw [blockMove_start hp]
    have hprog := hi.control.prog hb
    cases hk : s.phase
    case idle => exact absurd hk hb
    case gencodes =>
      obtain ⟨T, r, is, hr, -⟩ := hi.tree hb (by rw [hk]; rfl)
      exact ⟨_, by simp only [stageStart, hk, gencodesStart, hr]; rfl⟩
    case writeHeader =>
      obtain ⟨T, r, is, hr, -⟩ := hi.tree hb (by rw [hk]; rfl)
      cases hm : s.hmode
      · exact ⟨_, by simp only [stageStart, hk, writeHeaderStart, hm, hr]; rfl⟩
      · exact ⟨_, by simp only [stageStart, hk, writeHeaderStart, hm]; rfl⟩
    case readHeader =>
      cases hm : s.hmode
      · exact ⟨_, by simp only [stageStart, hk, readHeaderStart, hm]; rfl⟩
      · exact ⟨_, by simp only [stageStart, hk, readHeaderStart, hm]; rfl⟩
    case decode =>
      obtain ⟨T, r, is, hr, -⟩ := hi.tree hb (by rw [hk]; rfl)
      exact ⟨_, by simp only [stageStart, hk, decodeStart, hr]; rfl⟩
    all_goals exact ⟨_, by simp only [stageStart, hk]; rfl⟩
  | countByte =>
    rw [blockMove_countByte hp, countMove]
    rcases inByte_come s with ⟨-, he⟩ | ⟨b, rest, -, he⟩ <;> rw [he]
    · exact ⟨_, rfl⟩
    · simp only []
      split <;> exact ⟨_, rfl⟩
  | buildLeaves => rw [blockMove_buildLeaves hp, buildLeavesMove_eq]; exact ⟨_, rfl⟩
  | buildMerge n =>
    rw [hp] at hd
    rw [blockMove_buildMerge hp, buildMergeMove]
    obtain ⟨F, hF1, hF2⟩ := id hd
    split
    · next hq =>
      rw [hF1] at hq
      have := hF2.two
      rw [List.map_eq_nil_iff.1 hq] at this
      simp at this
    · exact ⟨_, rfl⟩
    · next x y z hq =>
      obtain ⟨a, b, na, nb, q, -, -, -, -, -, -, -, -, hm, -⟩ := mergeMove_forest (s := s) hd (by simp [hq])
      rw [show BitVec.ofNat 10 n.toNat = n by simp] at hm
      exact ⟨_, hm⟩
  | walkNode =>
    rw [hp] at hd
    obtain ⟨T, hT, D, W, h1, h2, h3, h4⟩ := hd
    rw [blockMove_walkNode hp, walkMove]
    split
    · exact ⟨_, rfl⟩
    · next i p rest hw =>
      rw [h1] at hw
      obtain ⟨⟨j, q, U⟩, W, rfl, hj, h5⟩ := List.map_eq_cons_iff.1 hw
      obtain ⟨rfl, rfl⟩ := Prod.mk.inj hj
      obtain ⟨is, hU⟩ := h2 _ (List.mem_cons_self ..)
      cases U with
      | leaf c =>
        obtain ⟨-, w, hw⟩ := hU
        have hc : c.toNat ≤ 256 := by
          obtain ⟨r, is, -, -, hS, -⟩ := hT
          refine hS.symbols c (HTree.leaf_of_path (p := q) ?_)
          rw [h3]
          simp [HTree.paths]
        simp only [hw]
        rw [putCode_of_lt _ _ (by rw [symCount]; omega)]
        exact ⟨_, rfl⟩
      | node l r =>
        obtain ⟨w, a, b, il, ir, hw, -⟩ := hU
        simp only [hw]
        exact ⟨_, rfl⟩
  | sendTag bits => rw [blockMove_sendTag hp]; cases bits <;> exact ⟨_, rfl⟩
  | serTree bits =>
    rw [hp] at hd
    rw [blockMove_serTree hp, serTreeMove.eq_def]
    split
    · exact ⟨_, rfl⟩
    · split
      · exact ⟨_, rfl⟩
      · next i p rest hw =>
        rw [hw] at hd
        obtain ⟨T, is, hT⟩ := hd _ (List.mem_cons_self ..)
        obtain ⟨nd, hn⟩ := hT.present
        simp only [hn]
        cases nd <;> exact ⟨_, rfl⟩
  | serCounts n bits =>
    rw [blockMove_serCounts hp, serCountsMove.eq_def]
    split
    · exact ⟨_, rfl⟩
    · split <;> exact ⟨_, rfl⟩
  | encodeByte =>
    rw [hp] at hf
    rw [blockMove_encodeByte hp, encodeByteMove]
    rcases inByte_come s with ⟨-, he⟩ | ⟨b, rest, -, he⟩ <;> rw [he] <;> simp only []
    · obtain ⟨T, ⟨r, is, -, -, hS, -⟩, hC⟩ := hi.codes hb (by rw [hf]; rfl)
      obtain ⟨p, hp⟩ := HTree.path_of_leaf hS.hasEos
      rw [← hC] at hp
      simp only [hp]
      exact ⟨_, rfl⟩
    · split <;> exact ⟨_, rfl⟩
  | encodeCode bits => rw [blockMove_encodeCode hp]; cases bits <;> exact ⟨_, rfl⟩
  | encodeEos bits => rw [blockMove_encodeEos hp]; cases bits <;> exact ⟨_, rfl⟩
  | recvTag n v =>
    rw [blockMove_recvTag hp]
    cases n with
    | zero => exact ⟨_, rfl⟩
    | succ n =>
      rw [recvTagMove]
      rcases inBit_come s with ⟨-, he⟩ | ⟨b, rest, -, he⟩ <;> rw [he] <;> exact ⟨_, rfl⟩
  | desNode =>
    rw [blockMove_desNode hp, desNodeMove]
    rcases inBit_come s with ⟨-, he⟩ | ⟨b, rest, -, he⟩ <;> rw [he] <;> simp only []
    · exact ⟨_, rfl⟩
    · split
      · exact ⟨_, rfl⟩
      · split <;> exact ⟨_, rfl⟩
  | desSym i n v =>
    rw [hp] at hd
    obtain ⟨e1, -, -, ls, hP, hB⟩ := hd
    rw [blockMove_desSym hp]
    cases n with
    | zero =>
      rw [desSymMove, closeLeaf]
      split
      · exact ⟨_, rfl⟩
      · next hv =>
        split
        · exact ⟨_, rfl⟩
        · next hs =>
          obtain ⟨h1, node, root, stk, p, h2, -⟩ := desSym_close (s := s) (v := v) e1 (by omega) (by simpa using hs) hP hB
          rw [putNode_of_lt _ _ h1]
          exact ⟨_, h2⟩
    | succ n =>
      rw [desSymMove]
      rcases inBit_come s with ⟨-, he⟩ | ⟨b, rest, -, he⟩ <;> rw [he] <;> exact ⟨_, rfl⟩
  | desCheck =>
    rw [hp] at hd
    obtain ⟨T, e1, e2, -⟩ := hd
    obtain ⟨nd, hn⟩ := e2.present
    rw [blockMove_desCheck hp, desCheckMove]
    simp only [e1, hn]
    split
    · exact ⟨_, rfl⟩
    · split <;> exact ⟨_, rfl⟩
  | readCounts k n v =>
    rw [blockMove_readCounts hp]
    cases n with
    | zero => rw [readCountsMove]; split <;> exact ⟨_, rfl⟩
    | succ n =>
      rw [readCountsMove]
      rcases inBit_come s with ⟨-, he⟩ | ⟨b, rest, -, he⟩ <;> rw [he] <;> exact ⟨_, rfl⟩
  | decodeBit =>
    rw [hp] at hd
    obtain ⟨c, l, r, is, e1, w, a, b', il, ir, e2, hl, hr, -⟩ := hd
    rw [blockMove_decodeBit hp, decodeBitMove]
    rcases inBit_come s with ⟨-, he⟩ | ⟨b, rest, -, he⟩ <;> rw [he] <;> simp only []
    · exact ⟨_, rfl⟩
    · simp only [e1, e2, Node.child, decodeArrive]
      obtain ⟨nd, hn⟩ : ∃ nd, nodeAt s.node (if b then b' else a) = some nd := by
        cases b
        · exact hl.present
        · exact hr.present
      simp only [hn]
      split
      · exact ⟨_, rfl⟩
      · split <;> exact ⟨_, rfl⟩
  | decodeOut c =>
    rw [hp] at hf
    obtain ⟨T, r, is, hr, -⟩ := hi.tree hb (by rw [hf]; rfl)
    rw [blockMove_decodeOut hp, decodeOutMove]
    simp only [hr]
    exact ⟨_, rfl⟩
  | fin => rw [blockMove_fin hp]; exact ⟨_, rfl⟩

/-- A move of a running stage in order leaves a state in order. -/
theorem Inv.move {s t : State} (h : Inv s) (hm : blockMove s = .ok t) : Inv t :=
  have h1 := blockMove_moved hm
  ⟨h1.control h.control, h1.stores h.stores, h1.trees h⟩

/-- A run of moves from a state in order answers a state in order. -/
theorem Inv.run {s : State} (h : Inv s) (n : Nat) : ∃ t, runMoves n s = .ok t ∧ Inv t := by
  induction n generalizing s with
  | zero => exact ⟨s, rfl, h⟩
  | succ n ih =>
    by_cases hb : s.phase = .idle
    · exact ⟨s, runMoves_idle hb _, h⟩
    · obtain ⟨u, hu⟩ := h.progress hb
      rw [runMoves_succ hb hu]
      exact ih (h.move hu)

end Sys2Proof.Machine
end

