-- ==== Sys2Proof/Laws/Turns.lean ====
section
/-! SUPPORT. Turns: a turn is a run of moves that the environment's pace cuts off only at a transfer. -/

namespace Sys2Proof.Machine

/-- DesNode's returns make no transfer. -/
theorem closeNode_events {st : List Idx} {c : Idx} {s t : State} (h : closeNode st c s = .ok t) : t.events = s.events := by
  induction st generalizing c s with
  | nil => cases h; rfl
  | cons i rest ih =>
    simp only [closeNode] at h
    split at h
    · cases h; rfl
    · split at h
      · split at h
        · cases h
        · next s1 h1 =>
          obtain ⟨-, rfl⟩ := putNode_ok h1
          exact (ih h).trans rfl
      · cases h

/-- A move makes at most one transfer. -/
theorem Moved.events {s t : State} (h : Moved s t) : t.events = s.events ∨ t.events = s.events + 1 := by
  cases h
  case symGood h => exact .inl ((closeNode_events h).trans rfl)
  case stageEnd => left; unfold Machine.stageEnd; split <;> rfl
  all_goals first | exact .inl rfl | exact .inr rfl

theorem blockMove_events {s t : State} (h : blockMove s = .ok t) : t.events = s.events ∨ t.events = s.events + 1 :=
  (blockMove_moved h).events

/-- A run never counts events back. -/
theorem runMoves_events {n : Nat} {s t : State} (h : runMoves n s = .ok t) : s.events ≤ t.events ∧ t.events ≤ s.events + n := by
  induction n generalizing s with
  | zero => cases h; exact ⟨Nat.le_refl _, Nat.le_refl _⟩
  | succ n ih =>
    simp only [runMoves] at h
    split at h
    · cases hm : blockMove s with
      | error f => rw [hm] at h; cases h
      | ok u =>
        rw [hm] at h
        have h1 := ih h
        have h2 := blockMove_events hm
        omega
    · cases h; omega

/-- Everything a turn can do when it answers: a run of moves, with no more transfers than its pace. -/
theorem turn_run {n p : Nat} {s t : State} (h : turn n p s = .ok t) :
    ∃ m, m ≤ n ∧ runMoves m s = .ok t ∧ t.events ≤ s.events + p := by
  induction n generalizing p s with
  | zero => cases h; exact ⟨0, Nat.le_refl 0, rfl, Nat.le_add_right _ _⟩
  | succ n ih =>
    simp only [turn] at h
    split at h
    · next hb =>
      cases hm : blockMove s with
      | error f => rw [hm] at h; cases h
      | ok u =>
        rw [hm] at h
        simp only [] at h
        have h2 := blockMove_events hm
        split at h
        · next he =>
          obtain ⟨m, h3, h4, h5⟩ := ih h
          exact ⟨m + 1, by omega, (runMoves_succ ((busy_iff s).1 hb) hm m).trans h4, by omega⟩
        · next he =>
          split at h
          · cases h; exact ⟨0, by omega, rfl, Nat.le_refl _⟩
          · next p =>
            obtain ⟨m, h3, h4, h5⟩ := ih h
            exact ⟨m + 1, by omega, (runMoves_succ ((busy_iff s).1 hb) hm m).trans h4, by omega⟩
    · cases h; exact ⟨0, by omega, rfl, Nat.le_add_right _ _⟩

/-- A turn does all of a run that ends or stops at a transfer, if it may make its transfers and its moves. -/
theorem turn_of_run {m n p : Nat} {s t : State} (h : runMoves m s = .ok t) (ht : t.phase = .idle) (hn : m ≤ n)
    (hp : t.events ≤ s.events + p) : turn n p s = .ok t := by
  induction n generalizing m p s with
  | zero =>
    obtain rfl : m = 0 := by omega
    exact h
  | succ n ih =>
    by_cases hb : s.phase = .idle
    · rw [runMoves_idle hb] at h
      rw [turn_idle hb, h]
    · obtain ⟨k, rfl⟩ : ∃ k, m = k + 1 := by
        cases m with
        | zero => cases h; exact absurd ht hb
        | succ k => exact ⟨k, rfl⟩
      simp only [runMoves, (busy_iff s).2 hb, if_true] at h
      simp only [turn, (busy_iff s).2 hb, if_true]
      cases hm : blockMove s with
      | error f => rw [hm] at h; cases h
      | ok u =>
        rw [hm] at h
        have h1 := (runMoves_events h).1
        have h2 := blockMove_events hm
        simp only []
        split
        · next he => exact ih h (by omega) (by omega)
        · next he =>
          cases p with
          | zero => omega
          | succ p => exact ih h (by omega) (by omega)

/-- A turn whose pace allows the transfers of a run that ends, ends with it. -/
theorem takeTurn_of_run {n : Nat} {s t : State} (h : runMoves n s = .ok t) (ht : t.phase = .idle)
    (hp : t.events ≤ s.events + s.pace) (hn : n ≤ (s.pace + 1) * quietMoves) : takeTurn s = .next t :=
  takeTurn_next.2 (turn_of_run h ht hn hp)

/-- Everything a turn can do when it answers. -/
theorem takeTurn_run {s t : State} (h : takeTurn s = .next t) :
    ∃ n, n ≤ (s.pace + 1) * quietMoves ∧ runMoves n s = .ok t ∧ t.events ≤ s.events + s.pace :=
  turn_run (takeTurn_next.1 h)

/-- If no move faults from a state with a property that every move keeps, no turn does. -/
theorem turn_no_fault {P : State → Prop} (hP : ∀ s t, s.phase ≠ .idle → P s → blockMove s = .ok t → P t)
    (hF : ∀ s f, s.phase ≠ .idle → P s → blockMove s ≠ .error f) {n p : Nat} {s : State} {f : Fault} (h : P s) :
    turn n p s ≠ .error f := by
  induction n generalizing p s with
  | zero => exact fun h => nomatch h
  | succ n ih =>
    intro ht
    simp only [turn] at ht
    split at ht
    · next hb =>
      cases hm : blockMove s with
      | error g => exact hF s g ((busy_iff s).1 hb) h hm
      | ok u =>
        have hu := hP s u ((busy_iff s).1 hb) h hm
        rw [hm] at ht
        simp only [] at ht
        split at ht
        · exact ih hu ht
        · split at ht
          · cases ht
          · exact ih hu ht
    · cases ht

end Sys2Proof.Machine
end

