-- ==== Sys2Proof/Laws/Steps.lean ====
section
/-! SUPPORT. From moves to steps: what is kept by everything a step can do is kept by every step; and a command answers
the end of the run of its stages. -/

namespace Sys2Proof.Machine

/-! ## The answer of a command -/

/-- An entry command on an idle block answers the end of a run of moves whose transfers the environment lets complete in
one turn; that the call is one more event leaves room for one transfer more here. -/
theorem entry_next {d : Direction} {k : Stage} {ks : List Stage} {s t : State} {n : Nat} (hi : s.phase = .idle) (ht : t.phase = .idle)
    (hr : runMoves n { callInit d { s with done := false } with phase := k, point := .start, todo := ks } = .ok t)
    (hp : t.events ≤ s.events + 1 + s.pace) (hn : n ≤ (s.pace + 1) * quietMoves) :
    acceptEntry d k ks s = .next t := by
  rw [acceptEntry_idle hi, runCommand]
  apply takeTurn_of_run hr ht
  all_goals cases d <;> assumption

/-- A stage command in sequence, the same. -/
theorem stage_next {need k : Stage} {s t : State} {n : Nat} (hi : s.phase = .idle) (hpr : s.prog = need) (ht : t.phase = .idle)
    (hr : runMoves n { s with done := false, phase := k, point := .start, todo := [] } = .ok t)
    (hp : t.events ≤ s.events + s.pace) (hn : n ≤ (s.pace + 1) * quietMoves) :
    acceptStage need k s = .next t := by
  rw [acceptStage_legal hi hpr, runCommand]
  exact takeTurn_of_run hr ht hp hn

/-- A run to the end of a stage body, and the move that ends the stage. -/
theorem run_finish {s t : State} {n : Nat} (hr : runMoves n s = .ok t) (hb : t.phase ≠ .idle) (hp : t.point = .fin) :
    runMoves (n + 1) s = .ok (stageEnd t) := runMoves_then hr (run_fin hb hp)

/-- Two runs from one state that have both ended are the same. -/
theorem runMoves_ended {m n : Nat} {s t u : State} (h1 : runMoves m s = .ok t) (h2 : runMoves n s = .ok u)
    (ht : t.phase = .idle) (hu : u.phase = .idle) : t = u := by
  rcases Nat.le_total m n with h | h
  · exact Except.ok.inj ((runMoves_le h1 ht h).symm.trans h2)
  · exact Except.ok.inj (h1.symm.trans (runMoves_le h2 hu h))

/-- A relation that each move of a busy block with property `I` keeps holds between the start and the end of a run; so does
`I`. For the frames of the commands. -/
theorem runMoves_relates {I : State → Prop} {R : State → State → Prop} (hrefl : ∀ s, R s s)
    (htrans : ∀ a b c, R a b → R b c → R a c) (hmove : ∀ s t, Moved s t → s.phase ≠ .idle → I s → R s t ∧ I t)
    {s t : State} {n : Nat} (h0 : I s)
    (hr : runMoves n s = .ok t) : R s t ∧ I t :=
  runMoves_induction (P := fun u => R s u ∧ I u) (fun u v hb hu hm => by
    have h := hmove _ _ (blockMove_moved hm) hb hu.2
    exact ⟨htrans _ _ _ hu.1 h.1, h.2⟩) n s t ⟨hrefl s, h0⟩ hr

/-! ## The starts of a command -/

/-- An accepted entry command starts in the control state of its first stage. -/
theorem control_entry {s : State} (h : ControlInv s) (hi : s.phase = .idle) (d : Direction) {k : Stage} {ks : List Stage}
    (hk : stageBefore k = .idle) (hks : ks = [] ∨ ks = stagesAfter k) :
    ControlInv { callInit d { s with done := false } with phase := k, point := .start, todo := ks } := by
  obtain ⟨-, hq, hw⟩ := h.parked hi
  cases d
  all_goals
    exact
    { point := by cases k <;> rfl
      todo := hks
      prog := fun _ => hk.symm
      running := fun _ => ⟨rfl, rfl⟩
      progClear := fun _ => rfl
      doneOf := fun h => nomatch h
      raised := rfl
      queue := fun h => absurd hq h
      stack := fun h => absurd hw h }

/-- An accepted stage command starts in the control state of its stage. -/
theorem control_stage {s : State} (h : ControlInv s) (hi : s.phase = .idle) {k : Stage}
    (hp : s.prog = stageBefore k) (hn : stageBefore k ≠ .idle) :
    ControlInv { s with done := false, phase := k, point := .start, todo := [] } := by
  obtain ⟨-, hq, hw⟩ := h.parked hi
  exact
    { point := by cases k <;> rfl
      todo := .inl rfl
      prog := fun _ => hp
      running := fun _ => ⟨rfl, h.progClear (by rw [hp]; exact hn)⟩
      progClear := h.progClear
      doneOf := fun h => nomatch h
      raised := h.raised
      queue := fun h => absurd hq h
      stack := fun h => absurd hw h }

/-- An illegal command while idle. -/
theorem control_illegal {s : State} (h : ControlInv s) (hi : s.phase = .idle) :
    ControlInv (raiseError .illegalCmd { s with done := false }) := by
  obtain ⟨-, hq, hw⟩ := h.parked hi
  exact .abort hq hw hi.symm

/-- SOFT_RESET. -/
theorem control_soft (s : State) : ControlInv (softReset s) where
  point := rfl
  todo := .inl rfl
  prog := fun h => absurd rfl h
  running := fun h => absurd rfl h
  progClear := fun h => absurd rfl h
  doneOf := fun h => nomatch h
  raised := rfl
  queue := fun h => absurd rfl h
  stack := fun h => absurd rfl h

/-- SOFT_RESET clears the stores. -/
theorem stores_soft {s : State} (h : StoreInv s) : StoreInv (softReset s) where
  freqForm := rfl
  nodeForm := rfl
  codeForm := rfl
  freqFits := fun _ => Nat.two_pow_pos _
  field := trivial
  hmodeLegal := fun h => nomatch h
  modeLegal := h.modeLegal

/-- SOFT_RESET leaves no tree. -/
theorem trees_soft (s : State) : TreeInv (softReset s) where
  tree := fun h => nomatch h
  codes := fun h => nomatch h
  fresh := fun _ => ⟨rfl, rfl, rfl, rfl, rfl⟩
  data := trivial

/-- CallInit clears the stores. -/
theorem stores_entry {s : State} (h : StoreInv s) (d : Direction) (k : Stage) (ks : List Stage) :
    StoreInv { callInit d { s with done := false } with phase := k, point := .start, todo := ks } := by
  cases d
  all_goals
    exact
    { freqForm := rfl
      nodeForm := rfl
      codeForm := rfl
      freqFits := fun _ => Nat.two_pow_pos _
      field := trivial
      hmodeLegal := fun h => nomatch h
      modeLegal := h.modeLegal }

/-- CallInit leaves no tree, and the bookkeeping at its reset values. -/
theorem trees_entry (s : State) (d : Direction) (k : Stage) (ks : List Stage) :
    TreeInv { callInit d { s with done := false } with phase := k, point := .start, todo := ks } := by
  cases d
  all_goals
    exact
    { tree := fun h => nomatch h
      codes := fun h => nomatch h
      fresh := fun _ => ⟨rfl, rfl, rfl, rfl, rfl⟩
      data := trivial }

/-- A stage command keeps the tree and the bookkeeping. -/
theorem trees_stage {s : State} (h : TreeInv s) (hp : s.point = .start) {k : Stage} (hk : k ≠ .readTag) :
    TreeInv { s with done := false, phase := k, point := .start, todo := [] } where
  tree := h.tree
  codes := h.codes
  fresh h' := by
    rcases h' with h' | h'
    · exact absurd h' hk
    · exact h.fresh (.inr ⟨h'.1, hp⟩)
  data := trivial

/-- What every move keeps, every turn keeps. -/
theorem turn_keeps {P : State → Prop} (hP : ∀ s t, P s → blockMove s = .ok t → P t) {s t : State} (h : P s)
    (ht : takeTurn s = .next t) : P t := by
  obtain ⟨n, -, hr, -⟩ := takeTurn_run ht
  exact runMoves_induction (fun s t _ h hm => hP s t h hm) n s t h hr

/-- The control state over one move. -/
theorem control_move {s t : State} (h : ControlInv s) (hm : blockMove s = .ok t) : ControlInv t :=
  (blockMove_moved hm).control { h with }

/-- The stores over one move. -/
theorem stores_move {s t : State} (h : StoreInv s) (hm : blockMove s = .ok t) : StoreInv t :=
  (blockMove_moved hm).stores { h with }

/-- A property that each thing a step can do keeps: a move, the start of an entry command and of a stage command, an
illegal command, SOFT_RESET, a MODE write, and what touches only OVR, the environment and the script. -/
structure KeptByActions (P : State → Prop) : Prop where
  move : ∀ s t, P s → blockMove s = .ok t → P t
  entry : ∀ s d k ks, P s → s.phase = .idle → stageBefore k = .idle → (ks = [] ∨ ks = stagesAfter k) → 
    P { callInit d { s with done := false } with phase := k, point := .start, todo := ks }
  stage : ∀ s k, P s → s.phase = .idle → s.prog = stageBefore k → stageBefore k ≠ .idle → P { s with done := false, phase := k, point := .start, todo := [] }
  illegal : ∀ s, P s → s.phase = .idle → P (raiseError .illegalCmd { s with done := false })
  soft : ∀ s, P s → P (softReset s)
  mode : ∀ s m, P s → (m = .counts → s.cfg.hasCounts = true) → P { s with mode := m }
  env : ∀ s b o a r p h, P s → P { s with byteSrc := b, ovr := o, bitSrc := a, rdata := r, pace := p, host := h }

/-- Then every command keeps it. -/
theorem KeptByActions.exec {P : State → Prop} (E : KeptByActions P) {s t : State} {i : Instr} (h : P s) (he : exec i s = .next t) : P t := by
  have drop : P (dropWrite s) := E.env s s.byteSrc true s.bitSrc s.rdata s.pace s.host h
  have en : ∀ d k ks, stageBefore k = .idle → (ks = [] ∨ ks = stagesAfter k) → acceptEntry d k ks s = .next t → P t := by
    intro d k ks h1 h2 h3
    by_cases hb : s.phase = .idle
    · rw [acceptEntry_idle hb] at h3
      exact turn_keeps E.move (E.entry s d k ks h hb h1 h2) h3
    · rw [acceptEntry_busy hb] at h3
      cases h3; exact drop
  have st : ∀ k, stageBefore k ≠ .idle → acceptStage (stageBefore k) k s = .next t → P t := by
    intro k h1 h3
    by_cases hb : s.phase = .idle
    · by_cases hp : s.prog = stageBefore k
      · rw [acceptStage_legal hb hp] at h3
        exact turn_keeps E.move (E.stage s k h hb hp h1) h3
      · rw [acceptStage_illegal hb hp] at h3
        cases h3; exact E.illegal s h hb
    · rw [acceptStage_busy hb] at h3
      cases h3; exact drop
  cases i
  case nop => cases he; exact h
  case softReset => cases he; exact E.soft s h
  case compress => exact en _ _ _ rfl (.inr rfl) he
  case count => exact en _ _ _ rfl (.inl rfl) he
  case build => exact st .build (by decide) he
  case gencodes => exact st .gencodes (by decide) he
  case writeTag => exact st .writeTag (by decide) he
  case writeHeader => exact st .writeHeader (by decide) he
  case encode => exact st .encode (by decide) he
  case decompress => exact en _ _ _ rfl (.inr rfl) he
  case readTag => exact en _ _ _ rfl (.inl rfl) he
  case readHeader => exact st .readHeader (by decide) he
  case decode => exact st .decode (by decide) he

/-- Then every step keeps it. -/
theorem KeptByActions.step {P : State → Prop} (E : KeptByActions P) {s t : State} (h : P s) (he : step s = .next t) : P t := by
  have same : ∀ u : State, P u → ∀ hh, P { u with host := hh } := fun u hu hh => E.env u u.byteSrc u.ovr u.bitSrc u.rdata u.pace hh hu
  unfold Machine.step advance at he
  split at he
  · exact turn_keeps E.move h he
  · next op rest hh =>
    have h0 := same s h rest
    revert he
    generalize hs0 : ({ s with host := rest } : State) = u at h0 ⊢
    intro he
    unfold runHostOp at he
    split at he
    · unfold regWrite at he
      split at he
      · split at he
        · unfold writeCmd at he
          split at he
          · exact E.exec h0 he
          · by_cases hb : u.phase = .idle
            · rw [acceptReserved_idle hb] at he; cases he; exact E.illegal u h0 hb
            · rw [acceptReserved_busy hb] at he; cases he
              exact E.env u u.byteSrc true u.bitSrc u.rdata u.pace u.host h0
        · split at he
          · cases he
            unfold writeMode
            split
            · exact E.env u u.byteSrc true u.bitSrc u.rdata u.pace u.host h0
            · split
              · next hc => exact E.mode u _ h0 (fun _ => hc)
              · exact h0
          · cases he; exact h0
      · cases he
    · unfold regRead at he
      split at he
      · cases he; exact E.env u u.byteSrc u.ovr u.bitSrc _ u.pace u.host h0
      · cases he
    · unfold pollStatus at he
      split at he
      · exact turn_keeps E.move (E.env u u.byteSrc u.ovr u.bitSrc _ u.pace _ h0) he
      · cases he; exact E.env u u.byteSrc u.ovr u.bitSrc _ u.pace u.host h0
    · cases he
      have := E.mode _ .tree (E.soft u h0) (fun h => nomatch h)
      exact this
    · unfold setBytes at he
      split at he
      · cases he
      · cases he; exact E.env u _ u.ovr u.bitSrc u.rdata u.pace u.host h0
    · unfold setBits at he
      split at he
      · cases he
      · cases he; exact E.env u u.byteSrc u.ovr _ u.rdata u.pace u.host h0
    · exact turn_keeps E.move h0 he
    · cases he; exact E.env u u.byteSrc u.ovr u.bitSrc u.rdata _ u.host h0


end Sys2Proof.Machine
end

