-- ==== Sys2Proof/Laws/Calls.lean ====
section
/-! SUPPORT. `Moved` says all of a move: a move depends on nothing else, so a stage does not depend on the stages after
it, and two calls that differ in what a call does not read go the same way. -/

namespace Sys2Proof.Machine

/-- Each way of a move is the move. -/
theorem Moved.eq {s t : State} (h : Moved s t) : blockMove s = .ok t := by
  cases h
  case merge n a b na nb q h1 h2 h3 h4 h5 h6 h7 h8 =>
    obtain ⟨i, j, r, hq⟩ : ∃ i j r, s.pq = i :: j :: r := by
      match hs : s.pq, h2 with
      | i :: j :: r, _ => exact ⟨i, j, r, rfl⟩
    rw [blockMove, h1]
    simp only [buildMergeMove, hq]
    rw [mergeMove, h3]
    simp only []
    rw [h4]
    simp only [h5, h6, putNode_of_lt _ _ h7]
  case leaves h1 =>
    rw [blockMove, h1]
    exact buildLeavesMove_eq s
  case symGood i v h1 h2 h3 h4 h5 =>
    rw [blockMove, h1]
    simp only [desSymMove, closeLeaf]
    rw [if_neg (by omega), if_neg (by rw [h3]; decide), putNode_of_lt _ _ h4]
    exact h5
  case stageEnd h1 => rw [blockMove, h1]
  case tagGood v m h1 h2 =>
    have hne := s.cfg.tags_ne
    rw [blockMove, h1]
    simp only [recvTagMove, checkTag]
    rcases h2 with ⟨h2, rfl⟩ | ⟨h2, h3, h4, rfl⟩
    · rw [if_pos h2]
    · rw [if_neg h2, if_pos ⟨h3, h4⟩]
  case tagBad v h1 h2 h3 =>
    rw [blockMove, h1]
    simp only [recvTagMove, checkTag]
    rw [if_neg h2, if_neg h3]
  case symBad i v h1 h2 =>
    rw [blockMove, h1]
    simp only [desSymMove, closeLeaf]
    by_cases h : 256 < v.toNat
    · rw [if_pos h]
    · rw [if_neg h, if_pos (h2.resolve_left h)]
  case checkBad r nd h1 h2 h3 h4 =>
    rw [blockMove, h1]
    simp only [desCheckMove, h2, h3]
    by_cases h : nd.isLeaf = true
    · rw [if_pos h]
    · rw [if_neg h, if_neg (by rw [h4.resolve_left h]; decide)]
  case checkGood r nd h1 h2 h3 h4 h5 =>
    rw [blockMove, h1]
    simp only [desCheckMove, h2, h3]
    rw [if_neg (by rw [h4]; decide), if_pos h5]
  case decodeEdge b rest c k w l r nd p h1 h2 h3 h4 h5 h6 h7 =>
    rw [blockMove, h1]
    subst h5
    simp only [decodeBitMove, inBit_cons h2, h3, h4, Node.child, decodeArrive, h6]
    rcases h7 with ⟨h7, rfl⟩ | ⟨h7, h8, rfl⟩ | ⟨h7, h8, rfl⟩ <;> simp [*]
  case parked h1 h2 => rw [blockMove, h2]; simp only [stageStart, h1]
  case countEnd h1 h2 => rw [blockMove, h1]; simp only [countMove, inByte_of_nil h2]
  case countFull b rest h1 h2 h3 => refine Eq.trans (b := countMove s) (by rw [blockMove, h1]) ?_; simp only [countMove, inByte_cons h2]; exact if_pos h3
  case countOne b rest h1 h2 h3 => refine Eq.trans (b := countMove s) (by rw [blockMove, h1]) ?_; simp only [countMove, inByte_cons h2]; exact if_neg h3
  case buildEnd h1 h2 => rw [blockMove, h1]; simp only [buildMergeMove, h2]
  case walkEnd h1 h2 => rw [blockMove, h1]; simp only [walkMove, h2]
  case walkLeaf h1 h2 h3 h4 => refine Eq.trans (b := walkMove s) (by rw [blockMove, h1]) ?_; simp only [walkMove, h2, h3, putCode, if_pos h4]
  case walkInternal h1 h2 h3 => refine Eq.trans (b := walkMove s) (by rw [blockMove, h1]) ?_; simp only [walkMove, h2, h3]
  case serEnd h1 h2 => rw [blockMove, h1]; simp only [serTreeMove, h2]
  case serLeaf h1 h2 h3 => rw [blockMove, h1]; simp only [serTreeMove, h2, h3]; rfl
  case serInternal h1 h2 h3 => rw [blockMove, h1]; simp only [serTreeMove, h2, h3]; rfl
  case serCountNext h1 h2 => rw [blockMove, h1]; simp only [serCountsMove, if_pos h2]
  case serCountsEnd h1 h2 => rw [blockMove, h1]; simp only [serCountsMove, if_neg (Nat.not_lt.2 h2)]
  case encodeEoi h1 h2 h3 => rw [blockMove, h1]; simp only [encodeByteMove, inByte_of_nil h2, h3]
  case encodeTake h1 h2 h3 => rw [blockMove, h1]; simp only [encodeByteMove, inByte_cons h2, h3]
  case encodeMissing h1 h2 h3 => refine Eq.trans (b := encodeByteMove s) (by rw [blockMove, h1]) ?_; simp only [encodeByteMove, inByte_cons h2, h3]
  case tagShort h1 h2 => rw [blockMove, h1]; simp only [recvTagMove, inBit_of_nil h2]; rfl
  case tagBit h1 h2 => rw [blockMove, h1]; simp only [recvTagMove, inBit_cons h2]
  case desShort h1 h2 => rw [blockMove, h1]; simp only [desNodeMove, inBit_of_nil h2]; rfl
  case desLeaf h1 h2 => rw [blockMove, h1]; simp only [desNodeMove, inBit_cons h2]; rfl
  case desTooMany h1 h2 h3 => rw [blockMove, h1]; simp only [desNodeMove, inBit_cons h2, h3]; rfl
  case desInternal h1 h2 h3 => rw [blockMove, h1]; simp only [desNodeMove, inBit_cons h2]; exact if_neg h3
  case symShort h1 h2 => rw [blockMove, h1]; simp only [desSymMove, inBit_of_nil h2]; rfl
  case symBit h1 h2 => rw [blockMove, h1]; simp only [desSymMove, inBit_cons h2]
  case countRead h1 => rw [blockMove, h1]; simp only [readCountsMove]; split <;> rfl
  case countShort h1 h2 => rw [blockMove, h1]; simp only [readCountsMove, inBit_of_nil h2]; rfl
  case countBit h1 h2 => rw [blockMove, h1]; simp only [readCountsMove, inBit_cons h2]
  case decodeShort h1 h2 => rw [blockMove, h1]; simp only [decodeBitMove, inBit_of_nil h2]; rfl
  case decodeOut c r h1 h2 =>
    refine Eq.trans (b := decodeOutMove c s) (by rw [blockMove, h1]) ?_
    simp only [decodeOutMove, h2, outByte]
  case countStart h1 h2 =>
    refine Eq.trans (b := Machine.countStart s) (by rw [blockMove, h2]; simp only [stageStart, h1]) ?_
    rfl
  case buildStart h1 h2 =>
    refine Eq.trans (b := Machine.buildStart s) (by rw [blockMove, h2]; simp only [stageStart, h1]) ?_
    rfl
  case gencodesStart h1 h2 h3 =>
    refine Eq.trans (b := Machine.gencodesStart s) (by rw [blockMove, h2]; simp only [stageStart, h1]) ?_
    simp only [Machine.gencodesStart, h3]
  case writeTagStart h1 h2 =>
    refine Eq.trans (b := Machine.writeTagStart s) (by rw [blockMove, h2]; simp only [stageStart, h1]) ?_
    rfl
  case writeTreeStart h1 h2 h3 h4 =>
    refine Eq.trans (b := Machine.writeHeaderStart s) (by rw [blockMove, h2]; simp only [stageStart, h1]) ?_
    simp only [Machine.writeHeaderStart, h3, h4]
  case writeCountsStart h1 h2 h3 =>
    refine Eq.trans (b := Machine.writeHeaderStart s) (by rw [blockMove, h2]; simp only [stageStart, h1]) ?_
    simp only [Machine.writeHeaderStart, h3]
  case encodeStart h1 h2 =>
    refine Eq.trans (b := Machine.encodeStart s) (by rw [blockMove, h2]; simp only [stageStart, h1]) ?_
    rfl
  case readTagStart h1 h2 =>
    refine Eq.trans (b := Machine.readTagStart s) (by rw [blockMove, h2]; simp only [stageStart, h1]) ?_
    rfl
  case readTreeStart h1 h2 h3 =>
    refine Eq.trans (b := Machine.readHeaderStart s) (by rw [blockMove, h2]; simp only [stageStart, h1]) ?_
    simp only [Machine.readHeaderStart, h3]
  case readCountsStart h1 h2 h3 =>
    refine Eq.trans (b := Machine.readHeaderStart s) (by rw [blockMove, h2]; simp only [stageStart, h1]) ?_
    simp only [Machine.readHeaderStart, h3]
  case decodeStart h1 h2 h3 =>
    refine Eq.trans (b := Machine.decodeStart s) (by rw [blockMove, h2]; simp only [stageStart, h1]) ?_
    simp only [Machine.decodeStart, h3]
  all_goals
    rw [blockMove, ‹s.point = _›]
    rfl


/-- What DesNode's returns do depends on the configuration, the arena and ROOT only. -/
theorem closeNode_transfer {l : List Idx} {c : Idx} {s t u : State} (h : closeNode l c s = .ok t) (hc : u.cfg = s.cfg)
    (hn : u.node = s.node) (hr : u.root = s.root) :
    closeNode l c u = .ok { u with node := t.node, root := t.root, stk := t.stk, point := t.point } := by
  induction l generalizing c s u with
  | nil =>
    rw [closeNode] at h ⊢
    cases h
    simp [hn]
  | cons i l ih =>
    rw [closeNode] at h ⊢
    split at h
    · next hci =>
      cases h
      rw [if_pos hci]
      simp [hn, hr]
    · next hci =>
      rw [if_neg hci, hn]
      split at h
      · next nl nr h1 h2 =>
        split at h
        · cases h
        · next s1 hs1 =>
          obtain ⟨h3, rfl⟩ := putNode_ok hs1
          rw [putNode_of_lt _ _ h3]
          simp only []
          rw [ih (u := { u with node := Cells.put u.node i.toNat (.internal (addWt u.cfg nl.wt nr.wt) (i + 1) c) }) h hc
            (by simp only [hn, hc]) hr]
      · cases h

/-- `t` with the stages `ks` to run after the running one; an idle block has none. -/
def setTodo (ks : List Stage) (t : State) : State := if t.phase = .idle then t else { t with todo := ks }

theorem setTodo_busy {ks : List Stage} {t : State} (h : t.phase ≠ .idle) : setTodo ks t = { t with todo := ks } :=
  if_neg h

/-- A move inside a stage body does not depend on the stages to run after it. -/
theorem Moved.setTodo {s t : State} (ks : List Stage) (h : Moved s t) (hb : s.phase ≠ .idle) (hp : s.point ≠ .fin) :
    Moved { s with todo := ks } (Machine.setTodo ks t) := by
  cases h
  case parked h1 h2 => exact absurd h1 hb
  case stageEnd h1 => exact absurd h1 hp
  case symGood i v h1 h2 h3 h4 h5 =>
    have h6 := closeNode_ok h5
    obtain ⟨node, root, stk, p, rfl, -, -⟩ := h6
    rw [setTodo_busy]
    · exact .symGood i v _ h1 h2 h3 h4 (closeNode_transfer h5 rfl rfl rfl)
    · exact hb
  case countStart h1 h2 => rw [setTodo_busy]; exact Moved.countStart h1 h2; exact hb
  case countEnd h1 h2 => rw [setTodo_busy]; exact Moved.countEnd h1 h2; exact hb
  case countFull b rest h1 h2 h3 => exact Moved.countFull b rest h1 h2 h3
  case countOne b rest h1 h2 h3 => rw [setTodo_busy]; exact Moved.countOne b rest h1 h2 h3; exact hb
  case buildStart h1 h2 => rw [setTodo_busy]; exact Moved.buildStart h1 h2; exact hb
  case leaves h1 => rw [setTodo_busy]; exact Moved.leaves h1; exact hb
  case merge n a b na nb q h1 h2 h3 h4 h5 h6 h7 h8 => rw [setTodo_busy]; exact Moved.merge n a b na nb q h1 h2 h3 h4 h5 h6 h7 h8; exact hb
  case buildEnd n r h1 h2 => rw [setTodo_busy]; exact Moved.buildEnd n r h1 h2; exact hb
  case gencodesStart r h1 h2 h3 => rw [setTodo_busy]; exact Moved.gencodesStart r h1 h2 h3; exact hb
  case walkEnd h1 h2 => rw [setTodo_busy]; exact Moved.walkEnd h1 h2; exact hb
  case walkLeaf i p rest c w h1 h2 h3 h4 => rw [setTodo_busy]; exact Moved.walkLeaf i p rest c w h1 h2 h3 h4; exact hb
  case walkInternal i p rest w l r h1 h2 h3 => rw [setTodo_busy]; exact Moved.walkInternal i p rest w l r h1 h2 h3; exact hb
  case writeTagStart h1 h2 => rw [setTodo_busy]; exact Moved.writeTagStart h1 h2; exact hb
  case sendTagEnd h1 => rw [setTodo_busy]; exact Moved.sendTagEnd h1; exact hb
  case sendTagBit b rest h1 => rw [setTodo_busy]; exact Moved.sendTagBit b rest h1; exact hb
  case writeTreeStart r h1 h2 h3 h4 => rw [setTodo_busy]; exact Moved.writeTreeStart r h1 h2 h3 h4; exact hb
  case writeCountsStart h1 h2 h3 => rw [setTodo_busy]; exact Moved.writeCountsStart h1 h2 h3; exact hb
  case serBit b rest h1 => rw [setTodo_busy]; exact Moved.serBit b rest h1; exact hb
  case serEnd h1 h2 => rw [setTodo_busy]; exact Moved.serEnd h1 h2; exact hb
  case serLeaf i p rest c w h1 h2 h3 => rw [setTodo_busy]; exact Moved.serLeaf i p rest c w h1 h2 h3; exact hb
  case serInternal i p rest w l r h1 h2 h3 => rw [setTodo_busy]; exact Moved.serInternal i p rest w l r h1 h2 h3; exact hb
  case serCountBit n b rest h1 => rw [setTodo_busy]; exact Moved.serCountBit n b rest h1; exact hb
  case serCountNext n h1 h2 => rw [setTodo_busy]; exact Moved.serCountNext n h1 h2; exact hb
  case serCountsEnd n h1 h2 => rw [setTodo_busy]; exact Moved.serCountsEnd n h1 h2; exact hb
  case encodeStart h1 h2 => rw [setTodo_busy]; exact Moved.encodeStart h1 h2; exact hb
  case encodeEoi p h1 h2 h3 => rw [setTodo_busy]; exact Moved.encodeEoi p h1 h2 h3; exact hb
  case encodeTake b rest p h1 h2 h3 => rw [setTodo_busy]; exact Moved.encodeTake b rest p h1 h2 h3; exact hb
  case encodeMissing b rest h1 h2 h3 => exact Moved.encodeMissing b rest h1 h2 h3
  case encodeNext h1 => rw [setTodo_busy]; exact Moved.encodeNext h1; exact hb
  case encodeBit b rest h1 => rw [setTodo_busy]; exact Moved.encodeBit b rest h1; exact hb
  case encodeEnd h1 => rw [setTodo_busy]; exact Moved.encodeEnd h1; exact hb
  case encodeEosBit b rest h1 => rw [setTodo_busy]; exact Moved.encodeEosBit b rest h1; exact hb
  case readTagStart h1 h2 => rw [setTodo_busy]; exact Moved.readTagStart h1 h2; exact hb
  case tagGood v m h1 h2 => rw [setTodo_busy]; exact Moved.tagGood v m h1 h2; exact hb
  case tagBad v h1 h2 h3 => exact Moved.tagBad v h1 h2 h3
  case tagShort n v h1 h2 => exact Moved.tagShort n v h1 h2
  case tagBit n v b rest h1 h2 => rw [setTodo_busy]; exact Moved.tagBit n v b rest h1 h2; exact hb
  case readTreeStart h1 h2 h3 => rw [setTodo_busy]; exact Moved.readTreeStart h1 h2 h3; exact hb
  case readCountsStart h1 h2 h3 => rw [setTodo_busy]; exact Moved.readCountsStart h1 h2 h3; exact hb
  case desShort h1 h2 => exact Moved.desShort h1 h2
  case desLeaf rest h1 h2 => rw [setTodo_busy]; exact Moved.desLeaf rest h1 h2; exact hb
  case desTooMany rest h1 h2 h3 => exact Moved.desTooMany rest h1 h2 h3
  case desInternal rest h1 h2 h3 => rw [setTodo_busy]; exact Moved.desInternal rest h1 h2 h3; exact hb
  case symBad i v h1 h2 => exact Moved.symBad i v h1 h2
  case symShort i n v h1 h2 => exact Moved.symShort i n v h1 h2
  case symBit i n v b rest h1 h2 => rw [setTodo_busy]; exact Moved.symBit i n v b rest h1 h2; exact hb
  case checkBad r nd h1 h2 h3 h4 => exact Moved.checkBad r nd h1 h2 h3 h4
  case checkGood r nd h1 h2 h3 h4 h5 => rw [setTodo_busy]; exact Moved.checkGood r nd h1 h2 h3 h4 h5; exact hb
  case countRead k v h1 => rw [setTodo_busy]; exact Moved.countRead k v h1; exact hb
  case countShort k n v h1 h2 => exact Moved.countShort k n v h1 h2
  case countBit k n v b rest h1 h2 => rw [setTodo_busy]; exact Moved.countBit k n v b rest h1 h2; exact hb
  case decodeStart r h1 h2 h3 => rw [setTodo_busy]; exact Moved.decodeStart r h1 h2 h3; exact hb
  case decodeShort h1 h2 => exact Moved.decodeShort h1 h2
  case decodeEdge b rest c k w l r nd p h1 h2 h3 h4 h5 h6 h7 => rw [setTodo_busy]; exact Moved.decodeEdge b rest c k w l r nd p h1 h2 h3 h4 h5 h6 h7; exact hb
  case decodeOut c r h1 h2 => rw [setTodo_busy]; exact Moved.decodeOut c r h1 h2; exact hb

/-- A move inside a stage body stays in the stage, or is the error abort. -/
theorem Moved.inStage {s t : State} (h : Moved s t) (hp : s.point ≠ .fin) :
    (t.phase = .idle ∧ t.done = false) ∨ (t.phase = s.phase ∧ t.todo = s.todo ∧ t.done = s.done ∧ t.pace = s.pace) := by
  cases h
  case stageEnd h1 => exact absurd h1 hp
  case symGood i v h1 h2 h3 h4 h5 =>
    obtain ⟨node, root, stk, p, rfl, -, -⟩ := closeNode_ok h5
    exact .inr ⟨rfl, rfl, rfl, rfl⟩
  all_goals first
    | exact .inr ⟨rfl, rfl, rfl, rfl⟩
    | exact .inl ⟨rfl, rfl⟩

theorem blockMove_setTodo {s t : State} (ks : List Stage) (h : blockMove s = .ok t) (hb : s.phase ≠ .idle)
    (hp : s.point ≠ .fin) : blockMove { s with todo := ks } = .ok (setTodo ks t) :=
  ((blockMove_moved h).setTodo ks hb hp).eq

/-- A run that has ended, of a stage with stages after it, is a run of the stage alone that ends in the error abort, or
is a run of the stage alone to its end, and from there a run of the stages after it. -/
theorem run_split {k : Stage} {ks : List Stage} (n : Nat) {s t : State} (hb : s.phase ≠ .idle) (ht : s.todo = k :: ks)
    (hr : runMoves n s = .ok t) (hi : t.phase = .idle) :
    (t.done = false ∧ ∃ m, m ≤ n ∧ runMoves m { s with todo := [] } = .ok t) ∨
    ∃ (m : Nat) (u : State), m ≤ n ∧ u.phase = s.phase ∧ u.done = s.done ∧ u.pace = s.pace ∧
      runMoves m { s with todo := [] } = .ok (stageEnd { u with todo := [] }) ∧
      runMoves (n - m) (stageEnd { u with todo := k :: ks }) = .ok t := by
  induction n generalizing s with
  | zero =>
    cases hr
    exact absurd hi hb
  | succ n ih =>
    obtain ⟨v, hv⟩ : ∃ v, blockMove s = .ok v := by
      rw [runMoves, if_pos ((busy_iff s).2 hb)] at hr
      split at hr
      · exact ⟨_, ‹_›⟩
      · cases hr
    rw [runMoves_succ hb hv] at hr
    by_cases hp : s.point = .fin
    · rw [blockMove_fin hp] at hv
      cases hv
      refine .inr ⟨1, s, by omega, rfl, rfl, rfl, ?_, ?_⟩
      · rw [runMoves_one (s := { s with todo := [] }) hb]
        exact blockMove_fin (s := { s with todo := [] }) hp
      · rw [← ht]
        exact hr
    · have h0 := blockMove_setTodo [] hv hb hp
      rcases (blockMove_moved hv).inStage hp with ⟨h1, h2⟩ | ⟨h1, h2, hd, hpc⟩
      · rw [runMoves_idle h1] at hr
        cases hr
        refine .inl ⟨h2, 1, by omega, ?_⟩
        rw [runMoves_one (s := { s with todo := [] }) hb, h0, setTodo, if_pos h1]
      · have hbv : v.phase ≠ .idle := by rw [h1]; exact hb
        rw [setTodo_busy hbv] at h0
        rcases ih hbv (by rw [h2]; exact ht) hr with ⟨h3, m, h4, h5⟩ | ⟨m, u, h3, h4, e1, e2, h5, h6⟩
        · exact .inl ⟨h3, m + 1, by omega, (runMoves_succ (s := { s with todo := [] }) hb h0 m).trans h5⟩
        · refine .inr ⟨m + 1, u, by omega, h4.trans h1, e1.trans hd, e2.trans hpc, (runMoves_succ (s := { s with todo := [] }) hb h0 m).trans h5, ?_⟩
          rw [show n + 1 - (m + 1) = n - m by omega]
          exact h6


/-! ## Two calls that differ in what a call does not read -/

/-- `s`, with what a compression does not read, and PQ and the traversal stack, as in `u`. -/
def mixC (s u : State) : State :=
  { s with
    mode := u.mode, pq := u.pq, walk := u.walk, cur := u.cur, seen := u.seen, nint := u.nint, nleaf := u.nleaf
    stk := u.stk, bitSrc := u.bitSrc, byteSink := u.byteSink, pace := u.pace, events := u.events, host := u.host
    rdata := u.rdata }

/-- Two states of compressions that go the same way: the same in all that a compression reads from here on. -/
structure SameC (s u : State) : Prop where
  mix : u = mixC s u
  hdr : u.hdrMode = s.hdrMode
  queue : (∃ n, s.point = .buildMerge n) → u.pq = s.pq
  stack : (s.point = .walkNode ∨ ∃ b, s.point = .serTree b) → u.walk = s.walk

/-- A stage of a compression. -/
def Stage.isC (k : Stage) : Bool :=
  match k with
  | .count | .build | .gencodes | .writeTag | .writeHeader | .encode => true
  | .idle | .readTag | .readHeader | .decode => false

/-- A move of a compression goes the same way in the other state. -/
theorem SameC.move {s u t : State} (hS : SameC s u) (h : Moved s t) (hk : s.phase.isC = true)
    (hf : PointIn s.phase s.point) : ∃ v, Moved u v ∧ SameC t v := by
  obtain ⟨hm, hh, hq, hw⟩ := hS
  rw [hm] at hh hq hw ⊢
  cases h
  case parked h1 h2 =>
    rw [h1] at hk
    exact nomatch hk
  case countStart h1 h2 =>
    exact ⟨_, .countStart h1 h2, rfl, hh, nofun, nofun⟩
  case countEnd h1 h2 =>
    exact ⟨_, .countEnd h1 h2, rfl, hh, nofun, nofun⟩
  case countFull b rest h1 h2 h3 =>
    exact ⟨_, .countFull b rest h1 h2 h3, rfl, hh, nofun, nofun⟩
  case countOne b rest h1 h2 h3 =>
    exact ⟨_, .countOne b rest h1 h2 h3, rfl, hh, hq, hw⟩
  case buildStart h1 h2 =>
    exact ⟨_, .buildStart h1 h2, rfl, hh, nofun, nofun⟩
  case leaves h1 =>
    exact ⟨_, .leaves h1, rfl, hh, fun _ => rfl, nofun⟩
  case merge n a b na nb q h1 h2 h3 h4 h5 h6 h7 h8 =>
    have hq := hq ⟨_, h1⟩
    change u.pq = s.pq at hq
    refine ⟨_, .merge n a b na nb q h1 (by rw [show (mixC s u).pq = s.pq from hq]; exact h2)
      (by rw [show (mixC s u).pq = s.pq from hq]; exact h3) (by rw [show (mixC s u).pq = s.pq from hq]; exact h4)
      h5 h6 h7 (by rw [show (mixC s u).pq = s.pq from hq]; exact h8), rfl, hh, fun _ => rfl, nofun⟩
  case buildEnd n r h1 h2 =>
    exact ⟨_, .buildEnd n r h1 ((hq ⟨_, h1⟩).trans h2), rfl, hh, nofun, nofun⟩
  case gencodesStart r h1 h2 h3 =>
    exact ⟨_, .gencodesStart r h1 h2 h3, rfl, hh, nofun, fun _ => rfl⟩
  case walkEnd h1 h2 =>
    exact ⟨_, .walkEnd h1 ((hw (.inl h1)).trans h2), rfl, hh, nofun, nofun⟩
  case walkLeaf i p rest c w h1 h2 h3 h4 =>
    exact ⟨_, .walkLeaf i p rest c w h1 ((hw (.inl h1)).trans h2) h3 h4, rfl, hh, hq, fun _ => rfl⟩
  case walkInternal i p rest w l r h1 h2 h3 =>
    exact ⟨_, .walkInternal i p rest w l r h1 ((hw (.inl h1)).trans h2) h3, rfl, hh, hq, fun _ => rfl⟩
  case writeTagStart h1 h2 =>
    refine ⟨_, .writeTagStart h1 h2, ?_, hh, nofun, nofun⟩
    rw [hh]
    rfl
  case sendTagEnd h1 =>
    exact ⟨_, .sendTagEnd h1, rfl, hh, nofun, nofun⟩
  case sendTagBit b rest h1 =>
    exact ⟨_, .sendTagBit b rest h1, rfl, hh, nofun, nofun⟩
  case writeTreeStart r h1 h2 h3 h4 =>
    exact ⟨_, .writeTreeStart r h1 h2 h3 h4, rfl, hh, nofun, fun _ => rfl⟩
  case writeCountsStart h1 h2 h3 =>
    exact ⟨_, .writeCountsStart h1 h2 h3, rfl, hh, nofun, nofun⟩
  case serBit b rest h1 =>
    exact ⟨_, .serBit b rest h1, rfl, hh, nofun, fun _ => hw (.inr ⟨_, h1⟩)⟩
  case serEnd h1 h2 =>
    exact ⟨_, .serEnd h1 ((hw (.inr ⟨_, h1⟩)).trans h2), rfl, hh, nofun, nofun⟩
  case serLeaf i p rest c w h1 h2 h3 =>
    exact ⟨_, .serLeaf i p rest c w h1 ((hw (.inr ⟨_, h1⟩)).trans h2) h3, rfl, hh, nofun, fun _ => rfl⟩
  case serInternal i p rest w l r h1 h2 h3 =>
    exact ⟨_, .serInternal i p rest w l r h1 ((hw (.inr ⟨_, h1⟩)).trans h2) h3, rfl, hh, nofun, fun _ => rfl⟩
  case serCountBit n b rest h1 =>
    exact ⟨_, .serCountBit n b rest h1, rfl, hh, nofun, nofun⟩
  case serCountNext n h1 h2 =>
    exact ⟨_, .serCountNext n h1 h2, rfl, hh, nofun, nofun⟩
  case serCountsEnd n h1 h2 =>
    exact ⟨_, .serCountsEnd n h1 h2, rfl, hh, nofun, nofun⟩
  case encodeStart h1 h2 =>
    exact ⟨_, .encodeStart h1 h2, rfl, hh, nofun, nofun⟩
  case encodeEoi p h1 h2 h3 =>
    exact ⟨_, .encodeEoi p h1 h2 h3, rfl, hh, nofun, nofun⟩
  case encodeTake b rest p h1 h2 h3 =>
    exact ⟨_, .encodeTake b rest p h1 h2 h3, rfl, hh, nofun, nofun⟩
  case encodeMissing b rest h1 h2 h3 =>
    exact ⟨_, .encodeMissing b rest h1 h2 h3, rfl, hh, nofun, nofun⟩
  case encodeNext h1 =>
    exact ⟨_, .encodeNext h1, rfl, hh, nofun, nofun⟩
  case encodeBit b rest h1 =>
    exact ⟨_, .encodeBit b rest h1, rfl, hh, nofun, nofun⟩
  case encodeEnd h1 =>
    exact ⟨_, .encodeEnd h1, rfl, hh, nofun, nofun⟩
  case encodeEosBit b rest h1 =>
    exact ⟨_, .encodeEosBit b rest h1, rfl, hh, nofun, nofun⟩
  case readTagStart h1 h2 =>
    rw [h1] at hk
    exact nomatch hk
  case tagGood v m h1 h2 =>
    rw [h1] at hf
    rw [show s.phase = _ from hf] at hk
    exact nomatch hk
  case tagBad v h1 h2 h3 =>
    rw [h1] at hf
    rw [show s.phase = _ from hf] at hk
    exact nomatch hk
  case tagShort n v h1 h2 =>
    rw [h1] at hf
    rw [show s.phase = _ from hf] at hk
    exact nomatch hk
  case tagBit n v b rest h1 h2 =>
    rw [h1] at hf
    rw [show s.phase = _ from hf] at hk
    exact nomatch hk
  case readTreeStart h1 h2 h3 =>
    rw [h1] at hk
    exact nomatch hk
  case readCountsStart h1 h2 h3 =>
    rw [h1] at hk
    exact nomatch hk
  case desShort h1 h2 =>
    rw [h1] at hf
    rw [show s.phase = _ from hf] at hk
    exact nomatch hk
  case desLeaf rest h1 h2 =>
    rw [h1] at hf
    rw [show s.phase = _ from hf] at hk
    exact nomatch hk
  case desTooMany rest h1 h2 h3 =>
    rw [h1] at hf
    rw [show s.phase = _ from hf] at hk
    exact nomatch hk
  case desInternal rest h1 h2 h3 =>
    rw [h1] at hf
    rw [show s.phase = _ from hf] at hk
    exact nomatch hk
  case symBad i v h1 h2 =>
    rw [h1] at hf
    rw [show s.phase = _ from hf] at hk
    exact nomatch hk
  case symGood i v h1 h2 h3 h4 h5 =>
    rw [h1] at hf
    rw [show s.phase = _ from hf] at hk
    exact nomatch hk
  case symShort i n v h1 h2 =>
    rw [h1] at hf
    rw [show s.phase = _ from hf] at hk
    exact nomatch hk
  case symBit i n v b rest h1 h2 =>
    rw [h1] at hf
    rw [show s.phase = _ from hf] at hk
    exact nomatch hk
  case checkBad r nd h1 h2 h3 h4 =>
    rw [h1] at hf
    rw [show s.phase = _ from hf] at hk
    exact nomatch hk
  case checkGood r nd h1 h2 h3 h4 h5 =>
    rw [h1] at hf
    rw [show s.phase = _ from hf] at hk
    exact nomatch hk
  case countRead k v h1 =>
    rw [h1] at hf
    rw [show s.phase = _ from hf] at hk
    exact nomatch hk
  case countShort k n v h1 h2 =>
    rw [h1] at hf
    rw [show s.phase = _ from hf] at hk
    exact nomatch hk
  case countBit k n v b rest h1 h2 =>
    rw [h1] at hf
    rw [show s.phase = _ from hf] at hk
    exact nomatch hk
  case decodeStart r h1 h2 h3 =>
    rw [h1] at hk
    exact nomatch hk
  case decodeShort h1 h2 =>
    rw [h1] at hf
    rw [show s.phase = _ from hf] at hk
    exact nomatch hk
  case decodeEdge b rest c k w l r nd p h1 h2 h3 h4 h5 h6 h7 =>
    rw [h1] at hf
    rw [show s.phase = _ from hf] at hk
    exact nomatch hk
  case decodeOut c r h1 h2 =>
    rw [h1] at hf
    rw [show s.phase = _ from hf] at hk
    exact nomatch hk
  case stageEnd h1 =>
    have hs : Machine.stageEnd (mixC s u) = mixC (Machine.stageEnd s) (mixC s u) := by
      unfold Machine.stageEnd
      rw [show (mixC s u).todo = s.todo from rfl]
      cases s.todo <;> rfl
    have hp : (Machine.stageEnd s).point = .start ∧ (Machine.stageEnd s).hdrMode = s.hdrMode := by
      unfold Machine.stageEnd
      cases s.todo <;> exact ⟨rfl, rfl⟩
    refine ⟨_, .stageEnd h1, ?_, ?_, ?_, ?_⟩
    · rw [hs]
      rfl
    · rw [hs, hp.2]
      refine Eq.trans ?_ hh
      unfold Machine.stageEnd State.hdrMode
      cases s.todo <;> rfl
    · rw [hp.1]
      nofun
    · rw [hp.1]
      nofun


/-- `s`, with what a decompression does not read, PQ and the bit source as in `u`. -/
def mixD (s u : State) : State :=
  { s with
    mode := u.mode, pq := u.pq, walk := u.walk, code := u.code, byteSrc := u.byteSrc, bitSink := u.bitSink
    bitSrc := u.bitSrc, pace := u.pace, events := u.events, host := u.host, rdata := u.rdata }

/-- Two states of decompressions that go the same way: the same in all that a decompression reads from here on, and the
same bits still to come. -/
structure SameD (s u : State) : Prop where
  mix : u = mixD s u
  bits : bitsToCome u = bitsToCome s
  queue : (∃ n, s.point = .buildMerge n) → u.pq = s.pq

/-- A stage of a decompression. -/
def Stage.isD (k : Stage) : Bool :=
  match k with
  | .readTag | .readHeader | .decode => true
  | .idle | .count | .build | .gencodes | .writeTag | .writeHeader | .encode => false

/-- After one more bit of each, the same bits are still to come. -/
theorem same_skip {s u t v : State} {b : Bool} {rest : List Bool} (h : bitsToCome u = bitsToCome s)
    (hs : bitsToCome s = b :: rest) (ht : t.bitSrc = s.bitSrc.skip 1) (hv : v.bitSrc = u.bitSrc.skip 1) :
    bitsToCome v = bitsToCome t :=
  (bitsToCome_skip (a := [b]) (h.trans hs) hv).trans (bitsToCome_skip (a := [b]) hs ht).symm

/-- A move of a decompression goes the same way in the other state. -/
theorem SameD.move {s u t : State} (hS : SameD s u) (h : Moved s t) (hk : s.phase.isD = true)
    (hf : PointIn s.phase s.point) : ∃ v, Moved u v ∧ SameD t v := by
  obtain ⟨hm, hbt, hq⟩ := hS
  rw [hm] at hq hbt ⊢
  cases h
  case parked h1 h2 =>
    rw [h1] at hk
    exact nomatch hk
  case countStart h1 h2 =>
    rw [h1] at hk
    exact nomatch hk
  case countEnd h1 h2 =>
    rw [h1] at hf
    rw [show s.phase = _ from hf] at hk
    exact nomatch hk
  case countFull b rest h1 h2 h3 =>
    rw [h1] at hf
    rw [show s.phase = _ from hf] at hk
    exact nomatch hk
  case countOne b rest h1 h2 h3 =>
    rw [h1] at hf
    rw [show s.phase = _ from hf] at hk
    exact nomatch hk
  case buildStart h1 h2 =>
    rw [h1] at hk
    exact nomatch hk
  case leaves h1 =>
    exact ⟨_, .leaves h1, rfl, hbt, fun _ => rfl⟩
  case merge n a b na nb q h1 h2 h3 h4 h5 h6 h7 h8 =>
    have hq := hq ⟨_, h1⟩
    exact ⟨_, .merge n a b na nb q h1 (by rw [hq]; exact h2) (by rw [hq]; exact h3) (by rw [hq]; exact h4)
      h5 h6 h7 (by rw [hq]; exact h8), rfl, hbt, fun _ => rfl⟩
  case buildEnd n r h1 h2 =>
    exact ⟨_, .buildEnd n r h1 ((hq ⟨_, h1⟩).trans h2), rfl, hbt, nofun⟩
  case gencodesStart r h1 h2 h3 =>
    rw [h1] at hk
    exact nomatch hk
  case walkEnd h1 h2 =>
    rw [h1] at hf
    rw [show s.phase = _ from hf] at hk
    exact nomatch hk
  case walkLeaf i p rest c w h1 h2 h3 h4 =>
    rw [h1] at hf
    rw [show s.phase = _ from hf] at hk
    exact nomatch hk
  case walkInternal i p rest w l r h1 h2 h3 =>
    rw [h1] at hf
    rw [show s.phase = _ from hf] at hk
    exact nomatch hk
  case writeTagStart h1 h2 =>
    rw [h1] at hk
    exact nomatch hk
  case sendTagEnd h1 =>
    rw [h1] at hf
    rw [show s.phase = _ from hf] at hk
    exact nomatch hk
  case sendTagBit b rest h1 =>
    rw [h1] at hf
    rw [show s.phase = _ from hf] at hk
    exact nomatch hk
  case writeTreeStart r h1 h2 h3 h4 =>
    rw [h1] at hk
    exact nomatch hk
  case writeCountsStart h1 h2 h3 =>
    rw [h1] at hk
    exact nomatch hk
  case serBit b rest h1 =>
    rw [h1] at hf
    rw [show s.phase = _ from hf] at hk
    exact nomatch hk
  case serEnd h1 h2 =>
    rw [h1] at hf
    rw [show s.phase = _ from hf] at hk
    exact nomatch hk
  case serLeaf i p rest c w h1 h2 h3 =>
    rw [h1] at hf
    rw [show s.phase = _ from hf] at hk
    exact nomatch hk
  case serInternal i p rest w l r h1 h2 h3 =>
    rw [h1] at hf
    rw [show s.phase = _ from hf] at hk
    exact nomatch hk
  case serCountBit n b rest h1 =>
    rw [h1] at hf
    rw [show s.phase = _ from hf] at hk
    exact nomatch hk
  case serCountNext n h1 h2 =>
    rw [h1] at hf
    rw [show s.phase = _ from hf] at hk
    exact nomatch hk
  case serCountsEnd n h1 h2 =>
    rw [h1] at hf
    rw [show s.phase = _ from hf] at hk
    exact nomatch hk
  case encodeStart h1 h2 =>
    rw [h1] at hk
    exact nomatch hk
  case encodeEoi p h1 h2 h3 =>
    rw [h1] at hf
    rw [show s.phase = _ from hf] at hk
    exact nomatch hk
  case encodeTake b rest p h1 h2 h3 =>
    rw [h1] at hf
    rw [show s.phase = _ from hf] at hk
    exact nomatch hk
  case encodeMissing b rest h1 h2 h3 =>
    rw [h1] at hf
    rw [show s.phase = _ from hf] at hk
    exact nomatch hk
  case encodeNext h1 =>
    rw [h1] at hf
    rw [show s.phase = _ from hf] at hk
    exact nomatch hk
  case encodeBit b rest h1 =>
    rw [h1] at hf
    rw [show s.phase = _ from hf] at hk
    exact nomatch hk
  case encodeEnd h1 =>
    rw [h1] at hf
    rw [show s.phase = _ from hf] at hk
    exact nomatch hk
  case encodeEosBit b rest h1 =>
    rw [h1] at hf
    rw [show s.phase = _ from hf] at hk
    exact nomatch hk
  case readTagStart h1 h2 =>
    exact ⟨_, .readTagStart h1 h2, rfl, hbt, nofun⟩
  case tagGood v m h1 h2 =>
    exact ⟨_, .tagGood v m h1 h2, rfl, hbt, nofun⟩
  case tagBad v h1 h2 h3 =>
    exact ⟨_, .tagBad v h1 h2 h3, rfl, hbt, nofun⟩
  case tagShort n v h1 h2 =>
    exact ⟨_, .tagShort n v h1 (hbt.trans h2), rfl, hbt, nofun⟩
  case tagBit n v b rest h1 h2 =>
    exact ⟨_, .tagBit n v b rest h1 (hbt.trans h2), rfl, same_skip hbt h2 rfl rfl, nofun⟩
  case readTreeStart h1 h2 h3 =>
    exact ⟨_, .readTreeStart h1 h2 h3, rfl, hbt, nofun⟩
  case readCountsStart h1 h2 h3 =>
    exact ⟨_, .readCountsStart h1 h2 h3, rfl, hbt, nofun⟩
  case desShort h1 h2 =>
    exact ⟨_, .desShort h1 (hbt.trans h2), rfl, hbt, nofun⟩
  case desLeaf rest h1 h2 =>
    exact ⟨_, .desLeaf rest h1 (hbt.trans h2), rfl, same_skip hbt h2 rfl rfl, nofun⟩
  case desTooMany rest h1 h2 h3 =>
    exact ⟨_, .desTooMany rest h1 (hbt.trans h2) h3, rfl, same_skip hbt h2 rfl rfl, nofun⟩
  case desInternal rest h1 h2 h3 =>
    exact ⟨_, .desInternal rest h1 (hbt.trans h2) h3, rfl, same_skip hbt h2 rfl rfl, nofun⟩
  case symBad i v h1 h2 =>
    exact ⟨_, .symBad i v h1 h2, rfl, hbt, nofun⟩
  case symGood i v h1 h2 h3 h4 h5 =>
    obtain ⟨node, root, stk, p, rfl, h6, -⟩ := closeNode_ok h5
    refine ⟨_, .symGood i v _ h1 h2 h3 h4 (closeNode_transfer h5 rfl rfl rfl), rfl, hbt, ?_⟩
    rintro ⟨n, hn⟩
    change p = _ at hn
    rcases h6 with rfl | rfl <;> exact nomatch hn
  case symShort i n v h1 h2 =>
    exact ⟨_, .symShort i n v h1 (hbt.trans h2), rfl, hbt, nofun⟩
  case symBit i n v b rest h1 h2 =>
    exact ⟨_, .symBit i n v b rest h1 (hbt.trans h2), rfl, same_skip hbt h2 rfl rfl, nofun⟩
  case checkBad r nd h1 h2 h3 h4 =>
    exact ⟨_, .checkBad r nd h1 h2 h3 h4, rfl, hbt, nofun⟩
  case checkGood r nd h1 h2 h3 h4 h5 =>
    exact ⟨_, .checkGood r nd h1 h2 h3 h4 h5, rfl, hbt, nofun⟩
  case countRead k v h1 =>
    refine ⟨_, .countRead k v h1, rfl, hbt, ?_⟩
    rintro ⟨n, hn⟩
    change (if _ then _ else _) = _ at hn
    split at hn <;> exact nomatch hn
  case countShort k n v h1 h2 =>
    exact ⟨_, .countShort k n v h1 (hbt.trans h2), rfl, hbt, nofun⟩
  case countBit k n v b rest h1 h2 =>
    exact ⟨_, .countBit k n v b rest h1 (hbt.trans h2), rfl, same_skip hbt h2 rfl rfl, nofun⟩
  case decodeStart r h1 h2 h3 =>
    exact ⟨_, .decodeStart r h1 h2 h3, rfl, hbt, nofun⟩
  case decodeShort h1 h2 =>
    exact ⟨_, .decodeShort h1 (hbt.trans h2), rfl, hbt, nofun⟩
  case decodeEdge b rest c k w l r nd p h1 h2 h3 h4 h5 h6 h7 =>
    refine ⟨_, .decodeEdge b rest c k w l r nd p h1 (hbt.trans h2) h3 h4 h5 h6 h7, rfl, same_skip hbt h2 rfl rfl, ?_⟩
    rintro ⟨n, hn⟩
    change p = _ at hn
    rcases h7 with ⟨-, rfl⟩ | ⟨-, -, rfl⟩ | ⟨-, -, rfl⟩ <;> exact nomatch hn
  case decodeOut c r h1 h2 =>
    exact ⟨_, .decodeOut c r h1 h2, rfl, hbt, nofun⟩
  case stageEnd h1 =>
    have hs : Machine.stageEnd (mixD s u) = mixD (Machine.stageEnd s) (mixD s u) := by
      unfold Machine.stageEnd
      rw [show (mixD s u).todo = s.todo from rfl]
      cases s.todo <;> rfl
    have hp : (Machine.stageEnd s).point = .start := by
      unfold Machine.stageEnd
      cases s.todo <;> rfl
    refine ⟨_, .stageEnd h1, ?_, ?_, ?_⟩
    · rw [hs]
      rfl
    · rw [hs]
      unfold Machine.stageEnd
      split <;> exact hbt
    · rw [hp]
      nofun

/-! ## A call keeps to its stages -/

/-- A call whose running stage and the stages after it are of the kind `K`. -/
structure CallOf (K : Stage → Bool) (s : State) : Prop where
  point : PointIn s.phase s.point
  stage : s.phase ≠ .idle → K s.phase = true
  rest : ∀ k ∈ s.todo, K k = true

/-- A move of a call keeps to its stages. -/
theorem CallOf.move {K : Stage → Bool} {s t : State} (hc : CallOf K s) (h : Moved s t) (hb : s.phase ≠ .idle) :
    CallOf K t := by
  obtain ⟨h1, h2, h3⟩ := hc
  have h2' := h2 hb
  cases h
  case stageEnd h4 =>
    unfold Machine.stageEnd
    split
    · next ht => exact ⟨trivial, fun h => absurd rfl h, h3⟩
    · next k ks ht =>
      rw [ht] at h3
      exact ⟨trivial, fun _ => h3 k (by simp), fun j hj => h3 j (by simp [hj])⟩
  case symGood i v h4 h5 h6 h7 h8 =>
    obtain ⟨node, root, stk, p, rfl, h9, -⟩ := closeNode_ok h8
    rw [h4] at h1
    exact ⟨by rcases h9 with rfl | rfl <;> exact h1, h2, h3⟩
  case countRead k v h4 =>
    rw [h4] at h1
    refine ⟨?_, h2, h3⟩
    change PointIn s.phase (if _ then _ else _)
    split
    · exact h1
    · exact .inr h1
  case decodeEdge b rest c k w l r nd p h4 h5 h6 h7 h8 h9 h10 =>
    rw [h4] at h1
    refine ⟨?_, h2, h3⟩
    rcases h10 with ⟨-, rfl⟩ | ⟨-, -, rfl⟩ | ⟨-, -, rfl⟩
    · exact hb
    · exact h1
    · exact h1
  case parked h4 h5 => exact absurd h4 hb
  case countStart h4 h5 => exact ⟨h4, h2, h3⟩
  case countEnd h4 h5 => exact ⟨hb, h2, h3⟩
  case countFull b rest h4 h5 h6 => exact ⟨trivial, fun h => absurd rfl h, nofun⟩
  case countOne b rest h4 h5 h6 => exact ⟨h1, h2, h3⟩
  case buildStart h4 h5 => exact ⟨.inl h4, h2, h3⟩
  case leaves h4 => rw [h4] at h1; exact ⟨h1, h2, h3⟩
  case merge n a b na nb q h4 h5 h6 h7 h8 h9 h10 h11 => rw [h4] at h1; exact ⟨h1, h2, h3⟩
  case buildEnd n r h4 h5 => exact ⟨hb, h2, h3⟩
  case gencodesStart r h4 h5 h6 => exact ⟨h4, h2, h3⟩
  case walkEnd h4 h5 => exact ⟨hb, h2, h3⟩
  case walkLeaf i p rest c w h4 h5 h6 h7 => exact ⟨h1, h2, h3⟩
  case walkInternal i p rest w l r h4 h5 h6 => exact ⟨h1, h2, h3⟩
  case writeTagStart h4 h5 => exact ⟨h4, h2, h3⟩
  case sendTagEnd h4 => exact ⟨hb, h2, h3⟩
  case sendTagBit b rest h4 => rw [h4] at h1; exact ⟨h1, h2, h3⟩
  case writeTreeStart r h4 h5 h6 h7 => exact ⟨h4, h2, h3⟩
  case writeCountsStart h4 h5 h6 => exact ⟨h4, h2, h3⟩
  case serBit b rest h4 => rw [h4] at h1; exact ⟨h1, h2, h3⟩
  case serEnd h4 h5 => exact ⟨hb, h2, h3⟩
  case serLeaf i p rest c w h4 h5 h6 => rw [h4] at h1; exact ⟨h1, h2, h3⟩
  case serInternal i p rest w l r h4 h5 h6 => rw [h4] at h1; exact ⟨h1, h2, h3⟩
  case serCountBit n b rest h4 => rw [h4] at h1; exact ⟨h1, h2, h3⟩
  case serCountNext n h4 h5 => rw [h4] at h1; exact ⟨h1, h2, h3⟩
  case serCountsEnd n h4 h5 => exact ⟨hb, h2, h3⟩
  case encodeStart h4 h5 => exact ⟨h4, h2, h3⟩
  case encodeEoi p h4 h5 h6 => rw [h4] at h1; exact ⟨h1, h2, h3⟩
  case encodeTake b rest p h4 h5 h6 => rw [h4] at h1; exact ⟨h1, h2, h3⟩
  case encodeMissing b rest h4 h5 h6 => exact ⟨trivial, fun h => absurd rfl h, nofun⟩
  case encodeNext h4 => rw [h4] at h1; exact ⟨h1, h2, h3⟩
  case encodeBit b rest h4 => rw [h4] at h1; exact ⟨h1, h2, h3⟩
  case encodeEnd h4 => exact ⟨hb, h2, h3⟩
  case encodeEosBit b rest h4 => rw [h4] at h1; exact ⟨h1, h2, h3⟩
  case readTagStart h4 h5 => exact ⟨h4, h2, h3⟩
  case tagGood v m h4 h5 => exact ⟨hb, h2, h3⟩
  case tagBad v h4 h5 h6 => exact ⟨trivial, fun h => absurd rfl h, nofun⟩
  case tagShort n v h4 h5 => exact ⟨trivial, fun h => absurd rfl h, nofun⟩
  case tagBit n v b rest h4 h5 => rw [h4] at h1; exact ⟨h1, h2, h3⟩
  case readTreeStart h4 h5 h6 => exact ⟨h4, h2, h3⟩
  case readCountsStart h4 h5 h6 => exact ⟨h4, h2, h3⟩
  case desShort h4 h5 => exact ⟨trivial, fun h => absurd rfl h, nofun⟩
  case desLeaf rest h4 h5 => rw [h4] at h1; exact ⟨h1, h2, h3⟩
  case desTooMany rest h4 h5 h6 => exact ⟨trivial, fun h => absurd rfl h, nofun⟩
  case desInternal rest h4 h5 h6 => rw [h4] at h1; exact ⟨h1, h2, h3⟩
  case symBad i v h4 h5 => exact ⟨trivial, fun h => absurd rfl h, nofun⟩
  case symShort i n v h4 h5 => exact ⟨trivial, fun h => absurd rfl h, nofun⟩
  case symBit i n v b rest h4 h5 => rw [h4] at h1; exact ⟨h1, h2, h3⟩
  case checkBad r nd h4 h5 h6 h7 => exact ⟨trivial, fun h => absurd rfl h, nofun⟩
  case checkGood r nd h4 h5 h6 h7 h8 => exact ⟨hb, h2, h3⟩
  case countShort k n v h4 h5 => exact ⟨trivial, fun h => absurd rfl h, nofun⟩
  case countBit k n v b rest h4 h5 => rw [h4] at h1; exact ⟨h1, h2, h3⟩
  case decodeStart r h4 h5 h6 => exact ⟨h4, h2, h3⟩
  case decodeShort h4 h5 => exact ⟨trivial, fun h => absurd rfl h, nofun⟩
  case decodeOut c r h4 h5 => rw [h4] at h1; exact ⟨h1, h2, h3⟩

/-- A run of a compression goes the same way in the other state. -/
theorem SameC.run {n : Nat} {s u t : State} (hS : SameC s u) (hc : CallOf Stage.isC s) (hr : runMoves n s = .ok t) :
    ∃ v, runMoves n u = .ok v ∧ SameC t v := by
  induction n generalizing s u with
  | zero =>
    cases hr
    exact ⟨u, rfl, hS⟩
  | succ n ih =>
    have hp : u.phase = s.phase := by rw [hS.mix]; rfl
    by_cases hb : s.phase = .idle
    · rw [runMoves_idle hb] at hr
      cases hr
      exact ⟨u, runMoves_idle (by rw [hp]; exact hb) _, hS⟩
    · obtain ⟨w, hw⟩ : ∃ w, blockMove s = .ok w := by
        rw [runMoves, if_pos ((busy_iff s).2 hb)] at hr
        split at hr
        · exact ⟨_, ‹_›⟩
        · cases hr
      rw [runMoves_succ hb hw] at hr
      have hm := blockMove_moved hw
      obtain ⟨x, hx, hS'⟩ := SameC.move hS hm (hc.stage hb) hc.point
      obtain ⟨v, hv, hS''⟩ := ih hS' (hc.move hm hb) hr
      exact ⟨v, (runMoves_succ (by rw [hp]; exact hb) hx.eq n).trans hv, hS''⟩

/-- A run of a decompression goes the same way in the other state. -/
theorem SameD.run {n : Nat} {s u t : State} (hS : SameD s u) (hc : CallOf Stage.isD s) (hr : runMoves n s = .ok t) :
    ∃ v, runMoves n u = .ok v ∧ SameD t v := by
  induction n generalizing s u with
  | zero =>
    cases hr
    exact ⟨u, rfl, hS⟩
  | succ n ih =>
    have hp : u.phase = s.phase := by rw [hS.mix]; rfl
    by_cases hb : s.phase = .idle
    · rw [runMoves_idle hb] at hr
      cases hr
      exact ⟨u, runMoves_idle (by rw [hp]; exact hb) _, hS⟩
    · obtain ⟨w, hw⟩ : ∃ w, blockMove s = .ok w := by
        rw [runMoves, if_pos ((busy_iff s).2 hb)] at hr
        split at hr
        · exact ⟨_, ‹_›⟩
        · cases hr
      rw [runMoves_succ hb hw] at hr
      have hm := blockMove_moved hw
      obtain ⟨x, hx, hS'⟩ := SameD.move hS hm (hc.stage hb) hc.point
      obtain ⟨v, hv, hS''⟩ := ih hS' (hc.move hm hb) hr
      exact ⟨v, (runMoves_succ (by rw [hp]; exact hb) hx.eq n).trans hv, hS''⟩

end Sys2Proof.Machine
end

