-- ==== Sys2Proof/Laws/CutShort.lean ====
section
/-! SUPPORT. Runs of READ_HEADER on a header that ends too early or fails a check (45_tree_deserializer.md R204, R206). -/

namespace Sys2Proof.Machine

/-- A run that ends in the error abort with code `e`, with `a` bits read in `b` transfers, after at most two moves for
each bit and `n` more. -/
def EndsIn (e : ErrCode) (a b n : Nat) (s : State) : Prop :=
  ∃ m u, m ≤ 2 * a + n ∧ runMoves m s = .ok (raiseError e u) ∧ u.phase = s.phase ∧ u.bitSrc = s.bitSrc.skip a ∧
    u.events = s.events + b

/-- Moves before a run that ends in an error. -/
theorem EndsIn.after {e : ErrCode} {a b c k m n : Nat} {s t : State} (h : runMoves k s = .ok t)
    (hp : t.phase = s.phase) (hs : t.bitSrc = s.bitSrc.skip c) (he : t.events = s.events + c) (hk : k ≤ 2 * c + m)
    (ht : EndsIn e a b n t) : EndsIn e (c + a) (c + b) (m + n) s := by
  obtain ⟨m', u, h1, h2, h3, h4, h5⟩ := ht
  exact ⟨k + m', u, by omega, runMoves_then h h2, h3.trans hp, by rw [h4, hs, BitSource.skip_skip], by omega⟩

/-- A move that meets EOI. -/
theorem endsIn_eoi {s : State} (hb : s.phase ≠ .idle)
    (h : blockMove s = .ok (raiseError .hdrTrunc { s with events := s.events + 1 })) : EndsIn .hdrTrunc 0 1 1 s :=
  ⟨1, { s with events := s.events + 1 }, by omega, (runMoves_one hb).trans h, rfl, rfl, rfl⟩

/-- A check that fails without a transfer. -/
theorem endsIn_check {s : State} (hb : s.phase ≠ .idle) (h : blockMove s = .ok (raiseError .hdrMalformed s)) :
    EndsIn .hdrMalformed 0 0 1 s :=
  ⟨1, s, by omega, (runMoves_one hb).trans h, rfl, rfl, rfl⟩

/-! ## The items of a tree header -/

/-- A header has a bit for each leaf, and more. -/
theorem HTree.leaves_le_header (T : HTree) : T.leaves.length ≤ T.header.length := by
  induction T with
  | leaf c => simp [HTree.leaves, HTree.header]
  | node l r ihl ihr => simp only [HTree.leaves, HTree.header, List.length_append, List.length_cons]; omega

/-- DesNode begins a leaf and reads the first bits of its symbol. -/
theorem run_leafBits (bits : List Bool) {rest : List Bool} {n : Nat} {s : State} (hb : s.phase ≠ .idle)
    (hp : s.point = .desNode) (hr : bitsToCome s = true :: (bits ++ rest)) (hn : bits.length + n = 9) :
    runMoves (1 + bits.length) s = .ok { s with
      bitSrc := s.bitSrc.skip (1 + bits.length), nnodes := s.nnodes + 1, events := s.events + (1 + bits.length)
      point := .desSym s.nnodes n (shiftAll 0 bits) } := by
  have h1 : runMoves 1 s = .ok { s with
      bitSrc := s.bitSrc.skip 1, nnodes := s.nnodes + 1, events := s.events + 1, point := .desSym s.nnodes 9 0 } := by
    rw [runMoves_one hb, blockMove_desNode hp]
    simp [desNodeMove, inBit_cons hr]
  refine (runMoves_then h1 (run_desSym bits (rest := rest) (i := s.nnodes) (n := n) (v := 0) hb (by rw [hn])
    (bitsToCome_skip (a := [true]) hr rfl))).trans ?_
  simp [BitSource.skip_skip, Nat.add_assoc]

/-- The value of a symbol field. -/
theorem shiftAll_symBits (c : Sym) : (shiftAll 0 (symBits c)).toNat = c.toNat := by
  rw [symBits, shiftAll_zero (by decide), Nat.mod_eq_of_lt c.isLt]

/-- DesNode reads an internal node's discriminator. -/
theorem run_nodeItem {rest : List Bool} {s : State} (hb : s.phase ≠ .idle) (hp : s.point = .desNode) (hD : PointData s)
    (hr : bitsToCome s = false :: rest) (hn : s.nint.toNat < 256) :
    ∃ t, runMoves 1 s = .ok t ∧ t.phase = s.phase ∧ t.point = .desNode ∧ PointData t ∧ t.bitSrc = s.bitSrc.skip 1 ∧
      t.events = s.events + 1 ∧ t.seen = s.seen ∧ t.nleaf = s.nleaf ∧ t.nint.toNat = s.nint.toNat + 1 := by
  simp only [PointData, hp] at hD
  obtain ⟨ls, hP, hB⟩ := hD
  have hne : s.nint ≠ 256#9 := by
    intro h
    rw [h] at hn
    exact absurd hn (by decide)
  obtain ⟨h1, h2, -⟩ := desNode_open hP hB hne
  refine ⟨{ s with bitSrc := s.bitSrc.skip 1, nnodes := s.nnodes + 1, nint := s.nint + 1, events := s.events + 1, stk := s.nnodes :: s.stk, point := .desNode },
    ?_, rfl, rfl, ⟨ls, h1, h2⟩, rfl, rfl, rfl, rfl, ?_⟩
  · rw [runMoves_one hb, blockMove_desNode hp]
    simp [desNodeMove, inBit_cons hr, hne]
  · show (s.nint + 1).toNat = _
    rw [BitVec.toNat_add, show (1 : BitVec 9).toNat = 1 from rfl, Nat.mod_eq_of_lt (by omega)]

/-- DesNode reads a leaf with a new symbol that leaves the tree incomplete. -/
theorem run_leafItem {c : Sym} {rest : List Bool} {s : State} (hb : s.phase ≠ .idle) (hp : s.point = .desNode)
    (hD : PointData s) (hr : bitsToCome s = true :: (symBits c ++ rest)) (hc : c.toNat ≤ 256)
    (hs : s.seen.getLsbD c.toNat = false) (ho : s.nleaf.toNat < s.nint.toNat) :
    ∃ t, runMoves 11 s = .ok t ∧ t.phase = s.phase ∧ t.point = .desNode ∧ PointData t ∧
      t.bitSrc = s.bitSrc.skip 10 ∧ t.events = s.events + 10 ∧ t.seen = s.seen ||| (1#257 <<< c.toNat) ∧
      t.nleaf.toNat = s.nleaf.toNat + 1 ∧ t.nint = s.nint := by
  simp only [PointData, hp] at hD
  obtain ⟨ls, hP, hB⟩ := hD
  have h0 := run_leafBits (symBits c) (n := 0) hb hp hr (by rw [symBits_length])
  have hv := shiftAll_symBits c
  generalize shiftAll 0 (symBits c) = v at h0 hv
  rw [symBits_length] at h0
  have hvc : v.toNat ≤ 256 := by rw [hv]; exact hc
  obtain ⟨u, hu⟩ : ∃ u : State, u = { s with bitSrc := s.bitSrc.skip (1 + 9), nnodes := s.nnodes + 1, events := s.events + (1 + 9), point := .desSym s.nnodes 0 v } := ⟨_, rfl⟩
  rw [← hu] at h0
  have hui : u.nint.toNat ≤ 256 := by rw [hu]; exact hB.2.2.2.2.2
  obtain ⟨hi, node, root, stk, p, h1, h2, h3⟩ := desSym_close (s := u) (i := s.nnodes) (v := v) (ls := ls)
    (by rw [hu]; exact desNode_leaf hB) hvc (by rw [hu, hv]; exact hs) (by rw [hu]; exact hP) (by rw [hu]; exact hB)
  have h4 : blockMove u = .ok { u with seen := u.seen ||| (1#257 <<< v.toNat), nleaf := u.nleaf + 1, node := node, root := root, stk := stk, point := p } := by
    rw [blockMove_desSym (i := s.nnodes) (n := 0) (v := v) (by rw [hu]), desSymMove, closeLeaf, if_neg (show ¬256 < v.toNat by omega), if_neg, putNode_of_lt _ _ hi]
    · exact h1
    · rw [hu, hv, hs]; exact Bool.false_ne_true
  have hnl : (u.nleaf + 1).toNat = s.nleaf.toNat + 1 := by
    have h5 : u.nleaf = s.nleaf := by rw [hu]
    have h6 : u.nint = s.nint := by rw [hu]
    rw [h6] at hui
    rw [h5, BitVec.toNat_add, show (1 : BitVec 9).toNat = 1 from rfl]
    omega
  have hpd : p = .desNode := by
    obtain ⟨node', root', stk', p', e, h5, -⟩ := closeNode_ok h1
    have h6 : p = p' := congrArg State.point e
    rcases h5 with h5 | h5
    · exact h6.trans h5
    · exfalso
      rw [h6, h5] at h3
      obtain ⟨T, -, -, h7, -, -, -, b4, b5, -⟩ := h3
      have h8 := T.size_leaves
      have h9 : (u.nleaf + 1).toNat = T.leaves.length := b4
      have h10 : T.size = u.nint.toNat + T.leaves.length := b5
      have h11 : u.nint = s.nint := by rw [hu]
      rw [h11] at h10
      omega
  subst hpd
  have hbu : u.phase ≠ .idle := by rw [hu]; exact hb
  refine ⟨_, runMoves_then h0 ((runMoves_one hbu).trans h4), ?_, rfl, h3, ?_, ?_, ?_, hnl, ?_⟩ <;> simp only [hu, hv]

/-- DesNode on items after which the tree is not complete. -/
theorem run_items (xs : List HItem) {rest : List Bool} {s : State} (hb : s.phase ≠ .idle) (hp : s.point = .desNode)
    (hD : PointData s) (hr : bitsToCome s = itemBits xs ++ rest)
    (ho : ∀ k, s.nleaf.toNat + (itemLeaves (xs.take k)).length ≤ s.nint.toNat + itemNodes (xs.take k))
    (hu : (itemLeaves xs).Nodup) (hs : ∀ c ∈ itemLeaves xs, c.toNat ≤ 256)
    (hf : ∀ c ∈ itemLeaves xs, s.seen.getLsbD c.toNat = false) (hn : s.nint.toNat + itemNodes xs ≤ 256) :
    ∃ m t, m ≤ 2 * (itemBits xs).length ∧ runMoves m s = .ok t ∧ t.phase = s.phase ∧ t.point = .desNode ∧
      PointData t ∧ t.bitSrc = s.bitSrc.skip (itemBits xs).length ∧ t.events = s.events + (itemBits xs).length ∧
      t.seen = markSeen s.seen (itemLeaves xs) ∧ t.nint.toNat = s.nint.toNat + itemNodes xs := by
  induction xs generalizing s with
  | nil => exact ⟨0, s, by decide, rfl, rfl, hp, hD, rfl, rfl, rfl, rfl⟩
  | cons x xs ih =>
    cases x with
    | node =>
      obtain ⟨t, h1, h2, h3, h4, h5, h6, h7, h8, h9⟩ := run_nodeItem hb hp hD (rest := itemBits xs ++ rest) hr
        (by simp only [itemNodes] at hn; omega)
      obtain ⟨m, u, g1, g2, g3, g4, g5, g6, g7, g8, g9⟩ := ih (s := t) (by rw [h2]; exact hb) h3 h4
        (bitsToCome_skip (a := [false]) hr h5)
        (fun k => by have := ho (k + 1); simp only [List.take_succ_cons, itemLeaves, itemNodes] at this; rw [h8, h9]; omega)
        hu hs (by rw [h7]; exact hf) (by simp only [itemNodes] at hn; omega)
      have hl : (itemBits (.node :: xs)).length = 1 + (itemBits xs).length := by
        simp [itemBits, HItem.bits, Nat.add_comm]
      exact ⟨1 + m, u, by omega, runMoves_then h1 g2, g3.trans h2, g4, g5, by rw [g6, h5, BitSource.skip_skip, hl],
        by omega, by rw [g8, h7]; rfl, by rw [g9, h9]; simp only [itemNodes]; omega⟩
    | leaf c =>
      have h0 := ho 1
      simp only [List.take_succ_cons, List.take_zero, itemLeaves, itemNodes, List.length_singleton] at h0
      obtain ⟨hu1, hu2⟩ := List.nodup_cons.1 hu
      have hr' : bitsToCome s = true :: (symBits c ++ (itemBits xs ++ rest)) := by
        rw [hr]
        simp [itemBits, HItem.bits]
      obtain ⟨t, h1, h2, h3, h4, h5, h6, h7, h8, h9⟩ := run_leafItem hb hp hD hr' (hs c (List.mem_cons_self ..))
        (hf c (List.mem_cons_self ..)) (by omega)
      obtain ⟨m, u, g1, g2, g3, g4, g5, g6, g7, g8, g9⟩ := ih (s := t) (by rw [h2]; exact hb) h3 h4
        (bitsToCome_skip (a := true :: symBits c) hr' (by rw [List.length_cons, symBits_length]; exact h5))
        (fun k => by have := ho (k + 1); simp only [List.take_succ_cons, itemLeaves, itemNodes, List.length_cons] at this; rw [h8, h9]; omega)
        hu2 (fun d hd => hs d (List.mem_cons_of_mem _ hd))
        (fun d hd => by
          rw [h7, getLsbD_mark _ _ _ (hs d (List.mem_cons_of_mem _ hd)), hf d (List.mem_cons_of_mem _ hd), Bool.false_or,
            decide_eq_false_iff_not]
          intro h
          rw [BitVec.eq_of_toNat_eq h] at hd
          exact hu1 hd)
        (by rw [h9]; exact hn)
      have hl : (itemBits (.leaf c :: xs)).length = 10 + (itemBits xs).length := by
        simp [itemBits, HItem.bits, Nat.add_comm]
        omega
      exact ⟨11 + m, u, by omega, runMoves_then h1 g2, g3.trans h2, g4, g5, by rw [g6, h5, BitSource.skip_skip, hl],
        by omega, by rw [g8, h7]; rfl, by rw [g9, h9]; rfl⟩

/-- Stage 8 in tree mode, with the bookkeeping of a fresh call, on items after which the tree is not complete. -/
theorem run_unfinished {xs : List HItem} {rest : List Bool} {s : State} (hs : s.phase = .readHeader)
    (hp : s.point = .start) (hh : s.hmode = .tree) (hfr : FreshBooks s) (hx : Unfinished xs)
    (hr : bitsToCome s = itemBits xs ++ rest) :
    ∃ m t, m ≤ 2 * (itemBits xs).length + 1 ∧ runMoves m s = .ok t ∧ t.phase = s.phase ∧ t.point = .desNode ∧
      t.bitSrc = s.bitSrc.skip (itemBits xs).length ∧ t.events = s.events + (itemBits xs).length ∧
      (∀ c : Sym, c.toNat ≤ 256 → (t.seen.getLsbD c.toNat = true ↔ c ∈ itemLeaves xs)) ∧
      t.nint.toNat = itemNodes xs := by
  have hne : s.phase ≠ .idle := by rw [hs]; decide
  obtain ⟨f1, f2, f3, f4, f5⟩ := hfr
  have h1 : runMoves 1 s = .ok { s with point := .desNode } := by
    rw [runMoves_one hne, blockMove_start hp]
    simp only [stageStart, hs, readHeaderStart, hh]
  have hD : PointData { s with point := .desNode } := by
    refine ⟨[], ?_, ?_⟩
    · simp only [f1, f5]
      exact ⟨rfl, rfl⟩
    · simp [Booked, f1, f2, f3, f4]
  obtain ⟨m, t, g1, g2, g3, g4, -, g6, g7, g8, g9⟩ := run_items xs (s := { s with point := .desNode }) hne rfl hD hr
    (fun k => by simpa [f3, f4] using hx.opened k) hx.unique hx.symbols (by simp [f2]) (by simpa [f3] using hx.nodes)
  refine ⟨1 + m, t, by omega, runMoves_then h1 g2, g3, g4, g6, g7, fun c hc => ?_, by simpa [f3] using g9⟩
  rw [g8, getLsbD_markSeen _ _ _ hc]
  simp [f2]

/-- Stage 8 on a tree header that ends at a discriminator or inside a symbol field. -/
theorem stage_readHeader_tree_short {xs : List HItem} {q : List Bool} {s : State} (hs : s.phase = .readHeader)
    (hp : s.point = .start) (hh : s.hmode = .tree) (hfr : FreshBooks s) (hx : Unfinished xs)
    (hr : bitsToCome s = itemBits xs ++ q) (hq : q = [] ∨ ∃ p, q = true :: p ∧ p.length < 9) :
    EndsIn .hdrTrunc (bitsToCome s).length ((bitsToCome s).length + 1) 2 s := by
  obtain ⟨m, t, h1, h2, h3, h4, h5, h6, -, -⟩ := run_unfinished hs hp hh hfr hx hr
  have hb : t.phase ≠ .idle := by rw [h3, hs]; decide
  have htr : bitsToCome t = q := bitsToCome_skip hr h5
  have hl : (bitsToCome s).length = (itemBits xs).length + q.length := by rw [hr, List.length_append]
  suffices h : EndsIn .hdrTrunc q.length (q.length + 1) 1 t by
    rw [hl, Nat.add_assoc]
    exact EndsIn.after (m := 1) h2 h3 h5 h6 h1 h
  rcases hq with rfl | ⟨p, rfl, hpl⟩
  · exact endsIn_eoi hb (by rw [blockMove_desNode h4, desNodeMove, inBit_of_nil htr])
  · obtain ⟨k, hk⟩ : ∃ k, p.length + (k + 1) = 9 := ⟨8 - p.length, by omega⟩
    have h7 := run_leafBits p (rest := []) hb h4 (by rw [htr, List.append_nil]) hk
    obtain ⟨u, hu⟩ : ∃ u : State, u = { t with
        bitSrc := t.bitSrc.skip (1 + p.length), nnodes := t.nnodes + 1, events := t.events + (1 + p.length)
        point := .desSym t.nnodes (k + 1) (shiftAll 0 p) } := ⟨_, rfl⟩
    rw [← hu] at h7
    have hur : bitsToCome u = [] := bitsToCome_skip (s := t) (a := true :: p) (by rw [htr, List.append_nil])
      (by rw [List.length_cons, Nat.add_comm p.length 1, hu])
    rw [List.length_cons, Nat.add_comm p.length 1, Nat.add_assoc]
    refine EndsIn.after (c := 1 + p.length) (a := 0) (b := 1) (m := 0) h7 (by rw [hu]) (by rw [hu]) (by rw [hu]) (by omega)
      (endsIn_eoi (by rw [hu]; exact hb) ?_)
    rw [blockMove_desSym (by rw [hu]), desSymMove, inBit_of_nil hur]

/-- Stage 8 on a tree header with a symbol over 256, or one that a leaf before has. -/
theorem stage_readHeader_symbol {xs : List HItem} {c : Sym} {rest : List Bool} {s : State} (hs : s.phase = .readHeader)
    (hp : s.point = .start) (hh : s.hmode = .tree) (hfr : FreshBooks s) (hx : Unfinished xs)
    (hr : bitsToCome s = itemBits xs ++ (true :: (symBits c ++ rest))) (hc : 256 < c.toNat ∨ c ∈ itemLeaves xs) :
    EndsIn .hdrMalformed ((itemBits xs).length + 10) ((itemBits xs).length + 10) 2 s := by
  obtain ⟨m, t, h1, h2, h3, h4, h5, h6, h7, -⟩ := run_unfinished hs hp hh hfr hx hr
  have hb : t.phase ≠ .idle := by rw [h3, hs]; decide
  have h8 := run_leafBits (symBits c) (n := 0) hb h4 (bitsToCome_skip hr h5) (by rw [symBits_length])
  have hv := shiftAll_symBits c
  refine EndsIn.after (m := 1) h2 h3 h5 h6 h1 (EndsIn.after (c := 10) (a := 0) (b := 0) (m := 0) h8 rfl
    (by rw [symBits_length]) (by rw [symBits_length]) (by rw [symBits_length]; omega) (endsIn_check hb ?_))
  rw [blockMove_desSym rfl, desSymMove, closeLeaf, hv]
  by_cases hc' : 256 < c.toNat
  · rw [if_pos hc']
  · rw [if_neg hc', if_pos ((h7 c (by omega)).2 (hc.resolve_left hc'))]

/-- Stage 8 on a tree header with a 257th internal node. -/
theorem stage_readHeader_nodes {xs : List HItem} {rest : List Bool} {s : State} (hs : s.phase = .readHeader)
    (hp : s.point = .start) (hh : s.hmode = .tree) (hfr : FreshBooks s) (hx : Unfinished xs)
    (hr : bitsToCome s = itemBits xs ++ (false :: rest)) (hn : itemNodes xs = 256) :
    EndsIn .hdrMalformed ((itemBits xs).length + 1) ((itemBits xs).length + 1) 2 s := by
  obtain ⟨m, t, h1, h2, h3, h4, h5, h6, -, h8⟩ := run_unfinished hs hp hh hfr hx hr
  have hb : t.phase ≠ .idle := by rw [h3, hs]; decide
  have hni : t.nint = 256#9 := BitVec.eq_of_toNat_eq (h8.trans hn)
  refine EndsIn.after (a := 1) (b := 1) (m := 1) (n := 1) h2 h3 h5 h6 h1
    ⟨1, { t with bitSrc := t.bitSrc.skip 1, nnodes := t.nnodes + 1, events := t.events + 1 }, by omega, ?_, rfl, rfl, rfl⟩
  rw [runMoves_one hb, blockMove_desNode h4]
  simp [desNodeMove, inBit_cons (bitsToCome_skip hr h5), hni]

/-- Stage 8 on the header of a tree that is one leaf, or has no EOS leaf. -/
theorem stage_readHeader_tree_unsound {T : HTree} {rest : List Bool} {s : State} (hs : s.phase = .readHeader)
    (hp : s.point = .start) (hh : s.hmode = .tree) (hfr : FreshBooks s) (hn : T.leaves.Nodup)
    (hc : ∀ c ∈ T.leaves, c.toNat ≤ 256) (hT : T.isNode = false ∨ eosSym ∉ T.leaves)
    (hr : bitsToCome s = T.header ++ rest) : EndsIn .hdrMalformed T.header.length T.header.length 2 s := by
  have hb : s.phase ≠ .idle := by rw [hs]; decide
  have hle := T.leaves_le_header
  have hz : (0 : Idx) = BitVec.ofNat 10 0 := rfl
  have hsz := T.size_leaves
  have hls := length_le_of_symbols hn hc
  have h1 := run_readHeader_tree hs hp hh hfr hn hc hr
  refine EndsIn.after (c := T.header.length) (a := 0) (b := 0) (m := 1) h1 rfl rfl rfl (by omega) (endsIn_check hb ?_)
  have hH := holds_writeTree T (n := 0) s.node (by rw [maxNodes]; omega)
  obtain ⟨nd, hnd, -⟩ := nodeAt_writeTree T (n := 0) s.node (by decide)
  have hl := hH.isLeaf hnd
  have hseen := getLsbD_markSeen 0 T.leaves eosSym (by decide)
  rw [show eosSym.toNat = 256 from rfl] at hseen
  rw [blockMove_desCheck rfl]
  simp only [desCheckMove, hz, hnd, hl, hseen]
  rcases hT with h | h <;> simp [h]

/-! ## The counts header -/

/-- ReadCounts meets EOI inside a count. -/
theorem readCount_short {n : Nat} {s : State} (hb : s.phase ≠ .idle) (hp : s.point = .readCounts n s.cfg.wCnt 0)
    (hr : (bitsToCome s).length < s.cfg.wCnt) :
    EndsIn .hdrTrunc (bitsToCome s).length ((bitsToCome s).length + 1) 1 s := by
  obtain ⟨k, hk⟩ : ∃ k, s.cfg.wCnt = (bitsToCome s).length + (k + 1) := ⟨s.cfg.wCnt - (bitsToCome s).length - 1, by omega⟩
  have h1 := run_readCountBits (bitsToCome s) (rest := []) (k := n) (n := k + 1) (v := 0) hb (by rw [hp, ← hk])
    (by rw [List.append_nil])
  refine EndsIn.after (a := 0) (b := 1) (m := 0) h1 rfl rfl rfl (by omega) (endsIn_eoi hb ?_)
  rw [blockMove_readCounts rfl, readCountsMove, inBit_of_nil (bitsToCome_skip (a := bitsToCome s) (by rw [List.append_nil]) rfl)]

/-- ReadCounts on a counts header cut short. -/
theorem run_readCounts_short (k : Nat) {n : Nat} {s : State} (hk : n + (k + 1) = alphaSize) (hb : s.phase ≠ .idle)
    (hp : s.point = .readCounts n s.cfg.wCnt 0) (hr : (bitsToCome s).length < (k + 1) * s.cfg.wCnt) :
    EndsIn .hdrTrunc (bitsToCome s).length ((bitsToCome s).length + 1) 1 s := by
  by_cases hlt : (bitsToCome s).length < s.cfg.wCnt
  · exact readCount_short hb hp hlt
  · induction k generalizing n s with
    | zero => omega
    | succ k ih =>
      have hlen : ((bitsToCome s).take s.cfg.wCnt).length = s.cfg.wCnt := by rw [List.length_take]; omega
      have h1 := run_readCountBits ((bitsToCome s).take s.cfg.wCnt) (rest := (bitsToCome s).drop s.cfg.wCnt) (k := n)
        (n := 0) (v := 0) hb (by rw [hlen]; exact hp) (List.take_append_drop _ _).symm
      rw [hlen] at h1
      have h2 := runMoves_then h1 (runMoves_one hb)
      rw [blockMove_readCounts rfl] at h2
      simp only [readCountsMove, if_pos (show n + 1 < alphaSize by omega)] at h2
      obtain ⟨v, hv⟩ : ∃ v : State, v = { s with
          freq := freqPut s.freq (freqIndex n) (shiftAll 0 ((bitsToCome s).take s.cfg.wCnt))
          events := s.events + s.cfg.wCnt, bitSrc := s.bitSrc.skip s.cfg.wCnt
          point := .readCounts (n + 1) s.cfg.wCnt 0 } := ⟨_, rfl⟩
      have h3 : bitsToCome v = (bitsToCome s).drop s.cfg.wCnt :=
        bitsToCome_skip (s := s) (List.take_append_drop _ _).symm (by rw [hlen, hv])
      have h4 : v.cfg = s.cfg := by rw [hv]
      have h5 : v.phase = s.phase := by rw [hv]
      have h6 : v.point = .readCounts (n + 1) s.cfg.wCnt 0 := by rw [hv]
      have h7 : runMoves (s.cfg.wCnt + 1) s = .ok v := by rw [hv]; exact h2
      have h8 : (bitsToCome s).length = s.cfg.wCnt + (bitsToCome v).length := by rw [h3, List.length_drop]; omega
      have hvl : (bitsToCome v).length < (k + 1) * v.cfg.wCnt := by
        rw [Nat.add_mul, Nat.one_mul] at hr
        rw [h4]
        omega
      have hgo : EndsIn .hdrTrunc (bitsToCome v).length ((bitsToCome v).length + 1) 1 v := by
        by_cases hlt' : (bitsToCome v).length < v.cfg.wCnt
        · exact readCount_short (by rw [h5]; exact hb) (by rw [h4]; exact h6) hlt'
        · exact ih (n := n + 1) (by omega) (by rw [h5]; exact hb) (by rw [h4]; exact h6) hvl hlt'
      have hw := s.cfg.wCnt_pos
      rw [h8, Nat.add_assoc]
      exact EndsIn.after (m := 0) h7 h5 (by rw [hv]) (by rw [hv]) (by omega) hgo

/-- Stage 8 on a counts header cut short. -/
theorem stage_readHeader_counts_short {s : State} (hs : s.phase = .readHeader) (hp : s.point = .start)
    (hh : s.hmode = .counts) (hr : (bitsToCome s).length < 256 * s.cfg.wCnt) :
    EndsIn .hdrTrunc (bitsToCome s).length ((bitsToCome s).length + 1) 2 s := by
  have hne : s.phase ≠ .idle := by rw [hs]; decide
  have h := run_readCounts_short 255 (n := 0) (s := { s with point := .readCounts 0 s.cfg.wCnt 0 }) rfl hne rfl hr
  have h1 : runMoves 1 s = .ok { s with point := .readCounts 0 s.cfg.wCnt 0 } := by
    rw [runMoves_one hne, blockMove_start hp]
    simp only [stageStart, hs, readHeaderStart, hh]
  obtain ⟨m, u, g1, g2, g3, g4, g5⟩ := h
  exact ⟨1 + m, u, by have : bitsToCome { s with point := .readCounts 0 s.cfg.wCnt 0 } = bitsToCome s := rfl; rw [this] at g1; omega,
    runMoves_then h1 g2, g3, g4, g5⟩

end Sys2Proof.Machine
end

