-- ==== Sys2Proof/Laws/Settling.lean ====
section
/-! SUPPORT. The block settles: from every state with the invariant, at most `quietMoves` moves lead to a transfer or to an
idle block, so a turn ends only there. -/

namespace Sys2Proof.Machine

/-! ## Which moves are transfers -/

/-- Whether the move at the point a stage body has reached is a transfer. -/
def waits (s : State) : Bool :=
  match s.point with
  | .start => s.phase == .encode
  | .countByte => true
  | .buildLeaves => false
  | .buildMerge _ => false
  | .walkNode => false
  | .sendTag bits => !bits.isEmpty
  | .serTree bits => !bits.isEmpty || !s.walk.isEmpty
  | .serCounts _ bits => !bits.isEmpty
  | .encodeByte => true
  | .encodeCode bits => !bits.isEmpty
  | .encodeEos _ => true
  | .recvTag n _ => n != 0
  | .desNode => true
  | .desSym _ n _ => n != 0
  | .desCheck => false
  | .readCounts _ n _ => n != 0
  | .decodeBit => true
  | .decodeOut _ => true
  | .fin => false

/-- A move is a transfer exactly where the block waits. -/
theorem Moved.waits {s t : State} (h : Moved s t) :
    t.events = if Machine.waits s = true then s.events + 1 else s.events := by
  cases h
  case symGood h1 _ _ _ h =>
    simp only [Machine.waits, h1]
    exact (closeNode_events h).trans rfl
  case stageEnd h1 =>
    simp only [Machine.waits, h1]
    unfold Machine.stageEnd
    split <;> rfl
  all_goals simp_all [Machine.waits]

theorem settled_iff_waits {s : State} (hi : Inv s) : Settled s ↔ s.phase = .idle ∨ waits s = true := by
  constructor
  · rintro (h | ⟨t, h1, h2⟩)
    · exact .inl h
    · have := (blockMove_moved h1).waits
      split at this
      · exact .inr ‹_›
      · omega
  · rintro (h | h)
    · exact .inl h
    · by_cases hb : s.phase = .idle
      · exact .inl hb
      · obtain ⟨t, ht⟩ := hi.progress hb
        have := (blockMove_moved ht).waits
        rw [if_pos h] at this
        exact .inr ⟨t, ht, by omega⟩

/-! ## Runs without a transfer -/

/-- At most `n` moves without a transfer lead to a settled state. -/
def Settles (n : Nat) (s : State) : Prop := ∃ m t, m ≤ n ∧ runMoves m s = .ok t ∧ t.events = s.events ∧ Settled t

theorem Settles.here {n : Nat} {s : State} (h : Settled s) : Settles n s := ⟨0, s, Nat.zero_le n, rfl, rfl, h⟩

theorem Settles.mono {m n : Nat} {s : State} (h : Settles m s) (hn : m ≤ n) : Settles n s := by
  obtain ⟨k, t, h1, h2⟩ := h
  exact ⟨k, t, Nat.le_trans h1 hn, h2⟩

/-- Moves without a transfer, and then a settling run. -/
theorem Settles.after {k n : Nat} {s u : State} (h : runMoves k s = .ok u) (he : u.events = s.events)
    (hu : Settles n u) : Settles (k + n) s := by
  obtain ⟨m, t, h1, h2, h3, h4⟩ := hu
  exact ⟨k + m, t, by omega, runMoves_then h h2, h3.trans he, h4⟩

theorem Inv.of_run {s t : State} {n : Nat} (h : Inv s) (hr : runMoves n s = .ok t) : Inv t := by
  obtain ⟨u, hu, hi⟩ := h.run n
  rw [hr] at hu
  cases hu
  exact hi

theorem countBits_ne_nil (c : Config) (v : Word) : countBits c v ≠ [] := by
  have := c.wCnt_pos
  exact List.ne_nil_of_length_pos (by rw [countBits_length]; omega)

theorem tagBits_ne_nil (v : Word) : tagBits v ≠ [] :=
  List.ne_nil_of_length_pos (by rw [tagBits_length]; decide)

/-- Where a move that is no transfer, inside a stage body, can lead. -/
theorem Moved.calm {s u : State} (h : Moved s u) (hw : Machine.waits s = false) (hp : s.point ≠ .fin)
    (hk : s.phase ≠ .idle) :
    u.phase = .idle ∨ (u.phase = s.phase ∧ (Machine.waits u = true ∨ u.point = .fin ∨ u.point = .desCheck ∨
      (∃ n, u.point = .serCounts n []) ∨ u.point = .buildLeaves ∨ (∃ n, u.point = .buildMerge n) ∨
      u.point = .walkNode)) := by
  have hc := s.cfg.wCnt_pos
  cases h
  case symGood h1 h2 h3 h4 h =>
    obtain ⟨node, root, stk, p, rfl, h5, -⟩ := closeNode_ok h
    rcases h5 with rfl | rfl <;> exact .inr ⟨rfl, by simp [Machine.waits]⟩
  case stageEnd h1 => exact absurd h1 hp
  case countRead k v h1 =>
    refine .inr ⟨rfl, ?_⟩
    by_cases hk : k + 1 < alphaSize
    · simp only [if_pos hk, Machine.waits]
      exact .inl (by simp; omega)
    · simp [hk]
  case readCountsStart => exact .inr ⟨rfl, .inl (by simp [Machine.waits]; omega)⟩
  all_goals first
    | exact .inl rfl
    | exact absurd ‹_› hk
    | (simp_all [Machine.waits, countBits_ne_nil, tagBits_ne_nil]; done)

/-- A stage that is neither BUILD nor GENCODES comes to its first transfer at once. -/
theorem start_settles {s : State} (hi : Inv s) (hp : s.point = .start) (h1 : s.phase ≠ .build)
    (h2 : s.phase ≠ .gencodes) : Settles 2 s := by
  by_cases hb : s.phase = .idle
  · exact .here (.inl hb)
  · cases hw : waits s
    · obtain ⟨u, hu⟩ := hi.progress hb
      have hm := blockMove_moved hu
      have hiu := hi.move hu
      have he := hm.waits
      rw [if_neg (by rw [hw]; decide)] at he
      refine Settles.after (n := 1) ((runMoves_one hb).trans hu) he ?_
      have hc : u.phase = s.phase ∧ (waits u = true ∨ u.point = .serCounts 0 []) := by
        have h := hm.calm hw (by rw [hp]; exact nofun) hb
        cases hm
        all_goals first
          | (simp_all [Machine.waits, tagBits_ne_nil]; done)
          | (exact absurd ‹s.phase = _› ‹_›)
      rcases hc.2 with h | h
      · exact .here ((settled_iff_waits hiu).2 (.inr h))
      · have hbu : u.phase ≠ .idle := by rw [hc.1]; exact hb
        obtain ⟨v, hv⟩ := hiu.progress hbu
        have hmv := blockMove_moved hv
        have hwu : waits u = false := by rw [waits, h]; rfl
        have hev := hmv.waits
        rw [if_neg (by rw [hwu]; decide)] at hev
        refine Settles.after (n := 0) ((runMoves_one hbu).trans hv) hev (.here ((settled_iff_waits (hiu.move hv)).2 (.inr ?_)))
        cases hmv
        all_goals simp_all [Machine.waits, countBits_ne_nil, alphaSize]
    · exact .here ((settled_iff_waits hi).2 (.inr hw))

/-! ## From the end of a stage on -/

/-- The move that ends a stage body, with what holds where it leads. -/
theorem Inv.stageEnd {s : State} (hi : Inv s) (hp : s.point = .fin) : Inv (stageEnd s) :=
  hi.move (blockMove_fin hp)

/-- From the end of a stage, a settling run of the next stage. -/
theorem fin_settles {n : Nat} {s : State} (hi : Inv s) (hp : s.point = .fin)
    (h : ∀ k ks, s.todo = k :: ks → stagesAfter s.phase = k :: ks →
      ∀ u, Inv u → u.point = .start → u.phase = k → Settles n u) : Settles (1 + n) s := by
  by_cases hb : s.phase = .idle
  · exact .here (.inl hb)
  have he : (Machine.stageEnd s).events = s.events := by unfold Machine.stageEnd; split <;> rfl
  refine Settles.after ((runMoves_one hb).trans (blockMove_fin hp)) he ?_
  have hu := hi.stageEnd hp
  unfold Machine.stageEnd at hu ⊢
  split at hu
  · exact .here (.inl rfl)
  · next k ks ht =>
    refine h k ks ht ?_ _ hu rfl rfl
    rcases hi.control.todo with h1 | h1
    · rw [ht] at h1; cases h1
    · rw [← h1, ht]

/-- From the end of a stage from GENCODES on. -/
theorem fin_settles_late {s : State} (hi : Inv s) (hp : s.point = .fin) (h1 : s.phase ≠ .count) (h2 : s.phase ≠ .build) :
    Settles 3 s :=
  fin_settles (n := 2) hi hp fun k ks _ hk u hu hpu hku => start_settles hu hpu
    (by rw [hku]; rintro rfl; cases h : s.phase <;> simp_all [stagesAfter])
    (by rw [hku]; rintro rfl; cases h : s.phase <;> simp_all [stagesAfter])

/-- GENCODES visits each node of its tree, and then the tag waits. -/
theorem gencodes_settles {s : State} (hi : Inv s) (hp : s.point = .start) (hs : s.phase = .gencodes) : Settles 518 s := by
  have hb : s.phase ≠ .idle := by rw [hs]; decide
  obtain ⟨T, hT⟩ := hi.tree hb (by rw [hs]; rfl)
  have hr := stage_gencodes hs hp hT
  obtain ⟨r, is, -, -, hsound, -⟩ := hT
  have h1 := length_le_of_symbols hsound.unique hsound.symbols
  have h2 := T.size_leaves
  refine (Settles.after hr rfl (fin_settles_late (hi.of_run hr) rfl ?_ ?_)).mono (by omega) <;>
    simp only [hs, ne_eq, reduceCtorEq, not_false_eq_true]

/-- From the end of a stage from BUILD on. -/
theorem fin_settles_build {s : State} (hi : Inv s) (hp : s.point = .fin) (h1 : s.phase ≠ .count) : Settles 519 s := by
  by_cases h2 : s.phase = .build
  · refine fin_settles (n := 518) hi hp fun k ks _ hk u hu hpu hku => ?_
    rw [h2] at hk
    cases hk
    exact gencodes_settles hu hpu hku
  · exact (fin_settles_late hi hp h1 h2).mono (by omega)

/-- BuildTree, from its leaves on. -/
theorem leaves_settles {s : State} (hi : Inv s) (hb : s.phase ≠ .idle) (hp : s.point = .buildLeaves) : Settles 777 s := by
  have hf : PointIn s.phase s.point := pointIn_of_fits hi.control.point
  rw [hp] at hf
  have hL := leafCount_bounds s.freq
  obtain ⟨t, T, hr, -⟩ := run_build hb hp
  refine (Settles.after hr rfl (fin_settles_build (hi.of_run hr) rfl ?_)).mono (by omega)
  rcases hf with h | h <;> simp only [h, ne_eq, reduceCtorEq, not_false_eq_true]

/-- The end of BuildTree's loop. -/
theorem run_buildEnd {n r : Idx} {s : State} (hb : s.phase ≠ .idle) (hp : s.point = .buildMerge n) (hq : s.pq = [r]) :
    runMoves 1 s = .ok { s with root := some r, nnodes := n, pq := [], point := .fin } := by
  rw [runMoves_one hb, blockMove_buildMerge hp]
  simp only [buildMergeMove, hq]

/-- BuildTree, in its loop. -/
theorem merge_settles {n : Idx} {s : State} (hi : Inv s) (hb : s.phase ≠ .idle) (hp : s.point = .buildMerge n) :
    Settles 777 s := by
  have hf : PointIn s.phase s.point := pointIn_of_fits hi.control.point
  rw [hp] at hf
  have hd := hi.trees.data
  simp only [PointData, hp] at hd
  obtain ⟨F, hq, hF⟩ := hd
  have h1 := ForestOf.sizes hF.holds
  have h2 := length_le_of_symbols hF.unique hF.symbols
  have h3 : ∀ G : List (Idx × HTree × List Idx), G.length ≤ (G.flatMap (fun e => e.2.1.leaves)).length := by
    intro G
    induction G with
    | nil => simp
    | cons e G ih =>
      have := e.2.1.leaves_pos
      simp only [List.flatMap_cons, List.length_cons, List.length_append]
      omega
  have h4 : s.pq.length = F.length := by rw [hq, List.length_map]
  have h5 : 0 < F.length := by
    rw [List.length_pos_iff]
    rintro rfl
    exact absurd hF.two (by simp)
  have h6 := h3 F
  obtain ⟨t, e, hr, -⟩ := run_merges (s.pq.length - 1) hb (by rw [hp]; simp) hq hF (by omega)
  have hu := hi.of_run hr
  have hv := run_buildEnd (s := { s with
    node := t, pq := [e.1], point := .buildMerge (BitVec.ofNat 10 (n.toNat + (s.pq.length - 1))) }) hb rfl rfl
  refine (Settles.after hr rfl (Settles.after hv rfl (fin_settles_build (hu.of_run hv) rfl ?_))).mono (by omega)
  rcases hf with h | h <;> simp only [h, ne_eq, reduceCtorEq, not_false_eq_true]

/-- Walk, over what it has still to visit. -/
theorem run_walks (W : List (Idx × List Bool × HTree)) {s : State} (hb : s.phase ≠ .idle) (hp : s.point = .walkNode)
    (hw : s.walk = W.map (fun e => (e.1, e.2.1))) (hW : ∀ e ∈ W, ∃ is, Holds s.node e.2.2 e.1 is)
    (hs : ∀ e ∈ W, ∀ c ∈ e.2.2.leaves, c.toNat ≤ 256) :
    ∃ code, runMoves (W.map (fun e => e.2.2.size)).sum s = .ok { s with walk := [], code := code } := by
  induction W generalizing s with
  | nil => exact ⟨s.code, by simp only [List.map_nil] at hw; simp [← hw]⟩
  | cons e W ih =>
    obtain ⟨is, h1⟩ := hW e (by simp)
    have h2 := run_walk h1 (hs e (by simp)) hb hp (p := e.2.1) (rest := W.map (fun e => (e.1, e.2.1))) (hw.trans rfl)
    obtain ⟨code, h3⟩ := ih (s := { s with
      walk := W.map (fun e => (e.1, e.2.1)), code := enterPaths s.code (e.2.2.paths.map (fun q => (q.1, e.2.1 ++ q.2))) })
      hb hp rfl (fun e he => hW e (by simp [he])) (fun e he => hs e (by simp [he]))
    exact ⟨code, by rw [List.map_cons, List.sum_cons]; exact runMoves_then h2 h3⟩

/-- The end of Walk. -/
theorem run_walkEnd {s : State} (hb : s.phase ≠ .idle) (hp : s.point = .walkNode) (hw : s.walk = []) :
    runMoves 1 s = .ok { s with point := .fin } := by
  rw [runMoves_one hb, blockMove_walkNode hp]
  simp only [walkMove, hw]

/-- GENCODES, inside Walk. -/
theorem walk_settles {s : State} (hi : Inv s) (hb : s.phase ≠ .idle) (hp : s.point = .walkNode) : Settles 518 s := by
  have hf : PointIn s.phase s.point := pointIn_of_fits hi.control.point
  rw [hp] at hf
  have hf : s.phase = .gencodes := hf
  have hd := hi.trees.data
  simp only [PointData, hp] at hd
  obtain ⟨T, ⟨-, -, -, -, hsound, -⟩, D, W, h1, h2, h3, -⟩ := hd
  have h4 := length_le_of_symbols hsound.unique hsound.symbols
  have h5 : T.paths.length = T.leaves.length := by rw [← T.paths_fst, List.length_map]
  have h6 : ∀ V : List (Idx × List Bool × HTree), (V.map (fun e => e.2.2.size)).sum + V.length =
      2 * (V.flatMap (fun e => e.2.2.paths.map (fun q => (q.1, e.2.1 ++ q.2)))).length := by
    intro V
    induction V with
    | nil => rfl
    | cons e V ih =>
      have h7 := e.2.2.size_leaves
      rw [← e.2.2.paths_fst, List.length_map] at h7
      simp only [List.map_cons, List.sum_cons, List.length_cons, List.flatMap_cons, List.length_append, List.length_map]
      omega
  have h7 := h6 W
  have h8 := congrArg List.length h3
  rw [List.length_append] at h8
  obtain ⟨code, hr⟩ := run_walks W hb hp h1 h2 (by
    intro e he c hc
    obtain ⟨p, hp⟩ := HTree.path_of_leaf hc
    have : (c, e.2.1 ++ p) ∈ T.paths := by
      rw [h3]
      exact List.mem_append_right _ (List.mem_flatMap.2 ⟨e, he, List.mem_map.2 ⟨(c, p), hp, rfl⟩⟩)
    exact hsound.symbols c (HTree.leaf_of_path this))
  have hu := hi.of_run hr
  have hv := run_walkEnd (s := { s with walk := [], code := code }) hb hp rfl
  refine (Settles.after hr rfl (Settles.after hv rfl (fin_settles_late (hu.of_run hv) rfl ?_ ?_))).mono (by omega) <;>
    simp only [hf, ne_eq, reduceCtorEq, not_false_eq_true]

/-- BUILD makes its tree, and then GENCODES runs, or the command ends. -/
theorem build_settles {s : State} (hi : Inv s) (hp : s.point = .start) (hs : s.phase = .build) : Settles 778 s := by
  have hb : s.phase ≠ .idle := by rw [hs]; decide
  have hr : runMoves 1 s = .ok { s with point := .buildLeaves } := by
    rw [runMoves_one hb, blockMove_start hp]
    simp only [stageStart, hs, buildStart]
  exact Settles.after hr rfl (leaves_settles (hi.of_run hr) hb rfl)

/-- From the end of any stage. -/
theorem fin_settles_any {s : State} (hi : Inv s) (hp : s.point = .fin) : Settles 779 s := by
  by_cases h : s.phase = .count
  · refine fin_settles (n := 778) hi hp fun k ks _ hk u hu hpu hku => ?_
    rw [h] at hk
    cases hk
    exact build_settles hu hpu hku
  · exact (fin_settles_build hi hp h).mono (by omega)

/-- The checks of a complete tree. -/
theorem check_settles {s : State} (hi : Inv s) (hb : s.phase ≠ .idle) (hp : s.point = .desCheck) : Settles 4 s := by
  have hf : PointIn s.phase s.point := pointIn_of_fits hi.control.point
  rw [hp] at hf
  have hf : s.phase = .readHeader := hf
  obtain ⟨u, hu⟩ := hi.progress hb
  have hm := blockMove_moved hu
  have hiu := hi.move hu
  have he := hm.waits
  rw [if_neg (by simp [waits, hp])] at he
  refine Settles.after (k := 1) (n := 3) ((runMoves_one hb).trans hu) he ?_
  have hc : u.phase = .idle ∨ (u.phase = .readHeader ∧ u.point = .fin) := by
    cases hm
    all_goals first
      | exact .inl rfl
      | exact .inr ⟨hf, rfl⟩
      | (exfalso; simp_all; done)
  rcases hc with h | ⟨h1, h2⟩
  · exact .here (.inl h)
  · exact fin_settles_late hiu h2 (by rw [h1]; decide) (by rw [h1]; decide)

/-- SerCounts, between two counts. -/
theorem counts_settles {n : Nat} {s : State} (hi : Inv s) (hb : s.phase ≠ .idle) (hp : s.point = .serCounts n []) :
    Settles 4 s := by
  have hf : PointIn s.phase s.point := pointIn_of_fits hi.control.point
  rw [hp] at hf
  have hf : s.phase = .writeHeader := hf
  obtain ⟨u, hu⟩ := hi.progress hb
  have hm := blockMove_moved hu
  have hiu := hi.move hu
  have he := hm.waits
  rw [if_neg (by simp [waits, hp])] at he
  refine Settles.after (k := 1) (n := 3) ((runMoves_one hb).trans hu) he ?_
  have hc : waits u = true ∨ (u.phase = .writeHeader ∧ u.point = .fin) := by
    cases hm
    all_goals first
      | (exfalso; simp_all; done)
      | exact .inr ⟨hf, rfl⟩
      | exact .inl (by simp [waits, countBits_ne_nil])
  rcases hc with h | ⟨h1, h2⟩
  · exact .here ((settled_iff_waits hiu).2 (.inr h))
  · exact fin_settles_late hiu h2 (by rw [h1]; decide) (by rw [h1]; decide)

/-- From every state with the invariant at most 781 moves without a transfer lead to a settled state. -/
theorem Inv.settles {s : State} (hi : Inv s) : Settles 781 s := by
  by_cases hb : s.phase = .idle
  · exact .here (.inl hb)
  cases hw : waits s
  case true => exact .here ((settled_iff_waits hi).2 (.inr hw))
  by_cases hp : s.point = .fin
  · exact (fin_settles_any hi hp).mono (by omega)
  by_cases hst : s.point = .start
  · by_cases h1 : s.phase = .build
    · exact (build_settles hi hst h1).mono (by omega)
    · by_cases h2 : s.phase = .gencodes
      · exact (gencodes_settles hi hst h2).mono (by omega)
      · exact (start_settles hi hst h1 h2).mono (by omega)
  obtain ⟨u, hu⟩ := hi.progress hb
  have hm := blockMove_moved hu
  have hiu := hi.move hu
  have he := hm.waits
  rw [if_neg (by rw [hw]; decide)] at he
  have hr := (runMoves_one hb).trans hu
  rcases hm.calm hw hp hb with h | ⟨h0, h⟩
  · exact (Settles.after hr he (.here (n := 0) (.inl h))).mono (by omega)
  have hbu : u.phase ≠ .idle := by rw [h0]; exact hb
  suffices h : Settles 780 u from Settles.after (k := 1) hr he h
  rcases h with h | h | h | ⟨n, h⟩ | h | ⟨n, h⟩ | h
  · exact .here ((settled_iff_waits hiu).2 (.inr h))
  · exact (fin_settles_any hiu h).mono (by omega)
  · exact (check_settles hiu hbu h).mono (by omega)
  · exact (counts_settles hiu hbu h).mono (by omega)
  · exact (leaves_settles hiu hbu h).mono (by omega)
  · exact (merge_settles hiu hbu h).mono (by omega)
  · exact (walk_settles hiu hbu h).mono (by omega)

/-! ## Turns settle -/

/-- A turn does a run without a transfer, and then goes on. -/
theorem turn_quiet {m n p : Nat} {s t : State} (h : runMoves m s = .ok t) (he : t.events = s.events) (hn : m ≤ n) :
    turn n p s = turn (n - m) p t := by
  induction m generalizing n s with
  | zero => cases h; rfl
  | succ m ih =>
    by_cases hb : s.phase = .idle
    · rw [runMoves_idle hb] at h
      cases h
      rw [turn_idle hb, turn_idle hb]
    · obtain ⟨n, rfl⟩ : ∃ k, n = k + 1 := ⟨n - 1, by omega⟩
      simp only [runMoves, (busy_iff s).2 hb, if_true] at h
      cases hm : blockMove s with
      | error f => rw [hm] at h; cases h
      | ok u =>
        rw [hm] at h
        have h1 := (runMoves_events h).1
        have h2 := blockMove_events hm
        have h3 : u.events = s.events := by omega
        rw [show n + 1 - (m + 1) = n - m by omega, ← ih h (by omega) (by omega), turn, if_pos ((busy_iff s).2 hb), hm]
        simp only [h3, if_true]

/-- A settled block stays where it is until a transfer can complete. -/
theorem turn_stalled {n : Nat} {s : State} (h : Settled s) : turn n 0 s = .ok s := by
  cases n with
  | zero => rfl
  | succ n =>
    rcases h with h | ⟨t, h1, h2⟩
    · exact turn_idle h _ _
    · rw [turn]
      split
      · rw [h1]
        simp only [if_neg (Nat.ne_of_gt h2)]
      · rfl

/-- From a state with the invariant a turn of p + 1 transfers is a run without a transfer, the first transfer, and a
turn of p transfers; in an idle block it is nothing. -/
theorem turn_succ {s : State} (hi : Inv s) :
    ∃ j u, j ≤ 781 ∧ runMoves j s = .ok u ∧ u.events = s.events ∧ Inv u ∧ Settled u ∧
      (∀ n, quietMoves ≤ n → turn n 0 s = .ok u) ∧
      ((u.phase = .idle ∧ ∀ n p, quietMoves ≤ n → turn n p s = .ok u) ∨
        ∃ v, Inv v ∧ ∀ n p, quietMoves ≤ n → turn n (p + 1) s = turn (n - (j + 1)) p v) := by
  obtain ⟨j, u, h1, h2, h3, h4⟩ := hi.settles
  have hq : ∀ n p, quietMoves ≤ n → turn n p s = turn (n - j) p u := fun n p hn =>
    turn_quiet h2 h3 (by simp only [quietMoves] at hn; omega)
  refine ⟨j, u, h1, h2, h3, hi.of_run h2, h4, fun n hn => (hq n 0 hn).trans (turn_stalled h4), ?_⟩
  by_cases hb : u.phase = .idle
  · exact .inl ⟨hb, fun n p hn => (hq n p hn).trans (turn_idle hb _ _)⟩
  · obtain ⟨v, h5, h6⟩ := h4.resolve_left hb
    refine .inr ⟨v, (hi.of_run h2).move h5, fun n p hn => ?_⟩
    rw [hq n _ hn]
    obtain ⟨k, hk⟩ : ∃ k, n - j = k + 1 := ⟨n - j - 1, by simp only [quietMoves] at hn; omega⟩
    rw [hk, turn, if_pos ((busy_iff u).2 hb), h5]
    simp only [if_neg (Nat.ne_of_gt h6)]
    congr 1
    omega

theorem quietMoves_le (p : Nat) : quietMoves ≤ (p + 1) * quietMoves := Nat.le_mul_of_pos_left _ (Nat.succ_pos p)

/-- The moves a turn of p transfers needs after a run without a transfer and a transfer. -/
theorem moves_left {p n j : Nat} (hn : (p + 1 + 1) * quietMoves ≤ n) (hj : j ≤ 781) :
    (p + 1) * quietMoves ≤ n - (j + 1) := by
  rw [Nat.add_mul (p + 1), Nat.one_mul] at hn
  have : quietMoves = 1024 := rfl
  omega

/-- From a state with the invariant a turn ends where the block is idle or waits for a transfer. -/
theorem turn_settles {p n : Nat} {s : State} (hi : Inv s) (hn : (p + 1) * quietMoves ≤ n) :
    ∃ t, turn n p s = .ok t ∧ Settled t := by
  induction p generalizing n s with
  | zero =>
    obtain ⟨j, u, -, -, -, -, h1, h2, -⟩ := turn_succ hi
    exact ⟨u, h2 n (Nat.le_trans (quietMoves_le 0) hn), h1⟩
  | succ p ih =>
    have hn' := Nat.le_trans (quietMoves_le (p + 1)) hn
    obtain ⟨j, u, hj, -, -, -, h1, -, ⟨-, h2⟩ | ⟨v, hv, h2⟩⟩ := turn_succ hi
    · exact ⟨u, h2 n _ hn', h1⟩
    · rw [h2 n p hn']
      exact ih hv (moves_left hn hj)

/-- From a state with the invariant how many moves a turn may make does not matter, if they are enough. -/
theorem turn_fuel {p n m : Nat} {s : State} (hi : Inv s) (hn : (p + 1) * quietMoves ≤ n) (hm : (p + 1) * quietMoves ≤ m) :
    turn n p s = turn m p s := by
  have hn' := Nat.le_trans (quietMoves_le p) hn
  have hm' := Nat.le_trans (quietMoves_le p) hm
  induction p generalizing n m s with
  | zero =>
    obtain ⟨j, u, -, -, -, -, -, h, -⟩ := turn_succ hi
    rw [h n hn', h m hm']
  | succ p ih =>
    obtain ⟨j, u, hj, -, -, -, -, -, ⟨-, h⟩ | ⟨v, hv, h⟩⟩ := turn_succ hi
    · rw [h n _ hn', h m _ hm']
    · rw [h n p hn', h m p hm']
      have h1 := moves_left hn hj
      have h2 := moves_left hm hj
      exact ih hv h1 h2 (Nat.le_trans (quietMoves_le p) h1) (Nat.le_trans (quietMoves_le p) h2)

/-- From a state with the invariant a turn of p + q transfers is a turn of p transfers and then one of q. -/
theorem turn_add {p q m n k : Nat} {s t : State} (hi : Inv s) (hm : (p + 1) * quietMoves ≤ m)
    (hn : (q + 1) * quietMoves ≤ n) (hk : (p + q + 1) * quietMoves ≤ k) (h : turn m p s = .ok t) :
    turn k (p + q) s = turn n q t := by
  induction p generalizing m k s with
  | zero =>
    rw [Nat.zero_add] at hk ⊢
    have hm' := Nat.le_trans (quietMoves_le 0) hm
    obtain ⟨j, u, hj, hr, he, hu, hs, h0, -⟩ := turn_succ hi
    rw [h0 m hm'] at h
    cases h
    rw [turn_fuel hi hk (Nat.le_add_right_of_le (k := 781) hk), turn_quiet hr he (by omega)]
    exact turn_fuel hu (by omega) hn
  | succ p ih =>
    have hm' := Nat.le_trans (quietMoves_le (p + 1)) hm
    have hk' := Nat.le_trans (quietMoves_le (p + 1 + q)) hk
    obtain ⟨j, u, hj, -, -, hu, -, -, ⟨h1, h2⟩ | ⟨v, hv, h2⟩⟩ := turn_succ hi
    · rw [h2 m _ hm'] at h
      cases h
      rw [h2 k _ hk', turn_idle h1]
    · rw [h2 m p hm'] at h
      rw [show p + 1 + q = p + q + 1 by omega, h2 k (p + q) hk']
      exact ih hv (moves_left hm hj) (moves_left (by rw [show p + 1 + q + 1 = p + q + 1 + 1 by omega] at hk; exact hk) hj) h

end Sys2Proof.Machine
end

