-- ==== Sys2Proof/Laws/Environment.lean ====
section
/-! SUPPORT. The block depends on nothing of its environment but the streams and how many transfers complete: its moves
are the same whatever the pace, the script and the value the host read last. -/

namespace Sys2Proof.Machine

/-- `s` in an environment of another pace, script and value read last. -/
def withEnv (p : Nat) (h : List HostOp) (r : Word) (s : State) : State := { s with pace := p, host := h, rdata := r }

/-- A move is the same in another environment. -/
theorem Moved.withEnv {s t : State} (p : Nat) (h : List HostOp) (r : Word) (hm : Moved s t) :
    Moved (Machine.withEnv p h r s) (Machine.withEnv p h r t) := by
  cases hm
  case parked h1 h2 => exact Moved.parked h1 h2
  case countStart h1 h2 => exact Moved.countStart h1 h2
  case countEnd h1 h2 => exact Moved.countEnd h1 h2
  case countFull b rest h1 h2 h3 => exact Moved.countFull b rest h1 h2 h3
  case countOne b rest h1 h2 h3 => exact Moved.countOne b rest h1 h2 h3
  case buildStart h1 h2 => exact Moved.buildStart h1 h2
  case leaves h1 => exact Moved.leaves h1
  case merge n a b na nb q h1 h2 h3 h4 h5 h6 h7 h8 => exact Moved.merge n a b na nb q h1 h2 h3 h4 h5 h6 h7 h8
  case buildEnd n r h1 h2 => exact Moved.buildEnd n r h1 h2
  case gencodesStart r h1 h2 h3 => exact Moved.gencodesStart r h1 h2 h3
  case walkEnd h1 h2 => exact Moved.walkEnd h1 h2
  case walkLeaf i p rest c w h1 h2 h3 h4 => exact Moved.walkLeaf i p rest c w h1 h2 h3 h4
  case walkInternal i p rest w l r h1 h2 h3 => exact Moved.walkInternal i p rest w l r h1 h2 h3
  case writeTagStart h1 h2 => exact Moved.writeTagStart h1 h2
  case sendTagEnd h1 => exact Moved.sendTagEnd h1
  case sendTagBit b rest h1 => exact Moved.sendTagBit b rest h1
  case writeTreeStart r h1 h2 h3 h4 => exact Moved.writeTreeStart r h1 h2 h3 h4
  case writeCountsStart h1 h2 h3 => exact Moved.writeCountsStart h1 h2 h3
  case serBit b rest h1 => exact Moved.serBit b rest h1
  case serEnd h1 h2 => exact Moved.serEnd h1 h2
  case serLeaf i p rest c w h1 h2 h3 => exact Moved.serLeaf i p rest c w h1 h2 h3
  case serInternal i p rest w l r h1 h2 h3 => exact Moved.serInternal i p rest w l r h1 h2 h3
  case serCountBit n b rest h1 => exact Moved.serCountBit n b rest h1
  case serCountNext n h1 h2 => exact Moved.serCountNext n h1 h2
  case serCountsEnd n h1 h2 => exact Moved.serCountsEnd n h1 h2
  case encodeStart h1 h2 => exact Moved.encodeStart h1 h2
  case encodeEoi p h1 h2 h3 => exact Moved.encodeEoi p h1 h2 h3
  case encodeTake b rest p h1 h2 h3 => exact Moved.encodeTake b rest p h1 h2 h3
  case encodeMissing b rest h1 h2 h3 => exact Moved.encodeMissing b rest h1 h2 h3
  case encodeNext h1 => exact Moved.encodeNext h1
  case encodeBit b rest h1 => exact Moved.encodeBit b rest h1
  case encodeEnd h1 => exact Moved.encodeEnd h1
  case encodeEosBit b rest h1 => exact Moved.encodeEosBit b rest h1
  case readTagStart h1 h2 => exact Moved.readTagStart h1 h2
  case tagGood v m h1 h2 => exact Moved.tagGood v m h1 h2
  case tagBad v h1 h2 h3 => exact Moved.tagBad v h1 h2 h3
  case tagShort n v h1 h2 => exact Moved.tagShort n v h1 h2
  case tagBit n v b rest h1 h2 => exact Moved.tagBit n v b rest h1 h2
  case readTreeStart h1 h2 h3 => exact Moved.readTreeStart h1 h2 h3
  case readCountsStart h1 h2 h3 => exact Moved.readCountsStart h1 h2 h3
  case desShort h1 h2 => exact Moved.desShort h1 h2
  case desLeaf rest h1 h2 => exact Moved.desLeaf rest h1 h2
  case desTooMany rest h1 h2 h3 => exact Moved.desTooMany rest h1 h2 h3
  case desInternal rest h1 h2 h3 => exact Moved.desInternal rest h1 h2 h3
  case symBad i v h1 h2 => exact Moved.symBad i v h1 h2
  case symGood i v h1 h2 h3 h4 h5 =>
    have h6 := closeNode_ok h5
    obtain ⟨node, root, stk, q, rfl, -, -⟩ := h6
    exact Moved.symGood i v _ h1 h2 h3 h4 (closeNode_transfer h5 rfl rfl rfl)
  case symShort i n v h1 h2 => exact Moved.symShort i n v h1 h2
  case symBit i n v b rest h1 h2 => exact Moved.symBit i n v b rest h1 h2
  case checkBad r nd h1 h2 h3 h4 => exact Moved.checkBad r nd h1 h2 h3 h4
  case checkGood r nd h1 h2 h3 h4 h5 => exact Moved.checkGood r nd h1 h2 h3 h4 h5
  case countRead k v h1 => exact Moved.countRead k v h1
  case countShort k n v h1 h2 => exact Moved.countShort k n v h1 h2
  case countBit k n v b rest h1 h2 => exact Moved.countBit k n v b rest h1 h2
  case decodeStart r h1 h2 h3 => exact Moved.decodeStart r h1 h2 h3
  case decodeShort h1 h2 => exact Moved.decodeShort h1 h2
  case decodeEdge b rest c k w l r nd p h1 h2 h3 h4 h5 h6 h7 => exact Moved.decodeEdge b rest c k w l r nd p h1 h2 h3 h4 h5 h6 h7
  case decodeOut c r h1 h2 => exact Moved.decodeOut c r h1 h2
  case stageEnd h1 =>
    have h2 : Machine.withEnv p h r (Machine.stageEnd s) = Machine.stageEnd (Machine.withEnv p h r s) := by
      simp only [Machine.stageEnd, Machine.withEnv]
      split <;> rfl
    rw [h2]
    exact Moved.stageEnd h1

theorem blockMove_withEnv {s t : State} (p : Nat) (h : List HostOp) (r : Word) (hm : blockMove s = .ok t) :
    blockMove (withEnv p h r s) = .ok (withEnv p h r t) :=
  ((blockMove_moved hm).withEnv p h r).eq

/-- A run is the same in another environment. -/
theorem runMoves_withEnv {n : Nat} {s t : State} (p : Nat) (h : List HostOp) (r : Word) (hr : runMoves n s = .ok t) :
    runMoves n (withEnv p h r s) = .ok (withEnv p h r t) := by
  induction n generalizing s with
  | zero => cases hr; rfl
  | succ n ih =>
    by_cases hb : s.phase = .idle
    · rw [runMoves_idle hb] at hr
      cases hr
      exact runMoves_idle (s := withEnv p h r t) hb _
    · simp only [runMoves, (busy_iff s).2 hb, if_true] at hr
      cases hm : blockMove s with
      | error f => rw [hm] at hr; cases hr
      | ok u =>
        rw [hm] at hr
        rw [runMoves_succ (s := withEnv p h r s) hb (blockMove_withEnv p h r hm)]
        exact ih hr

/-- A turn of the same number of transfers is the same in another environment. -/
theorem turn_withEnv {n q : Nat} {s t : State} (p : Nat) (h : List HostOp) (r : Word) (hr : turn n q s = .ok t) :
    turn n q (withEnv p h r s) = .ok (withEnv p h r t) := by
  induction n generalizing q s with
  | zero => cases hr; rfl
  | succ n ih =>
    by_cases hb : s.phase = .idle
    · rw [turn_idle hb] at hr
      cases hr
      exact turn_idle (s := withEnv p h r t) hb _ _
    · have hbe : (withEnv p h r s).busy = true := (busy_iff _).2 hb
      simp only [turn, (busy_iff s).2 hb, if_true] at hr
      cases hm : blockMove s with
      | error f => rw [hm] at hr; cases hr
      | ok u =>
        rw [hm] at hr
        rw [turn, if_pos hbe, blockMove_withEnv p h r hm]
        simp only [] at hr ⊢
        rw [show (withEnv p h r u).events = u.events from rfl, show (withEnv p h r s).events = s.events from rfl]
        split
        · next he => rw [if_pos he] at hr; exact ih hr
        · next he =>
          rw [if_neg he] at hr
          cases q with
          | zero => cases hr; rfl
          | succ q => exact ih hr

theorem Settled.withEnv {s : State} (p : Nat) (h : List HostOp) (r : Word) (hs : Settled s) :
    Settled (Machine.withEnv p h r s) := by
  rcases hs with h1 | ⟨t, h1, h2⟩
  · exact .inl h1
  · exact .inr ⟨_, blockMove_withEnv p h r h1, h2⟩

/-- A turn of a settled block in which no transfer completes changes nothing (20_memory.md R65, R71). -/
theorem takeTurn_same {s t : State} (hs : Settled s) (h : takeTurn s = .next t) (he : t.events = s.events) : t = s := by
  rw [takeTurn_next] at h
  rcases hs with h1 | ⟨u, h1, h2⟩
  · rw [turn_idle h1] at h
    cases h; rfl
  · by_cases hb : s.phase = .idle
    · rw [turn_idle hb] at h
      cases h; rfl
    · obtain ⟨k, hk⟩ : ∃ k, (s.pace + 1) * quietMoves = k + 1 :=
        ⟨(s.pace + 1) * quietMoves - 1, by have := quietMoves_le s.pace; have : quietMoves = 1024 := rfl; omega⟩
      rw [hk, turn, if_pos ((busy_iff s).2 hb), h1] at h
      simp only [if_neg (Nat.ne_of_gt h2)] at h
      split at h
      · cases h; rfl
      · obtain ⟨m, -, h3, -⟩ := turn_run h
        have := (runMoves_events h3).1
        omega

/-- Turns are a run. -/
theorem turns_run {n : Nat} {s t : State} (h : turns n s = .next t) : ∃ m, runMoves m s = .ok t := by
  induction n generalizing s with
  | zero => cases h; exact ⟨0, rfl⟩
  | succ n ih =>
    rw [turns] at h
    split at h
    · next u hu =>
      obtain ⟨m, -, h1, -⟩ := takeTurn_run hu
      obtain ⟨k, h2⟩ := ih h
      exact ⟨m + k, runMoves_then h1 h2⟩
    · cases h
    · cases h

/-- A command that runs, and turns after it, are a run from the start of its stages. -/
theorem runCommand_turns {k : Stage} {ks : List Stage} {n : Nat} {s u t : State} (h : runCommand k ks s = .next u)
    (ht : turns n u = .next t) : ∃ m, runMoves m { s with phase := k, point := .start, todo := ks } = .ok t := by
  obtain ⟨m, -, h1, -⟩ := takeTurn_run h
  obtain ⟨j, h2⟩ := turns_run ht
  exact ⟨m + j, runMoves_then h1 h2⟩

end Sys2Proof.Machine
end

