-- ==== Sys2Proof/Laws/PerInstr.lean ====
section
/-! SUPPORT. Statements made of every command: its encoding. -/

/-- A command is well formed, its word decodes to it, and the table's numbering of its bits gives it
too (30_encoding.md R92, R93, R95). -/
def Sys2Proof.Laws.EncodeWord.Statement (i : Sys2Proof.Instr) : Prop :=
  i.wf = true ∧ Sys2Proof.decodeWord (Sys2Proof.encodeWord i) = .ok i ∧
    Sys2Proof.decodeTableWord 32 (Sys2Proof.encodeWord i).toNat = some i

namespace Sys2Proof.Laws.EncodeWord

theorem nop : Statement .nop := by unfold Statement; decide

theorem softReset : Statement .softReset := by unfold Statement; decide

theorem compress : Statement .compress := by unfold Statement; decide

theorem count : Statement .count := by unfold Statement; decide

theorem build : Statement .build := by unfold Statement; decide

theorem gencodes : Statement .gencodes := by unfold Statement; decide

theorem writeTag : Statement .writeTag := by unfold Statement; decide

theorem writeHeader : Statement .writeHeader := by unfold Statement; decide

theorem encode : Statement .encode := by unfold Statement; decide

theorem decompress : Statement .decompress := by unfold Statement; decide

theorem readTag : Statement .readTag := by unfold Statement; decide

theorem readHeader : Statement .readHeader := by unfold Statement; decide

theorem decode : Statement .decode := by unfold Statement; decide

end Sys2Proof.Laws.EncodeWord
end

