-- ==== Sys2Proof/Laws/Weights.lean ====
section
/-! SUPPORT. The weights of a built tree (42_tree_builder.md R147, R149). -/

namespace Sys2Proof.Machine

/-- The weight of a leaf of symbol `c` (42_tree_builder.md R143 to R145): its count, 1 for EOS. -/
def leafWeight (f : Cells Word) (c : Sym) : Nat := if c = eosSym then 1 else (freqAt f (c.setWidth 8)).toNat

/-- The sum of the weights of the leaves. -/
def HTree.weight (f : Cells Word) (T : HTree) : Nat := (T.leaves.map (leafWeight f)).sum

theorem HTree.weight_node (f : Cells Word) (l r : HTree) : (HTree.node l r).weight f = l.weight f + r.weight f := by
  simp [HTree.weight, HTree.leaves]

/-- The nodes of an arena have the weights BuildTree gives them: counts at the leaves, and at each internal node the sum
of its children's weights, cut to W_WT bits. -/
def Weighed (c : Config) (f : Cells Word) (t : Cells Node) (i : Idx) : Prop :=
  (∀ s w, nodeAt t i = some (.leaf s w) → w = leafWeight f s) ∧
  ∀ w a b, nodeAt t i = some (.internal w a b) →
    ∃ na nb, nodeAt t a = some na ∧ nodeAt t b = some nb ∧ w = addWt c na.wt nb.wt

/-- Where the weights of all leaves together need no more than W_WT bits, the weight of a root is their sum. -/
theorem Holds.weight {c : Config} {f : Cells Word} {t : Cells Node} {T : HTree} {i : Idx} {is : List Idx}
    (h : Holds t T i is) (hw : ∀ j ∈ is, Weighed c f t j) (hT : T.weight f < 2 ^ weightWidth c) :
    ∃ nd, nodeAt t i = some nd ∧ nd.wt = T.weight f := by
  induction T generalizing i is with
  | leaf s =>
    obtain ⟨rfl, w, h1⟩ := h
    exact ⟨_, h1, by simpa [HTree.weight, HTree.leaves, Node.wt] using (hw i (by simp)).1 s w h1⟩
  | node l r ihl ihr =>
    obtain ⟨w, a, b, il, ir, h1, hl, hr, rfl⟩ := h
    rw [HTree.weight_node] at hT ⊢
    obtain ⟨na, ha, hna⟩ := ihl hl (fun j hj => hw j (by simp [hj])) (by omega)
    obtain ⟨nb, hb, hnb⟩ := ihr hr (fun j hj => hw j (by simp [hj])) (by omega)
    obtain ⟨na', nb', ha', hb', h2⟩ := (hw i (by simp)).2 w a b h1
    rw [ha] at ha'
    rw [hb] at hb'
    cases ha'
    cases hb'
    refine ⟨_, h1, ?_⟩
    rw [Node.wt, h2, addWt, hna, hnb, Nat.mod_eq_of_lt hT]

/-- Then no sum has been cut. -/
theorem Holds.sums {c : Config} {f : Cells Word} {t : Cells Node} {T : HTree} {i : Idx} {is : List Idx}
    (h : Holds t T i is) (hw : ∀ j ∈ is, Weighed c f t j) (hT : T.weight f < 2 ^ weightWidth c) :
    ∀ j ∈ is, ∀ w a b, nodeAt t j = some (.internal w a b) →
      ∃ na nb, nodeAt t a = some na ∧ nodeAt t b = some nb ∧ w = na.wt + nb.wt ∧ w < 2 ^ weightWidth c := by
  induction T generalizing i is with
  | leaf s =>
    obtain ⟨rfl, w, h1⟩ := h
    intro j hj w a b hj'
    rw [List.mem_singleton.1 hj, h1] at hj'
    cases hj'
  | node l r ihl ihr =>
    have hroot := h.weight hw hT
    obtain ⟨w, a, b, il, ir, h1, hl, hr, rfl⟩ := h
    have hT' := hT
    rw [HTree.weight_node] at hT'
    have hwl : ∀ j ∈ il, Weighed c f t j := fun j hj => hw j (by simp [hj])
    have hwr : ∀ j ∈ ir, Weighed c f t j := fun j hj => hw j (by simp [hj])
    intro j hj w' a' b' hj'
    rcases List.mem_cons.1 hj with rfl | hj
    · rw [h1] at hj'
      cases hj'
      obtain ⟨nd, h2, h3⟩ := hroot
      rw [h1] at h2
      cases h2
      obtain ⟨na, ha, hna⟩ := hl.weight hwl (by omega)
      obtain ⟨nb, hb, hnb⟩ := hr.weight hwr (by omega)
      rw [Node.wt, HTree.weight_node] at h3
      exact ⟨na, nb, ha, hb, by omega, by omega⟩
    · rcases List.mem_append.1 hj with hj | hj
      · exact ihl hl hwl (by omega) j hj w' a' b' hj'
      · exact ihr hr hwr (by omega) j hj w' a' b' hj'

theorem leafWeight_byte (f : Cells Word) (b : Byte) : leafWeight f (byteSym b) = (freqAt f b).toNat := by
  rw [leafWeight, if_neg (byteSym_ne_eos b)]
  congr 2
  apply BitVec.eq_of_toNat_eq
  have := b.isLt
  simp only [byteSym, BitVec.toNat_setWidth]
  omega

/-- No count is listed: all are 0. -/
theorem freq_zero {f : Cells Word} (h : nonzeroCount f = 0) (b : Byte) : freqAt f b = 0 := by
  have h1 := List.eq_nil_of_length_eq_zero h
  rw [List.filter_eq_nil_iff] at h1
  have h2 := h1 b.toNat (List.mem_range.2 b.isLt)
  rw [freqIndex_toNat] at h2
  simpa using h2

/-- A list that uses indices below `n` once each, and `n` of them, uses each of them (10_state.md R34). -/
theorem mem_of_full {is : List Idx} {n : Idx} (hd : is.Nodup) (hl : is.length = n.toNat) (hb : ∀ i ∈ is, i < n) {i : Idx}
    (hi : i < n) : i ∈ is := by
  have hd' : (is.map BitVec.toNat).Nodup := hd.map fun a b h => BitVec.eq_of_toNat_eq h
  have hsub : (is.map BitVec.toNat).toFinset ⊆ Finset.range n.toNat := by
    intro x hx
    obtain ⟨j, hj, rfl⟩ := List.mem_map.1 (List.mem_toFinset.1 hx)
    exact Finset.mem_range.2 (hb j hj)
  have heq := Finset.eq_of_subset_of_card_le hsub
    (by rw [List.toFinset_card_of_nodup hd', List.length_map, hl, Finset.card_range])
  have hm : i.toNat ∈ (is.map BitVec.toNat).toFinset := by rw [heq]; exact Finset.mem_range.2 hi
  obtain ⟨j, hj, h⟩ := List.mem_map.1 (List.mem_toFinset.1 hm)
  rwa [← BitVec.eq_of_toNat_eq h]

/-- The leaves BuildTree makes have their weights. -/
theorem leafList_weight {f : Cells Word} {e : Sym × Nat} (h : e ∈ leafList f) : e.2 = leafWeight f e.1 := by
  simp only [leafList, List.mem_append, List.mem_map, List.mem_cons] at h
  rcases h with ⟨n, -, rfl⟩ | rfl | h
  · exact (leafWeight_byte f _).symm
  · rfl
  · split at h
    · next hz =>
      rw [List.mem_singleton.1 h]
      have h1 : leafWeight f (byteSym 0) = 0 := by rw [leafWeight_byte, freq_zero hz]; rfl
      exact h1.symm
    · cases h

/-- Zeros add nothing to a sum. -/
theorem sum_filter_nonzero (f : Cells Word) (ns : List Nat) :
    ((ns.filter (fun n => freqAt f (freqIndex n) != 0)).map (fun n => (freqAt f (freqIndex n)).toNat)).sum =
      (ns.map (fun n => (freqAt f (freqIndex n)).toNat)).sum := by
  induction ns with
  | nil => rfl
  | cons n ns ih =>
    by_cases h : freqAt f (freqIndex n) = 0
    · rw [List.filter_cons_of_neg (by simp [h]), ih, List.map_cons, List.sum_cons, h]
      exact (Nat.zero_add _).symm
    · rw [List.filter_cons_of_pos (by rw [bne_iff_ne]; exact h), List.map_cons, List.sum_cons, ih, List.map_cons, List.sum_cons]

/-- The weights of the leaves BuildTree makes are Σ FREQ + 1. -/
theorem leafList_sum (f : Cells Word) :
    (((leafList f).map Prod.fst).map (leafWeight f)).sum =
      ((List.range 256).map (fun n => (freqAt f (freqIndex n)).toNat)).sum + 1 := by
  have h1 : ((leafList f).map Prod.fst).map (leafWeight f) = (leafList f).map Prod.snd := by
    rw [List.map_map]
    exact List.map_congr_left fun e he => (leafList_weight he).symm
  have h2 := sum_filter_nonzero f (List.range 256)
  have h3 : (if nonzeroCount f = 0 then ([(0, 0)] : List (Sym × Nat)) else []).map Prod.snd = [] ∨
      (if nonzeroCount f = 0 then ([(0, 0)] : List (Sym × Nat)) else []).map Prod.snd = [0] := by
    split
    · exact .inr rfl
    · exact .inl rfl
  rw [h1, leafList, List.map_append, List.map_map, List.map_cons, List.sum_append, List.sum_cons]
  have h4 : ((if nonzeroCount f = 0 then ([(0, 0)] : List (Sym × Nat)) else []).map Prod.snd).sum = 0 := by
    rcases h3 with h | h <;> rw [h] <;> rfl
  rw [h4, ← h2]
  rfl

theorem sum_le_mul (g : Nat → Nat) (m : Nat) (h : ∀ n, g n ≤ m) (ns : List Nat) : (ns.map g).sum ≤ ns.length * m := by
  induction ns with
  | nil => simp
  | cons n ns ih =>
    have := h n
    rw [List.map_cons, List.sum_cons, List.length_cons, Nat.add_mul, Nat.one_mul]
    omega

/-- Σ FREQ + 1 of W_CNT-bit counts needs no more than W_WT bits. -/
theorem total_lt {c : Config} {f : Cells Word} (hf : ∀ b, (freqAt f b).toNat < 2 ^ c.wCnt) :
    ((List.range 256).map (fun n => (freqAt f (freqIndex n)).toNat)).sum + 1 < 2 ^ weightWidth c := by
  have h1 := sum_le_mul (fun n => (freqAt f (freqIndex n)).toNat) (2 ^ c.wCnt - 1)
    (fun n => by have := hf (freqIndex n); omega) (List.range 256)
  have h2 : 2 ^ weightWidth c = 512 * 2 ^ c.wCnt := by rw [weightWidth, Nat.pow_add, Nat.mul_comm]
  have h3 := Nat.one_le_two_pow (n := c.wCnt)
  rw [List.length_range] at h1
  omega

/-- What BuildTree leaves (`run_build`) is weighed, and the tree's weight is Σ FREQ + 1. -/
theorem built_weighed {t : Cells Node} {T : HTree} {c : Config} {f : Cells Word}
    (hp : T.leaves.Perm ((leafList f).map Prod.fst))
    (hl : ∀ j c w, (leafList f)[j]? = some (c, w) → nodeAt t (BitVec.ofNat 10 j) = some (.leaf c w))
    (hm : MergedFrom c t (leafCount f) (2 * leafCount f - 1)) :
    (∀ i : Idx, i.toNat < 2 * leafCount f - 1 → Weighed c f t i) ∧
    T.weight f = ((List.range 256).map (fun n => (freqAt f (freqIndex n)).toNat)).sum + 1 := by
  have hb := leafCount_bounds f
  have hlen := leafList_length f
  refine ⟨fun i hi => ?_, ?_⟩
  · have hi' : BitVec.ofNat 10 i.toNat = i := by simp
    by_cases hlt : i.toNat < leafCount f
    · have h1 := hl i.toNat _ _ (List.getElem?_eq_getElem (by omega))
      rw [hi'] at h1
      refine ⟨fun s w h => ?_, fun w a b h => ?_⟩
      · rw [h1] at h
        cases h
        exact leafList_weight (List.getElem_mem (by omega))
      · rw [h1] at h
        cases h
    · obtain ⟨a, b, na, nb, h1, -, -, h2, h3⟩ := hm i.toNat (by omega) hi
      rw [hi'] at h1
      refine ⟨fun s w h => ?_, fun w a b h => ?_⟩
      · rw [h1] at h
        cases h
      · rw [h1] at h
        cases h
        exact ⟨na, nb, h2, h3, rfl⟩
  · rw [HTree.weight, (hp.map _).sum_eq, leafList_sum]

end Sys2Proof.Machine
end

