-- ==== Sys2Proof/Tests/Slice0.lean ====
section
/-! SUPPORT. Tests: the well-formedness checks, command words written out from 30_encoding.md R93, one or two steps of each
command on the vectors of 95_test_vectors.md, and for every statement with hypotheses a state that meets them. -/

namespace Sys2Proof.Tests

open Sys2Proof.Machine

set_option maxRecDepth 8000

/-! ## Helpers -/

/-- W_CNT 4, the counts header implemented. -/
def config4 : Config := ⟨4, true, 0xCAFE0001#32, 0xCAFE0002#32, by decide, by decide, by decide⟩

/-- W_CNT 1, no counts header. -/
def config1 : Config := ⟨1, false, 0xCAFE0001#32, 0xCAFE0002#32, by decide, by decide, by decide⟩

/-- Reset with `config4`. -/
def fresh : State := State.resetWith config4

/-- `fresh` with a byte source. -/
def withBytes (s1 s2 : List Byte) : State :=
  { fresh with byteSrc := { s1 := s1, s2 := s2, pass := .one, pos := 0, rewinds := 0 } }

/-- `fresh` with a bit source. -/
def withBits (b : List Bool) : State := { fresh with bitSrc := { seq := b, pos := 0 } }

/-- "AAB", the spec's running example. -/
def aab : List Byte := [0x41, 0x41, 0x42]

/-- A bit string. -/
def bits (l : List Nat) : List Bool := l.map (· == 1)

/-- The tree header of "AAB" (V2.4 row 6). -/
def aabHeader : List Bool :=
  bits [0, 1,0,0,1,0,0,0,0,0,1, 0, 1,0,0,1,0,0,0,0,1,0, 1,1,0,0,0,0,0,0,0,0]

/-- 0xCAFE0001, most significant bit first. -/
def tagTree4 : List Bool :=
  bits [1,1,0,0, 1,0,1,0, 1,1,1,1, 1,1,1,0, 0,0,0,0, 0,0,0,0, 0,0,0,0, 0,0,0,1]

/-- Whether an outcome is a next state with a property. -/
def nextHas (o : Out) (f : State → Bool) : Bool :=
  match o with
  | .next t => f t
  | .fault _ => false
  | .refused _ => false

theorem next_of {o : Out} {f : State → Bool} (h : nextHas o f = true) : ∃ t, o = .next t ∧ f t = true := by
  cases o with
  | next t => exact ⟨t, rfl, h⟩
  | fault f => cases h
  | refused r => cases h

theorem count_lt {bs : List Byte} {n : Nat} (h : bs.length < n) (b : Byte) : bs.count b < n :=
  Nat.lt_of_le_of_lt List.count_le_length h

/-! ## Well-formedness: each check refuses -/

theorem test_access_width : accessWf 0x004 2 = false := by decide

theorem test_access_alignment : accessWf 0x006 4 = false := by decide

theorem test_access_range : accessWf 0x1000 4 = false := by decide

theorem test_access_last_word : accessWf 0xFFC 4 = true := by decide

theorem test_script_entry_ill_formed : HostOp.wf (.write 0x001 4 0) = false := by decide

theorem test_config_width_zero : RawConfig.wf ⟨0, true, 1, 2⟩ = false := by decide

theorem test_config_width_33 : RawConfig.wf ⟨33, true, 1, 2⟩ = false := by decide

theorem test_config_equal_tags : RawConfig.wf ⟨32, true, 7, 7⟩ = false := by decide

theorem test_config_checked :
    (RawConfig.check ⟨0, true, 1, 2⟩).toOption = none ∧ (RawConfig.check ⟨32, true, 7, 7⟩).toOption = none ∧
      (RawConfig.check ⟨1, false, 1, 2⟩).toOption.isSome = true := by decide

theorem test_instr_wf : Instr.all.all Instr.wf = true ∧ Instr.all.length = 13 := by decide

/-! ## Command words, bit by bit from 30_encoding.md R90 and R93 -/

theorem test_decode_nop : decodeWord 0b00000000000000000000000000000000#32 = .ok .nop := by decide

theorem test_decode_softReset : decodeWord 0b00000000000000000000000000000001#32 = .ok .softReset := by decide

theorem test_decode_compress : decodeWord 0b00000000000000000000000000010000#32 = .ok .compress := by decide

theorem test_decode_count : decodeWord 0b00000000000000000000000000010001#32 = .ok .count := by decide

theorem test_decode_build : decodeWord 0b00000000000000000000000000010010#32 = .ok .build := by decide

theorem test_decode_gencodes : decodeWord 0b00000000000000000000000000010011#32 = .ok .gencodes := by decide

theorem test_decode_writeTag : decodeWord 0b00000000000000000000000000010100#32 = .ok .writeTag := by decide

theorem test_decode_writeHeader : decodeWord 0b00000000000000000000000000010101#32 = .ok .writeHeader := by decide

theorem test_decode_encode : decodeWord 0b00000000000000000000000000010110#32 = .ok .encode := by decide

theorem test_decode_decompress : decodeWord 0b00000000000000000000000000100000#32 = .ok .decompress := by decide

theorem test_decode_readTag : decodeWord 0b00000000000000000000000000100001#32 = .ok .readTag := by decide

theorem test_decode_readHeader : decodeWord 0b00000000000000000000000000100010#32 = .ok .readHeader := by decide

theorem test_decode_decode : decodeWord 0b00000000000000000000000000100011#32 = .ok .decode := by decide

/-- The gaps of the opcode map (R94): the first and last operation code of each. -/
theorem test_decode_reserved_ops :
    [0x02#32, 0x0F#32, 0x17#32, 0x1F#32, 0x24#32, 0xFF#32].all
      (fun w => decodeWord w == .error .unassignedOp) = true := by decide

/-- A listed operation code with one bit of MBZ set, its lowest and its highest (R94). -/
theorem test_decode_mbz :
    decodeWord 0x00000110#32 = .error .mbzNotZero ∧ decodeWord 0x80000000#32 = .error .mbzNotZero := by decide

theorem test_tableWord : decodeTableWord 32 0x16 = some .encode ∧ decodeTableWord 8 0x123 = some .decode := by decide

/-! ## One or two steps of each command, on the vectors of 95_test_vectors.md -/

/-- NOP while BUSY: nothing, not even OVR (R264). -/
theorem test_nop_busy : exec .nop { fresh with phase := .count } = .next { fresh with phase := .count } := rfl

/-- SOFT_RESET while BUSY keeps MODE and the bits sent (R265). -/
theorem test_softReset :
    nextHas (exec .softReset { fresh with
      phase := .encode, point := .encodeByte, mode := .counts, bitSink := { bits := [true], ended := false }, ovr := true })
      (fun t => t.status == 0 && t.mode == .counts && t.bitSink.bits == [true]) = true := by decide

/-- V2.1 row 2: STATUS 0x00000210. -/
theorem test_count :
    nextHas (exec .count (withBytes aab aab))
      (fun t => t.freq == [(0x41, 2), (0x42, 1)] && t.status == 0x00000210#32) = true := by decide

/-- V2.1 row 7: COUNT_OVERFLOW with W_CNT = 1 at the 2nd byte, STATUS 0x00026400. -/
theorem test_count_overflow :
    nextHas (exec .count { State.resetWith config1 with byteSrc := { s1 := [0x41, 0x41], s2 := [], pass := .one, pos := 0, rewinds := 0 } })
      (fun t => t.freq == [(0x41, 1)] && t.status == 0x00026400#32 && t.byteSrc.pos == 2) = true := by decide

/-- V2.2 row 5. -/
theorem test_build :
    nextHas (exec .build { fresh with prog := .count, freq := [(0x41, 2), (0x42, 1)] })
      (fun t => t.node == [(0, .leaf 0x41 2), (1, .leaf 0x42 1), (2, .leaf 256 1), (3, .internal 2 1 2),
        (4, .internal 4 0 3)] && t.root == some 4 && t.nnodes == 5 && t.prog == .build && t.done) = true := by decide

/-- V2.2 row 1: the placeholder tree. -/
theorem test_build_empty :
    nextHas (exec .build { fresh with prog := .count })
      (fun t => t.node == [(0, .leaf 256 1), (1, .leaf 0 0), (2, .internal 1 1 0)] && t.root == some 2) = true := by decide

/-- V2.2 row 5's tree. -/
def aabTree : State :=
  { fresh with
    prog := .build, root := some 4, nnodes := 5
    node := [(0, .leaf 0x41 2), (1, .leaf 0x42 1), (2, .leaf 256 1), (3, .internal 2 1 2), (4, .internal 4 0 3)] }

/-- V2.3 row 5. -/
theorem test_gencodes :
    nextHas (exec .gencodes aabTree)
      (fun t => t.code == [(0x41, [false]), (0x42, [true, false]), (256, [true, true])] && t.prog == .gencodes) = true := by
  decide

/-- A stage command out of sequence: ILLEGAL_CMD, EPHASE 0 (R271). -/
theorem test_gencodes_illegal :
    nextHas (exec .gencodes { aabTree with prog := .count }) (fun t => t.status == 0x00007400#32) = true := by decide

/-- WRITE_TAG sends TAG_TREE, bit 31 first. -/
theorem test_writeTag :
    nextHas (exec .writeTag { aabTree with prog := .gencodes })
      (fun t => t.bitSink.bits == tagTree4 && t.hmode == .tree && t.prog == .writeTag) = true := by decide

/-- WRITE_TAG in counts mode latches HMODE. -/
theorem test_writeTag_counts :
    nextHas (exec .writeTag { aabTree with prog := .gencodes, mode := .counts })
      (fun t => t.hmode == .counts && t.bitSink.bits.drop 30 == [true, false]) = true := by decide

/-- V2.4 row 6. -/
theorem test_writeHeader :
    nextHas (exec .writeHeader { aabTree with prog := .writeTag }) (fun t => t.bitSink.bits == aabHeader) = true := by
  decide

/-- W_CNT 1, with the counts header. -/
def config1c : Config := ⟨1, true, 0xCAFE0001#32, 0xCAFE0002#32, by decide, by decide, by decide⟩

/-- The counts header (R184) with W_CNT = 1 and FREQ[2] = 1, in 4 transfers: one bit each of FREQ[0] to FREQ[3]. -/
theorem test_writeHeader_counts :
    nextHas (exec .writeHeader
        { State.resetWith config1c with prog := .writeTag, hmode := .counts, freq := [(2, 1)], pace := 4 })
      (fun t => t.bitSink.bits == bits [0, 0, 1, 0] && t.busy) = true := by decide

/-- The codes of V2.3 row 5. -/
def aabCodes (s2 : List Byte) : State :=
  { withBytes aab s2 with
    prog := .writeHeader, code := [(0x41, [false]), (0x42, [true, false]), (256, [true, true])] }

/-- V2.6 row 6: body 0 0 10 11, then END. -/
theorem test_encode :
    nextHas (exec .encode (aabCodes aab))
      (fun t => t.bitSink.bits == bits [0, 0, 1, 0, 1, 1] && t.bitSink.ended && t.byteSrc.rewinds == 1) = true := by decide

/-- V2.6 row 15: S2 = "AAC" is MISSING_CODE at the 3rd byte, STATUS 0x000C3400, no END. -/
theorem test_encode_missing :
    nextHas (exec .encode (aabCodes [0x41, 0x41, 0x43]))
      (fun t => t.bitSink.bits == bits [0, 0] && !t.bitSink.ended && t.status == 0x000C3400#32) = true := by decide

/-- V2.6 row 6 after the tag: 70 bits. -/
theorem test_compress :
    nextHas (exec .compress (withBytes aab aab))
      (fun t => t.bitSink.bits == tagTree4 ++ aabHeader ++ bits [0, 0, 1, 0, 1, 1] && t.bitSink.ended &&
        t.prog == .encode && t.done) = true := by decide

/-- V2.6 row 15 as one command. -/
theorem test_compress_missing :
    nextHas (exec .compress (withBytes aab [0x41, 0x41, 0x43]))
      (fun t => t.bitSink.bits == tagTree4 ++ aabHeader ++ bits [0, 0] && t.status == 0x000C3400#32) = true := by decide

/-- READ_TAG of TAG_TREE. -/
theorem test_readTag :
    nextHas (exec .readTag (withBits (tagTree4 ++ [true])))
      (fun t => t.prog == .readTag && t.hmode == .tree && t.bitSrc.pos == 32) = true := by decide

/-- V2.5 row 5: 31 bits, FORMAT, STATUS 0x000E1400. -/
theorem test_readTag_short :
    nextHas (exec .readTag (withBits (tagTree4.take 31)))
      (fun t => t.status == 0x000E1400#32 && t.bitSrc.pos == 31) = true := by decide

/-- V2.5 row 1. -/
theorem test_readHeader :
    nextHas (exec .readHeader { withBits aabHeader with prog := .readTag })
      (fun t => t.node == [(0, .internal 0 1 2), (1, .leaf 0x41 0), (2, .internal 0 3 4), (3, .leaf 0x42 0),
        (4, .leaf 256 0)] && t.root == some 0 && t.nnodes == 5 && t.bitSrc.pos == 32) = true := by decide

/-- V2.5 row 12: 0x41 twice, STATUS 0x00105400, 21 header bits read. -/
theorem test_readHeader_malformed :
    nextHas (exec .readHeader { withBits (bits [0, 1,0,0,1,0,0,0,0,0,1, 1,0,0,1,0,0,0,0,0,1, 1]) with prog := .readTag })
      (fun t => t.status == 0x00105400#32 && t.bitSrc.pos == 21) = true := by decide

/-- The tree of V2.5 row 1. -/
def aabRead (b : List Bool) : State :=
  { withBits b with
    prog := .readHeader, root := some 0, nnodes := 5
    node := [(0, .internal 0 1 2), (1, .leaf 0x41 0), (2, .internal 0 3 4), (3, .leaf 0x42 0), (4, .leaf 256 0)] }

/-- Body 0 0 10 11 and trailing bits: "AAB", 6 bits read (R240, R245). -/
theorem test_decode :
    nextHas (exec .decode (aabRead (bits [0, 0, 1, 0, 1, 1, 0, 1])))
      (fun t => t.byteSink == aab && t.bitSrc.pos == 6 && t.prog == .decode && t.done) = true := by decide

/-- V1.10: the body cut after 0 0 1 is TRUNCATED with two bytes written. -/
theorem test_decode_truncated :
    nextHas (exec .decode (aabRead (bits [0, 0, 1])))
      (fun t => t.byteSink == [0x41, 0x41] && t.errcode == .truncated && t.ephase == .decode) = true := by decide

/-- R268's example: "AAB" after 70 bits. -/
theorem test_decompress :
    nextHas (exec .decompress (withBits (tagTree4 ++ aabHeader ++ bits [0, 0, 1, 0, 1, 1, 0])))
      (fun t => t.byteSink == aab && t.bitSrc.pos == 70 && t.prog == .decode && t.done) = true := by decide

/-- V2.5 row 11: symbol 257, STATUS 0x00105400, 43 bits read. -/
theorem test_decompress_malformed :
    nextHas (exec .decompress (withBits (tagTree4 ++ bits [0, 1, 1,0,0,0,0,0,0,0,1])))
      (fun t => t.status == 0x00105400#32 && t.bitSrc.pos == 43) = true := by decide

/-! ## Host accesses -/

/-- PARAM with W_CNT = 4 and HAS_COUNTS_HDR = 1 (R28). -/
theorem test_param : fresh.paramWord = 0x104#32 := by decide

/-- A MODE write is ignored when HAS_COUNTS_HDR = 0 (R26). -/
theorem test_mode_hardwired :
    nextHas (step { State.resetWith config1 with host := [.setmode true] }) (fun t => t.modeWord == 0#32) = true := by decide

/-- `rdfreq 66` (R64, R105). -/
theorem test_rdfreq :
    nextHas (step { fresh with freq := [(0x41, 2), (0x42, 1)], host := [.rdfreq 66] }) (fun t => t.rdata == 1#32) = true := by
  decide

/-- The acceptance turn of a block whose partners let one transfer complete: COUNT has read one byte and is BUSY. -/
theorem test_pace :
    nextHas (exec .count { withBytes aab aab with pace := 1 })
      (fun t => t.busy && t.byteSrc.pos == 1 && t.phase == .count) = true := by decide

/-! ## Witnesses: for each statement with hypotheses, a state and operands that meet them all -/

/-- A tree of two leaves. -/
def pair : HTree := .node (.leaf 0x41) (.leaf 256)

/-- Its code table. -/
def pairCodes : Cells (List Bool) := [(0x41, [false]), (256, [true])]

/-- `fresh` with that tree in the arena. -/
def pairTree : State :=
  { fresh with root := some 2, nnodes := 3, node := [(0, .leaf 0x41 1), (1, .leaf 256 1), (2, .internal 2 0 1)] }

theorem pair_sound : pair.Sound := ⟨rfl, by decide, by decide, by decide⟩

theorem pair_treeAt {s : State} (hn : s.node = pairTree.node) (hr : s.root = some 2) (hc : s.nnodes = 3) :
    TreeAt s pair := by
  refine ⟨2, [2, 0, 1], hr, ?_, pair_sound, by decide, by rw [hc]; rfl, by rw [hc]; decide⟩
  rw [hn]
  exact ⟨2, 0, 1, [0], [1], rfl, ⟨rfl, 1, rfl⟩, ⟨rfl, 1, rfl⟩, rfl⟩

theorem pair_codes : CodesOf pair pairCodes := codesOf_enterPaths (T := pair) (by decide)

/-- Leaves 0 to n − 1 down a comb, and 256 at its end. -/
def comb : Nat → HTree
  | 0 => .leaf 256
  | n + 1 => .node (.leaf (BitVec.ofNat 9 n)) (comb n)

theorem comb_leaves (n : Nat) : (comb n).leaves.length = n + 1 := by
  induction n with
  | zero => rfl
  | succ n ih => simp [comb, HTree.leaves, ih, Nat.add_comm]

theorem witness_FieldsGoMostSignificantFirst : (0 < 1 ∧ (fieldBits 1 1#1)[0]? = some true) ∧ 31 < 32 := by decide

theorem witness_TreeHeaderLength_least : 2 ≤ pair.leaves.length ∧ pair.leaves.length ≤ 257 := by decide

theorem witness_TreeHeaderLength_greatest : ∃ T : HTree, 2 ≤ T.leaves.length ∧ T.leaves.length = 257 :=
  (⟨_, comb_leaves _⟩ : ∃ T : HTree, T.leaves.length = 256 + 1).imp fun _ h => ⟨by omega, h⟩

theorem witness_StepRunsTheDecodedCommand :
    decodeWord 0x10#32 = .ok .compress ∧ { fresh with host := [.write 0x000 4 0x10] }.host = .write 0x000 4 0x10#32 :: [] :=
  ⟨by decide, rfl⟩

/-- Any word, in an idle and in a busy block. -/
theorem witness_CommandAcceptanceOrder (w : Word) (k : Stage) :
    { fresh with phase := k, host := [.write 0x000 4 w] }.host = .write 0x000 4 w :: [] := rfl

theorem witness_IllegalCommandWhileIdle_word :
    fresh.phase = .idle ∧ (∀ i : Instr, 0x02#32 ≠ encodeWord i) ∧
      { fresh with host := [.write 0x000 4 0x02] }.host = .write 0x000 4 0x02#32 :: [] :=
  ⟨rfl, by intro i; cases i <;> decide, rfl⟩

theorem witness_IllegalCommandWhileIdle_stage :
    fresh.phase = .idle ∧ neededBy .build = some .count ∧ fresh.prog ≠ .count := ⟨rfl, rfl, by decide⟩

theorem witness_WritesWhileBusyAreDropped_cmd :
    { fresh with phase := .count }.phase ≠ .idle ∧ 0x02#32 ≠ encodeWord .nop ∧ 0x02#32 ≠ encodeWord .softReset ∧
      0x10#32 ≠ encodeWord .nop ∧ 0x10#32 ≠ encodeWord .softReset := ⟨by decide, by decide, by decide, by decide, by decide⟩

theorem witness_WritesWhileBusyAreDropped_mode :
    { fresh with phase := .count, host := [.write 0x008 4 1] }.phase ≠ .idle ∧
      { fresh with phase := .count, host := [.write 0x008 4 1] }.host = .write 0x008 4 1 :: [] := ⟨by decide, rfl⟩

/-- OVR 1 before and 0 after, by each of the three ways. -/
theorem witness_WritesWhileBusyAreDropped_ovr :
    (∃ t, step { fresh with ovr := true, host := [.hwReset] } = .next t ∧ (!t.ovr) = true) ∧
    (∃ t, step { fresh with ovr := true, host := [.write 0x000 4 0x01] } = .next t ∧ (!t.ovr) = true) ∧
    ∃ t, step { fresh with ovr := true, host := [.write 0x000 4 0x11] } = .next t ∧ (!t.ovr) = true :=
  ⟨next_of (by decide), next_of (by decide), next_of (by decide)⟩

theorem witness_HardwareResetValues : { fresh with host := [.hwReset] }.host = .hwReset :: [] := rfl

theorem witness_EntryCommandsInitialiseTheCall :
    { fresh with pace := 0 }.phase = .idle ∧ { fresh with pace := 0 }.pace = 0 ∧
      callOf .compress = some .compression ∧ callOf .count = some .compression ∧
      callOf .decompress = some .decompression ∧ callOf .readTag = some .decompression := ⟨rfl, rfl, rfl, rfl, rfl, rfl⟩

/-- At the end of a stage body. -/
def ending (ks : List Stage) : State := { fresh with phase := .count, point := .fin, todo := ks }

theorem witness_StageEndHandsOver (ks : List Stage) :
    (ending ks).phase ≠ .idle ∧ (ending ks).point = .fin ∧ (ending []).todo = [] ∧
      (ending [.build]).todo = .build :: [] := ⟨by simp [ending], rfl, rfl, rfl⟩

/-- A block in COUNT, before an InByte that the environment does not let complete. -/
def stalled : State := { withBytes aab aab with phase := .count, point := .countByte, pace := 0 }

theorem settled_stalled : Settled stalled := .inr ⟨_, rfl, by decide⟩

theorem witness_IdleOrStalledBlockWaits :
    fresh.host = [] ∧ fresh.phase = .idle ∧ stalled.host = [] ∧ Settled stalled ∧ stalled.pace = 0 :=
  ⟨rfl, rfl, rfl, settled_stalled, rfl⟩

/-- The ends of the windows of R63. -/
theorem witness_RegisterReadValues :
    ∀ a ∈ [0x000, 0x004, 0x008, 0x00C, 0x010, 0x014, 0x018, 0x3FC, 0x400, 0x7FC, 0x800, 0xFFC],
      { fresh with host := [.read a 4] }.phase = .idle ∧ { fresh with host := [.read a 4] }.host = .read a 4 :: [] ∧
        a % 4 = 0 ∧ a < 0x1000 := by decide

/-- The same ends while BUSY, outside the FREQ window, STATUS among them. -/
theorem witness_RegisterReadValues_busy :
    ∀ a ∈ [0x000, 0x004, 0x008, 0x00C, 0x010, 0x014, 0x018, 0x3FC, 0x800, 0xFFC],
      { stalled with host := [.read a 4] }.phase ≠ .idle ∧ (a < 0x400 ∨ 0x800 ≤ a) ∧
        { stalled with host := [.read a 4] }.host = .read a 4 :: [] ∧ a % 4 = 0 ∧ a < 0x1000 := by decide

theorem witness_RegisterAccessSideEffects_write :
    ∀ a ∈ [0x004, 0x00C, 0x014, 0x018, 0x3FC, 0x400, 0x7FC, 0x800, 0xFFC],
      { fresh with host := [.write a 4 1] }.host = .write a 4 1 :: [] ∧ a % 4 = 0 ∧ a < 0x1000 ∧ a ≠ 0x000 ∧ a ≠ 0x008 := by
  decide

theorem witness_RegisterAccessSideEffects_read :
    ∀ a ∈ [0x000, 0x004, 0x014, 0x018, 0x3FC, 0x400, 0x7FC, 0x800, 0xFFC],
      { fresh with host := [.read a 4] }.host = .read a 4 :: [] ∧ a % 4 = 0 ∧ a < 0x1000 := by decide

/-- Between two reads of a stalled block, its script read, polled, turned and written elsewhere. -/
theorem witness_RegisterAccessSideEffects_repeat :
    ∀ op ∈ [HostOp.read 0x004 4, .read 0x400 4, .poll, .turn, .write 0x404 4 1, .setPace 0],
      Settled { stalled with host := [op] } ∧
        (∃ t, step { stalled with host := [op] } = .next t ∧ (t.events == stalled.events) = true) ∧
        op ≠ .hwReset ∧ ∀ addr width v, op = .write addr width v → addr ≠ 0x000 ∧ addr ≠ 0x008 := by
  intro op h
  refine ⟨.inr ⟨_, rfl, by change stalled.events < stalled.events + 1; omega⟩, ?_⟩
  simp only [List.mem_cons, List.not_mem_nil, or_false] at h
  rcases h with rfl | rfl | rfl | rfl | rfl | rfl
  all_goals
    refine ⟨next_of (by decide), nofun, ?_⟩
    intro addr width v hw
    cases hw
  exact ⟨by decide, by decide⟩

theorem witness_FreqWindow :
    ∀ b ∈ [0#8, 255#8], { fresh with host := [HostOp.rdfreq b] }.host = HostOp.rdfreq b :: [] ∧
      { fresh with host := [.write (0x400 + 4 * b.toNat) 4 1] }.host = .write (0x400 + 4 * b.toNat) 4 1 :: [] ∧
      fresh.phase = .idle ∧ { fresh with phase := .count }.phase ≠ .idle := by decide

theorem witness_OtherAccessesAreRefused :
    ∀ a ∈ [0x000, 0x001, 0xFFC, 0x1000], ∀ n ∈ [2, 4],
      { fresh with host := [.write a n 0] }.host = .write a n 0 :: [] ∧
        { fresh with host := [.read a n] }.host = .read a n :: [] := by decide

theorem witness_ModeWriteWhileIdle :
    fresh.phase = .idle ∧ fresh.cfg.hasCounts = true ∧ (State.resetWith config1).phase = .idle ∧
      (State.resetWith config1).cfg.hasCounts = false ∧
      { fresh with host := [.write 0x008 4 1] }.host = .write 0x008 4 1 :: [] := ⟨rfl, rfl, rfl, rfl, rfl⟩

theorem witness_OnlyModeWriteOrResetChangesMode :
    (∃ t, step { fresh with host := [.write 0x008 4 1] } = .next t ∧ (t.mode != fresh.mode) = true) ∧
    (∃ t, step { fresh with mode := .counts, host := [.hwReset] } = .next t ∧ (t.mode != .counts) = true) ∧
    ∃ t, exec .count (withBytes aab aab) = .next t ∧ t.done = true :=
  ⟨next_of (by decide), next_of (by decide), next_of (by decide)⟩

/-! ### Compression -/

theorem witness_CountCompletes :
    (withBytes aab aab).phase = .idle ∧ bytesToCome (withBytes aab aab) = aab ∧
      (∀ b, aab.count b < 2 ^ (withBytes aab aab).cfg.wCnt) ∧ aab.length + 1 ≤ (withBytes aab aab).pace :=
  ⟨rfl, rfl, count_lt (by decide), by decide⟩

/-- As many of one byte as a counter holds. -/
theorem witness_CountCompletes_full :
    bytesToCome (withBytes (List.replicate 15 0x41) []) = List.replicate 15 0x41 ∧
      (∀ b, (List.replicate 15 (0x41 : Byte)).count b < 2 ^ fresh.cfg.wCnt) :=
  ⟨rfl, count_lt (by decide)⟩

theorem witness_CountOverflowAborts :
    (withBytes (List.replicate 16 0x41) []).phase = .idle ∧
      bytesToCome (withBytes (List.replicate 16 0x41) []) = List.replicate 15 0x41 ++ (0x41 : Byte) :: [] ∧
      (∀ c, (List.replicate 15 (0x41 : Byte)).count c < 2 ^ fresh.cfg.wCnt) ∧
      (List.replicate 15 (0x41 : Byte)).count 0x41 = 2 ^ fresh.cfg.wCnt - 1 ∧
      (List.replicate 15 (0x41 : Byte)).length + 1 ≤ fresh.pace :=
  ⟨rfl, rfl, count_lt (by decide), by decide, by decide⟩

theorem witness_BuildCompletes :
    { fresh with prog := .count, freq := [(0x41, 2)] }.phase = .idle ∧
      { fresh with prog := .count, freq := [(0x41, 2)] }.prog = .count := ⟨rfl, rfl⟩

theorem witness_BuildOfNothingMakesThePlaceholderTree :
    { fresh with prog := .count }.phase = .idle ∧ { fresh with prog := .count }.prog = .count ∧
      (∀ b, freqAt { fresh with prog := .count }.freq b = 0) := ⟨rfl, rfl, fun _ => rfl⟩

theorem freqAt_lt {f : Cells Word} {n : Nat} (h0 : 0 < n) (h : f.all (fun c => decide (c.2.toNat < n)) = true) (b : Byte) :
    (freqAt f b).toNat < n := by
  unfold freqAt
  cases hg : Cells.get f b.toNat with
  | none => simpa using h0
  | some v => simpa using List.all_eq_true.1 h _ (Cells.mem_of_get hg)

theorem witness_BuiltWeightsAreSums :
    { fresh with prog := .count, freq := [(0x41, 15)] }.phase = .idle ∧
      { fresh with prog := .count, freq := [(0x41, 15)] }.prog = .count ∧
      (∀ b, (freqAt [(0x41, 15#32)] b).toNat < 2 ^ fresh.cfg.wCnt) ∧
      ∃ t, exec .build { fresh with prog := .count, freq := [(0x41, 15)] } = .next t ∧ (t.phase == .idle) = true :=
  ⟨rfl, rfl, freqAt_lt (by decide) (by decide), next_of (by decide)⟩

/-- Two leaves waiting to be merged. -/
def merging : State :=
  { fresh with
    phase := .build, point := .buildMerge 2, pq := [0, 1], node := [(0, .leaf 0x41 1), (1, .leaf 256 1)] }

theorem witness_MergeTakesTheTwoLeastNodes :
    merging.point = .buildMerge (BitVec.ofNat 10 2) ∧ Forest merging 2 ∧ 2 ≤ merging.pq.length ∧
      1 + 1 < 2 ^ weightWidth merging.cfg := by
  refine ⟨rfl, ⟨[(0, .leaf 0x41, [0]), (1, .leaf 256, [1])], rfl, ?_, by decide, by decide, by decide,
    by decide, by decide, by decide, by decide⟩, by decide, by decide⟩
  intro e he
  simp only [List.mem_cons, List.not_mem_nil, or_false] at he
  rcases he with rfl | rfl
  · exact ⟨rfl, 1, rfl⟩
  · exact ⟨rfl, 1, rfl⟩

theorem witness_GencodesCompletes :
    { pairTree with prog := .build }.phase = .idle ∧ { pairTree with prog := .build }.prog = .build ∧
      TreeAt { pairTree with prog := .build } pair := ⟨rfl, rfl, pair_treeAt rfl rfl rfl⟩

/-- A state between GENCODES and WRITE_TAG. -/
def coded : State := { pairTree with prog := .gencodes, code := pairCodes }

theorem witness_CodesArePrefixFree :
    TreeInv coded ∧ hasCodes coded.prog = true ∧ (0x41#9 : Sym) ≠ 256 ∧ codeAt coded.code 0x41 = some [false] ∧
      codeAt coded.code 256 = some [true] :=
  ⟨⟨fun _ => ⟨pair, pair_treeAt rfl rfl rfl⟩, fun _ => ⟨pair, pair_treeAt rfl rfl rfl, pair_codes⟩,
    fun h => absurd h (by decide), trivial⟩, rfl, by decide, rfl, rfl⟩

theorem witness_CodeLengthsAndKraftEquality :
    TreeAt coded pair ∧ CodesOf pair pairCodes ∧ codeAt pairCodes 256 = some [true] :=
  ⟨pair_treeAt rfl rfl rfl, pair_codes, rfl⟩

theorem witness_WriteTagCompletes : coded.phase = .idle ∧ coded.prog = .gencodes ∧ 32 ≤ coded.pace :=
  ⟨rfl, rfl, by decide⟩

theorem witness_WriteHeaderCompletes_tree :
    { coded with prog := .writeTag }.phase = .idle ∧ { coded with prog := .writeTag }.prog = .writeTag ∧
      { coded with prog := .writeTag }.hmode = .tree ∧ TreeAt { coded with prog := .writeTag } pair ∧
      pair.header.length ≤ fresh.pace := ⟨rfl, rfl, rfl, pair_treeAt rfl rfl rfl, by decide⟩

theorem witness_WriteHeaderCompletes_counts :
    { coded with prog := .writeTag, hmode := .counts }.phase = .idle ∧
      { coded with prog := .writeTag, hmode := .counts }.prog = .writeTag ∧
      { coded with prog := .writeTag, hmode := .counts }.hmode = .counts ∧ 256 * coded.cfg.wCnt ≤ coded.pace :=
  ⟨rfl, rfl, rfl, by decide⟩

theorem witness_EncodeCompletes :
    (aabCodes aab).phase = .idle ∧ (aabCodes aab).prog = .writeHeader ∧
      bodyBits (aabCodes aab).code (aabCodes aab).byteSrc.s2 = some (bits [0, 0, 1, 0]) ∧
      codeAt (aabCodes aab).code eosSym = some [true, true] ∧ aab.length + 4 + 2 + 3 ≤ fresh.pace :=
  ⟨rfl, rfl, by decide, by decide, by decide⟩

theorem witness_EncodeWithoutCodeAborts :
    (aabCodes [0x41, 0x43]).phase = .idle ∧ (aabCodes [0x41, 0x43]).prog = .writeHeader ∧
      (aabCodes [0x41, 0x43]).byteSrc.s2 = [0x41] ++ 0x43 :: [] ∧
      bodyBits (aabCodes [0x41, 0x43]).code [0x41] = some [false] ∧
      codeAt (aabCodes [0x41, 0x43]).code (byteSym 0x43) = none ∧ 1 + 1 + 2 ≤ fresh.pace :=
  ⟨rfl, rfl, rfl, by decide, by decide, by decide⟩

theorem witness_CompressCompletes :
    (withBytes aab aab).phase = .idle ∧ bytesToCome (withBytes aab aab) = aab ∧
      (∀ b, aab.count b < 2 ^ (withBytes aab aab).cfg.wCnt) ∧ (∀ b ∈ (withBytes aab aab).byteSrc.s2, b ∈ aab ∨ (aab = [] ∧ b = 0)) ∧
      aab.length + 257 * ((withBytes aab aab).byteSrc.s2.length + 1) + 32 + 8192 + 3 ≤ (withBytes aab aab).pace :=
  ⟨rfl, rfl, count_lt (by decide), by decide, by decide⟩

/-- An empty pass 1, and the placeholder's byte in pass 2. -/
theorem witness_CompressCompletes_placeholder :
    bytesToCome (withBytes [] [0]) = [] ∧ (∀ b, ([] : List Byte).count b < 2 ^ fresh.cfg.wCnt) ∧
      (∀ b ∈ (withBytes [] [0]).byteSrc.s2, b ∈ ([] : List Byte) ∨ (([] : List Byte) = [] ∧ b = 0)) :=
  ⟨rfl, count_lt (by decide), by decide⟩

/-! ### Decompression -/

theorem witness_ReadTagCompletes :
    (withBits (tagBits config4.tagTree)).phase = .idle ∧
      bitsToCome (withBits (tagBits config4.tagTree)) = tagBits config4.tagTree ++ [] ∧
      bitsToCome (withBits (tagBits config4.tagCounts)) = tagBits config4.tagCounts ++ [] ∧
      fresh.cfg.hasCounts = true ∧ 32 ≤ fresh.pace :=
  ⟨rfl, by decide, by decide, rfl, by decide⟩

theorem witness_ReadTagFormatError_tag :
    (withBits (tagBits 0#32)).phase = .idle ∧ bitsToCome (withBits (tagBits 0#32)) = tagBits 0#32 ++ [] ∧
      0#32 ≠ fresh.cfg.tagTree ∧ (0#32 = fresh.cfg.tagCounts → fresh.cfg.hasCounts = false) ∧ 32 ≤ fresh.pace :=
  ⟨rfl, by decide, by decide, by decide, by decide⟩

/-- TAG_COUNTS where the counts header is not implemented. -/
theorem witness_ReadTagFormatError_noCounts :
    config1.tagCounts ≠ config1.tagTree ∧ (config1.tagCounts = config1.tagCounts → config1.hasCounts = false) ∧
      bitsToCome { State.resetWith config1 with bitSrc := { seq := tagBits config1.tagCounts, pos := 0 } } =
        tagBits config1.tagCounts ++ [] := ⟨by decide, by decide, by decide⟩

theorem witness_ReadTagFormatError_short :
    (withBits (tagTree4.take 31)).phase = .idle ∧ bitsToCome (withBits (tagTree4.take 31)) = tagTree4.take 31 ∧
      (tagTree4.take 31).length < 32 ∧ (tagTree4.take 31).length + 1 ≤ fresh.pace ∧ bitsToCome (withBits []) = [] :=
  ⟨rfl, rfl, by decide, by decide, rfl⟩

theorem witness_ReadTreeHeaderCompletes :
    { withBits (pair.header ++ [true]) with prog := .readTag }.phase = .idle ∧
      { withBits (pair.header ++ [true]) with prog := .readTag }.prog = .readTag ∧
      { withBits (pair.header ++ [true]) with prog := .readTag }.hmode = .tree ∧
      FreshBooks { withBits (pair.header ++ [true]) with prog := .readTag } ∧ pair.Sound ∧
      bitsToCome { withBits (pair.header ++ [true]) with prog := .readTag } = pair.header ++ [true] ∧
      pair.header.length ≤ fresh.pace :=
  ⟨rfl, rfl, rfl, ⟨rfl, rfl, rfl, rfl, rfl⟩, pair_sound, rfl, by decide⟩

/-- A state before READ_HEADER of a counts header. -/
def beforeCounts (b : List Bool) : State := { withBits b with prog := .readTag, hmode := .counts }

theorem witness_ReadCountsHeaderCompletes :
    (beforeCounts (countsHeader config4 [(0x41, 15)])).phase = .idle ∧
      (beforeCounts (countsHeader config4 [(0x41, 15)])).prog = .readTag ∧
      (beforeCounts (countsHeader config4 [(0x41, 15)])).hmode = .counts ∧
      (∀ b, (freqAt [(0x41, 15#32)] b).toNat < 2 ^ fresh.cfg.wCnt) ∧
      bitsToCome (beforeCounts (countsHeader config4 [(0x41, 15)])) =
        countsHeader (beforeCounts (countsHeader config4 [(0x41, 15)])).cfg [(0x41, 15)] ++ [] ∧
      256 * config4.wCnt ≤ fresh.pace :=
  ⟨rfl, rfl, rfl, freqAt_lt (by decide) (by decide), by simp [bitsToCome, beforeCounts, withBits, fresh, State.resetWith],
    by decide⟩

/-- A state BUILD may run in with the arena and FREQ of the state before. -/
theorem witness_ReadCountsHeaderCompletes_build (f : Cells Word) :
    { fresh with prog := .count, freq := f }.phase = .idle ∧ { fresh with prog := .count, freq := f }.prog = .count ∧
      { fresh with prog := .count, freq := f }.cfg = (beforeCounts []).cfg ∧
      { fresh with prog := .count, freq := f }.node = (beforeCounts []).node := ⟨rfl, rfl, rfl, rfl⟩

/-- A state before READ_HEADER of a tree header. -/
def beforeTree (b : List Bool) : State := { withBits b with prog := .readTag }

theorem beforeTree_starts (b : List Bool) :
    (beforeTree b).phase = .idle ∧ (beforeTree b).prog = .readTag ∧ (beforeTree b).hmode = .tree ∧
      FreshBooks (beforeTree b) ∧ bitsToCome (beforeTree b) = b ∧ (beforeTree b).pace = 1048576 :=
  ⟨rfl, rfl, rfl, ⟨rfl, rfl, rfl, rfl, rfl⟩, rfl, rfl⟩

theorem unfinished_nodes {n : Nat} (h : n ≤ 256) : Unfinished (List.replicate n .node) := by
  have hl : ∀ m, itemLeaves (List.replicate m .node) = [] := fun m => by
    induction m with
    | zero => rfl
    | succ m ih => exact ih
  have hn : ∀ m, itemNodes (List.replicate m .node) = m := fun m => by
    induction m with
    | zero => rfl
    | succ m ih => exact congrArg (· + 1) ih
  exact ⟨fun k => by simp [List.take_replicate, hl], by simp [hl], by simp [hl], by rw [hn]; exact h⟩

theorem unfinished_leaf : Unfinished [.node, .leaf 256] :=
  ⟨fun k => by rcases k with _ | _ | k <;> simp [itemLeaves, itemNodes], by decide, by decide, by decide⟩

/-- EOI at the first discriminator, at a later one, inside a field that could hold only 257 or more, and one bit before
its end. -/
theorem witness_HeaderCutShortAborts_tree :
    Unfinished [] ∧ Unfinished [.node, .leaf 256] ∧
      ∀ xs ∈ [[], [HItem.node, .leaf 256]],
      ∀ q ∈ [[], [true], true :: bits [1, 1], true :: bits [1, 0, 0, 0, 0, 0, 0, 0]],
        bitsToCome (beforeTree (itemBits xs ++ q)) = itemBits xs ++ q ∧
        (q = [] ∨ ∃ p, q = true :: p ∧ p.length < 9) ∧
        (bitsToCome (beforeTree (itemBits xs ++ q))).length + 1 ≤ (beforeTree (itemBits xs ++ q)).pace := by
  refine ⟨unfinished_nodes (Nat.zero_le _), unfinished_leaf, fun xs hx q hq => ⟨rfl, ?_, ?_⟩⟩
  · fin_cases hq
    · exact .inl rfl
    all_goals exact .inr ⟨_, rfl, by decide⟩
  · fin_cases hx <;> fin_cases hq <;> decide

theorem witness_HeaderCutShortAborts_counts :
    (beforeCounts []).phase = .idle ∧ (beforeCounts []).prog = .readTag ∧ (beforeCounts []).hmode = .counts ∧
      (bitsToCome (beforeCounts [])).length < 256 * (beforeCounts []).cfg.wCnt ∧
      (bitsToCome (beforeCounts [])).length + 1 ≤ (beforeCounts []).pace := ⟨rfl, rfl, rfl, by decide, by decide⟩

/-- A first symbol 257, and a repeated 256. -/
theorem witness_TreeHeaderChecks_fields :
    Unfinished [] ∧ 256 < (257 : Sym).toNat ∧ Unfinished [.node, .leaf 256] ∧ 256 ∈ itemLeaves [.node, .leaf 256] ∧
      ∀ xs ∈ [[], [HItem.node, .leaf 256]], ∀ c ∈ [256, 257],
        bitsToCome (beforeTree (itemBits xs ++ (true :: (symBits c ++ [])))) = itemBits xs ++ (true :: (symBits c ++ [])) ∧
        (itemBits xs).length + 10 ≤ (beforeTree (itemBits xs ++ (true :: (symBits c ++ [])))).pace :=
  ⟨unfinished_nodes (Nat.zero_le _), by decide, unfinished_leaf, by decide, by decide⟩

/-- 256 internal nodes and a discriminator 0. -/
theorem witness_TreeHeaderChecks_257 :
    Unfinished (List.replicate 256 .node) ∧ itemNodes (List.replicate 256 .node) = 256 ∧
      bitsToCome (beforeTree (itemBits (List.replicate 256 .node) ++ [false])) =
        itemBits (List.replicate 256 .node) ++ (false :: []) ∧
      (itemBits (List.replicate 256 .node)).length + 1 ≤
        (beforeTree (itemBits (List.replicate 256 .node) ++ [false])).pace :=
  ⟨unfinished_nodes (Nat.le_refl _), by decide, rfl, by decide⟩

/-- A tree that is one EOS leaf, and one of two bytes. -/
theorem witness_TreeHeaderChecks_trees :
    ∀ T ∈ [HTree.leaf 256, .node (.leaf 0x41) (.leaf 0x42)],
      T.leaves.Nodup ∧ (∀ c ∈ T.leaves, c.toNat ≤ 256) ∧ (T.isNode = false ∨ eosSym ∉ T.leaves) ∧
      bitsToCome (beforeTree (T.header ++ [])) = T.header ++ [] ∧ T.header.length ≤ (beforeTree (T.header ++ [])).pace := by
  decide

/-- A deserializer at a point. -/
def reading (p : Point) (b : List Bool) : State :=
  { pairTree with phase := .readHeader, point := p, bitSrc := { seq := b, pos := 0 } }

theorem witness_TreeHeaderChecks_start (p : Point) (b : List Bool) : (reading p b).phase = .readHeader := rfl

theorem witness_TreeHeaderChecks_symbol :
    (reading (.desSym 1 0 257) []).point = .desSym 1 0 257#32 ∧ 256 < (257#32).toNat ∧
      (256#32).toNat ≤ 256 ∧ { reading (.desSym 1 0 256) [] with seen := 1#257 <<< 256 }.seen.getLsbD (256#32).toNat = true :=
  ⟨rfl, by decide, by decide, by decide⟩

theorem witness_TreeHeaderChecks_nodes :
    { reading .desNode [false] with nint := 256 }.point = .desNode ∧ { reading .desNode [false] with nint := 256 }.nint = 256 ∧
      bitsToCome { reading .desNode [false] with nint := 256 } = false :: [] := ⟨rfl, rfl, rfl⟩

theorem witness_TreeHeaderChecks_root :
    (reading .desCheck []).point = .desCheck ∧ { reading .desCheck [] with root := some 0 }.root = some 0 ∧
      nodeAt (reading .desCheck []).node 0 = some (.leaf 0x41 1) ∧ (reading .desCheck []).root = some 2 ∧
      nodeAt (reading .desCheck []).node 2 = some (.internal 2 0 1) ∧ (reading .desCheck []).seen.getLsbD 256 = false ∧
      { reading .desCheck [] with seen := 1#257 <<< 256 }.seen.getLsbD 256 = true :=
  ⟨rfl, rfl, rfl, rfl, rfl, rfl, by decide⟩

/-- A state before DECODE. -/
def beforeDecode (b : List Bool) : State := { pairTree with prog := .readHeader, bitSrc := { seq := b, pos := 0 } }

theorem witness_DecodeCompletes :
    (beforeDecode (bits [0, 1, 1])).phase = .idle ∧ (beforeDecode (bits [0, 1, 1])).prog = .readHeader ∧
      TreeAt (beforeDecode (bits [0, 1, 1])) pair ∧ CodesOf pair pairCodes ∧
      bodyBits pairCodes [0x41] = some [false] ∧ codeAt pairCodes eosSym = some [true] ∧
      bitsToCome (beforeDecode (bits [0, 1, 1])) = [false] ++ ([true] ++ [true]) ∧ 1 + 1 + 1 ≤ fresh.pace :=
  ⟨rfl, rfl, pair_treeAt rfl rfl rfl, pair_codes, by decide, by decide, by decide, by decide⟩

theorem witness_DecodeCutShortAborts :
    (beforeDecode [false]).phase = .idle ∧ (beforeDecode [false]).prog = .readHeader ∧
      TreeAt (beforeDecode [false]) pair ∧ CodesOf pair pairCodes ∧ bodyBits pairCodes [0x41] = some [false] ∧
      codeAt pairCodes 256 = some ([] ++ [true]) ∧ [true] ≠ [] ∧ bitsToCome (beforeDecode [false]) = [false] ++ [] ∧
      1 + 1 + 0 + 1 ≤ fresh.pace :=
  ⟨rfl, rfl, pair_treeAt rfl rfl rfl, pair_codes, by decide, by decide, by decide, by decide, by decide⟩

theorem witness_DecompressCompletes_tree :
    (withBits (tagBits config4.tagTree ++ (pair.header ++ ([false] ++ ([true] ++ []))))).phase = .idle ∧ pair.Sound ∧
      CodesOf pair pairCodes ∧ bodyBits pairCodes [0x41] = some [false] ∧ codeAt pairCodes eosSym = some [true] ∧
      bitsToCome (withBits (tagBits config4.tagTree ++ (pair.header ++ ([false] ++ ([true] ++ []))))) =
        tagBits fresh.cfg.tagTree ++ (pair.header ++ ([false] ++ ([true] ++ []))) ∧
      32 + pair.header.length + 1 + 1 + 1 ≤ fresh.pace :=
  ⟨rfl, pair_sound, pair_codes, by decide, by decide, rfl, by decide⟩

/-- The state BUILD makes `pairTree`'s tree in. -/
def beforePair : State := { fresh with prog := .count, freq := [(0x41, 1)] }

/-- "A" under a counts header. -/
def countsStream : State :=
  withBits (tagBits config4.tagCounts ++ (countsHeader config4 [(0x41, 1)] ++ ([false] ++ ([true] ++ []))))

theorem witness_DecompressCompletes_counts :
    countsStream.phase = .idle ∧
      bitsToCome countsStream =
        tagBits countsStream.cfg.tagCounts ++
          (countsHeader countsStream.cfg beforePair.freq ++ ([false] ++ ([true] ++ []))) ∧
      fresh.cfg.hasCounts = true ∧ beforePair.cfg = fresh.cfg ∧ beforePair.phase = .idle ∧ beforePair.prog = .count ∧
      beforePair.node = [] ∧ (∀ b, (freqAt beforePair.freq b).toNat < 2 ^ fresh.cfg.wCnt) ∧
      (∃ v, exec .build beforePair = .next v ∧ v.phase = .idle ∧ TreeAt v pair) ∧ CodesOf pair pairCodes ∧
      bodyBits pairCodes [0x41] = some [false] ∧ codeAt pairCodes eosSym = some [true] ∧
      32 + 256 * fresh.cfg.wCnt + 1 + 1 + 1 ≤ fresh.pace := by
  refine ⟨rfl, rfl, rfl, rfl, rfl, rfl, rfl, freqAt_lt (by decide) (by decide), ?_, pair_codes, by decide, by decide,
    by decide⟩
  obtain ⟨v, hv, h⟩ := next_of (o := exec .build beforePair)
    (f := fun t => t.phase == .idle && t.node == pairTree.node && t.root == some 2 && t.nnodes == 3) (by decide)
  simp only [Bool.and_eq_true, beq_iff_eq] at h
  exact ⟨v, hv, h.1.1.1, pair_treeAt h.1.1.2 h.1.2 h.2⟩

/-! ### Laws of the controller, frames, invariants -/

/-- Whether a state is that of a completed run. -/
def completedB (k : Stage) (t : State) : Bool := t.phase == .idle && t.prog == k && t.done && t.errcode == .none

theorem completed_of {k : Stage} {t : State} (h : completedB k t = true) : Completed k t := by
  simp only [completedB, Bool.and_eq_true, beq_iff_eq] at h
  exact ⟨h.1.1.1, h.1.1.2, h.1.2, h.2⟩

/-- COMPRESS ended in its acceptance turn by completion. -/
theorem witness_PipelineEquivalence_compress :
    (withBytes aab aab).phase = .idle ∧
      ∃ t, exec .compress (withBytes aab aab) = .next t ∧ turns 0 t = .next t ∧ t.phase = .idle :=
  ⟨rfl, (next_of (f := completedB .encode) (by decide)).imp fun _ h => ⟨h.1, rfl, (completed_of h.2).idle⟩⟩

/-- COMPRESS ended two turns later, in COUNT_OVERFLOW. -/
theorem witness_PipelineEquivalence_overflow :
    ∃ u, exec .compress { withBytes (List.replicate 16 0x41) [] with pace := 6 } = .next u ∧
      ∃ t, turns 2 u = .next t ∧ (t.phase == .idle && t.errcode == .countOverflow) = true :=
  (next_of (f := fun u => nextHas (turns 2 u) (fun t => t.phase == .idle && t.errcode == .countOverflow)) (by decide)).imp
    fun _ h => ⟨h.1, next_of h.2⟩

/-- "AAB" compressed, without anything after. -/
def aabBits : List Bool := tagTree4 ++ aabHeader ++ bits [0, 0, 1, 0, 1, 1]

theorem witness_PipelineEquivalence_decompress :
    (withBits aabBits).phase = .idle ∧
      ∃ t, exec .decompress (withBits aabBits) = .next t ∧ turns 0 t = .next t ∧ t.phase = .idle :=
  ⟨rfl, (next_of (f := completedB .decode) (by decide)).imp fun _ h => ⟨h.1, rfl, (completed_of h.2).idle⟩⟩

theorem witness_CompressThenDecompressGivesTheBytes :
    (withBytes aab aab).phase = .idle ∧ bytesToCome (withBytes aab aab) = aab ∧ (withBytes aab aab).byteSrc.s2 = aab ∧
      (∀ b, aab.count b < 2 ^ (withBytes aab aab).cfg.wCnt) ∧
      ∀ b r, { withBits (b ++ r) with pace := 1 }.phase = .idle ∧ (withBits (b ++ r)).cfg = (withBytes aab aab).cfg ∧
        bitsToCome (withBits (b ++ r)) = b ++ r :=
  ⟨rfl, rfl, rfl, count_lt (by decide), fun _ _ => ⟨rfl, rfl, rfl⟩⟩

/-- Two different idle states with one byte source. -/
theorem witness_CallsAreDeterministic_compress :
    fresh.cfg = coded.cfg ∧ fresh.hdrMode = coded.hdrMode ∧ (withBytes aab aab).byteSrc = { coded with byteSrc := (withBytes aab aab).byteSrc }.byteSrc ∧
      (∃ t, exec .compress (withBytes aab aab) = .next t ∧ (t.phase == .idle) = true) ∧
      ∃ v, exec .compress { coded with byteSrc := (withBytes aab aab).byteSrc } = .next v ∧ (v.phase == .idle) = true :=
  ⟨rfl, rfl, rfl, next_of (by decide), next_of (by decide)⟩

theorem witness_CallsAreDeterministic_decompress :
    bitsToCome (withBits aabBits) = bitsToCome { coded with bitSrc := { seq := true :: aabBits, pos := 1 } } ∧
      (∃ t, exec .decompress (withBits aabBits) = .next t ∧ (t.phase == .idle) = true) ∧
      ∃ v, exec .decompress { coded with bitSrc := { seq := true :: aabBits, pos := 1 } } = .next v ∧
        (v.phase == .idle) = true :=
  ⟨rfl, next_of (by decide), next_of (by decide)⟩

/-- An entry command that reads 20 bits in the turn of its acceptance, and ends in the next. -/
theorem witness_ErrorsOfEachCommand_later :
    { withBits (List.replicate 32 false) with pace := 20 }.phase = .idle ∧ callOf .readTag = some .decompression ∧
      ∃ u, exec .readTag { withBits (List.replicate 32 false) with pace := 20 } = .next u ∧ u.phase = .readTag ∧
        ∃ t, turns 1 u = .next t ∧ (t.errcode == .format) = true :=
  ⟨rfl, rfl, _, rfl, rfl, next_of (by decide)⟩

/-- An entry command, a stage command in sequence, and one out of sequence. -/
theorem witness_ErrorsOfEachCommand :
    (fresh.phase = .idle ∧ callOf .readTag = some .decompression ∧
      ∃ t, exec .readTag fresh = .next t ∧ (t.errcode == .format) = true) ∧
    (neededBy .gencodes = some .build ∧ aabTree.prog = .build ∧ ∃ t, exec .gencodes aabTree = .next t ∧ t.done = true) ∧
    fresh.prog ≠ .build ∧ ∃ t, exec .gencodes fresh = .next t ∧ (t.errcode == .illegalCmd) = true :=
  ⟨⟨rfl, rfl, next_of (by decide)⟩, ⟨rfl, rfl, next_of (by decide)⟩, by decide, next_of (by decide)⟩

theorem witness_OutputsAreNotRolledBack :
    (∃ t, takeTurn { fresh with phase := .count, point := .countByte } = .next t ∧ t.done = true) ∧
    { fresh with phase := .readTag, point := .recvTag 32 0 }.phase ≠ .idle ∧
      { fresh with phase := .readTag, point := .recvTag 32 0 }.errcode = .none ∧
      ∃ t, blockMove { fresh with phase := .readTag, point := .recvTag 32 0 } = .ok t ∧ t.errcode ≠ .none :=
  ⟨next_of (by decide), by decide, rfl, _, rfl, by decide⟩

theorem witness_CompressionEntryFrame :
    (∃ t, exec .compress (withBytes aab aab) = .next t ∧ t.done = true) ∧
    ∃ t, exec .count (withBytes aab aab) = .next t ∧ t.done = true := ⟨next_of (by decide), next_of (by decide)⟩

theorem witness_BuildAndGencodesFrame :
    (∃ t, exec .build beforePair = .next t ∧ t.done = true) ∧ ∃ t, exec .gencodes aabTree = .next t ∧ t.done = true :=
  ⟨next_of (by decide), next_of (by decide)⟩

theorem witness_WritingStagesFrame :
    (∃ t, exec .writeTag coded = .next t ∧ t.done = true) ∧
    (∃ t, exec .writeHeader { coded with prog := .writeTag } = .next t ∧ t.done = true) ∧
    ∃ t, exec .encode (aabCodes aab) = .next t ∧ t.done = true :=
  ⟨next_of (by decide), next_of (by decide), next_of (by decide)⟩

theorem witness_DecompressionEntryFrame :
    (∃ t, exec .decompress (withBits aabBits) = .next t ∧ t.done = true) ∧
    ∃ t, exec .readTag (withBits aabBits) = .next t ∧ t.done = true := ⟨next_of (by decide), next_of (by decide)⟩

/-- READ_HEADER in both formats, the counts header stalled, and DECODE. -/
theorem witness_ReadHeaderAndDecodeFrame :
    (∃ t, exec .readHeader { withBits aabHeader with prog := .readTag } = .next t ∧ t.done = true) ∧
    (∃ t, exec .readHeader { beforeCounts [true, true] with pace := 2 } = .next t ∧ t.busy = true) ∧
    ∃ t, exec .decode (beforeDecode (bits [0, 1])) = .next t ∧ t.done = true :=
  ⟨next_of (by decide), next_of (by decide), next_of (by decide)⟩

/-- The invariant holds in `fresh`. -/
theorem inv_fresh : Inv fresh where
  control := {
    point := rfl
    todo := .inl rfl
    prog := fun h => absurd rfl h
    running := fun h => absurd rfl h
    progClear := fun h => absurd rfl h
    doneOf := fun h => nomatch h
    raised := rfl
    queue := fun h => absurd rfl h
    stack := fun h => absurd rfl h }
  stores := {
    freqForm := rfl
    nodeForm := rfl
    codeForm := rfl
    freqFits := fun _ => Nat.two_pow_pos _
    field := trivial
    hmodeLegal := fun h => nomatch h
    modeLegal := fun h => nomatch h }
  trees := {
    tree := fun h => nomatch h
    codes := fun h => nomatch h
    fresh := fun h => absurd h (by decide)
    data := trivial }

theorem witness_EveryStepKeepsControlInv : ControlInv fresh ∧ step fresh = .next fresh := ⟨inv_fresh.control, rfl⟩

theorem witness_EveryStepKeepsStoreInv : StoreInv fresh ∧ step fresh = .next fresh := ⟨inv_fresh.stores, rfl⟩

theorem witness_EveryStepKeepsTheInvariant : Inv fresh ∧ step fresh = .next fresh := ⟨inv_fresh, rfl⟩

theorem witness_EveryStepLeavesTheBlockSettled : Inv fresh ∧ Settled fresh ∧ step fresh = .next fresh :=
  ⟨inv_fresh, .inl rfl, rfl⟩

theorem witness_IdleOrStalledBlockWaits_turns :
    Inv fresh ∧ takeTurn { fresh with pace := 2 } = .next { fresh with pace := 2 } ∧
      takeTurn { fresh with pace := 3 } = .next { fresh with pace := 3 } := ⟨inv_fresh, rfl, rfl⟩

theorem witness_NoFaultUnderTheInvariant : Inv fresh := inv_fresh

end Sys2Proof.Tests
end

section
/-! PROOF. The bits of a field, most significant first (00_scope.md R13). -/

namespace Sys2Proof.Machine

/-- OutField sends bit n−1 first and then the field of the lower n−1 bits, so bit k of the field is bit n−1−k of the
value. Bits at and above the value's width are zeros. -/
theorem fieldBits_getElem? {w n k : Nat} (v : BitVec w) (hk : k < n) :
    (fieldBits n v)[k]? = some (v.getLsbD (n - 1 - k)) := by
  induction n generalizing k with
  | zero => exact absurd hk (Nat.not_lt_zero k)
  | succ n ih =>
    cases k with
    | zero => rfl
    | succ k =>
      have hindex : n + 1 - 1 - (k + 1) = n - 1 - k := by omega
      rw [fieldBits, List.getElem?_cons_succ, ih (Nat.lt_of_succ_lt_succ hk), hindex]

/-- Settles O3: the length law of a field, and its bits by induction on its width. -/
theorem fieldsGoMostSignificantFirst : Obligations.FieldsGoMostSignificantFirst :=
  fun _ n v => ⟨fieldBits_length n v, fun _ hk => fieldBits_getElem? v hk⟩

end Sys2Proof.Machine
end

section
/-! PROOF. The invariant: it holds at reset, every step keeps it, and under it no step faults. -/

namespace Sys2Proof.Machine

/-! ## Reset -/

/-- The state after reset is one SOFT_RESET leaves as it is, so what SOFT_RESET establishes holds there. -/
theorem softReset_reset : softReset State.reset = State.reset := rfl

theorem storeInv_reset : StoreInv State.reset where
  freqForm := rfl
  nodeForm := rfl
  codeForm := rfl
  freqFits := fun _ => Nat.two_pow_pos _
  field := trivial
  hmodeLegal := fun h => nomatch h
  modeLegal := fun h => nomatch h

/-- Settles O55: SOFT_RESET establishes the control state and the absence of a tree, and the stores are empty. -/
theorem invariantHoldsAtReset : Obligations.InvariantHoldsAtReset :=
  ⟨softReset_reset ▸ control_soft State.reset, storeInv_reset, softReset_reset ▸ trees_soft State.reset⟩

/-! ## Every action of a step keeps the invariant -/

theorem controlInv_kept : KeptByActions ControlInv where
  move _ _ := control_move
  entry _ d _ _ h hi := control_entry h hi d
  stage _ _ h hi hp hn := control_stage h hi hp hn
  illegal _ := control_illegal
  soft s _ := control_soft s
  mode _ _ h _ := { h with }
  env _ _ _ _ _ _ _ h := { h with }

/-- Settles O56: each action of a step keeps the control state. -/
theorem everyStepKeepsControlInv : Obligations.EveryStepKeepsControlInv :=
  fun _ _ => controlInv_kept.step

theorem storeInv_kept : KeptByActions StoreInv where
  move _ _ := stores_move
  entry _ d k ks h _ _ _ := stores_entry h d k ks
  stage _ _ h _ _ _ := h.goTo
  illegal _ h _ := h.goTo
  soft _ := stores_soft
  mode _ _ h hm := { h with modeLegal := hm }
  env _ _ _ _ _ _ _ h := { h with }

/-- Settles O57: each action of a step keeps the stores in order. -/
theorem everyStepKeepsStoreInv : Obligations.EveryStepKeepsStoreInv :=
  fun _ _ => storeInv_kept.step

/-- The invariant is kept as a whole: that a move keeps the tree rests on the control state, and a stage command finds
the block parked, with READ_TAG, an entry command, left out. -/
theorem inv_kept : KeptByActions Inv where
  move _ _ := Inv.move
  entry s d k ks h hi hk hks :=
    ⟨control_entry h.control hi d hk hks, stores_entry h.stores d k ks, trees_entry s d k ks⟩
  stage s k h hi hp hn := by
    have hparked := (h.control.parked hi).1
    have hk : k ≠ .readTag := fun hk => hn (congrArg stageBefore hk)
    exact ⟨control_stage h.control hi hp hn, storeInv_kept.stage s k h.stores hi hp hn, trees_stage h.trees hparked hk⟩
  illegal s h hi := ⟨control_illegal h.control hi, storeInv_kept.illegal s h.stores hi, .abort _ _⟩
  soft s h := ⟨control_soft s, stores_soft h.stores, trees_soft s⟩
  mode s m h hm := ⟨{ h.control with }, { h.stores with modeLegal := hm }, { h.trees with }⟩
  env _ _ _ _ _ _ _ h := ⟨{ h.control with }, { h.stores with }, { h.trees with }⟩

/-- Settles O58: each action of a step keeps the invariant. -/
theorem everyStepKeepsTheInvariant : Obligations.EveryStepKeepsTheInvariant :=
  fun _ _ => inv_kept.step

/-! ## No fault under the invariant -/

/-- Every move of a running stage makes progress, so no turn faults. -/
theorem Inv.takeTurn_ne_fault {s : State} (h : Inv s) (f : Fault) : takeTurn s ≠ .fault f := by
  rw [Ne, takeTurn_fault]
  refine turn_no_fault (P := Inv) (fun _ _ _ h => h.move) (fun s f hb h hf => ?_) h
  obtain ⟨t, ht⟩ := h.progress hb
  cases ht.symm.trans hf

/-- An entry command faults nowhere: it is dropped, or its first turn starts with the invariant. -/
theorem Inv.acceptEntry_ne_fault {s : State} (h : Inv s) (d : Direction) {k : Stage} {ks : List Stage}
    (hk : stageBefore k = .idle) (hks : ks = [] ∨ ks = stagesAfter k) (f : Fault) : acceptEntry d k ks s ≠ .fault f := by
  by_cases hi : s.phase = .idle
  · rw [acceptEntry_idle hi]
    exact (inv_kept.entry s d k ks h hi hk hks).takeTurn_ne_fault f
  · simp [acceptEntry_busy hi]

/-- A stage command faults nowhere: it is dropped or illegal, or its first turn starts with the invariant. -/
theorem Inv.acceptStage_ne_fault {s : State} (h : Inv s) {k : Stage} (hk : stageBefore k ≠ .idle) (f : Fault) :
    acceptStage (stageBefore k) k s ≠ .fault f := by
  by_cases hi : s.phase = .idle
  · by_cases hp : s.prog = stageBefore k
    · rw [acceptStage_legal hi hp]
      exact (inv_kept.stage s k h hi hp hk).takeTurn_ne_fault f
    · simp [acceptStage_illegal hi hp]
  · simp [acceptStage_busy hi]

theorem acceptReserved_ne_fault (s : State) (f : Fault) : acceptReserved s ≠ .fault f := by
  by_cases hi : s.phase = .idle
  · simp [acceptReserved_idle hi]
  · simp [acceptReserved_busy hi]

/-- No command faults. -/
theorem Inv.exec_ne_fault {s : State} (h : Inv s) (i : Instr) (f : Fault) : exec i s ≠ .fault f := by
  cases i with
  | nop => exact nofun
  | softReset => exact nofun
  | compress => exact h.acceptEntry_ne_fault _ rfl (.inr rfl) f
  | count => exact h.acceptEntry_ne_fault _ rfl (.inl rfl) f
  | build => exact h.acceptStage_ne_fault (k := .build) (by decide) f
  | gencodes => exact h.acceptStage_ne_fault (k := .gencodes) (by decide) f
  | writeTag => exact h.acceptStage_ne_fault (k := .writeTag) (by decide) f
  | writeHeader => exact h.acceptStage_ne_fault (k := .writeHeader) (by decide) f
  | encode => exact h.acceptStage_ne_fault (k := .encode) (by decide) f
  | decompress => exact h.acceptEntry_ne_fault _ rfl (.inr rfl) f
  | readTag => exact h.acceptEntry_ne_fault _ rfl (.inl rfl) f
  | readHeader => exact h.acceptStage_ne_fault (k := .readHeader) (by decide) f
  | decode => exact h.acceptStage_ne_fault (k := .decode) (by decide) f

theorem Inv.writeCmd_ne_fault {s : State} (h : Inv s) (w : Word) (f : Fault) : writeCmd w s ≠ .fault f := by
  unfold writeCmd
  split
  · exact h.exec_ne_fault _ f
  · exact acceptReserved_ne_fault s f

/-- Of the register writes only one to CMD runs anything. -/
theorem Inv.regWrite_ne_fault {s : State} (h : Inv s) (addr width : Nat) (v : Word) (f : Fault) :
    regWrite addr width v s ≠ .fault f := by
  unfold regWrite
  split
  · split
    · exact h.writeCmd_ne_fault v f
    · split <;> exact nofun
  · exact nofun

theorem Inv.pollStatus_ne_fault {s : State} (h : Inv s) (f : Fault) : pollStatus s ≠ .fault f := by
  unfold pollStatus
  split
  · exact (inv_kept.env s s.byteSrc s.ovr s.bitSrc s.status s.pace (.poll :: s.host) h).takeTurn_ne_fault f
  · exact nofun

theorem regRead_ne_fault (s : State) (addr width : Nat) (f : Fault) : regRead addr width s ≠ .fault f := by
  unfold regRead
  split <;> exact nofun

theorem setBytes_ne_fault (s : State) (s1 s2 : List Byte) (f : Fault) : setBytes s1 s2 s ≠ .fault f := by
  unfold setBytes
  split <;> exact nofun

theorem setBits_ne_fault (s : State) (b : List Bool) (f : Fault) : setBits b s ≠ .fault f := by
  unfold setBits
  split <;> exact nofun

/-- Of the script entries only a CMD write, a poll and a turn run the block. -/
theorem Inv.runHostOp_ne_fault {s : State} (h : Inv s) (op : HostOp) (f : Fault) : runHostOp op s ≠ .fault f := by
  cases op with
  | write addr width v => exact h.regWrite_ne_fault addr width v f
  | read addr width => exact regRead_ne_fault s addr width f
  | poll => exact h.pollStatus_ne_fault f
  | hwReset => exact nofun
  | setBytes s1 s2 => exact setBytes_ne_fault s s1 s2 f
  | setBits b => exact setBits_ne_fault s b f
  | turn => exact h.takeTurn_ne_fault f
  | setPace n => exact nofun

/-- Settles O60: a step is a turn or a script entry, and neither faults. -/
theorem noFaultUnderTheInvariant : Obligations.NoFaultUnderTheInvariant := by
  intro s f h
  unfold step advance
  split
  · exact h.takeTurn_ne_fault f
  · next op rest _ =>
    exact (inv_kept.env s s.byteSrc s.ovr s.bitSrc s.rdata s.pace rest h).runHostOp_ne_fault op f

end Sys2Proof.Machine
end

section
/-! PROOF. The fields of STATUS (10_state.md R24). -/

namespace Sys2Proof.Machine

/-- HMODE as a bit is set for the counts header. -/
theorem HdrFormat.bit_eq_beq_counts (m : HdrFormat) : m.bit = (m == .counts) := by
  cases m <;> rfl

/-- The fields of STATUS of more than one bit, found by dropping the parts that lie to the right. The width of the word
is written as the sum of the widths of its parts, which is what the laws of appending speak of. -/
theorem status_fields (s : State) :
    s.status.extractLsb' 0 4 = s.phase.code ∧ s.status.extractLsb' 4 4 = s.prog.code ∧
      s.status.extractLsb' 12 4 = s.errcode.code ∧ s.status.extractLsb' 17 4 = s.ephase.code ∧
      s.status.extractLsb' 21 11 = 0#11 := by
  unfold State.status
  refine ⟨BitVec.extractLsb'_append_eq_right, ?_, ?_, ?_, ?_⟩
  all_goals change BitVec.extractLsb' (n := 11 + 4 + 1 + 4 + 1 + 1 + 1 + 1 + 4 + 4) _ _ _ = _
  · rw [BitVec.extractLsb'_append_eq_of_le (by decide)]
    exact BitVec.extractLsb'_append_eq_right
  · iterate 6 rw [BitVec.extractLsb'_append_eq_of_le (by decide)]
    exact BitVec.extractLsb'_append_eq_right
  · iterate 8 rw [BitVec.extractLsb'_append_eq_of_le (by decide)]
    exact BitVec.extractLsb'_append_eq_right
  · iterate 8 rw [BitVec.extractLsb'_append_eq_of_le (by decide)]
    exact BitVec.extractLsb'_append_eq_left

/-- The bits of STATUS that are fields of their own. -/
theorem status_flags (s : State) :
    s.status.getLsbD 8 = (s.phase != .idle) ∧ s.status.getLsbD 9 = s.done ∧
      s.status.getLsbD 10 = (s.errcode != .none) ∧ s.status.getLsbD 11 = s.ovr ∧
      s.status.getLsbD 16 = (s.hmode == .counts) := by
  unfold State.status
  refine ⟨?_, ?_, ?_, ?_, ?_⟩
  all_goals
    change BitVec.getLsbD (w := 11 + 4 + 1 + 4 + 1 + 1 + 1 + 1 + 4 + 4) _ _ = _
    simp only [BitVec.getLsbD_append]
    simp [State.busy, State.err, HdrFormat.bit_eq_beq_counts]

/-- Settles O15: the fields of STATUS are the parts of the appended word, and the codes are those of the tables. -/
theorem statusLayout : Obligations.StatusLayout := by
  refine ⟨fun s => ?_, rfl, rfl⟩
  obtain ⟨hphase, hprog, herrcode, hephase, hreserved⟩ := status_fields s
  obtain ⟨hbusy, hdone, herr, hovr, hhmode⟩ := status_flags s
  exact ⟨hphase, hprog, hbusy, hdone, herr, hovr, herrcode, hhmode, hephase, hreserved⟩

end Sys2Proof.Machine
end

section
/-! PROOF. The host register space: which accesses are refused, what a read answers, and what changes no answer
(20_memory.md R62 to R65). -/

namespace Sys2Proof.Machine

/-! ## Accesses (R62) -/

theorem accessWf_iff {addr width : Nat} :
    accessWf addr width = true ↔ width = 4 ∧ addr % 4 = 0 ∧ addr < 0x1000 := by
  simp [accessWf, and_assoc]

/-- With an entry in the script, a step is that entry. -/
theorem step_entry {s : State} {op : HostOp} {rest : List HostOp} (h : s.host = op :: rest) :
    step s = runHostOp op { s with host := rest } := by
  simp only [step, advance, h]

/-- With no entry in the script, a step is a turn. -/
theorem step_noEntry {s : State} (h : s.host = []) : step s = takeTurn s := by
  simp only [step, advance, h]

/-- A read answers the register and changes only the value the host has read (R65). -/
theorem step_read {s : State} {addr : Nat} {rest : List HostOp} (h : s.host = .read addr 4 :: rest)
    (ha : addr % 4 = 0) (hlt : addr < 0x1000) :
    step s = .next { s with host := rest, rdata := regValue addr s } :=
  (step_entry h).trans (if_pos (accessWf_iff.2 ⟨rfl, ha, hlt⟩))

/-- A write to a register other than CMD and MODE is ignored or refused (R62, R65). -/
theorem regWrite_ignored {addr : Nat} (hc : addr ≠ 0x000) (hm : addr ≠ 0x008) (width : Nat) (v : Word) (s : State) :
    regWrite addr width v s = if accessWf addr width then .next s else .refused .badAccess := by
  rw [regWrite, if_neg hc, if_neg hm]

theorem step_write_ignored {s : State} {addr : Nat} {v : Word} {rest : List HostOp}
    (h : s.host = .write addr 4 v :: rest) (ha : addr % 4 = 0) (hlt : addr < 0x1000) (hc : addr ≠ 0x000)
    (hm : addr ≠ 0x008) : step s = .next { s with host := rest } := by
  rw [step_entry h, runHostOp, regWrite_ignored hc hm, if_pos (accessWf_iff.2 ⟨rfl, ha, hlt⟩)]

/-! ## What is refused (R62) -/

theorem takeTurn_ne_refused (s : State) (r : Refusal) : takeTurn s ≠ .refused r :=
  outcome_not_refused

theorem acceptEntry_ne_refused (d : Direction) (k : Stage) (ks : List Stage) (s : State) (r : Refusal) :
    acceptEntry d k ks s ≠ .refused r := by
  by_cases hi : s.phase = .idle
  · rw [acceptEntry_idle hi]
    exact takeTurn_ne_refused _ r
  · simp [acceptEntry_busy hi]

theorem acceptStage_ne_refused (need k : Stage) (s : State) (r : Refusal) : acceptStage need k s ≠ .refused r := by
  by_cases hi : s.phase = .idle
  · by_cases hp : s.prog = need
    · rw [acceptStage_legal hi hp]
      exact takeTurn_ne_refused _ r
    · simp [acceptStage_illegal hi hp]
  · simp [acceptStage_busy hi]

theorem acceptReserved_ne_refused (s : State) (r : Refusal) : acceptReserved s ≠ .refused r := by
  by_cases hi : s.phase = .idle
  · simp [acceptReserved_idle hi]
  · simp [acceptReserved_busy hi]

/-- Every command has a meaning in every state. -/
theorem exec_ne_refused (i : Instr) (s : State) (r : Refusal) : exec i s ≠ .refused r := by
  cases ha : acceptanceOf i with
  | control =>
    cases i with
    | nop => exact nofun
    | softReset => exact nofun
    | _ => cases ha
  | entry d k ks => exact exec_entry ha s ▸ acceptEntry_ne_refused d k ks s r
  | stage need k => exact exec_stage ha s ▸ acceptStage_ne_refused need k s r

theorem writeCmd_ne_refused (w : Word) (s : State) (r : Refusal) : writeCmd w s ≠ .refused r := by
  unfold writeCmd
  split
  · exact exec_ne_refused _ s r
  · exact acceptReserved_ne_refused s r

/-- A write is refused for its form alone. -/
theorem regWrite_refused_iff (addr width : Nat) (v : Word) (s : State) :
    regWrite addr width v s = .refused .badAccess ↔ ¬ accessWf addr width = true := by
  by_cases hw : accessWf addr width = true
  · rw [regWrite, if_pos hw]
    refine iff_of_false ?_ (not_not_intro hw)
    split
    · exact writeCmd_ne_refused v s _
    · split <;> exact nofun
  · exact iff_of_true (if_neg hw) hw

theorem regRead_refused_iff (addr width : Nat) (s : State) :
    regRead addr width s = .refused .badAccess ↔ ¬ accessWf addr width = true := by
  by_cases hw : accessWf addr width = true
  · rw [regRead, if_pos hw]
    exact iff_of_false nofun (not_not_intro hw)
  · exact iff_of_true (if_neg hw) hw

/-- Settles O19: an access is refused for its form alone, since no write runs into a refusal. -/
theorem otherAccessesAreRefused : Obligations.OtherAccessesAreRefused := by
  intro s addr width v rest
  rw [← accessWf_iff]
  refine ⟨fun h => ?_, fun h => ?_⟩
  · exact step_entry h ▸ regWrite_refused_iff addr width v _
  · exact step_entry h ▸ regRead_refused_iff addr width _

/-! ## The FREQ window (R64) -/

theorem freqRead_idle {s : State} (hi : s.phase = .idle) (b : Byte) : freqRead b s = freqAt s.freq b :=
  if_neg (by simp [State.busy, hi])

/-- The window holds one word for each byte value, in their order. -/
theorem freqWindow_entry (b : Byte) : freqWindow (0x400 + 4 * b.toNat) = b := by
  have hindex : (0x400 + 4 * b.toNat - 0x400) / 4 = b.toNat := by omega
  rw [freqWindow, hindex, freqIndex_toNat]

theorem regValue_freqEntry (b : Byte) (s : State) : regValue (0x400 + 4 * b.toNat) s = freqRead b s := by
  have hb := b.isLt
  simp only [regValue, freqWindow_entry]
  iterate 5 rw [if_neg (by omega)]
  exact if_pos (by omega)

/-- A host read of a FREQ entry. -/
theorem step_rdfreq {s : State} {b : Byte} {rest : List HostOp} (h : s.host = HostOp.rdfreq b :: rest) :
    step s = .next { s with host := rest, rdata := freqRead b s } := by
  have hb := b.isLt
  rw [step_read h (by omega) (by omega), regValue_freqEntry]

/-- Settles O18: an entry of the window reads as FREQ while idle, as a free value while BUSY, and takes no write. -/
theorem freqWindowHolds : Obligations.FreqWindow := by
  intro s b rest
  have hb := b.isLt
  refine ⟨fun h hi => ?_, fun h _ => ⟨_, step_rdfreq h⟩, fun v h => ?_⟩
  · rw [step_rdfreq h, freqRead_idle hi]
  · exact step_write_ignored h (by omega) (by omega) (by omega) (by omega)

/-! ## The values of the registers (R63) -/

/-- MODE reads as HDR_MODE, which is 0 where the counts header is not implemented (10_state.md R26). -/
theorem modeWord_eq (s : State) :
    s.modeWord = if s.cfg.hasCounts = true ∧ s.mode = .counts then 1#32 else 0#32 := by
  unfold State.modeWord State.hdrMode
  cases hc : s.cfg.hasCounts with
  | false => simp [HdrFormat.bit]
  | true =>
    cases hm : s.mode with
    | tree => rfl
    | counts => rfl

/-- PARAM's two fields lie apart, W_CNT being at most 32, so the word is their sum (10_state.md R28). -/
theorem paramWord_eq (s : State) : s.paramWord = BitVec.ofNat 32 (s.cfg.wCnt + 256 * s.cfg.hasCounts.toNat) := by
  have hfields : ∀ b : Bool, ∀ n ≤ 32,
      (0#23 ++ BitVec.ofBool b ++ 0#2 ++ BitVec.ofNat 6 n : BitVec 32) = BitVec.ofNat 32 (n + 256 * b.toNat) := by
    decide
  exact hfields s.cfg.hasCounts s.cfg.wCnt s.cfg.wCnt_le

/-- Settles O16: the words of MODE and PARAM by their fields, and the FREQ window of an idle block; STATUS while BUSY by
its fields. -/
theorem registerReadValues : Obligations.RegisterReadValues := by
  refine ⟨fun s addr rest hwhere h ha hlt => ?_, fun s rest hbusy h => ?_⟩
  · have hfreq : 0x400 ≤ addr ∧ addr < 0x800 → freqRead (freqWindow addr) s =
        freqAt s.freq (BitVec.ofNat 8 ((addr - 0x400) / 4)) := by
      intro hwindow
      exact freqRead_idle (hwhere.resolve_right (by omega)) _
    rw [step_read h ha hlt, regValue, modeWord_eq, paramWord_eq, if_ctx_congr Iff.rfl hfreq (fun _ => rfl)]
  · obtain ⟨hphase, -⟩ := status_fields s
    obtain ⟨hbit, -⟩ := status_flags s
    exact ⟨s.status, step_read h rfl (by decide), by simp [hbit, hbusy], hphase⟩

/-! ## What changes no answer (R65) -/

/-- The registers that answer 0: CMD and the reserved addresses (R63). -/
theorem regValue_zero {addr : Nat} (h : addr = 0x000 ∨ (0x018 ≤ addr ∧ addr < 0x400) ∨ 0x800 ≤ addr) (s : State) :
    regValue addr s = 0#32 := by
  unfold regValue
  iterate 6 rw [if_neg (by omega)]

/-- What the environment alone can do to a state: another pace, script and value read last, and, while the block is
idle, other sequences in its sources (70_reset_and_hazards.md R333). -/
inductive EnvChange (s : State) : State → Prop
  | env (p : Nat) (h : List HostOp) (r : Word) : EnvChange s (withEnv p h r s)
  | bytes (src : ByteSource) (h : List HostOp) (hi : s.phase = .idle) : EnvChange s { s with host := h, byteSrc := src }
  | bits (src : BitSource) (h : List HostOp) (hi : s.phase = .idle) : EnvChange s { s with host := h, bitSrc := src }

theorem EnvChange.settled {s t : State} (h : EnvChange s t) (hs : Settled s) : Settled t := by
  cases h with
  | env p h r => exact hs.withEnv p h r
  | bytes src h hi => exact .inl hi
  | bits src h hi => exact .inl hi

/-- No register shows the environment. -/
theorem EnvChange.regValue_eq {s t : State} (h : EnvChange s t) (addr : Nat) : regValue addr t = regValue addr s := by
  cases h <;> rfl

/-- A turn without a transfer, in whatever environment. -/
theorem takeTurn_envChange {s t : State} {p : Nat} {h : List HostOp} {r : Word} (hs : Settled s)
    (ht : takeTurn (withEnv p h r s) = .next t) (he : t.events = s.events) : EnvChange s t :=
  takeTurn_same (hs.withEnv p h r) ht he ▸ .env p h r

theorem pollStatus_envChange {s t : State} {rest : List HostOp} (hs : Settled s)
    (ht : pollStatus { s with host := rest } = .next t) (he : t.events = s.events) : EnvChange s t := by
  unfold pollStatus at ht
  split at ht
  · exact takeTurn_envChange (p := s.pace) (h := .poll :: rest) (r := s.status) hs ht he
  · cases ht
    exact .env s.pace rest s.status

theorem regRead_envChange {s t : State} {addr width : Nat} {rest : List HostOp}
    (ht : regRead addr width { s with host := rest } = .next t) : EnvChange s t := by
  unfold regRead at ht
  split at ht
  · cases ht
    exact .env s.pace rest (regValue addr s)
  · cases ht

theorem regWrite_envChange {s t : State} {addr width : Nat} {v : Word} {rest : List HostOp} (hc : addr ≠ 0x000)
    (hm : addr ≠ 0x008) (ht : regWrite addr width v { s with host := rest } = .next t) : EnvChange s t := by
  rw [regWrite_ignored hc hm] at ht
  split at ht
  · cases ht
    exact .env s.pace rest s.rdata
  · cases ht

theorem setBytes_envChange {s t : State} {s1 s2 : List Byte} {rest : List HostOp}
    (ht : setBytes s1 s2 { s with host := rest } = .next t) : EnvChange s t := by
  unfold setBytes at ht
  split at ht
  · cases ht
  · next hb =>
    cases ht
    exact .bytes _ rest ((not_busy_iff s).1 (Bool.not_eq_true _ ▸ hb))

theorem setBits_envChange {s t : State} {b : List Bool} {rest : List HostOp}
    (ht : setBits b { s with host := rest } = .next t) : EnvChange s t := by
  unfold setBits at ht
  split at ht
  · cases ht
  · next hb =>
    cases ht
    exact .bits _ rest ((not_busy_iff s).1 (Bool.not_eq_true _ ▸ hb))

/-- A script entry that makes no transfer and is no reset and no write to CMD or MODE touches the environment alone. -/
theorem runHostOp_envChange {s t : State} {op : HostOp} {rest : List HostOp} (hs : Settled s)
    (ht : runHostOp op { s with host := rest } = .next t) (he : t.events = s.events) (hreset : op ≠ .hwReset)
    (hwrite : ∀ addr width v, op = .write addr width v → addr ≠ 0x000 ∧ addr ≠ 0x008) : EnvChange s t := by
  cases op with
  | write addr width v =>
    obtain ⟨hc, hm⟩ := hwrite addr width v rfl
    exact regWrite_envChange hc hm ht
  | read addr width => exact regRead_envChange ht
  | poll => exact pollStatus_envChange hs ht he
  | hwReset => exact absurd rfl hreset
  | setBytes s1 s2 => exact setBytes_envChange ht
  | setBits b => exact setBits_envChange ht
  | turn => exact takeTurn_envChange (p := s.pace) (h := rest) (r := s.rdata) hs ht he
  | setPace n =>
    cases ht
    exact .env n rest s.rdata

/-- So does such a step, which is a script entry or, with none left, a turn. -/
theorem step_envChange {s t : State} (hs : Settled s) (ht : step s = .next t) (he : t.events = s.events)
    (hreset : ∀ rest, s.host ≠ .hwReset :: rest)
    (hwrite : ∀ addr width v rest, s.host = .write addr width v :: rest → addr ≠ 0x000 ∧ addr ≠ 0x008) :
    EnvChange s t := by
  cases hh : s.host with
  | nil =>
    rw [step_noEntry hh] at ht
    exact takeTurn_envChange (p := s.pace) (h := s.host) (r := s.rdata) hs ht he
  | cons op rest =>
    rw [step_entry hh] at ht
    refine runHostOp_envChange hs ht he ?_ ?_
    · rintro rfl
      exact hreset rest hh
    · rintro addr width v rfl
      exact hwrite addr width v rest hh

/-- Settles O17: the rules for writes and reads, and that a step without a transfer, a write to CMD or MODE and a reset
touches the environment alone, which no register shows. -/
theorem registerAccessSideEffects : Obligations.RegisterAccessSideEffects := by
  refine ⟨fun s addr v rest h ha hlt hc hm => step_write_ignored h ha hlt hc hm,
    fun s addr rest h ha hlt => ⟨step_read h ha hlt, fun hzero => regValue_zero hzero s⟩,
    fun s t hs ht he hreset hwrite => ?_⟩
  have henv := step_envChange hs ht he hreset hwrite
  exact ⟨henv.settled hs, henv.regValue_eq⟩

end Sys2Proof.Machine
end

section
/-! PROOF. The command words: a word decodes to a command exactly when it is that command's word (30_encoding.md R90 to
R95). -/

namespace Sys2Proof.Machine

/-- Each row of the opcode map selects its command on its own operation code alone (30_encoding.md R93). -/
theorem commandOfOp_eq_some_iff {op : BitVec 8} {i : Instr} : commandOfOp op = some i ↔ op = opOf i := by
  constructor
  · intro h
    unfold commandOfOp at h
    iterate 13
      obtain ⟨rfl, ⟨⟩⟩ | ⟨-, h⟩ := ite_eq_iff.1 h
      · rfl
    cases h
  · rintro rfl
    cases i <;> rfl

theorem decodeWord_eq_ok_iff_fields {w : Word} {i : Instr} :
    decodeWord w = .ok i ↔ opField w = opOf i ∧ mbzField w = 0#24 := by
  rw [← commandOfOp_eq_some_iff]
  unfold decodeWord
  cases commandOfOp (opField w) with
  | none => simp
  | some j => by_cases hz : mbzField w = 0#24 <;> simp [hz]

theorem decodeWord_unassignedOp {w : Word} (h : commandOfOp (opField w) = none) :
    decodeWord w = .error .unassignedOp := by
  rw [decodeWord, h]

theorem decodeWord_mbzNotZero {w : Word} {i : Instr} (hop : opField w = opOf i) (hmbz : mbzField w ≠ 0#24) :
    decodeWord w = .error .mbzNotZero := by
  rw [decodeWord, commandOfOp_eq_some_iff.2 hop]
  exact if_neg hmbz

theorem mbzField_append_opField (w : Word) : mbzField w ++ opField w = w :=
  (BitVec.extractLsb'_append_extractLsb'_eq_extractLsb' rfl).trans BitVec.extractLsb'_eq_self

/-- A word is made of its two fields, so it is a command's word when they are the operation code and zeros. -/
theorem eq_encodeWord_iff_fields {w : Word} {i : Instr} :
    w = encodeWord i ↔ opField w = opOf i ∧ mbzField w = 0#24 := by
  constructor
  · rintro rfl
    exact ⟨BitVec.extractLsb'_append_eq_right, BitVec.extractLsb'_append_eq_left⟩
  · rintro ⟨hop, hmbz⟩
    rw [← mbzField_append_opField w, hop, hmbz, encodeWord]

theorem encodeWord_eq_setWidth (i : Instr) : encodeWord i = (opOf i).setWidth 32 :=
  (BitVec.setWidth_eq_append (by decide)).symm

theorem decodeWord_eq_ok_iff {w : Word} {i : Instr} : decodeWord w = .ok i ↔ w = encodeWord i :=
  decodeWord_eq_ok_iff_fields.trans eq_encodeWord_iff_fields.symm

/-- Settles O2: decoding to a command and being its word both say that OP is its operation code and MBZ is zero. -/
theorem decodeAcceptsExactlyTheCommandWords : Obligations.DecodeAcceptsExactlyTheCommandWords :=
  ⟨encodeWord_eq_setWidth, fun _ _ => decodeWord_eq_ok_iff⟩

/-- Settles O1: seven of the words are words of commands; two have an operation code of no row, and one has the code of
COMPRESS under an MBZ that is not zero. -/
theorem sampleCommandWordsDecode : Obligations.SampleCommandWordsDecode :=
  ⟨decodeWord_eq_ok_iff.2 rfl, decodeWord_eq_ok_iff.2 rfl, decodeWord_eq_ok_iff.2 rfl, decodeWord_eq_ok_iff.2 rfl,
    decodeWord_eq_ok_iff.2 rfl, decodeWord_eq_ok_iff.2 rfl, decodeWord_eq_ok_iff.2 rfl,
    decodeWord_unassignedOp rfl, decodeWord_unassignedOp rfl, decodeWord_mbzNotZero (i := .compress) rfl (by decide)⟩

end Sys2Proof.Machine
end

section
/-! PROOF. The length of a tree header (30_encoding.md R98). -/

namespace Sys2Proof.Machine

/-- A leaf takes 10 bits of the header and an internal node one. A node adds its own bit to the headers of its children,
each one short of 11 bits a leaf. -/
theorem HTree.header_length (T : HTree) : T.header.length + 1 = 11 * T.leaves.length := by
  induction T with
  | leaf c => simp [HTree.header, HTree.leaves]
  | node l r ihl ihr =>
    simp only [HTree.header, HTree.leaves, List.length_cons, List.length_append]
    omega

/-- Settles O4: from the number of nodes and the length of the header, both counted in leaves. -/
theorem treeHeaderLength : Obligations.TreeHeaderLength := by
  intro T
  have hsize := T.size_leaves
  have hheader := T.header_length
  refine ⟨?_, ?_, fun hmin hmax => ⟨?_, ?_⟩⟩ <;> omega

end Sys2Proof.Machine
end

section
/-! PROOF. COUNT of a source (41_frequency_accumulator.md R120, R121, R124): it completes when every counter can hold
its count, and aborts at the first byte a full counter cannot count. -/

namespace Sys2Proof.Machine

/-! ## The whole of the stage, when a counter is full -/

/-- Stage 1 counts the bytes before the one whose counter is full, reads that one, and raises COUNT_OVERFLOW. -/
theorem stage_count_overflow {pre post : List Byte} {b : Byte} {s : State} (hs : s.phase = .count)
    (hp : s.point = .start) (hr : bytesToCome s = pre ++ b :: post)
    (hf : ∀ c, (freqAt s.freq c).toNat + pre.count c ≤ maxCount s.cfg)
    (hfull : (freqAt s.freq b).toNat + pre.count b = maxCount s.cfg) :
    runMoves (pre.length + 2) s = .ok (raiseError .countOverflow { s with
      events := s.events + (pre.length + 1), byteSrc := s.byteSrc.skip (pre.length + 1)
      freq := countInto s.freq pre }) := by
  have hb : s.phase ≠ .idle := by rw [hs]; decide
  have hpre := run_countBytes pre (s := { s with point := .countByte }) hb rfl hr hf
  have hlast := (Moved.countFull (s := { s with
      point := .countByte, events := s.events + pre.length, byteSrc := s.byteSrc.skip pre.length
      freq := countInto s.freq pre }) b post rfl (bytesToCome_skip hr rfl)
    ((freqAt_countInto_toNat (hf b)).trans hfull)).eq
  refine run_start hb hp (by simp only [stageStart, hs, countStart]) (runMoves_then hpre ?_)
  refine (runMoves_one ?_).trans hlast
  exact hb

/-! ## The command -/

/-- The block when it has accepted COUNT and stands before the stage's first statement (48_control.md R260, R261). -/
def countAccepted (s : State) : State :=
  { callInit .compression { s with done := false } with phase := .count, point := .start, todo := [] }

theorem exec_count_idle {s : State} (hi : s.phase = .idle) : exec .count s = takeTurn (countAccepted s) :=
  (exec_entry rfl s).trans (acceptEntry_idle hi)

/-- COUNT ends in one turn as the stage does, when the pace allows the stage's transfers, `n + 1` of them. A turn has
room for more moves than that. -/
theorem exec_count_of_run {s t : State} {n : Nat} (hi : s.phase = .idle) (hpace : n + 1 ≤ s.pace)
    (h : runMoves (n + 3) (countAccepted s) = .ok t) (ht : t.phase = .idle)
    (he : t.events = (countAccepted s).events + (n + 1)) : exec .count s = .next t := by
  rw [exec_count_idle hi]
  have hpace' : n + 1 ≤ (countAccepted s).pace := hpace
  refine takeTurn_of_run h ht (by omega) ?_
  rw [quietMoves]
  omega

/-- A call begins with FREQ all zero, so every counter can hold a count that W_CNT bits can. -/
theorem count_fits {c : Config} {bs : List Byte} (h : ∀ b, bs.count b < 2 ^ c.wCnt) (b : Byte) :
    (freqAt [] b).toNat + bs.count b ≤ maxCount c :=
  (Nat.zero_add _).trans_le (Nat.le_sub_one_of_lt (h b))

/-- FREQ after COUNT holds the numbers of occurrences. -/
theorem freqAt_countInto_nil {c : Config} {bs : List Byte} (h : ∀ b, bs.count b < 2 ^ c.wCnt) (b : Byte) :
    (freqAt (countInto [] bs) b).toNat = bs.count b :=
  (freqAt_countInto_toNat (count_fits h b)).trans (Nat.zero_add _)

/-- Settles O22: the stage counts all bytes to its last statement, which completes the command. -/
theorem countCompletes : Obligations.CountCompletes := by
  intro s bs hi hbytes hcounts hpace
  refine ⟨countInto [] bs, freqAt_countInto_nil hcounts, exec_count_of_run hi hpace ?_ rfl rfl⟩
  have hstage := stage_count (s := countAccepted s) rfl rfl hbytes (count_fits hcounts)
  exact runMoves_then (n := 1) hstage (run_fin nofun rfl)

/-- Settles O23: the stage counts the bytes before the overflowing one and aborts there. -/
theorem countOverflowAborts : Obligations.CountOverflowAborts := by
  intro s pre post b hi hbytes hcounts hfull hpace
  refine ⟨countInto [] pre, freqAt_countInto_nil hcounts, exec_count_of_run hi hpace ?_ rfl rfl⟩
  have hstage := stage_count_overflow (s := countAccepted s) rfl rfl hbytes (count_fits hcounts)
    ((Nat.zero_add _).trans hfull)
  exact runMoves_le hstage rfl (Nat.le_succ _)

end Sys2Proof.Machine
end

section
/-! PROOF. BUILD makes the tree of FREQ (42_tree_builder.md R141 to R150). -/

namespace Sys2Proof.Machine

/-! ## ExtractMin and one merge (R146, R147) -/

/-- A key that is not less than another is at least as great in the order of (weight, index). -/
theorem keyLess_eq_false_iff {a b : Nat × Idx} : keyLess b a = false ↔ a.1 < b.1 ∨ (a.1 = b.1 ∧ a.2 ≤ b.2) := by
  simp only [keyLess, Bool.or_eq_false_iff, Bool.and_eq_false_iff, decide_eq_false_iff_not, beq_eq_false_iff_ne,
    BitVec.lt_def, BitVec.le_def]
  omega

/-- What ExtractMin takes is an element whose node comes first in the order of (weight, index). -/
theorem extractMin_least {t : Cells Node} {q r : List Idx} {i : Idx} {nd : Node} (h : extractMin t q = .ok (i, r))
    (hi : nodeAt t i = some nd) :
    ∀ j ∈ q, ∃ nj, nodeAt t j = some nj ∧ (nd.wt < nj.wt ∨ (nd.wt = nj.wt ∧ i ≤ j)) := by
  obtain ⟨-, -, ki, hki, hleast⟩ := extractMin_ok h
  obtain ⟨ni, hni, rfl⟩ := keyOf_some hki
  cases hi.symm.trans hni
  intro j hj
  obtain ⟨kj, hkj, hle⟩ := hleast j hj
  obtain ⟨nj, hnj, rfl⟩ := keyOf_some hkj
  exact ⟨nj, hnj, keyLess_eq_false_iff.1 hle⟩

/-- With two nodes or more in PQ the loop goes on. -/
theorem buildMergeMove_of_two {s : State} (n : Idx) (h : 2 ≤ s.pq.length) : buildMergeMove n s = mergeMove n s := by
  unfold buildMergeMove
  split
  · next hq => simp [hq] at h
  · next hq => simp [hq] at h
  · rfl

/-- Settles O27: a merge makes two ExtractMins, each of which takes a node with the least key. -/
theorem mergeTakesTheTwoLeastNodes : Obligations.MergeTakesTheTwoLeastNodes := by
  intro s n hp hF hq
  obtain ⟨a, b, na, nb, q, ha, hb, -, hna, hnb, -, -, -, hm, -⟩ := mergeMove_forest hF hq
  obtain ⟨haq, -, -⟩ := extractMin_ok ha
  obtain ⟨hbq, rfl, -⟩ := extractMin_ok hb
  refine ⟨a, b, na, nb, addWt s.cfg na.wt nb.wt, haq, hbq, hna, hnb, extractMin_least ha hna,
    extractMin_least hb hnb, Nat.mod_eq_of_lt, ?_⟩
  rw [blockMove_buildMerge hp, buildMergeMove_of_two _ hq, hm]

/-! ## The command -/

/-- The block when it has accepted BUILD and stands before the stage's first statement (48_control.md R260, R261). -/
def buildAccepted (s : State) : State := { s with done := false, phase := .build, point := .start, todo := [] }

/-- `s` with what BuildTree leaves: the arena, ROOT, NNODES and an empty PQ (R148). -/
def withTree (s : State) (t : Cells Node) (r n : Idx) : State :=
  { s with node := t, root := some r, nnodes := n, pq := [] }

/-- BUILD completes in one turn when its stage comes to its last statement, since it makes no transfer. -/
theorem exec_build_of_run {s : State} {t : Cells Node} {r n : Idx} {m : Nat} (hi : s.phase = .idle)
    (hp : s.prog = .count) (hm : m < quietMoves)
    (h : runMoves m (buildAccepted s) = .ok { withTree (buildAccepted s) t r n with point := .fin }) :
    exec .build s = .next (completedIn .build 0 (withTree s t r n)) := by
  rw [exec_stage rfl]
  exact stage_next hi hp rfl (run_finish h nofun rfl) (Nat.le_add_right _ _) (hm.trans_le (quietMoves_le _))

/-- `s` with the arena `t` that BUILD leaves: 2 L - 1 nodes, the last of them the root (R147). -/
def built (s : State) (t : Cells Node) : State :=
  withTree s t (BitVec.ofNat 10 (2 * leafCount s.freq - 2)) (BitVec.ofNat 10 (2 * leafCount s.freq - 1))

/-- BUILD after COUNT completes with what its stage leaves. -/
theorem exec_build_completes {s : State} (hi : s.phase = .idle) (hp : s.prog = .count) :
    ∃ t T, exec .build s = .next (completedIn .build 0 (built s t)) ∧ TreeAt (built s t) T ∧
      T.leaves.Perm ((leafList s.freq).map Prod.fst) ∧
      (∀ j c w, (leafList s.freq)[j]? = some (c, w) → nodeAt t (BitVec.ofNat 10 j) = some (.leaf c w)) ∧
      (∀ j, 2 * leafCount s.freq - 1 ≤ j → Cells.get t j = Cells.get s.node j) ∧
      MergedFrom s.cfg t (leafCount s.freq) (2 * leafCount s.freq - 1) := by
  obtain ⟨t, T, hrun, htree, hrest⟩ := stage_build (s := buildAccepted s) rfl rfl
  have hmoves : leafCount s.freq + 2 < quietMoves := by
    have := (leafCount_bounds s.freq).2
    rw [quietMoves]
    omega
  exact ⟨t, T, exec_build_of_run hi hp hmoves hrun, htree, hrest⟩

/-- Settles O24: the stage's leaves, merges and tree. -/
theorem buildCompletes : Obligations.BuildCompletes := by
  intro s hi hp
  obtain ⟨t, T, hexec, hT, hperm, hleaves, habove, hmerged⟩ := exec_build_completes hi hp
  refine ⟨t, T, hexec, hT, hperm, ?_, hleaves, fun j hlo hhi => ?_, habove⟩
  · rw [hperm.length_eq, List.length_map, leafList_length]
  · obtain ⟨a, b, na, nb, hnode, ha, hb, -, -⟩ := hmerged j hlo hhi
    exact ⟨_, a, b, hnode, ha, hb⟩

/-! ## Weights (R149) -/

/-- Settles O26: the weights of all leaves together are Σ FREQ + 1, which fits in W_WT bits, so no sum in the tree
is cut; the tree uses each index below NNODES. -/
theorem builtWeightsAreSums : Obligations.BuiltWeightsAreSums := by
  intro s u hi hp hfits hu _
  obtain ⟨t, T, hexec, ⟨r, is, hr, hholds, -, hnodup, hlen, hbelow⟩, hperm, hleaves, -, hmerged⟩ :=
    exec_build_completes hi hp
  cases hexec.symm.trans hu
  obtain ⟨hweighed, htotal⟩ := built_weighed hperm hleaves hmerged
  have hfit : T.weight s.freq < 2 ^ weightWidth s.cfg := htotal ▸ total_lt hfits
  have hnnodes : (BitVec.ofNat 10 (2 * leafCount s.freq - 1)).toNat = 2 * leafCount s.freq - 1 :=
    idx_toNat (by have := leafCount_bounds s.freq; omega)
  have hused : ∀ j ∈ is, Weighed s.cfg s.freq t j := fun j hj =>
    hweighed j ((BitVec.lt_def.1 (hbelow j hj)).trans_eq hnnodes)
  obtain ⟨nd, hnd, hwt⟩ := hholds.weight hused hfit
  exact ⟨fun i w a b hlt => hholds.sums hused hfit i (mem_of_full hnodup hlen hbelow hlt) w a b,
    r, nd, hr, hnd, hwt.trans htotal⟩

/-! ## The placeholder tree (R145) -/

/-- An all-zero FREQ has the EOS leaf, and so the placeholder leaf. -/
theorem leafList_of_zero {f : Cells Word} (h : ∀ b, freqAt f b = 0) : leafList f = [(eosSym, 1), (0, 0)] := by
  simp [leafList, nonzeroCount, h]

theorem leafCount_of_zero {f : Cells Word} (h : ∀ b, freqAt f b = 0) : leafCount f = 2 := by
  rw [← leafList_length, leafList_of_zero h]
  rfl

/-- The arena with the EOS leaf and the placeholder leaf. -/
def placeholderLeaves (t : Cells Node) : Cells Node := putLeaves [(eosSym, 1), (0, 0)] 0 t

theorem placeholderLeaves_eos (t : Cells Node) : nodeAt (placeholderLeaves t) 0 = some (.leaf eosSym 1) :=
  get_putLeaves (n := 0) (k := 0) [(eosSym, 1), (0, 0)] t rfl

theorem placeholderLeaves_zero (t : Cells Node) : nodeAt (placeholderLeaves t) 1 = some (.leaf 0 0) :=
  get_putLeaves (n := 0) (k := 1) [(eosSym, 1), (0, 0)] t rfl

/-- Of the two leaves the placeholder is extracted first: its key (0, 1) is less than the key (1, 0) of the EOS leaf. -/
theorem extractMin_placeholder (t : Cells Node) : extractMin (placeholderLeaves t) [0, 1] = .ok (1, [0]) := by
  rw [extractMin, leastKey, leastKey, keyOf, keyOf, placeholderLeaves_eos, placeholderLeaves_zero]
  rfl

theorem extractMin_eos (t : Cells Node) : extractMin (placeholderLeaves t) [0] = .ok (0, []) := by
  rw [extractMin, leastKey, keyOf, placeholderLeaves_eos]
  rfl

/-- The merge of the two leaves; their weights 0 and 1 add up to 1. -/
theorem mergeMove_placeholder {s : State} {t : Cells Node} (hn : s.node = placeholderLeaves t) (hq : s.pq = [0, 1]) :
    mergeMove 2 s =
      .ok { s with
        node := Cells.put (placeholderLeaves t) 2 (.internal 1 1 0), pq := [2], point := .buildMerge 3 } := by
  have hwt : addWt s.cfg 0 1 = 1 := Nat.mod_eq_of_lt (Nat.one_lt_two_pow (Nat.succ_ne_zero _))
  simp only [mergeMove, hn, hq, extractMin_placeholder, extractMin_eos, placeholderLeaves_zero, placeholderLeaves_eos]
  rw [putNode_of_lt _ _ (by decide), Node.wt, Node.wt, hwt, hn]
  rfl

/-- BUILD of an all-zero FREQ: its start, the two leaves, the one merge, and the end of the loop. -/
theorem run_placeholder {s : State} (h : ∀ b, freqAt s.freq b = 0) :
    runMoves 4 (buildAccepted s) =
      .ok { withTree (buildAccepted s) (Cells.put (placeholderLeaves s.node) 2 (.internal 1 1 0)) 2 3 with
        point := .fin } := by
  have hleaves : buildLeavesMove { buildAccepted s with point := .buildLeaves } = .ok { buildAccepted s with
      node := placeholderLeaves s.node, pq := [0, 1], point := .buildMerge 2 } := by
    rw [buildLeavesMove_eq]
    simp only [buildAccepted, leafList_of_zero h, leafCount_of_zero h]
    rfl
  refine run_start nofun rfl rfl (runMoves_step nofun ((blockMove_buildLeaves rfl).trans hleaves) ?_)
  refine runMoves_step nofun ((blockMove_buildMerge rfl).trans ((buildMergeMove_of_two _ le_rfl).trans
    (mergeMove_placeholder rfl rfl))) ?_
  exact runMoves_one nofun

/-- Settles O25: the arena of that run. -/
theorem buildOfNothingMakesThePlaceholderTree : Obligations.BuildOfNothingMakesThePlaceholderTree := by
  intro s hi hp h
  refine ⟨_, exec_build_of_run hi hp (by decide) (run_placeholder h), ?_, ?_, ?_⟩
  · exact (nodeAt_put_ne _ (i := 2) _ (by decide)).trans (placeholderLeaves_eos _)
  · exact (nodeAt_put_ne _ (i := 2) _ (by decide)).trans (placeholderLeaves_zero _)
  · exact nodeAt_put_same _ 2 _

end Sys2Proof.Machine
end

section
/-! PROOF. What BUILD and GENCODES leave unchanged (42_tree_builder.md R148, 43_code_table_gen.md R160). -/

namespace Sys2Proof.Machine

/-- A relation between a state and a later one that holds over the whole of a stage command: over a change of the
sequencing registers and flags alone, and over each move of the stage's body. -/
structure StageFrame (k : Stage) (R : State → State → Prop) : Prop where
  trans : ∀ a b c, R a b → R b c → R a c
  control : ∀ s phase prog done ovr errcode ephase point todo,
    R s { s with
      phase := phase, prog := prog, done := done, ovr := ovr, errcode := errcode, ephase := ephase, point := point
      todo := todo }
  body : ∀ s t, s.phase = k → PointIn k s.point → s.point ≠ .fin → blockMove s = .ok t → R s t

section
variable {k : Stage} {R : State → State → Prop}

theorem StageFrame.refl (F : StageFrame k R) (s : State) : R s s :=
  F.control s s.phase s.prog s.done s.ovr s.errcode s.ephase s.point s.todo

theorem StageFrame.stageEnd (F : StageFrame k R) (s : State) : R s (Machine.stageEnd s) := by
  unfold Machine.stageEnd
  split
  · exact F.control s .idle s.phase true s.ovr s.errcode s.ephase .start s.todo
  · next j js _ => exact F.control s j s.phase s.done s.ovr s.errcode s.ephase .start js

theorem StageFrame.move (F : StageFrame k R) {s t : State} (hs : s.phase = k) (hp : PointIn k s.point)
    (h : blockMove s = .ok t) : R s t := by
  by_cases hfin : s.point = .fin
  · cases (blockMove_fin hfin).symm.trans h
    exact F.stageEnd s
  · exact F.body s t hs hp hfin h

/-- A run of the stage alone is one of its moves after another. -/
theorem StageFrame.run (F : StageFrame k R) {s t : State} {n : Nat} (hc : CallOf (· == k) s)
    (hr : runMoves n s = .ok t) : R s t := by
  refine (runMoves_relates F.refl F.trans (fun u v hm hb hu => ?_) hc hr).1
  have hphase : u.phase = k := beq_iff_eq.1 (hu.stage hb)
  exact ⟨F.move hphase (hphase ▸ hu.point) hm.eq, hu.move hm hb⟩

/-- A stage command is dropped, is illegal, or runs the stage alone. -/
theorem StageFrame.exec (F : StageFrame k R) {i : Instr} {need : Stage} {s t : State}
    (hi : acceptanceOf i = .stage need k) (h : exec i s = .next t) : R s t := by
  rw [exec_stage hi] at h
  by_cases hidle : s.phase = .idle
  · by_cases hprog : s.prog = need
    · rw [acceptStage_legal hidle hprog] at h
      obtain ⟨n, -, hr, -⟩ := takeTurn_run h
      have hstart := F.control s k s.prog false s.ovr s.errcode s.ephase .start []
      exact F.trans _ _ _ hstart (F.run ⟨trivial, fun _ => beq_self_eq_true k, nofun⟩ hr)
    · cases (acceptStage_illegal hidle hprog).symm.trans h
      exact F.control s .idle .idle false s.ovr .illegalCmd s.phase .start []
  · cases (acceptStage_busy hidle).symm.trans h
    exact F.control s s.phase s.prog s.done true s.errcode s.ephase s.point s.todo

end

/-! ## BUILD -/

/-- What BUILD leaves unchanged. -/
def BuildFrame (s t : State) : Prop :=
  t = { s with
    phase := t.phase, prog := t.prog, done := t.done, ovr := t.ovr, errcode := t.errcode, ephase := t.ephase
    node := t.node, nnodes := t.nnodes, root := t.root, pq := t.pq, point := t.point, todo := t.todo
    events := t.events }

theorem BuildFrame.trans {a b c : State} (hab : BuildFrame a b) (hbc : BuildFrame b c) : BuildFrame a c :=
  Eq.trans hbc (by rw [hab])

theorem buildMergeMove_frame {n : Idx} {s t : State} (h : buildMergeMove n s = .ok t) : BuildFrame s t := by
  unfold buildMergeMove at h
  split at h
  · cases h
  · cases h
    rfl
  · obtain ⟨a, b, na, nb, q, -, -, -, -, -, -, rfl⟩ := mergeMove_ok h
    rfl

/-- BUILD's body: its start, the leaves, the merges. -/
theorem build_stageFrame : StageFrame .build BuildFrame where
  trans _ _ _ := BuildFrame.trans
  control _ _ _ _ _ _ _ _ _ := rfl
  body s t hs hp hfin h := by
    cases hpoint : s.point with
    | start =>
      rw [blockMove_start hpoint, stageStart, hs] at h
      cases h
      rfl
    | buildLeaves =>
      rw [blockMove_buildLeaves hpoint, buildLeavesMove_eq] at h
      cases h
      rfl
    | buildMerge n => exact buildMergeMove_frame (blockMove_buildMerge hpoint ▸ h)
    | fin => exact absurd hpoint hfin
    | _ =>
      rw [hpoint] at hp
      simp [PointIn] at hp

/-! ## GENCODES -/

/-- What GENCODES leaves unchanged. -/
def GencodesFrame (s t : State) : Prop :=
  t = { s with
    phase := t.phase, prog := t.prog, done := t.done, ovr := t.ovr, errcode := t.errcode, ephase := t.ephase
    code := t.code, walk := t.walk, point := t.point, todo := t.todo, events := t.events }

theorem GencodesFrame.trans {a b c : State} (hab : GencodesFrame a b) (hbc : GencodesFrame b c) : GencodesFrame a c :=
  Eq.trans hbc (by rw [hab])

theorem gencodesStart_frame {s t : State} (h : gencodesStart s = .ok t) : GencodesFrame s t := by
  unfold gencodesStart at h
  split at h
  · cases h
  · cases h
    rfl

theorem walkMove_frame {s t : State} (h : walkMove s = .ok t) : GencodesFrame s t := by
  unfold walkMove at h
  split at h
  · cases h
    rfl
  · split at h
    · cases h
    · obtain ⟨-, rfl⟩ := putCode_ok h
      rfl
    · cases h
      rfl

/-- GENCODES's body: its start and the walk. -/
theorem gencodes_stageFrame : StageFrame .gencodes GencodesFrame where
  trans _ _ _ := GencodesFrame.trans
  control _ _ _ _ _ _ _ _ _ := rfl
  body s t hs hp hfin h := by
    cases hpoint : s.point with
    | start =>
      rw [blockMove_start hpoint, stageStart, hs] at h
      exact gencodesStart_frame h
    | walkNode => exact walkMove_frame (blockMove_walkNode hpoint ▸ h)
    | fin => exact absurd hpoint hfin
    | _ =>
      rw [hpoint] at hp
      simp [PointIn] at hp

/-- Settles O51: each move of the two bodies keeps its frame, and so does acceptance. -/
theorem buildAndGencodesFrame : Obligations.BuildAndGencodesFrame :=
  ⟨fun _ _ => build_stageFrame.exec rfl, fun _ _ => gencodes_stageFrame.exec rfl⟩

end Sys2Proof.Machine
end

section
/-! PROOF. The code table of a tree (43_code_table_gen.md R160 to R165): GENCODES makes it, no code begins another, and
the lengths of the codes are bounded and meet Kraft equality. -/

namespace Sys2Proof.Machine

/-! ## The symbols of a tree -/

theorem TreeAt.sound {s : State} {T : HTree} (h : TreeAt s T) : T.Sound := by
  obtain ⟨-, -, -, -, hsound, -⟩ := h
  exact hsound

theorem HTree.Sound.leaves_length_le {T : HTree} (h : T.Sound) : T.leaves.length ≤ 257 :=
  length_le_of_symbols h.unique h.symbols

/-- The codes are valid exactly for the leaf symbols. -/
theorem CodesOf.valid_iff {T : HTree} {code : Cells (List Bool)} (h : CodesOf T code) (c : Sym) :
    (∃ p, codeAt code c = some p) ↔ c ∈ T.leaves := by
  simp only [h c]
  exact ⟨fun ⟨_, hp⟩ => HTree.leaf_of_path hp, HTree.path_of_leaf⟩

/-- A symbol that is no leaf has no code. -/
theorem CodesOf.codeAt_eq_none {T : HTree} {code : Cells (List Bool)} (h : CodesOf T code) {c : Sym}
    (hc : c ∉ T.leaves) : codeAt code c = none :=
  Option.eq_none_iff_forall_ne_some.2 fun p hp => hc ((h.valid_iff c).1 ⟨p, hp⟩)

/-! ## GENCODES (R160, R161, R165) -/

/-- The block when it has accepted GENCODES and stands before the stage's first statement (48_control.md R260, R261). -/
def gencodesAccepted (s : State) : State := { s with done := false, phase := .gencodes, point := .start, todo := [] }

/-- GENCODES ends in one turn, since it makes no transfer and visits each of at most 513 nodes once. -/
theorem exec_gencodes_completes {s : State} {T : HTree} (hi : s.phase = .idle) (hp : s.prog = .build)
    (hT : TreeAt s T) :
    exec .gencodes s = .next (completedIn .gencodes 0 { s with walk := [], code := enterPaths [] T.paths }) := by
  have hstage := stage_gencodes (s := gencodesAccepted s) rfl rfl hT
  have hmoves : T.size + 3 ≤ quietMoves := by
    have hleaves := hT.sound.leaves_length_le
    have hsize := T.size_leaves
    rw [quietMoves]
    omega
  rw [exec_stage rfl]
  exact stage_next hi hp rfl (run_finish hstage nofun rfl) (Nat.le_add_right _ _) (hmoves.trans (quietMoves_le _))

/-- Settles O28: the walk enters the path of each leaf, into a table it has emptied. -/
theorem gencodesCompletes : Obligations.GencodesCompletes := by
  intro s T hi hp hT
  have hcodes : CodesOf T (enterPaths [] T.paths) := codesOf_enterPaths hT.sound.unique
  exact ⟨_, exec_gencodes_completes hi hp hT, hcodes, hcodes.valid_iff⟩

/-! ## No code begins another (R162) -/

/-- Settles O29: the codes are paths of one tree, of which only a symbol's own extends it. -/
theorem codesArePrefixFree : Obligations.CodesArePrefixFree := by
  intro s c d p q hinv hprog hne hp hq hprefix
  obtain ⟨T, -, hcodes⟩ := hinv.codes hprog
  obtain ⟨hcd, -⟩ := HTree.path_prefix ((hcodes c p).1 hp) ((hcodes d q).1 hq) hprefix
  exact hne hcd

/-! ## Lengths and Kraft equality (R163) -/

/-- The code lengths of a tree with an internal root: a path takes at least one branch, and each branch it takes leaves
at least one other leaf behind. -/
theorem CodesOf.length_bounds {T : HTree} {code : Cells (List Bool)} (h : CodesOf T code) (hT : T.Sound) {c : Sym}
    {p : List Bool} (hp : codeAt code c = some p) :
    1 ≤ p.length ∧ p.length ≤ T.leaves.length - 1 ∧ p.length ≤ 256 := by
  have hpath : (c, p) ∈ T.paths := (h c p).1 hp
  have hpos : 0 < p.length := List.length_pos_iff.2 (HTree.path_ne_nil hT.rootInternal hpath)
  have hlt := HTree.path_length hpath
  have hleaves := hT.leaves_length_le
  omega

theorem HTree.paths_pos (T : HTree) : 0 < T.paths.length := by
  rw [← List.length_map (f := Prod.fst), T.paths_fst]
  exact T.leaves_pos

/-- Kraft equality of a full tree, times 2 ^ n: the paths through each child of the root have half of it. -/
theorem HTree.kraft_paths {T : HTree} {n : Nat} (h : ∀ e ∈ T.paths, e.2.length ≤ n) :
    (T.paths.map fun e => 2 ^ (n - e.2.length)).sum = 2 ^ n := by
  induction T generalizing n with
  | leaf c => simp [HTree.paths]
  | node l r ihl ihr =>
    simp only [HTree.paths, List.forall_mem_append, List.forall_mem_map, List.length_cons] at h
    obtain ⟨hl, hr⟩ := h
    obtain ⟨m, rfl⟩ : ∃ m, n = m + 1 := by
      obtain ⟨e, he⟩ := List.exists_mem_of_length_pos l.paths_pos
      exact Nat.exists_eq_add_of_le' ((Nat.le_add_left _ _).trans (hl e he))
    have hleft := ihl fun e he => Nat.le_of_succ_le_succ (hl e he)
    have hright := ihr fun e he => Nat.le_of_succ_le_succ (hr e he)
    simp only [HTree.paths, List.map_append, List.map_map, Function.comp_def, List.sum_append, List.length_cons,
      Nat.add_sub_add_right, hleft, hright, pow_succ, mul_two]

/-- The symbols CODE has entries for. -/
def codeSymbols : List Sym := (List.range 257).map (BitVec.ofNat 9)

theorem codeSymbols_nodup : codeSymbols.Nodup := by
  refine List.Nodup.map_on (fun m hm n hn hmn => ?_) List.nodup_range
  have htoNat := congrArg BitVec.toNat hmn
  simp only [List.mem_range, BitVec.toNat_ofNat] at hm hn htoNat
  omega

theorem mem_codeSymbols {c : Sym} (h : c.toNat ≤ 256) : c ∈ codeSymbols :=
  List.mem_map.2 ⟨c.toNat, List.mem_range.2 (Nat.lt_succ_of_le h), by rw [BitVec.ofNat_toNat, BitVec.setWidth_eq]⟩

/-- What the valid codes weigh together is what the paths of the tree weigh: each symbol with a code is a leaf, and has
its path. -/
theorem CodesOf.sum_eq_paths_sum {T : HTree} {code : Cells (List Bool)} (h : CodesOf T code) (hT : T.Sound)
    (weight : List Bool → Nat) :
    (codeSymbols.map fun c => (codeAt code c).elim 0 weight).sum = (T.paths.map fun e => weight e.2).sum := by
  have hsubset : T.leaves.toFinset ⊆ codeSymbols.toFinset := fun c hc =>
    List.mem_toFinset.2 (mem_codeSymbols (hT.symbols c (List.mem_toFinset.1 hc)))
  have hpath : ∀ e ∈ T.paths, (codeAt code e.1).elim 0 weight = weight e.2 := fun e he => by
    rw [(h e.1 e.2).2 he, Option.elim_some]
  calc (codeSymbols.map fun c => (codeAt code c).elim 0 weight).sum
      = ∑ c ∈ codeSymbols.toFinset, (codeAt code c).elim 0 weight := (List.sum_toFinset _ codeSymbols_nodup).symm
    _ = ∑ c ∈ T.leaves.toFinset, (codeAt code c).elim 0 weight :=
        (Finset.sum_subset hsubset fun c _ hc => by
          rw [h.codeAt_eq_none (mt List.mem_toFinset.2 hc), Option.elim_none]).symm
    _ = (T.leaves.map fun c => (codeAt code c).elim 0 weight).sum := List.sum_toFinset _ hT.unique
    _ = (T.paths.map fun e => (codeAt code e.1).elim 0 weight).sum := by
        rw [← T.paths_fst, List.map_map, Function.comp_def]
    _ = (T.paths.map fun e => weight e.2).sum := congrArg List.sum (List.map_congr_left hpath)

/-- Settles O30: the bounds are those of paths, and the weights of the codes are those of the paths. -/
theorem codeLengthsAndKraftEquality : Obligations.CodeLengthsAndKraftEquality := by
  intro s T code hT hcodes
  have hlength : ∀ e ∈ T.paths, e.2.length ≤ 256 := fun e he =>
    Nat.le_of_lt_succ ((HTree.path_length he).trans_le hT.sound.leaves_length_le)
  have hkraft := (hcodes.sum_eq_paths_sum hT.sound fun p => 2 ^ (256 - p.length)).trans (HTree.kraft_paths hlength)
  refine ⟨fun c p => hcodes.length_bounds hT.sound, ?_⟩
  rw [codeSymbols, List.map_map] at hkraft
  refine Eq.trans (congrArg List.sum (List.map_congr_left fun n _ => ?_)) hkraft
  rw [Function.comp_apply]
  cases codeAt code (BitVec.ofNat 9 n) with
  | none => rfl
  | some p => rfl

end Sys2Proof.Machine
end

section
/-! PROOF. WRITE_TAG and WRITE_HEADER append the tag and the header of the selected format to O (44_tree_serializer.md
R180 to R184). -/

namespace Sys2Proof.Machine

/-- A turn has room for each transfer its pace lets complete, and for `quietMoves` moves besides. -/
theorem moves_fit_turn {m n p : Nat} (hn : n ≤ p) (hm : m ≤ n + quietMoves) : m ≤ (p + 1) * quietMoves := by
  rw [quietMoves] at hm ⊢
  omega

/-- The block when it has accepted the command of stage `k` and stands before the stage's first statement (48_control.md
R260, R261). -/
def stageAccepted (k : Stage) (s : State) : State := { s with done := false, phase := k, point := .start, todo := [] }

/-- A stage command in sequence completes in one turn when its stage comes to its last statement by transfers that the
pace allows, and few moves more. -/
theorem exec_stage_completes {i : Instr} {need k : Stage} {s t : State} {m n : Nat} (ha : acceptanceOf i = .stage need k)
    (hi : s.phase = .idle) (hp : s.prog = need) (hk : k ≠ .idle) (hn : n ≤ s.pace)
    (h : runMoves m (stageAccepted k s) = .ok { stageAccepted k t with point := .fin, events := t.events + n })
    (he : t.events = s.events) (hm : m < n + quietMoves) : exec i s = .next (completedIn k n t) := by
  have hend := run_finish h hk rfl
  have hevents : t.events + n ≤ s.events + s.pace := he ▸ Nat.add_le_add_left hn _
  rw [exec_stage ha]
  exact stage_next hi hp rfl hend hevents (moves_fit_turn hn hm)

/-! ## WRITE_TAG (R180) -/

theorem tagOf_eq_ite (c : Config) (m : HdrFormat) : tagOf c m = if m = .tree then c.tagTree else c.tagCounts := by
  cases m <;> rfl

/-- Settles O31: the stage latches HMODE and sends the 32 bits of the tag. -/
theorem writeTagCompletes : Obligations.WriteTagCompletes := by
  intro s hi hp hpace
  rw [← tagOf_eq_ite]
  have hstage := stage_writeTag (s := stageAccepted .writeTag s) rfl rfl
  exact exec_stage_completes rfl hi hp nofun hpace hstage rfl (by decide)

/-! ## WRITE_HEADER (R181, R182, R184) -/

/-- Settles O32: the stage sends the header of the tree in pre-order, or the 256 counts, as HMODE selects. Besides a
move for each bit it makes at most two moves and one for each count. -/
theorem writeHeaderCompletes : Obligations.WriteHeaderCompletes := by
  refine ⟨fun s T hi hp hm hT hpace => ?tree, fun s hi hp hm hpace => ?counts⟩
  case tree =>
    obtain ⟨r, is, hroot, hholds, -⟩ := hT
    have hstage := stage_writeHeader_tree (s := stageAccepted .writeHeader s) rfl rfl hm hroot hholds
    exact exec_stage_completes rfl hi hp nofun hpace hstage rfl (Nat.add_lt_add_left (by decide) _)
  case counts =>
    have hstage := stage_writeHeader_counts (s := stageAccepted .writeHeader s) rfl rfl hm
    have hmoves : alphaSize * (s.cfg.wCnt + 1) + 2 < 256 * s.cfg.wCnt + quietMoves := by
      rw [alphaSize, quietMoves]
      omega
    exact exec_stage_completes rfl hi hp nofun hpace hstage rfl hmoves

end Sys2Proof.Machine
end

section
/-! PROOF. What WRITE_TAG, WRITE_HEADER and ENCODE leave unchanged, and that they only append to O
(44_tree_serializer.md R180, R181; 46_bitstream_encoder.md R220). -/

namespace Sys2Proof.Machine

/-! ## WRITE_TAG -/

/-- What WRITE_TAG leaves unchanged; O is only appended to. -/
def WriteTagFrame (s t : State) : Prop :=
  t = { s with
    phase := t.phase, prog := t.prog, done := t.done, ovr := t.ovr, errcode := t.errcode, ephase := t.ephase
    hmode := t.hmode, bitSink := { s.bitSink with bits := t.bitSink.bits }, point := t.point, todo := t.todo
    events := t.events } ∧ s.bitSink.bits <+: t.bitSink.bits

theorem WriteTagFrame.trans {a b c : State} (hab : WriteTagFrame a b) (hbc : WriteTagFrame b c) :
    WriteTagFrame a c := by
  obtain ⟨hb, hprefixB⟩ := hab
  obtain ⟨hc, hprefixC⟩ := hbc
  exact ⟨hc.trans (by rw [hb]), hprefixB.trans hprefixC⟩

theorem sendTagMove_frame {bits : List Bool} {s t : State} (h : sendTagMove bits s = .ok t) : WriteTagFrame s t := by
  cases bits with
  | nil =>
    cases h
    exact ⟨rfl, List.prefix_rfl⟩
  | cons b rest =>
    cases h
    exact ⟨rfl, List.prefix_append _ _⟩

/-- WRITE_TAG's body: its start and the bits of the tag. -/
theorem writeTag_stageFrame : StageFrame .writeTag WriteTagFrame where
  trans _ _ _ := WriteTagFrame.trans
  control _ _ _ _ _ _ _ _ _ := ⟨rfl, List.prefix_rfl⟩
  body s t hs hp hfin h := by
    cases hpoint : s.point with
    | start =>
      rw [blockMove_start hpoint, stageStart, hs] at h
      cases h
      exact ⟨rfl, List.prefix_rfl⟩
    | sendTag bits => exact sendTagMove_frame (blockMove_sendTag hpoint ▸ h)
    | fin => exact absurd hpoint hfin
    | _ =>
      rw [hpoint] at hp
      simp [PointIn] at hp

/-! ## WRITE_HEADER -/

/-- What WRITE_HEADER leaves unchanged; O is only appended to. -/
def WriteHeaderFrame (s t : State) : Prop :=
  t = { s with
    phase := t.phase, prog := t.prog, done := t.done, ovr := t.ovr, errcode := t.errcode, ephase := t.ephase
    walk := t.walk, bitSink := { s.bitSink with bits := t.bitSink.bits }, point := t.point, todo := t.todo
    events := t.events } ∧ s.bitSink.bits <+: t.bitSink.bits

theorem WriteHeaderFrame.trans {a b c : State} (hab : WriteHeaderFrame a b) (hbc : WriteHeaderFrame b c) :
    WriteHeaderFrame a c := by
  obtain ⟨hb, hprefixB⟩ := hab
  obtain ⟨hc, hprefixC⟩ := hbc
  exact ⟨hc.trans (by rw [hb]), hprefixB.trans hprefixC⟩

theorem writeHeaderStart_frame {s t : State} (h : writeHeaderStart s = .ok t) : WriteHeaderFrame s t := by
  unfold writeHeaderStart at h
  split at h
  · split at h
    · cases h
    · cases h
      exact ⟨rfl, List.prefix_rfl⟩
  · cases h
    exact ⟨rfl, List.prefix_rfl⟩

/-- SerTree sends a bit in each move but its last. -/
theorem serTreeMove_frame {bits : List Bool} {s t : State} (h : serTreeMove bits s = .ok t) : WriteHeaderFrame s t := by
  unfold serTreeMove at h
  split at h
  · cases h
    exact ⟨rfl, List.prefix_append _ _⟩
  · split at h
    · cases h
      exact ⟨rfl, List.prefix_rfl⟩
    · split at h
      · cases h
      · cases h
        exact ⟨rfl, List.prefix_append _ _⟩
      · cases h
        exact ⟨rfl, List.prefix_append _ _⟩

theorem serCountsMove_frame {n : Nat} {bits : List Bool} {s t : State} (h : serCountsMove n bits s = .ok t) :
    WriteHeaderFrame s t := by
  unfold serCountsMove at h
  split at h
  · cases h
    exact ⟨rfl, List.prefix_append _ _⟩
  · split at h
    · cases h
      exact ⟨rfl, List.prefix_rfl⟩
    · cases h
      exact ⟨rfl, List.prefix_rfl⟩

/-- WRITE_HEADER's body: its start, SerTree, SerCounts. -/
theorem writeHeader_stageFrame : StageFrame .writeHeader WriteHeaderFrame where
  trans _ _ _ := WriteHeaderFrame.trans
  control _ _ _ _ _ _ _ _ _ := ⟨rfl, List.prefix_rfl⟩
  body s t hs hp hfin h := by
    cases hpoint : s.point with
    | start =>
      rw [blockMove_start hpoint, stageStart, hs] at h
      exact writeHeaderStart_frame h
    | serTree bits => exact serTreeMove_frame (blockMove_serTree hpoint ▸ h)
    | serCounts n bits => exact serCountsMove_frame (blockMove_serCounts hpoint ▸ h)
    | fin => exact absurd hpoint hfin
    | _ =>
      rw [hpoint] at hp
      simp [PointIn] at hp

/-! ## ENCODE -/

/-- What ENCODE leaves unchanged; O is only appended to. -/
def EncodeFrame (s t : State) : Prop :=
  t = { s with
    phase := t.phase, prog := t.prog, done := t.done, ovr := t.ovr, errcode := t.errcode, ephase := t.ephase
    byteSrc := { s.byteSrc with pass := t.byteSrc.pass, pos := t.byteSrc.pos, rewinds := t.byteSrc.rewinds }
    bitSink := t.bitSink, point := t.point, todo := t.todo, events := t.events } ∧
    s.bitSink.bits <+: t.bitSink.bits

theorem EncodeFrame.trans {a b c : State} (hab : EncodeFrame a b) (hbc : EncodeFrame b c) : EncodeFrame a c := by
  obtain ⟨hb, hprefixB⟩ := hab
  obtain ⟨hc, hprefixC⟩ := hbc
  exact ⟨hc.trans (by rw [hb]), hprefixB.trans hprefixC⟩

/-- ENCODE reads a byte or EOI and sends nothing; a byte without a code aborts it. -/
theorem encodeByteMove_frame {s t : State} (h : encodeByteMove s = .ok t) : EncodeFrame s t := by
  unfold encodeByteMove at h
  rcases inByte_come s with ⟨-, hin⟩ | ⟨b, rest, -, hin⟩
  · simp only [hin] at h
    split at h
    · cases h
      exact ⟨rfl, List.prefix_rfl⟩
    · cases h
  · simp only [hin] at h
    split at h
    · cases h
      exact ⟨rfl, List.prefix_rfl⟩
    · cases h
      exact ⟨rfl, List.prefix_rfl⟩

theorem encodeCodeMove_frame {bits : List Bool} {s t : State} (h : encodeCodeMove bits s = .ok t) :
    EncodeFrame s t := by
  cases bits with
  | nil =>
    cases h
    exact ⟨rfl, List.prefix_rfl⟩
  | cons b rest =>
    cases h
    exact ⟨rfl, List.prefix_append _ _⟩

theorem encodeEosMove_frame {bits : List Bool} {s t : State} (h : encodeEosMove bits s = .ok t) : EncodeFrame s t := by
  cases bits with
  | nil =>
    cases h
    exact ⟨rfl, List.prefix_rfl⟩
  | cons b rest =>
    cases h
    exact ⟨rfl, List.prefix_append _ _⟩

/-- ENCODE's body: its Rewind, the bytes, their codes, CODE[EOS]. -/
theorem encode_stageFrame : StageFrame .encode EncodeFrame where
  trans _ _ _ := EncodeFrame.trans
  control _ _ _ _ _ _ _ _ _ := ⟨rfl, List.prefix_rfl⟩
  body s t hs hp hfin h := by
    cases hpoint : s.point with
    | start =>
      rw [blockMove_start hpoint, stageStart, hs] at h
      cases h
      exact ⟨rfl, List.prefix_rfl⟩
    | encodeByte => exact encodeByteMove_frame (blockMove_encodeByte hpoint ▸ h)
    | encodeCode bits => exact encodeCodeMove_frame (blockMove_encodeCode hpoint ▸ h)
    | encodeEos bits => exact encodeEosMove_frame (blockMove_encodeEos hpoint ▸ h)
    | fin => exact absurd hpoint hfin
    | _ =>
      rw [hpoint] at hp
      simp [PointIn] at hp

/-- Settles O52: each move of the three bodies keeps its frame, and so does acceptance. -/
theorem writingStagesFrame : Obligations.WritingStagesFrame :=
  ⟨fun _ _ => writeTag_stageFrame.exec rfl, fun _ _ => writeHeader_stageFrame.exec rfl,
    fun _ _ => encode_stageFrame.exec rfl⟩

end Sys2Proof.Machine
end

section
/-! PROOF. READ_TAG reads 32 bits and takes the header format of the tag, or raises FORMAT (45_tree_deserializer.md R200,
R201). -/

namespace Sys2Proof.Machine

/-! ## The check of the tag (R200) -/

/-- The check accepts the tag of a header format that is implemented; TAG_COUNTS is not TAG_TREE (R9). -/
theorem checkTag_accepts {v : Word} {m : HdrFormat} {s : State}
    (h : (v = s.cfg.tagTree ∧ m = .tree) ∨ (v = s.cfg.tagCounts ∧ s.cfg.hasCounts = true ∧ m = .counts)) :
    checkTag v s = { s with hmode := m, point := .fin } := by
  unfold checkTag
  rcases h with ⟨hv, rfl⟩ | ⟨hv, hcounts, rfl⟩
  · rw [if_pos hv]
  · have hne : v ≠ s.cfg.tagTree := hv ▸ s.cfg.tags_ne.symm
    rw [if_neg hne, if_pos ⟨hv, hcounts⟩]

theorem checkTag_rejects {v : Word} {s : State} (ht : v ≠ s.cfg.tagTree)
    (hc : v = s.cfg.tagCounts → s.cfg.hasCounts = false) : checkTag v s = raiseError .format s := by
  have hnot : ¬(v = s.cfg.tagCounts ∧ s.cfg.hasCounts = true) := fun ⟨hv, hcounts⟩ =>
    Bool.false_ne_true ((hc hv).symm.trans hcounts)
  rw [checkTag, if_neg ht, if_neg hnot]

/-! ## The stage on too few bits (R201) -/

/-- Stage 7 on fewer than 32 bits reads them all and meets EOI. -/
theorem stage_readTag_short {bits : List Bool} {s : State} (hs : s.phase = .readTag) (hp : s.point = .start)
    (hr : bitsToCome s = bits) (hlen : bits.length < 32) :
    runMoves (bits.length + 2) s = .ok (raiseError .format { s with
      events := s.events + (bits.length + 1), bitSrc := s.bitSrc.skip bits.length }) := by
  have hb : s.phase ≠ .idle := by rw [hs]; decide
  obtain ⟨k, hk⟩ := Nat.exists_eq_add_of_lt hlen
  have hr' : bitsToCome s = bits ++ [] := hr.trans (List.append_nil bits).symm
  have hbits := run_recvTag bits (n := k + 1) (v := 0) (s := { s with point := .recvTag 32 0 }) hb
    (congrArg (Point.recvTag · 0) hk) hr'
  have heoi := (Moved.tagShort (s := { s with
      point := .recvTag (k + 1) (shiftAll 0 bits), events := s.events + bits.length
      bitSrc := s.bitSrc.skip bits.length }) k _ rfl (bitsToCome_skip hr' rfl)).eq
  refine run_start hb hp (by simp only [stageStart, hs, readTagStart]) (runMoves_then hbits ?_)
  refine (runMoves_one ?_).trans heoi
  exact hb

/-! ## The command -/

/-- The block when it has accepted READ_TAG and stands before the stage's first statement (48_control.md R260, R261). -/
def readTagAccepted (s : State) : State :=
  { callInit .decompression { s with done := false } with phase := .readTag, point := .start, todo := [] }

/-- READ_TAG ends in one turn as the stage does, when the pace allows the stage's transfers. -/
theorem exec_readTag_of_run {s t : State} {m n : Nat} (hi : s.phase = .idle) (hpace : n ≤ s.pace)
    (h : runMoves m (readTagAccepted s) = .ok t) (ht : t.phase = .idle) (he : t.events = (readTagAccepted s).events + n)
    (hm : m ≤ n + quietMoves) : exec .readTag s = .next t := by
  have hevents : t.events ≤ s.events + 1 + s.pace := he.trans_le (Nat.add_le_add_left hpace _)
  rw [exec_entry rfl]
  exact entry_next hi ht h hevents (moves_fit_turn hpace hm)

/-- Settles O36: the stage reads the tag, accepts it, and its last statement completes the command. -/
theorem readTagCompletes : Obligations.ReadTagCompletes := by
  intro s v m rest hi hbits htag hpace
  have hstage := (stage_readTag (s := readTagAccepted s) rfl rfl hbits).trans
    (congrArg Except.ok (checkTag_accepts htag))
  exact exec_readTag_of_run hi hpace (run_finish hstage nofun rfl) rfl rfl (by decide)

/-- Settles O37: the stage reads a tag and rejects it, or meets EOI. -/
theorem readTagFormatError : Obligations.ReadTagFormatError := by
  refine ⟨fun s v rest hi hbits htree hcounts hpace => ?tag, fun s bits hi hbits hlen hpace => ?short⟩
  case tag =>
    have hstage := (stage_readTag (s := readTagAccepted s) rfl rfl hbits).trans
      (congrArg Except.ok (checkTag_rejects htree hcounts))
    exact exec_readTag_of_run hi hpace hstage rfl rfl (by decide)
  case short =>
    have hstage := stage_readTag_short (s := readTagAccepted s) rfl rfl hbits hlen
    exact exec_readTag_of_run hi hpace hstage rfl rfl (by rw [quietMoves]; omega)

end Sys2Proof.Machine
end

section
/-! PROOF. READ_HEADER rebuilds the tree of a tree header, and builds the tree of a counts header
(45_tree_deserializer.md R202, R203, R205, R207 to R209). -/

namespace Sys2Proof.Machine

/-! ## Tree header (R203, R207, R208) -/

/-- Every node DesNode writes has weight 0 (R207). -/
theorem get_writeTree_weight (T : HTree) {n k : Nat} (t : Cells Node) (hlo : n ≤ k) (hhi : k < n + T.size) :
    ∃ nd, Cells.get (writeTree T n t) k = some nd ∧ nd.wt = 0 := by
  induction T generalizing n t with
  | leaf c =>
    simp only [HTree.size] at hhi
    obtain rfl : k = n := by omega
    exact ⟨_, Cells.get_put_same _ _ _, rfl⟩
  | node l r ihl ihr =>
    simp only [HTree.size] at hhi
    rw [writeTree]
    by_cases hroot : k = n
    · rw [hroot]
      exact ⟨_, Cells.get_put_same _ _ _, rfl⟩
    · rw [Cells.get_put_ne _ _ hroot]
      by_cases hleft : k < n + 1 + l.size
      · rw [get_writeTree_ne r _ (.inl hleft)]
        exact ihl t (by omega) hleft
      · exact ihr _ (by omega) (by omega)

/-- Settles O38: the stage's run over the header of a sound tree, which has at most 257 leaves and 513 nodes. -/
theorem readTreeHeaderCompletes : Obligations.ReadTreeHeaderCompletes := by
  intro s T rest hi hp hm hbooks hT hbits hpace
  have hleaves := hT.leaves_length_le
  have hsize := T.size_leaves
  have hstage := stage_readHeader_tree (s := stageAccepted .readHeader s) rfl rfl hm hbooks hT hbits
  have hmoves : T.header.length + T.leaves.length + 2 < T.header.length + quietMoves := by
    rw [quietMoves]
    omega
  refine ⟨writeTree T 0 s.node, markSeen 0 T.leaves, ?_, ?_, fun i hlt => ?_, fun c hc => ?_⟩
  · exact exec_stage_completes rfl hi hp nofun hpace hstage rfl hmoves
  · exact holds_writeTree T s.node (by rw [maxNodes]; omega)
  · exact get_writeTree_weight T s.node (Nat.zero_le _) (hlt.trans_eq (Nat.zero_add _).symm)
  · rw [getLsbD_markSeen 0 T.leaves c hc]
    simp

/-! ## Counts header (R205, 42_tree_builder.md R151) -/

/-- BuildTree's loop does the same whatever ROOT and NNODES hold: it sets them at its end. -/
theorem run_merges_setRoot (k : Nat) {n : Idx} {s t : State} (r : Option Idx) (m : Idx) (hb : s.phase ≠ .idle)
    (hp : s.point = .buildMerge n) (hk : s.pq.length = k + 1) (h : runMoves (k + 1) s = .ok t) :
    runMoves (k + 1) { s with root := r, nnodes := m } = .ok t := by
  induction k generalizing n s with
  | zero =>
    obtain ⟨i, hq⟩ := List.length_eq_one_iff.1 hk
    have hend := (Moved.buildEnd (s := { s with root := r, nnodes := m }) n i hp hq).eq
    rw [runMoves_one hb, (Moved.buildEnd n i hp hq).eq] at h
    refine (runMoves_one ?_).trans (hend.trans h)
    exact hb
  | succ k ih =>
    have htwo : 2 ≤ s.pq.length := by omega
    cases hm : mergeMove n s with
    | error f =>
      rw [runMoves, if_pos ((busy_iff s).2 hb), blockMove_buildMerge hp, buildMergeMove_of_two n htwo, hm] at h
      cases h
    | ok u =>
      obtain ⟨a, b, na, nb, q, hxa, hxb, ha, hnb, hn, hq, rfl⟩ := mergeMove_ok hm
      rw [runMoves_succ hb (Moved.merge n a b na nb q hp htwo hxa hxb ha hnb hn hq).eq] at h
      have hmerge := (Moved.merge (s := { s with root := r, nnodes := m }) n a b na nb q hp htwo hxa hxb ha hnb hn hq).eq
      refine runMoves_step ?_ hmerge (ih (n := n + 1) ?_ rfl ?_ h)
      · exact hb
      · exact hb
      · simp only [List.length_append, List.length_singleton]
        omega

/-- BuildTree does not read ROOT, NNODES and PQ: its leaves fill PQ, and its end sets the others. -/
theorem run_build_setRoot {s t : State} (r : Option Idx) (m : Idx) (q : List Idx) (hb : s.phase ≠ .idle)
    (hp : s.point = .buildLeaves) (h : runMoves (leafCount s.freq + 1) s = .ok t) :
    runMoves (leafCount s.freq + 1) { s with root := r, nnodes := m, pq := q } = .ok t := by
  obtain ⟨k, hk⟩ : ∃ k, leafCount s.freq = k + 1 := Nat.exists_eq_succ_of_ne_zero (by
    have := leafCount_bounds s.freq
    omega)
  rw [runMoves_succ hb (Moved.leaves hp).eq, hk] at h
  have hleaves := (Moved.leaves (s := { s with root := r, nnodes := m, pq := q }) hp).eq
  refine runMoves_step ?_ hleaves ?_
  · exact hb
  · rw [hk]
    refine run_merges_setRoot k r m ?_ rfl ?_ h
    · exact hb
    · simp only [indicesBelow, List.length_map, List.length_range]

/-- BuildTree from another state with the same configuration, FREQ and arena leaves the same arena, ROOT and NNODES. -/
theorem run_build_same {s u : State} {t : Cells Node} {r m : Idx} (hs : s.phase ≠ .idle) (hu : u.phase ≠ .idle)
    (hsp : s.point = .buildLeaves) (hup : u.point = .buildLeaves) (hcfg : u.cfg = s.cfg) (hfreq : u.freq = s.freq)
    (hnode : u.node = s.node)
    (h : runMoves (leafCount s.freq + 1) s = .ok { withTree s t r m with point := .fin }) :
    runMoves (leafCount s.freq + 1) u = .ok { withTree u t r m with point := .fin } := by
  have hbuild := run_build_withBuild (x := u) hs hu hsp
  rw [h] at hbuild
  have hback := run_build_setRoot u.root u.nnodes u.pq (s := withBuild u s) hu hsp hbuild
  have heq : { withBuild u s with root := u.root, nnodes := u.nnodes, pq := u.pq } = u := by
    simp only [withBuild, ← hcfg, ← hfreq, ← hnode, hsp, ← hup]
  rw [heq] at hback
  refine hback.trans ?_
  simp only [withBuild, withTree, ← hcfg, ← hfreq]

/-- `s` when ReadCounts has read the fields of FREQ `f` and BuildTree is next (R205). -/
def countsRead (s : State) (f : Cells Word) : State :=
  { s with
    point := .buildLeaves, events := s.events + 256 * s.cfg.wCnt, bitSrc := s.bitSrc.skip (256 * s.cfg.wCnt), freq := f }

/-- Stage 8 with a counts header reads FREQ and builds its tree, in the arena that BUILD leaves of the same FREQ. -/
theorem stage_readHeader_counts {F : Cells Word} {rest : List Bool} {s : State} (hs : s.phase = .readHeader)
    (hp : s.point = .start) (hm : s.hmode = .counts) (hr : bitsToCome s = countsHeader s.cfg F ++ rest)
    (hF : ∀ b, (freqAt F b).toNat < 2 ^ s.cfg.wCnt) :
    ∃ f t T, (∀ b, freqAt f b = freqAt F b) ∧
      runMoves (256 * (s.cfg.wCnt + 1) + 1 + (leafCount f + 1)) s = .ok { built { s with freq := f } t with
        point := .fin, events := s.events + 256 * s.cfg.wCnt, bitSrc := s.bitSrc.skip (256 * s.cfg.wCnt) } ∧
      TreeAt (built { s with freq := f } t) T ∧
      ∀ u : State, u.phase ≠ .idle → u.point = .buildLeaves → u.cfg = s.cfg → u.node = s.node → u.freq = f →
        runMoves (leafCount f + 1) u = .ok { built u t with point := .fin } := by
  have hb : s.phase ≠ .idle := by rw [hs]; decide
  obtain ⟨f, hf, hread⟩ := run_readHeader_counts hs hp hm hr hF
  obtain ⟨t, T, hbuild, htree, -⟩ := run_build (s := countsRead s f) hb rfl
  refine ⟨f, t, T, hf, runMoves_then hread hbuild, htree, fun u hu hup hcfg hnode hfreq => ?_⟩
  rw [built, hfreq]
  exact run_build_same (s := countsRead s f) hb hu rfl hup hcfg hfreq hnode hbuild

/-- Settles O39: the stage reads the counts and runs BuildTree, and BUILD runs BuildTree from a state with the same
FREQ, arena and configuration. -/
theorem readCountsHeaderCompletes : Obligations.ReadCountsHeaderCompletes := by
  intro s F rest hi hp hm hF hbits hpace
  obtain ⟨f, t, T, hf, hstage, htree, hsame⟩ :=
    stage_readHeader_counts (s := stageAccepted .readHeader s) rfl rfl hm hbits hF
  have hcount : leafCount f = leafCount F := leafCount_congr hf
  have hbounds := leafCount_bounds f
  have hmoves : 256 * (s.cfg.wCnt + 1) + 1 + (leafCount f + 1) < 256 * s.cfg.wCnt + quietMoves := by
    rw [quietMoves]
    omega
  rw [← hcount]
  refine ⟨f, t, T, exec_stage_completes rfl hi hp nofun hpace hstage rfl hmoves, hf, htree,
    fun u hui hup hcfg hnode hfreq => ?_⟩
  have hrun := hsame { buildAccepted u with point := .buildLeaves } nofun rfl hcfg hnode hfreq
  have hbuild : runMoves (leafCount f + 2) (buildAccepted u) = .ok { built (buildAccepted u) t with point := .fin } :=
    run_start nofun rfl rfl hrun
  refine ⟨_, exec_build_of_run hui hup (by rw [quietMoves]; omega) hbuild, rfl, ?_, ?_⟩
  · rw [← hfreq]
    rfl
  · rw [← hfreq]
    rfl

end Sys2Proof.Machine
end

section
/-! PROOF. READ_HEADER of a header that is cut short or fails a check (45_tree_deserializer.md R204, R206). -/

namespace Sys2Proof.Machine

/-! ## The command -/

/-- READ_HEADER aborts in one turn when its stage does, when the pace allows the stage's transfers. -/
theorem exec_readHeader_aborts {e : ErrCode} {a b : Nat} {s : State} (hi : s.phase = .idle) (hp : s.prog = .readTag)
    (hpace : b ≤ s.pace) (hab : a ≤ b) (h : EndsIn e a b 2 (stageAccepted .readHeader s)) :
    ∃ t, exec .readHeader s = .next t ∧ Aborted e .readHeader t ∧ t.bitSrc = s.bitSrc.skip a := by
  obtain ⟨m, u, hm, hrun, hphase, hsrc, hevents⟩ := h
  have hend : u.events ≤ s.events + s.pace := hevents.trans_le (Nat.add_le_add_left hpace _)
  have hmoves : m ≤ (s.pace + 1) * quietMoves := by
    rw [quietMoves]
    omega
  rw [exec_stage rfl]
  exact ⟨_, stage_next hi hp rfl hrun hend hmoves, ⟨rfl, rfl, rfl, rfl, hphase⟩, hsrc⟩

/-! ## Cut short (R206) -/

/-- So it aborts with all bits read when its stage reads them all and meets EOI. -/
theorem exec_readHeader_cutShort {s : State} (hi : s.phase = .idle) (hp : s.prog = .readTag)
    (hpace : (bitsToCome s).length + 1 ≤ s.pace)
    (h : EndsIn .hdrTrunc (bitsToCome s).length ((bitsToCome s).length + 1) 2 (stageAccepted .readHeader s)) :
    ∃ t, exec .readHeader s = .next t ∧ Aborted .hdrTrunc .readHeader t ∧ bitsToCome t = [] := by
  obtain ⟨t, hexec, habort, hsrc⟩ := exec_readHeader_aborts hi hp hpace (Nat.le_succ _) h
  exact ⟨t, hexec, habort, bitsToCome_skip (List.append_nil _).symm hsrc⟩

/-- Settles O40: the stage reads the complete items of a tree header or the complete counts, then the rest, and meets
EOI. -/
theorem headerCutShortAborts : Obligations.HeaderCutShortAborts := by
  refine ⟨fun s xs q hi hp hm hbooks hitems hbits hrest hpace => ?tree, fun s hi hp hm hlen hpace => ?counts⟩
  case tree =>
    exact exec_readHeader_cutShort hi hp hpace
      (stage_readHeader_tree_short (s := stageAccepted .readHeader s) rfl rfl hm hbooks hitems hbits hrest)
  case counts =>
    exact exec_readHeader_cutShort hi hp hpace
      (stage_readHeader_counts_short (s := stageAccepted .readHeader s) rfl rfl hm hlen)

/-! ## The checks (R204) -/

/-- The error abort of a running stage before any transfer. -/
theorem raiseError_eq_abortedIn {e : ErrCode} {k : Stage} {s : State} (h : s.phase = k) :
    raiseError e s = abortedIn e k 0 s := by
  rw [← h]
  rfl

/-- Settles O41: each check ends the stage's run over the bits before it, and each is one way of a move. -/
theorem treeHeaderChecks : Obligations.TreeHeaderChecks := by
  refine ⟨fun s xs c rest hi hp hm hbooks hitems hbits hc hpace => ?symbol,
    fun s xs rest hi hp hm hbooks hitems hbits hn hpace => ?nodes,
    fun s T rest hi hp hm hbooks hunique hsymbols hT hbits hpace => ?complete, fun s hs => ?moves⟩
  case symbol =>
    exact exec_readHeader_aborts hi hp hpace le_rfl
      (stage_readHeader_symbol (s := stageAccepted .readHeader s) rfl rfl hm hbooks hitems hbits hc)
  case nodes =>
    exact exec_readHeader_aborts hi hp hpace le_rfl
      (stage_readHeader_nodes (s := stageAccepted .readHeader s) rfl rfl hm hbooks hitems hbits hn)
  case complete =>
    exact exec_readHeader_aborts hi hp hpace le_rfl
      (stage_readHeader_tree_unsound (s := stageAccepted .readHeader s) rfl rfl hm hbooks hunique hsymbols hT hbits)
  case moves =>
    have habort : raiseError .hdrMalformed s = abortedIn .hdrMalformed .readHeader 0 s := raiseError_eq_abortedIn hs
    rw [← habort]
    refine ⟨fun i v hp hv => (Moved.symBad i v hp (.inl hv)).eq,
      fun i v hp _ hseen => (Moved.symBad i v hp (.inr hseen)).eq, fun rest hp hn hbits => ?_,
      fun r c w hp hr hnd => (Moved.checkBad r _ hp hr hnd (.inl rfl)).eq,
      fun r w a b hp hr hnd hseen => (Moved.checkBad r _ hp hr hnd (.inr hseen)).eq,
      fun r w a b hp hr hnd hseen => (Moved.checkGood r _ hp hr hnd rfl hseen).eq⟩
    refine (Moved.desTooMany rest hp hbits hn).eq.trans (congrArg Except.ok ?_)
    exact raiseError_eq_abortedIn hs

end Sys2Proof.Machine
end

section
/-! PROOF. What READ_HEADER and DECODE leave unchanged, READ_HEADER by the header format (45_tree_deserializer.md R202,
47_bitstream_decoder.md R240). -/

namespace Sys2Proof.Machine

/-- Everything a stage command can do when it answers: it is dropped, is illegal, or runs its stage alone. -/
theorem exec_stage_cases {i : Instr} {need k : Stage} {s t : State} (hi : acceptanceOf i = .stage need k)
    (h : exec i s = .next t) :
    t = dropWrite s ∨ t = raiseError .illegalCmd { s with done := false } ∨
      ∃ n, runMoves n (stageAccepted k s) = .ok t := by
  rw [exec_stage hi] at h
  by_cases hidle : s.phase = .idle
  · by_cases hprog : s.prog = need
    · rw [acceptStage_legal hidle hprog] at h
      obtain ⟨n, -, hrun, -⟩ := takeTurn_run h
      exact .inr (.inr ⟨n, hrun⟩)
    · rw [acceptStage_illegal hidle hprog] at h
      cases h
      exact .inr (.inl rfl)
  · rw [acceptStage_busy hidle] at h
    cases h
    exact .inl rfl

/-! ## READ_HEADER by the header format -/

/-- What READ_HEADER leaves unchanged: SEEN, NINT, NLEAF and STK belong to a tree header, FREQ and PQ to a counts
header. -/
def HeaderFrame : HdrFormat → State → State → Prop
  | .tree, s, t => t = { s with
      phase := t.phase, prog := t.prog, done := t.done, ovr := t.ovr, errcode := t.errcode, ephase := t.ephase
      node := t.node, nnodes := t.nnodes, root := t.root, seen := t.seen, nint := t.nint, nleaf := t.nleaf, stk := t.stk
      bitSrc := { s.bitSrc with pos := t.bitSrc.pos }, point := t.point, todo := t.todo, events := t.events }
  | .counts, s, t => t = { s with
      phase := t.phase, prog := t.prog, done := t.done, ovr := t.ovr, errcode := t.errcode, ephase := t.ephase
      freq := t.freq, node := t.node, nnodes := t.nnodes, root := t.root, pq := t.pq
      bitSrc := { s.bitSrc with pos := t.bitSrc.pos }, point := t.point, todo := t.todo, events := t.events }

/-- The points of READ_HEADER's body when it reads a header of the format. -/
def HeaderPoint : HdrFormat → Point → Prop
  | _, .start => True
  | .tree, .desNode => True
  | .tree, .desSym _ _ _ => True
  | .tree, .desCheck => True
  | .counts, .readCounts _ _ _ => True
  | .counts, .buildLeaves => True
  | .counts, .buildMerge _ => True
  | _, .fin => True
  | _, _ => False

/-- A change that keeps to what READ_HEADER of the format writes, and to its points. -/
def HeaderChange (m : HdrFormat) (s t : State) : Prop := HeaderFrame m s t ∧ HeaderPoint m t.point

section
variable {m : HdrFormat}

theorem HeaderPoint.eq_tree {p : Point} (h : HeaderPoint m p) (hc : ¬HeaderPoint .counts p) : m = .tree := by
  cases m with
  | tree => rfl
  | counts => exact absurd h hc

theorem HeaderPoint.eq_counts {p : Point} (h : HeaderPoint m p) (ht : ¬HeaderPoint .tree p) : m = .counts := by
  cases m with
  | tree => exact absurd h ht
  | counts => rfl

theorem HeaderFrame.trans {a b c : State} (hab : HeaderFrame m a b) (hbc : HeaderFrame m b c) : HeaderFrame m a c := by
  cases m <;> exact Eq.trans hbc (by rw [hab])

theorem HeaderFrame.hmode_eq {s t : State} (h : HeaderFrame m s t) : t.hmode = s.hmode := by
  cases m <;> rw [h]

theorem HeaderFrame.refl (s : State) : HeaderFrame m s s := by
  cases m <;> exact rfl

theorem stageAccepted_headerFrame (k : Stage) (s : State) : HeaderFrame m s (stageAccepted k s) := by
  cases m <;> exact rfl

theorem dropWrite_headerFrame (s : State) : HeaderFrame m s (dropWrite s) := by
  cases m <;> exact rfl

theorem raiseError_headerFrame (e : ErrCode) (s : State) : HeaderFrame m s (raiseError e { s with done := false }) := by
  cases m <;> exact rfl

end

/-! ### DesNode (R203) -/

theorem desNodeMove_header {s t : State} (h : desNodeMove s = .ok t) : HeaderChange .tree s t := by
  unfold desNodeMove at h
  rcases inBit_come s with ⟨-, hin⟩ | ⟨b, rest, -, hin⟩
  · rw [hin] at h
    cases h
    exact ⟨rfl, trivial⟩
  · simp only [hin] at h
    split at h
    · cases h
      exact ⟨rfl, trivial⟩
    · split at h
      · cases h
        exact ⟨rfl, trivial⟩
      · cases h
        exact ⟨rfl, trivial⟩

/-- DesNode's returns write the arena, ROOT and STK. -/
theorem closeNode_header {l : List Idx} {c : Idx} {s t : State} (h : closeNode l c s = .ok t) :
    HeaderChange .tree s t := by
  obtain ⟨node, root, stk, p, rfl, hp, -⟩ := closeNode_ok h
  refine ⟨rfl, ?_⟩
  rcases hp with rfl | rfl
  · exact trivial
  · exact trivial

theorem closeLeaf_header {i : Idx} {v : Word} {s t : State} (h : closeLeaf i v s = .ok t) : HeaderChange .tree s t := by
  unfold closeLeaf at h
  split at h
  · cases h
    exact ⟨rfl, trivial⟩
  · split at h
    · cases h
      exact ⟨rfl, trivial⟩
    · split at h
      · cases h
      · next u hu =>
        obtain ⟨-, rfl⟩ := putNode_ok hu
        obtain ⟨hframe, hpoint⟩ := closeNode_header h
        exact ⟨HeaderFrame.trans (by exact rfl) hframe, hpoint⟩

theorem desSymMove_header {i : Idx} {n : Nat} {v : Word} {s t : State} (h : desSymMove i n v s = .ok t) :
    HeaderChange .tree s t := by
  cases n with
  | zero => exact closeLeaf_header h
  | succ n =>
    unfold desSymMove at h
    rcases inBit_come s with ⟨-, hin⟩ | ⟨b, rest, -, hin⟩
    · rw [hin] at h
      cases h
      exact ⟨rfl, trivial⟩
    · rw [hin] at h
      cases h
      exact ⟨rfl, trivial⟩

theorem desCheckMove_header {s t : State} (h : desCheckMove s = .ok t) : HeaderChange .tree s t := by
  unfold desCheckMove at h
  split at h
  · cases h
  · split at h
    · cases h
    · split at h
      · cases h
        exact ⟨rfl, trivial⟩
      · split at h
        · cases h
          exact ⟨rfl, trivial⟩
        · cases h
          exact ⟨rfl, trivial⟩

/-! ### ReadCounts and BuildTree (R205) -/

theorem readCountsMove_header {k n : Nat} {v : Word} {s t : State} (h : readCountsMove k n v s = .ok t) :
    HeaderChange .counts s t := by
  unfold readCountsMove at h
  split at h
  · split at h
    · cases h
      exact ⟨rfl, trivial⟩
    · cases h
      exact ⟨rfl, trivial⟩
  · rcases inBit_come s with ⟨-, hin⟩ | ⟨b, rest, -, hin⟩
    · rw [hin] at h
      cases h
      exact ⟨rfl, trivial⟩
    · rw [hin] at h
      cases h
      exact ⟨rfl, trivial⟩

theorem buildMergeMove_header {n : Idx} {s t : State} (h : buildMergeMove n s = .ok t) : HeaderChange .counts s t := by
  unfold buildMergeMove at h
  split at h
  · cases h
  · cases h
    exact ⟨rfl, trivial⟩
  · obtain ⟨a, b, na, nb, q, -, -, -, -, -, -, rfl⟩ := mergeMove_ok h
    exact ⟨rfl, trivial⟩

/-! ### The stage -/

section
variable {m : HdrFormat}

/-- READ_HEADER begins by HMODE (R202). -/
theorem readHeaderStart_header {s t : State} (hm : s.hmode = m) (h : readHeaderStart s = .ok t) : HeaderChange m s t := by
  unfold readHeaderStart at h
  split at h
  · next htree =>
    cases h
    cases hm.symm.trans htree
    exact ⟨rfl, trivial⟩
  · next hcounts =>
    cases h
    cases hm.symm.trans hcounts
    exact ⟨rfl, trivial⟩

theorem stageEnd_header (s : State) : HeaderChange m s (stageEnd s) := by
  unfold stageEnd
  split
  · cases m <;> exact ⟨rfl, trivial⟩
  · cases m <;> exact ⟨rfl, trivial⟩

/-- A move of READ_HEADER's body keeps to the format that HMODE selects. -/
theorem readHeader_move {s t : State} (hs : s.phase = .readHeader) (hm : s.hmode = m) (hp : HeaderPoint m s.point)
    (h : blockMove s = .ok t) : HeaderChange m s t := by
  cases hpoint : s.point with
  | start =>
    rw [blockMove_start hpoint, stageStart, hs] at h
    exact readHeaderStart_header hm h
  | desNode =>
    obtain rfl := HeaderPoint.eq_tree (hpoint ▸ hp) id
    exact desNodeMove_header (blockMove_desNode hpoint ▸ h)
  | desSym i n v =>
    obtain rfl := HeaderPoint.eq_tree (hpoint ▸ hp) id
    exact desSymMove_header (blockMove_desSym hpoint ▸ h)
  | desCheck =>
    obtain rfl := HeaderPoint.eq_tree (hpoint ▸ hp) id
    exact desCheckMove_header (blockMove_desCheck hpoint ▸ h)
  | readCounts k n v =>
    obtain rfl := HeaderPoint.eq_counts (hpoint ▸ hp) id
    exact readCountsMove_header (blockMove_readCounts hpoint ▸ h)
  | buildLeaves =>
    obtain rfl := HeaderPoint.eq_counts (hpoint ▸ hp) id
    rw [blockMove_buildLeaves hpoint, buildLeavesMove_eq] at h
    cases h
    exact ⟨rfl, trivial⟩
  | buildMerge n =>
    obtain rfl := HeaderPoint.eq_counts (hpoint ▸ hp) id
    exact buildMergeMove_header (blockMove_buildMerge hpoint ▸ h)
  | fin =>
    rw [blockMove_fin hpoint] at h
    cases h
    exact stageEnd_header s
  | _ =>
    rw [hpoint] at hp
    cases m <;> exact hp.elim

/-- A run of stage 8 alone. -/
theorem readHeader_run {s t : State} {n : Nat} (hm : s.hmode = m) (hp : HeaderPoint m s.point)
    (hc : CallOf (· == .readHeader) s) (hr : runMoves n s = .ok t) : HeaderFrame m s t := by
  refine (runMoves_relates (I := fun u => u.hmode = m ∧ HeaderPoint m u.point ∧ CallOf (· == .readHeader) u)
    HeaderFrame.refl (fun _ _ _ => HeaderFrame.trans) (fun u v hmove hb hu => ?_) ⟨hm, hp, hc⟩ hr).1
  obtain ⟨hum, hup, huc⟩ := hu
  obtain ⟨hframe, hpoint⟩ := readHeader_move (beq_iff_eq.1 (huc.stage hb)) hum hup hmove.eq
  exact ⟨hframe, hframe.hmode_eq.trans hum, hpoint, huc.move hmove hb⟩

theorem exec_readHeader_frame {s t : State} (hm : s.hmode = m) (h : exec .readHeader s = .next t) :
    HeaderFrame m s t := by
  rcases exec_stage_cases rfl h with rfl | rfl | ⟨n, hrun⟩
  · exact dropWrite_headerFrame s
  · exact raiseError_headerFrame .illegalCmd s
  · have hstart : HeaderPoint m (stageAccepted .readHeader s).point := by cases m <;> exact trivial
    exact (stageAccepted_headerFrame .readHeader s).trans
      (readHeader_run hm hstart ⟨trivial, fun _ => rfl, nofun⟩ hrun)

end

/-! ## DECODE -/

/-- What DECODE leaves unchanged; D is only appended to. -/
def DecodeFrame (s t : State) : Prop :=
  t = { s with
    phase := t.phase, prog := t.prog, done := t.done, ovr := t.ovr, errcode := t.errcode, ephase := t.ephase
    cur := t.cur, bitSrc := { s.bitSrc with pos := t.bitSrc.pos }, byteSink := t.byteSink, point := t.point
    todo := t.todo, events := t.events } ∧ s.byteSink <+: t.byteSink

theorem DecodeFrame.trans {a b c : State} (hab : DecodeFrame a b) (hbc : DecodeFrame b c) : DecodeFrame a c := by
  obtain ⟨hb, hprefixB⟩ := hab
  obtain ⟨hc, hprefixC⟩ := hbc
  exact ⟨hc.trans (by rw [hb]), hprefixB.trans hprefixC⟩

theorem decodeStart_frame {s t : State} (h : decodeStart s = .ok t) : DecodeFrame s t := by
  unfold decodeStart at h
  split at h
  · cases h
  · cases h
    exact ⟨rfl, List.prefix_rfl⟩

theorem decodeArrive_frame {c : Idx} {s t : State} (h : decodeArrive c s = .ok t) : DecodeFrame s t := by
  unfold decodeArrive at h
  split at h
  · cases h
  · split at h
    · cases h
      exact ⟨rfl, List.prefix_rfl⟩
    · split at h
      · cases h
        exact ⟨rfl, List.prefix_rfl⟩
      · cases h
        exact ⟨rfl, List.prefix_rfl⟩

/-- DECODE reads a bit and moves CUR, or meets EOI. -/
theorem decodeBitMove_frame {s t : State} (h : decodeBitMove s = .ok t) : DecodeFrame s t := by
  unfold decodeBitMove at h
  rcases inBit_come s with ⟨-, hin⟩ | ⟨b, rest, -, hin⟩
  · rw [hin] at h
    cases h
    exact ⟨rfl, List.prefix_rfl⟩
  · simp only [hin] at h
    split at h
    · cases h
    · split at h
      · cases h
      · split at h
        · cases h
        · refine DecodeFrame.trans ?_ (decodeArrive_frame h)
          exact ⟨rfl, List.prefix_rfl⟩

theorem decodeOutMove_frame {c : Sym} {s t : State} (h : decodeOutMove c s = .ok t) : DecodeFrame s t := by
  unfold decodeOutMove at h
  split at h
  · cases h
  · cases h
    exact ⟨rfl, List.prefix_append _ _⟩

/-- DECODE's body: its start, the bits, the bytes. -/
theorem decode_stageFrame : StageFrame .decode DecodeFrame where
  trans _ _ _ := DecodeFrame.trans
  control _ _ _ _ _ _ _ _ _ := ⟨rfl, List.prefix_rfl⟩
  body s t hs hp hfin h := by
    cases hpoint : s.point with
    | start =>
      rw [blockMove_start hpoint, stageStart, hs] at h
      exact decodeStart_frame h
    | decodeBit => exact decodeBitMove_frame (blockMove_decodeBit hpoint ▸ h)
    | decodeOut c => exact decodeOutMove_frame (blockMove_decodeOut hpoint ▸ h)
    | fin => exact absurd hpoint hfin
    | _ =>
      rw [hpoint] at hp
      simp [PointIn] at hp

/-- Settles O54: READ_HEADER's frame for the format that HMODE selects, and DECODE's. -/
theorem readHeaderAndDecodeFrame : Obligations.ReadHeaderAndDecodeFrame := by
  refine ⟨fun s t h => ?_, fun s t => decode_stageFrame.exec rfl⟩
  cases hm : s.hmode with
  | tree =>
    have hframe : t = _ := exec_readHeader_frame hm h
    have hfreq : t.freq = s.freq := by rw [hframe]
    have hpq : t.pq = s.pq := by rw [hframe]
    exact ⟨hframe.trans (by rw [hfreq, hpq, hm]), fun _ => ⟨hfreq, hpq⟩, nofun⟩
  | counts =>
    have hframe : t = _ := exec_readHeader_frame hm h
    have hseen : t.seen = s.seen := by rw [hframe]
    have hnint : t.nint = s.nint := by rw [hframe]
    have hnleaf : t.nleaf = s.nleaf := by rw [hframe]
    have hstk : t.stk = s.stk := by rw [hframe]
    exact ⟨hframe.trans (by rw [hseen, hnint, hnleaf, hstk, hm]), nofun, fun _ => ⟨hseen, hnint, hnleaf, hstk⟩⟩

end Sys2Proof.Machine
end

section
/-! PROOF. ENCODE sends the codes of pass 2, CODE[EOS] and END, or raises MISSING_CODE (46_bitstream_encoder.md R220 to
R225). -/

namespace Sys2Proof.Machine

/-! ## A byte without a code (R223) -/

/-- Stage 6 sends the codes of the bytes before the one without a code, reads that one, and raises MISSING_CODE. -/
theorem stage_encode_missing {pre post : List Byte} {b : Byte} {body : List Bool} {s : State} (hs : s.phase = .encode)
    (hp : s.point = .start) (hsrc : s.byteSrc.s2 = pre ++ b :: post) (hbody : bodyBits s.code pre = some body)
    (hmissing : codeAt s.code (byteSym b) = none) :
    runMoves (body.length + 2 * pre.length + 2) s = .ok (raiseError .missingCode { s with
      events := s.events + (pre.length + body.length + 2)
      byteSrc := { s.byteSrc with pass := .two, pos := pre.length + 1, rewinds := s.byteSrc.rewinds + 1 }
      bitSink := s.bitSink.append body }) := by
  have hb : s.phase ≠ .idle := by rw [hs]; decide
  have hbytes : bytesToCome { rewind s with point := .encodeByte } = pre ++ b :: post := hsrc
  have hpre := run_encodeBytes pre (s := { rewind s with point := .encodeByte }) hb rfl hbytes hbody
  have hlast := (Moved.encodeMissing (s := { rewind s with
      point := .encodeByte, events := s.events + 1 + (body.length + pre.length)
      byteSrc := (rewind s).byteSrc.skip pre.length, bitSink := s.bitSink.append body })
    b post rfl (bytesToCome_skip hbytes rfl) hmissing).eq
  have hevents : s.events + (pre.length + body.length + 2) = s.events + 1 + (body.length + pre.length) + 1 := by omega
  have hpos : pre.length + 1 = 0 + pre.length + 1 := by omega
  rw [hevents, hpos]
  refine run_start hb hp (by simp only [stageStart, hs, encodeStart]) (runMoves_then hpre ?_)
  refine (runMoves_one ?_).trans hlast
  exact hb

/-! ## The command -/

/-- ENCODE ends in one turn as its stage does, when the pace allows the stage's transfers and the stage makes at most two
moves for each: a byte's code is sent bit by bit, and the end of a code with no transfer. -/
theorem exec_encode_of_run {s t : State} {m n : Nat} (hi : s.phase = .idle) (hp : s.prog = .writeHeader)
    (hpace : n ≤ s.pace) (h : runMoves m (stageAccepted .encode s) = .ok t) (ht : t.phase = .idle)
    (he : t.events = s.events + n) (hm : m ≤ 2 * n) : exec .encode s = .next t := by
  have hevents : t.events ≤ s.events + s.pace := he.trans_le (Nat.add_le_add_left hpace _)
  have hmoves : m ≤ (s.pace + 1) * quietMoves := by
    rw [quietMoves]
    omega
  rw [exec_stage rfl]
  exact stage_next hi hp ht h hevents hmoves

/-- Settles O33: the stage sends all codes and END and comes to its last statement, which completes the command. -/
theorem encodeCompletes : Obligations.EncodeCompletes := by
  intro s body e hi hp hbody heos hpace
  rw [Nat.add_comm s.byteSrc.s2.length] at hpace ⊢
  have hstage : runMoves (body.length + 2 * s.byteSrc.s2.length + e.length + 3) (stageAccepted .encode s) = _ :=
    stage_encode rfl rfl hbody heos
  exact exec_encode_of_run hi hp hpace (run_finish hstage nofun rfl) rfl rfl (by omega)

/-- Settles O34: the stage sends the codes of the bytes before the one without a code and aborts there. -/
theorem encodeWithoutCodeAborts : Obligations.EncodeWithoutCodeAborts := by
  intro s pre post b body hi hp hsrc hbody hmissing hpace
  have hstage := stage_encode_missing (s := stageAccepted .encode s) rfl rfl hsrc hbody hmissing
  exact exec_encode_of_run hi hp hpace hstage rfl rfl (by omega)

end Sys2Proof.Machine
end

section
/-! PROOF. DECODE gives back the bytes whose codes come before the code of EOS, or raises TRUNCATED
(47_bitstream_decoder.md R240 to R248). -/

namespace Sys2Proof.Machine

/-- Settles O42: the stage reads the codes of the bytes and of EOS and comes to its last statement, which completes the
command. Besides a move for each bit and each byte it makes one. -/
theorem decodeCompletes : Obligations.DecodeCompletes := by
  intro s T code bs body e rest hi hp hT hcode hbody heos hbits hpace
  obtain ⟨k, hstage⟩ := stage_decode (s := stageAccepted .decode s) rfl rfl hT hcode hbody heos hbits
  exact ⟨k, exec_stage_completes rfl hi hp nofun hpace hstage rfl (Nat.add_lt_add_left (by decide) _)⟩

/-! ## A body that ends before the code of EOS (R244) -/

/-- A run that stands before an InBit when no bit is to come, and the move that meets EOI. -/
theorem run_decodeEoi {s t : State} {n : Nat} (h : runMoves n s = .ok t) (hb : t.phase ≠ .idle)
    (hp : t.point = .decodeBit) (hr : bitsToCome t = []) :
    runMoves (n + 1) s = .ok (raiseError .truncated { t with events := t.events + 1 }) :=
  runMoves_then h ((runMoves_one hb).trans (Moved.decodeShort hp hr).eq)

/-- Stage 9 writes the bytes whose codes are complete, follows the beginning of the next code to an internal node, and
meets EOI there. -/
theorem stage_decode_cutShort {T : HTree} {code : Cells (List Bool)} {bs : List Byte} {c : Sym}
    {body q more : List Bool} {s : State} (hs : s.phase = .decode) (hp : s.point = .start) (hT : TreeAt s T)
    (hcode : CodesOf T code) (hbody : bodyBits code bs = some body) (hc : codeAt code c = some (q ++ more))
    (hmore : more ≠ []) (hr : bitsToCome s = body ++ q) :
    ∃ k, runMoves (body.length + bs.length + q.length + 2) s = .ok (raiseError .truncated { s with
      events := s.events + (body.length + bs.length + q.length + 1), cur := some k
      bitSrc := s.bitSrc.skip (body.length + q.length), byteSink := s.byteSink ++ bs }) := by
  have hb : s.phase ≠ .idle := by rw [hs]; decide
  obtain ⟨r, is, hroot, hholds, hsound, -⟩ := hT
  obtain ⟨k, w, a, b, hleads, hinner⟩ := hholds.leads_prefix ((hcode _ _).1 hc) hmore
  have hbytes := run_decodeBytes bs (s := { s with point := .decodeBit, cur := some r }) hholds hsound.rootInternal
    hcode hbody hb rfl rfl hroot hr
  have hbegun : bitsToCome { s with bitSrc := s.bitSrc.skip body.length } = q ++ [] :=
    (bitsToCome_skip hr rfl).trans (List.append_nil q).symm
  have hcut := runMoves_then hbytes (run_inner hleads hinner hb rfl rfl hbegun)
  have heoi := run_decodeEoi hcut hb rfl (bitsToCome_skip hbegun rfl)
  have hevents : s.events + (body.length + bs.length + q.length + 1) =
      s.events + (body.length + bs.length) + q.length + 1 := by omega
  rw [hevents, ← BitSource.skip_skip]
  exact ⟨k, run_start hb hp (by simp only [stageStart, hs, decodeStart, hroot]) heoi⟩

/-- Settles O43: the stage aborts where the bits end, by one transfer more than the bits and bytes. -/
theorem decodeCutShortAborts : Obligations.DecodeCutShortAborts := by
  intro s T code bs c body q more hi hp hT hcode hbody hc hmore hbits hpace
  obtain ⟨k, hstage⟩ := stage_decode_cutShort (s := stageAccepted .decode s) rfl rfl hT hcode hbody hc hmore hbits
  rw [exec_stage rfl]
  have hevents : s.events + (body.length + bs.length + q.length + 1) ≤ s.events + s.pace :=
    Nat.add_le_add_left hpace _
  exact ⟨k, stage_next hi hp rfl hstage hevents (moves_fit_turn hpace (by rw [quietMoves]; omega))⟩

end Sys2Proof.Machine
end

section
/-! PROOF. Everything a command and a step of the machine can do, said once (48_control.md R260 to R273); and that every
step leaves the block idle or before a transfer (log 10). -/

namespace Sys2Proof.Machine

/-! ## Commands by their stages -/

/-- An entry command accepts the first of its stages, which needs none before it, and then runs the others. -/
theorem acceptanceOf_of_callOf {i : Instr} {d : Direction} (h : callOf i = some d) :
    ∃ k ks, stagesOf i = k :: ks ∧ acceptanceOf i = .entry d k ks ∧ stageBefore k = .idle ∧
      (ks = [] ∨ ks = stagesAfter k) := by
  cases i <;> cases h
  case compress | decompress => exact ⟨_, _, rfl, rfl, rfl, .inr rfl⟩
  case count | readTag => exact ⟨_, _, rfl, rfl, rfl, .inl rfl⟩

/-- A stage command runs one stage, which needs the stage before it. -/
theorem acceptanceOf_of_neededBy {i : Instr} {need : Stage} (h : neededBy i = some need) :
    ∃ k, stagesOf i = [k] ∧ acceptanceOf i = .stage need k ∧ need = stageBefore k ∧ need ≠ .idle := by
  cases i <;> cases h <;> exact ⟨_, rfl, rfl, rfl, nofun⟩

/-- The block when it has accepted the entry command whose stages are `k` and `ks`, and stands before the first statement
of `k` (48_control.md R260, R261, R266). -/
def entryAccepted (d : Direction) (k : Stage) (ks : List Stage) (s : State) : State :=
  { callInit d { s with done := false } with phase := k, point := .start, todo := ks }

/-! ## What a command can do -/

/-- The ways of a command that answers a next state. -/
inductive ExecCase (i : Instr) (s : State) : State → Prop
  | nop : i = .nop → ExecCase i s s
  | soft : i = .softReset → ExecCase i s (softReset s)
  | dropped : s.phase ≠ .idle → ExecCase i s (dropWrite s)
  | illegal (need : Stage) : s.phase = .idle → neededBy i = some need → s.prog ≠ need →
    ExecCase i s (raiseError .illegalCmd { s with done := false })
  | entry (d : Direction) (k : Stage) (ks : List Stage) (t : State) : s.phase = .idle → callOf i = some d →
    stagesOf i = k :: ks → stageBefore k = .idle → (ks = [] ∨ ks = stagesAfter k) →
    takeTurn (entryAccepted d k ks s) = .next t → ExecCase i s t
  | stage (k : Stage) (t : State) : s.phase = .idle → neededBy i = some (stageBefore k) → stageBefore k ≠ .idle →
    stagesOf i = [k] → s.prog = stageBefore k → takeTurn (stageAccepted k s) = .next t → ExecCase i s t

theorem execCase_of_callOf {i : Instr} {d : Direction} {s t : State} (hd : callOf i = some d)
    (h : exec i s = .next t) : ExecCase i s t := by
  obtain ⟨k, ks, hstages, ha, hk, hks⟩ := acceptanceOf_of_callOf hd
  rw [exec_entry ha] at h
  by_cases hi : s.phase = .idle
  · rw [acceptEntry_idle hi] at h
    exact .entry d k ks t hi hd hstages hk hks h
  · cases (acceptEntry_busy hi).symm.trans h
    exact .dropped hi

theorem execCase_of_neededBy {i : Instr} {need : Stage} {s t : State} (hn : neededBy i = some need)
    (h : exec i s = .next t) : ExecCase i s t := by
  obtain ⟨k, hstages, ha, rfl, hk⟩ := acceptanceOf_of_neededBy hn
  rw [exec_stage ha] at h
  by_cases hi : s.phase = .idle
  · by_cases hp : s.prog = stageBefore k
    · rw [acceptStage_legal hi hp] at h
      exact .stage k t hi hn hk hstages hp h
    · cases (acceptStage_illegal hi hp).symm.trans h
      exact .illegal _ hi hn hp
  · cases (acceptStage_busy hi).symm.trans h
    exact .dropped hi

/-- A command is a control command, an entry command, or a stage command. -/
theorem command_kinds (i : Instr) :
    i = .nop ∨ i = .softReset ∨ (∃ d, callOf i = some d) ∨ ∃ need, neededBy i = some need := by
  cases i <;> simp [callOf, neededBy]

theorem exec_cases {i : Instr} {s t : State} (h : exec i s = .next t) : ExecCase i s t := by
  obtain rfl | rfl | ⟨d, hd⟩ | ⟨need, hn⟩ := command_kinds i
  · cases h
    exact .nop rfl
  · cases h
    exact .soft rfl
  · exact execCase_of_callOf hd h
  · exact execCase_of_neededBy hn h

/-! ## What a step can do -/

/-- The ways of a step that answers a next state: a turn, a change of the environment alone, a command, a reserved word
while idle, a dropped write to CMD or MODE, a MODE write while idle, a hardware reset. -/
inductive StepCase (s : State) : State → Prop
  | turn (h : List HostOp) (r : Word) (t : State) : takeTurn (withEnv s.pace h r s) = .next t → StepCase s t
  | env (b : ByteSource) (a : BitSource) (r : Word) (p : Nat) (h : List HostOp) :
    StepCase s { s with byteSrc := b, bitSrc := a, rdata := r, pace := p, host := h }
  | command (i : Instr) (rest : List HostOp) (t : State) : s.host = .write 0x000 4 (encodeWord i) :: rest →
    ExecCase i { s with host := rest } t → StepCase s t
  | reserved (rest : List HostOp) : s.phase = .idle →
    StepCase s (raiseError .illegalCmd { s with host := rest, done := false })
  | dropped (rest : List HostOp) : s.phase ≠ .idle → StepCase s (dropWrite { s with host := rest })
  | mode (v : Word) (rest : List HostOp) (m : HdrFormat) : s.phase = .idle → s.host = .write 0x008 4 v :: rest →
    (m = .counts → s.cfg.hasCounts = true) → StepCase s { s with host := rest, mode := m }
  | hwReset (rest : List HostOp) : s.host = .hwReset :: rest → StepCase s (hardReset { s with host := rest })

/-- An environment change on which the host's last read and the sources stay as they are. -/
theorem StepCase.script (s : State) (rest : List HostOp) : StepCase s { s with host := rest } :=
  .env s.byteSrc s.bitSrc s.rdata s.pace rest

theorem writeCmd_stepCase {s t : State} {w : Word} {rest : List HostOp} (hh : s.host = .write 0x000 4 w :: rest)
    (h : writeCmd w { s with host := rest } = .next t) : StepCase s t := by
  unfold writeCmd at h
  split at h
  · next i hw =>
    obtain rfl := decodeWord_eq_ok_iff.1 hw
    exact .command i rest t hh (exec_cases h)
  · by_cases hi : s.phase = .idle
    · cases (acceptReserved_idle (s := { s with host := rest }) hi).symm.trans h
      exact .reserved rest hi
    · cases (acceptReserved_busy (s := { s with host := rest }) hi).symm.trans h
      exact .dropped rest hi

theorem writeMode_busy {s : State} (h : s.phase ≠ .idle) (v : Word) : writeMode v s = dropWrite s :=
  if_pos ((busy_iff s).2 h)

theorem writeMode_idle {s : State} (h : s.phase = .idle) (v : Word) :
    writeMode v s = if s.cfg.hasCounts then { s with mode := HdrFormat.ofBit (v.getLsbD 0) } else s := by
  rw [writeMode, (not_busy_iff s).2 h]
  rfl

theorem writeMode_stepCase {s : State} {v : Word} {rest : List HostOp} (hh : s.host = .write 0x008 4 v :: rest) :
    StepCase s (writeMode v { s with host := rest }) := by
  by_cases hi : s.phase = .idle
  · rw [writeMode_idle (s := { s with host := rest }) hi]
    split
    · next hc => exact .mode v rest _ hi hh fun _ => hc
    · exact .script s rest
  · rw [writeMode_busy (s := { s with host := rest }) hi]
    exact .dropped rest hi

theorem regWrite_stepCase {s t : State} {addr width : Nat} {v : Word} {rest : List HostOp}
    (hh : s.host = .write addr width v :: rest) (h : regWrite addr width v { s with host := rest } = .next t) :
    StepCase s t := by
  unfold regWrite at h
  split at h
  · next hwf =>
    obtain ⟨rfl, -, -⟩ := accessWf_iff.1 hwf
    split at h
    · next ha =>
      subst ha
      exact writeCmd_stepCase hh h
    · split at h
      · next ha =>
        subst ha
        cases h
        exact writeMode_stepCase hh
      · cases h
        exact .script s rest
  · cases h

theorem EnvChange.stepCase {s t : State} (h : EnvChange s t) : StepCase s t := by
  cases h with
  | env p h r => exact .env s.byteSrc s.bitSrc r p h
  | bytes src h hi => exact .env src s.bitSrc s.rdata s.pace h
  | bits src h hi => exact .env s.byteSrc src s.rdata s.pace h

theorem pollStatus_stepCase {s t : State} {rest : List HostOp} (h : pollStatus { s with host := rest } = .next t) :
    StepCase s t := by
  unfold pollStatus at h
  split at h
  · exact .turn (.poll :: rest) s.status t h
  · cases h
    exact .env s.byteSrc s.bitSrc s.status s.pace rest

theorem runHostOp_stepCase {s t : State} {op : HostOp} {rest : List HostOp} (hh : s.host = op :: rest)
    (h : runHostOp op { s with host := rest } = .next t) : StepCase s t := by
  cases op with
  | write addr width v => exact regWrite_stepCase hh h
  | read addr width => exact (regRead_envChange h).stepCase
  | poll => exact pollStatus_stepCase h
  | hwReset =>
    cases h
    exact .hwReset rest hh
  | setBytes s1 s2 => exact (setBytes_envChange h).stepCase
  | setBits b => exact (setBits_envChange h).stepCase
  | turn => exact .turn rest s.rdata t h
  | setPace n =>
    cases h
    exact .env s.byteSrc s.bitSrc s.rdata n rest

theorem step_cases {s t : State} (h : step s = .next t) : StepCase s t := by
  cases hh : s.host with
  | nil => exact .turn s.host s.rdata t ((step_noEntry hh).symm.trans h)
  | cons op rest => exact runHostOp_stepCase hh ((step_entry hh).symm.trans h)

/-! ## Every step leaves the block settled (log 10) -/

/-- Where the block waits depends on the stage, its point and the nodes still to visit alone. -/
theorem Settled.congr {s t : State} (hs : Inv s) (ht : Inv t) (hphase : t.phase = s.phase) (hpoint : t.point = s.point)
    (hwalk : t.walk = s.walk) (h : Settled s) : Settled t := by
  have hwaits : waits t = waits s := by simp only [waits, hphase, hpoint, hwalk]
  rw [settled_iff_waits ht, hphase, hwaits]
  exact (settled_iff_waits hs).1 h

/-- A change of OVR and the environment leaves the block where it stands. -/
theorem Settled.env {s : State} (hi : Inv s) (h : Settled s) (b : ByteSource) (o : Bool) (a : BitSource) (r : Word)
    (p : Nat) (hh : List HostOp) :
    Settled { s with byteSrc := b, ovr := o, bitSrc := a, rdata := r, pace := p, host := hh } :=
  h.congr hi (inv_kept.env s b o a r p hh hi) rfl rfl rfl

theorem takeTurn_settled {s t : State} (hi : Inv s) (h : takeTurn s = .next t) : Settled t := by
  obtain ⟨u, hu, hsettled⟩ := turn_settles (p := s.pace) hi (Nat.le_refl _)
  cases hu.symm.trans (takeTurn_next.1 h)
  exact hsettled

/-- A command leaves the block as it found it, idle, or at the end of a turn. -/
theorem ExecCase.settled {i : Instr} {s t : State} (hi : Inv s) (hs : Settled s) (h : ExecCase i s t) : Settled t := by
  cases h with
  | nop => exact hs
  | soft => exact .inl rfl
  | dropped => exact hs.env hi s.byteSrc true s.bitSrc s.rdata s.pace s.host
  | illegal => exact .inl rfl
  | entry d k ks t hidle hd hstages hk hks ht => exact takeTurn_settled (inv_kept.entry s d k ks hi hidle hk hks) ht
  | stage k t hidle hn hk hstages hp ht => exact takeTurn_settled (inv_kept.stage s k hi hidle hp hk) ht

/-- Settles O59: a step leaves the block where it stands, idle, or at the end of a turn. -/
theorem everyStepLeavesTheBlockSettled : Obligations.EveryStepLeavesTheBlockSettled := by
  intro s t hi hs h
  have hscript (rest : List HostOp) : Inv { s with host := rest } :=
    inv_kept.env s s.byteSrc s.ovr s.bitSrc s.rdata s.pace rest hi
  cases step_cases h with
  | turn hh r t ht => exact takeTurn_settled (inv_kept.env s s.byteSrc s.ovr s.bitSrc r s.pace hh hi) ht
  | env b a r p hh => exact hs.env hi b s.ovr a r p hh
  | command i rest t hh hexec =>
    exact hexec.settled (hscript rest) (hs.env hi s.byteSrc s.ovr s.bitSrc s.rdata s.pace rest)
  | reserved rest hidle => exact .inl rfl
  | dropped rest hb => exact hs.env hi s.byteSrc true s.bitSrc s.rdata s.pace rest
  | mode v rest m hidle hh hm => exact .inl hidle
  | hwReset rest hh => exact .inl rfl

end Sys2Proof.Machine
end

section
/-! PROOF. The command controller: acceptance (48_control.md R260, R264 to R266, R271 to R273), the end of a stage (R261,
R263), the error abort (60_exceptions.md R302) and reset (70_reset_and_hazards.md R330). -/

namespace Sys2Proof.Machine

/-! ## Writes to CMD and MODE -/

theorem encodeWord_inj {i j : Instr} : encodeWord i = encodeWord j ↔ i = j := by
  constructor
  · intro h
    exact Except.ok.inj ((decodeWord_eq_ok_iff.2 h).symm.trans (decodeWord_eq_ok_iff.2 rfl)).symm
  · exact congrArg encodeWord

theorem writeCmd_of_decode {w : Word} {i : Instr} (h : decodeWord w = .ok i) (s : State) : writeCmd w s = exec i s := by
  rw [writeCmd, h]

theorem writeCmd_encodeWord (i : Instr) (s : State) : writeCmd (encodeWord i) s = exec i s :=
  writeCmd_of_decode (decodeWord_eq_ok_iff.2 rfl) s

/-- A word that is no command's word is accepted as a reserved word. -/
theorem writeCmd_reserved {w : Word} (h : ∀ i, w ≠ encodeWord i) (s : State) : writeCmd w s = acceptReserved s := by
  cases hw : decodeWord w with
  | ok i => exact absurd (decodeWord_eq_ok_iff.1 hw) (h i)
  | error e => rw [writeCmd, hw]

theorem step_writeCmd {s : State} {w : Word} {rest : List HostOp} (h : s.host = .write 0x000 4 w :: rest) :
    step s = writeCmd w { s with host := rest } :=
  step_entry h

theorem step_writeMode {s : State} {v : Word} {rest : List HostOp} (h : s.host = .write 0x008 4 v :: rest) :
    step s = .next (writeMode v { s with host := rest }) :=
  step_entry h

/-- Settles O5: a write to CMD runs the command its word decodes to, and the word placed at the head of the script is the
command's own. -/
theorem stepRunsTheDecodedCommand : Obligations.StepRunsTheDecodedCommand := by
  refine ⟨fun s w i rest hw hh => (step_writeCmd hh).trans (writeCmd_of_decode hw _), fun s i => ?_⟩
  have hword : tableWord 32 (encodeWord i).toNat = encodeWord i := by
    rw [tableWord, Nat.mod_eq_of_lt (encodeWord i).isLt, BitVec.ofNat_toNat, BitVec.setWidth_eq]
  rw [State.withFetchWord, hword]
  exact (step_writeCmd rfl).trans (writeCmd_encodeWord i s)

/-! ## Acceptance by the tables of commands (R260) -/

theorem exec_busy {i : Instr} {s : State} (hb : s.phase ≠ .idle) (hnop : i ≠ .nop) (hsoft : i ≠ .softReset) :
    exec i s = .next (dropWrite s) := by
  obtain h | h | ⟨d, hd⟩ | ⟨need, hn⟩ := command_kinds i
  · exact absurd h hnop
  · exact absurd h hsoft
  · obtain ⟨k, ks, -, ha, -⟩ := acceptanceOf_of_callOf hd
    rw [exec_entry ha, acceptEntry_busy hb]
  · obtain ⟨k, -, ha, -⟩ := acceptanceOf_of_neededBy hn
    rw [exec_stage ha, acceptStage_busy hb]

theorem exec_entry_idle {i : Instr} {d : Direction} {s : State} (hd : callOf i = some d) (hi : s.phase = .idle) :
    exec i s = runStages (stagesOf i) (callInit d { s with done := false }) := by
  obtain ⟨k, ks, hstages, ha, -⟩ := acceptanceOf_of_callOf hd
  rw [exec_entry ha, acceptEntry_idle hi, hstages, runStages]

theorem exec_stage_idle {i : Instr} {need : Stage} {s : State} (hn : neededBy i = some need) (hi : s.phase = .idle) :
    exec i s = if need = s.prog then runStages (stagesOf i) { s with done := false }
      else illegal { s with done := false } := by
  obtain ⟨k, hstages, ha, -⟩ := acceptanceOf_of_neededBy hn
  rw [exec_stage ha, hstages]
  split
  · next hp => exact acceptStage_legal hi hp.symm
  · next hp => exact acceptStage_illegal hi (Ne.symm hp)

theorem callOf_of_neededBy {i : Instr} {need : Stage} (hn : neededBy i = some need) : callOf i = none := by
  cases i <;> cases hn <;> rfl

theorem find_encodeWord (i : Instr) : Instr.all.find? (fun j => encodeWord j == encodeWord i) = some i := by
  cases i <;> rfl

theorem find_reserved {w : Word} (h : ∀ i, w ≠ encodeWord i) :
    Instr.all.find? (fun j => encodeWord j == w) = none :=
  List.find?_eq_none.2 fun i _ => by simpa using (h i).symm

/-- Settles O6: a word is a command's word or reserved, and a command is NOP, SOFT_RESET, an entry command or a stage
command. -/
theorem commandAcceptanceOrder : Obligations.CommandAcceptanceOrder := by
  intro s w rest hh
  rw [step_writeCmd hh]
  by_cases hw : ∃ i, w = encodeWord i
  · obtain ⟨i, rfl⟩ := hw
    simp only [writeCmd_encodeWord, encodeWord_inj, find_encodeWord]
    by_cases hnop : i = .nop
    · subst hnop
      rfl
    by_cases hsoft : i = .softReset
    · subst hsoft
      rfl
    rw [if_neg hnop, if_neg hsoft]
    by_cases hi : s.phase = .idle
    · rw [if_neg (not_not_intro hi)]
      obtain h | h | ⟨d, hd⟩ | ⟨need, hn⟩ := command_kinds i
      · exact absurd h hnop
      · exact absurd h hsoft
      · rw [exec_entry_idle (s := { s with host := rest }) hd hi, hd]
      · rw [exec_stage_idle (s := { s with host := rest }) hn hi, callOf_of_neededBy hn, hn]
        simp only [Option.some_inj]
    · rw [if_pos hi]
      exact exec_busy (s := { s with host := rest }) hi hnop hsoft
  · have hw' : ∀ i, w ≠ encodeWord i := fun i h => hw ⟨i, h⟩
    rw [writeCmd_reserved hw', if_neg (hw' .nop), if_neg (hw' .softReset), find_reserved hw']
    by_cases hi : s.phase = .idle
    · rw [if_neg (not_not_intro hi)]
      exact acceptReserved_idle hi
    · rw [if_pos hi]
      exact acceptReserved_busy hi

/-- The error abort at acceptance of an idle block: EPHASE is 0, and DONE and PROG are too (R271). -/
theorem illegal_idle {s : State} (hi : s.phase = .idle) :
    illegal { s with done := false } = .next { s with
      done := false, prog := .idle, errcode := .illegalCmd, ephase := .idle, phase := .idle, point := .start
      todo := [] } := by
  rw [illegal, raiseError, hi]

/-- Settles O7: both are accepted as ILLEGAL_CMD, the error abort of an idle block. -/
theorem illegalCommandWhileIdle : Obligations.IllegalCommandWhileIdle := by
  refine ⟨fun s w rest hi hh hw => ?_, fun s i k hi hn hp => ?_⟩
  · rw [step_writeCmd hh, writeCmd_reserved hw]
    exact (acceptReserved_idle (s := { s with host := rest }) hi).trans (illegal_idle (s := { s with host := rest }) hi)
  · rw [exec_stage_idle hn hi, if_neg (Ne.symm hp)]
    exact illegal_idle hi

/-- Settles O9: both answer the state their definitions name, in every state. -/
theorem controlCommandsComplete : Obligations.ControlCommandsComplete :=
  ⟨fun _ => rfl, fun _ => rfl⟩

/-- Settles O20: bit 0 is taken where the counts header is implemented; elsewhere MODE is hard-wired to 0. -/
theorem modeWriteWhileIdle : Obligations.ModeWriteWhileIdle := by
  intro s v rest hi hh
  rw [step_writeMode hh, writeMode_idle (s := { s with host := rest }) hi]
  refine ⟨fun hc => ?_, fun hc => ⟨?_, ?_⟩⟩
  · rw [if_pos hc]
    rfl
  · rw [if_neg (Bool.not_eq_true _ ▸ hc)]
  · rw [modeWord_eq, if_neg fun h => Bool.false_ne_true (hc.symm.trans h.1)]

/-! ## The first turn of an entry command (R266) -/

/-- A block that is to read a byte to count it stands before a transfer. -/
theorem settled_countByte {s : State} (hp : s.point = .countByte) : Settled s := by
  right
  rw [blockMove_countByte hp, countMove]
  obtain ⟨-, h⟩ | ⟨b, rest, -, h⟩ := inByte_come s
  · rw [h]
    exact ⟨_, rfl, Nat.lt_succ_self _⟩
  · rw [h]
    by_cases hf : (freqAt s.freq b).toNat = maxCount s.cfg
    · exact ⟨_, if_pos hf, Nat.lt_succ_self _⟩
    · exact ⟨_, if_neg hf, Nat.lt_succ_self _⟩

/-- So does one that is to read a bit of a tag. -/
theorem settled_recvTag {s : State} {n : Nat} {v : Word} (hp : s.point = .recvTag (n + 1) v) : Settled s := by
  right
  rw [blockMove_recvTag hp, recvTagMove]
  obtain ⟨-, h⟩ | ⟨b, rest, -, h⟩ := inBit_come s
  · rw [h]
    exact ⟨_, rfl, Nat.lt_succ_self _⟩
  · rw [h]
    exact ⟨_, rfl, Nat.lt_succ_self _⟩

/-- When no transfer completes, the first turn of a command makes the first statement of its stage, and stops there if
that stands before a transfer. -/
theorem runCommand_stalled {k : Stage} {ks : List Stage} {s t : State} (hk : k ≠ .idle) (hpace : s.pace = 0)
    (hstart : stageStart { s with phase := k, point := .start, todo := ks } = .ok t) (he : t.events = s.events)
    (hs : Settled t) : runCommand k ks s = .next t := by
  have hrun : runMoves 1 { s with phase := k, point := .start, todo := ks } = .ok t :=
    run_start hk rfl hstart rfl
  have hturn (n : Nat) (hn : 1 ≤ n) : turn n 0 { s with phase := k, point := .start, todo := ks } = .ok t :=
    (turn_quiet hrun he hn).trans (turn_stalled hs)
  have hpaced (p : Nat) (hp : p = 0) :
      turn ((p + 1) * quietMoves) p { s with phase := k, point := .start, todo := ks } = .ok t := by
    rw [hp]
    exact hturn _ (by decide)
  exact takeTurn_next.2 (hpaced s.pace hpace)

/-- Settles O11: CallInit, then the first statement of the first stage, which stands before InByte or InBit. -/
theorem entryCommandsInitialiseTheCall : Obligations.EntryCommandsInitialiseTheCall := by
  intro s i hi hpace
  refine ⟨fun hd => ?_, fun hd => ?_⟩
  · obtain ⟨ks, hstages⟩ : ∃ ks, stagesOf i = .count :: ks := by cases i <;> cases hd <;> exact ⟨_, rfl⟩
    rw [exec_entry_idle hd hi, hstages]
    exact runCommand_stalled nofun hpace rfl rfl (settled_countByte rfl)
  · obtain ⟨ks, hstages⟩ : ∃ ks, stagesOf i = .readTag :: ks := by cases i <;> cases hd <;> exact ⟨_, rfl⟩
    rw [exec_entry_idle hd hi, hstages]
    exact runCommand_stalled nofun hpace rfl rfl (settled_recvTag rfl)

/-! ## The end of a stage, the error abort, reset -/

theorem stageEnd_last {s : State} (ht : s.todo = []) : stageEnd s = completedIn s.phase 0 s := by
  rw [stageEnd, ht]
  rfl

theorem stageEnd_next {s : State} {k : Stage} {ks : List Stage} (ht : s.todo = k :: ks) :
    stageEnd s = { s with prog := s.phase, phase := k, point := .start, todo := ks } := by
  rw [stageEnd, ht]

/-- Settles O12: the move at the end of a stage body is the stage's last statement. -/
theorem stageEndHandsOver : Obligations.StageEndHandsOver := by
  intro s _ hp
  rw [blockMove_fin hp]
  exact ⟨fun ht => congrArg Except.ok (stageEnd_last ht), fun k ks ht => congrArg Except.ok (stageEnd_next ht)⟩

/-- Settles O13: the abort is these writes. -/
theorem errorAbortEffect : Obligations.ErrorAbortEffect :=
  fun _ _ => rfl

/-- Settles O10: hardware reset and the state after reset write out the same values, and an idle block takes an empty
turn. -/
theorem hardwareResetValues : Obligations.HardwareResetValues := by
  refine ⟨fun s rest hh => step_entry hh, (step_noEntry rfl).trans (takeTurn_idle rfl), fun c => ⟨?_, ?_, ?_⟩, rfl⟩
  · change (0#11 ++ Stage.idle.code ++ BitVec.ofBool false ++ ErrCode.none.code ++ BitVec.ofBool false ++
      BitVec.ofBool false ++ BitVec.ofBool false ++ BitVec.ofBool false ++ Stage.idle.code ++ Stage.idle.code) = 0#32
    decide
  · rw [modeWord_eq]
    exact if_neg fun h => nomatch h.2
  · exact ⟨fun _ => rfl, fun _ => rfl, fun _ => rfl, rfl, rfl, rfl, rfl, rfl, rfl, rfl, rfl⟩

end Sys2Proof.Machine
end

section
/-! PROOF. What no move of the block changes, what a move only appends to, and what an error leaves (20_memory.md R68 to
R71; 48_control.md R272; 60_exceptions.md R301, R302, R305, R315; 70_reset_and_hazards.md R342). -/

namespace Sys2Proof.Machine

/-! ## What no move changes -/

/-- The state that belongs to the host and the environment: the configuration, MODE, OVR, the model's own fields but the
count of events, and what the sources deliver. -/
structure HostPart where
  cfg : Config
  mode : HdrFormat
  ovr : Bool
  pace : Nat
  host : List HostOp
  rdata : Word
  s1 : List Byte
  s2 : List Byte
  bits : List Bool

def State.hostPart (s : State) : HostPart :=
  ⟨s.cfg, s.mode, s.ovr, s.pace, s.host, s.rdata, s.byteSrc.s1, s.byteSrc.s2, s.bitSrc.seq⟩

/-- What each move of a run keeps, the run keeps; `I` is what the moves keep besides. -/
theorem runMoves_keeps {α : Type} {f : State → α} {I : State → Prop}
    (hmove : ∀ s t, Moved s t → s.phase ≠ .idle → I s → f t = f s ∧ I t) {n : Nat} {s t : State} (h0 : I s)
    (h : runMoves n s = .ok t) : f t = f s :=
  (runMoves_relates (R := fun a b => f b = f a) (fun _ => rfl) (fun _ _ _ hab hbc => hbc.trans hab) hmove h0 h).1

theorem Moved.hostPart_eq {s t : State} (h : Moved s t) : t.hostPart = s.hostPart := by
  cases h
  case symGood h =>
    obtain ⟨node, root, stk, p, rfl, -, -⟩ := closeNode_ok h
    rfl
  case stageEnd =>
    unfold Machine.stageEnd
    split <;> rfl
  all_goals rfl

theorem runMoves_hostPart {n : Nat} {s t : State} (h : runMoves n s = .ok t) : t.hostPart = s.hostPart :=
  runMoves_keeps (I := fun _ => True) (fun _ _ hm _ _ => ⟨hm.hostPart_eq, trivial⟩) trivial h

theorem takeTurn_hostPart {s t : State} (h : takeTurn s = .next t) : t.hostPart = s.hostPart := by
  obtain ⟨n, -, hr, -⟩ := takeTurn_run h
  exact runMoves_hostPart hr

theorem takeTurn_ovr {s t : State} (h : takeTurn s = .next t) : t.ovr = s.ovr :=
  congrArg HostPart.ovr (takeTurn_hostPart h)

theorem takeTurn_mode {s t : State} (h : takeTurn s = .next t) : t.mode = s.mode :=
  congrArg HostPart.mode (takeTurn_hostPart h)

theorem takeTurn_cfg {s t : State} (h : takeTurn s = .next t) : t.cfg = s.cfg :=
  congrArg HostPart.cfg (takeTurn_hostPart h)

/-! ## OVR (48_control.md R272) -/

theorem entryAccepted_cfg (d : Direction) (k : Stage) (ks : List Stage) (s : State) :
    (entryAccepted d k ks s).cfg = s.cfg := by
  cases d <;> rfl

theorem entryAccepted_mode (d : Direction) (k : Stage) (ks : List Stage) (s : State) :
    (entryAccepted d k ks s).mode = s.mode := by
  cases d <;> rfl

/-- A command that takes OVR from 1 to 0 is SOFT_RESET or an entry command accepted while idle. -/
theorem ExecCase.clears_ovr {i : Instr} {s t : State} (h : ExecCase i s t) (hs : s.ovr = true) (ht : t.ovr = false) :
    i = .softReset ∨ (s.phase = .idle ∧ ∃ d, callOf i = some d) := by
  cases h with
  | nop => cases hs.symm.trans ht
  | soft hi => exact .inl hi
  | dropped => cases ht
  | illegal => cases hs.symm.trans ht
  | entry d k ks t hidle hd => exact .inr ⟨hidle, d, hd⟩
  | stage k t hidle hn hk hstages hp hturn => cases hs.symm.trans ((takeTurn_ovr hturn).symm.trans ht)

/-- Settles O8: a busy block drops both writes, and of the ways of a step only the three named take OVR back. -/
theorem writesWhileBusyAreDropped : Obligations.WritesWhileBusyAreDropped := by
  refine ⟨fun s w rest hb hh hnop hsoft => ?_, fun s v rest hb hh => ?_, fun s t h hs ht => ?_⟩
  · rw [commandAcceptanceOrder s w rest hh, if_neg hnop, if_neg hsoft, if_pos hb]
  · rw [step_writeMode hh, writeMode_busy (s := { s with host := rest }) hb]
    rfl
  · cases step_cases h with
    | turn hh r t hturn => cases hs.symm.trans ((takeTurn_ovr hturn).symm.trans ht)
    | env => cases hs.symm.trans ht
    | command i rest t hh hexec =>
      obtain rfl | ⟨hidle, d, hd⟩ := hexec.clears_ovr hs ht
      · exact ⟨rest, .inr (.inl hh)⟩
      · exact ⟨rest, .inr (.inr ⟨hidle, i, d, hd, hh⟩)⟩
    | reserved => cases hs.symm.trans ht
    | dropped => cases ht
    | mode => cases hs.symm.trans ht
    | hwReset rest hh => exact ⟨rest, .inl hh⟩

/-! ## MODE and the configuration (70_reset_and_hazards.md R342) -/

theorem ExecCase.keeps_mode_cfg {i : Instr} {s t : State} (h : ExecCase i s t) : t.mode = s.mode ∧ t.cfg = s.cfg := by
  cases h with
  | nop => exact ⟨rfl, rfl⟩
  | soft => exact ⟨rfl, rfl⟩
  | dropped => exact ⟨rfl, rfl⟩
  | illegal => exact ⟨rfl, rfl⟩
  | entry d k ks t hidle hd hstages hk hks hturn =>
    exact ⟨(takeTurn_mode hturn).trans (entryAccepted_mode d k ks s),
      (takeTurn_cfg hturn).trans (entryAccepted_cfg d k ks s)⟩
  | stage k t hidle hn hk hstages hp hturn => exact ⟨(takeTurn_mode hturn).trans rfl, (takeTurn_cfg hturn).trans rfl⟩

/-- A step keeps the configuration, and MODE too but for a MODE write while idle and a hardware reset. -/
theorem StepCase.mode_cfg {s t : State} (h : StepCase s t) :
    t.cfg = s.cfg ∧ (t.mode = s.mode ∨
      ∃ rest, s.host = .hwReset :: rest ∨ (s.phase = .idle ∧ ∃ v, s.host = .write 0x008 4 v :: rest)) := by
  cases h with
  | turn hh r t hturn => exact ⟨(takeTurn_cfg hturn).trans rfl, .inl ((takeTurn_mode hturn).trans rfl)⟩
  | env => exact ⟨rfl, .inl rfl⟩
  | command i rest t hh hexec => exact ⟨hexec.keeps_mode_cfg.2, .inl hexec.keeps_mode_cfg.1⟩
  | reserved => exact ⟨rfl, .inl rfl⟩
  | dropped => exact ⟨rfl, .inl rfl⟩
  | mode v rest m hidle hh => exact ⟨rfl, .inr ⟨rest, .inr ⟨hidle, v, hh⟩⟩⟩
  | hwReset rest hh => exact ⟨rfl, .inr ⟨rest, .inl hh⟩⟩

/-- Settles O21: of the ways of a step only the two named write MODE, none writes the configuration, and a command is one
of the others. -/
theorem onlyModeWriteOrResetChangesMode : Obligations.OnlyModeWriteOrResetChangesMode :=
  ⟨fun _ _ h hne => (step_cases h).mode_cfg.2.resolve_left hne, fun _ _ _ h => (exec_cases h).keeps_mode_cfg.1,
    fun _ _ h => (step_cases h).mode_cfg.1⟩

/-! ## Waiting (60_exceptions.md R315, 20_memory.md R71) -/

/-- A turn of `p` transfers in the environment of another pace `q`. -/
theorem turn_setPace {n p q : Nat} {s t : State} (h : turn n p { s with pace := p } = .ok t) :
    turn n p { s with pace := q } = .ok { t with pace := q } := by
  obtain ⟨m, -, hr, -⟩ := turn_run h
  have hhost : t.host = s.host := congrArg HostPart.host (runMoves_hostPart hr)
  have hrdata : t.rdata = s.rdata := congrArg HostPart.rdata (runMoves_hostPart hr)
  have henv : withEnv q s.host s.rdata t = { t with pace := q } := by
    rw [withEnv, ← hhost, ← hrdata]
  exact (turn_withEnv q s.host s.rdata h).trans (congrArg Except.ok henv)

/-- Settles O14: an idle or stalled block has nothing to do in a turn, and under the invariant a turn of `p + q` transfers
is one of `p` and then one of `q`, in whatever environment. -/
theorem idleOrStalledBlockWaits : Obligations.IdleOrStalledBlockWaits := by
  refine ⟨fun s hh hs => ?_, fun s t v p q hi ht hv => ?_⟩
  · rw [step_noEntry hh]
    obtain hidle | ⟨hsettled, hpace⟩ := hs
    · exact takeTurn_idle hidle
    · rw [takeTurn_next, hpace]
      exact turn_stalled hsettled
  · have hinv : Inv { s with pace := p + q } :=
      inv_kept.env s s.byteSrc s.ovr s.bitSrc s.rdata (p + q) s.host hi
    have hfirst := turn_setPace (q := p + q) (takeTurn_next.1 ht)
    have hsecond := turn_setPace (q := p + q) (takeTurn_next.1 hv)
    exact takeTurn_next.2 ((turn_add hinv (Nat.le_refl _) (Nat.le_refl _) (Nat.le_refl _) hfirst).trans hsecond)

/-! ## Outputs (60_exceptions.md R305) -/

/-- What moves do to the streams the host sees: O and D grow at their ends, END stands once sent, and the bit source goes
forward. -/
structure Appends (s t : State) : Prop where
  bits : s.bitSink.bits <+: t.bitSink.bits
  ended : s.bitSink.ended = true → t.bitSink.ended = true
  bytes : s.byteSink <+: t.byteSink
  seq : t.bitSrc.seq = s.bitSrc.seq
  pos : s.bitSrc.pos ≤ t.bitSrc.pos

theorem Appends.refl (s : State) : Appends s s :=
  ⟨List.prefix_rfl, id, List.prefix_rfl, rfl, Nat.le_refl _⟩

theorem Appends.trans {a b c : State} (hab : Appends a b) (hbc : Appends b c) : Appends a c :=
  ⟨hab.bits.trans hbc.bits, hbc.ended ∘ hab.ended, hab.bytes.trans hbc.bytes, hbc.seq.trans hab.seq,
    hab.pos.trans hbc.pos⟩

/-- What leaves the streams alone appends nothing. -/
theorem Appends.of_eq {s t : State} (hbits : t.bitSink = s.bitSink) (hbytes : t.byteSink = s.byteSink)
    (hsrc : t.bitSrc = s.bitSrc) : Appends s t := by
  constructor <;> simp [hbits, hbytes, hsrc]

theorem Moved.appends {s t : State} (h : Moved s t) : Appends s t := by
  cases h
  case symGood h =>
    obtain ⟨node, root, stk, p, rfl, -, -⟩ := closeNode_ok h
    exact .of_eq rfl rfl rfl
  case stageEnd =>
    unfold Machine.stageEnd
    split <;> exact .of_eq rfl rfl rfl
  case encodeEnd => exact ⟨List.prefix_rfl, fun _ => rfl, List.prefix_rfl, rfl, Nat.le_refl _⟩
  all_goals constructor <;> simp [BitSource.skip]

theorem takeTurn_appends {s t : State} (h : takeTurn s = .next t) : Appends s t := by
  obtain ⟨n, -, hr, -⟩ := takeTurn_run h
  exact (runMoves_relates (I := fun _ => True) Appends.refl (fun _ _ _ => Appends.trans)
    (fun _ _ hm _ _ => ⟨hm.appends, trivial⟩) trivial hr).1

/-! ## Errors (60_exceptions.md R301, R302) -/

/-- A move that raises an error: the abort, with nothing sent; the error is one of the running stage's. -/
structure Raises (s t : State) : Prop where
  code : t.errcode ≠ .none
  idle : t.phase = .idle
  prog : t.prog = .idle
  notDone : t.done = false
  stage : t.ephase = s.phase
  bitSink : t.bitSink = s.bitSink
  byteSink : t.byteSink = s.byteSink
  own : PointIn s.phase s.point → raisedBy t.errcode = s.phase

/-- A move inside a stage body: the sequencing registers and flags stay. -/
structure Inside (s t : State) : Prop where
  phase : t.phase = s.phase
  prog : t.prog = s.prog
  done : t.done = s.done
  todo : t.todo = s.todo
  errcode : t.errcode = s.errcode
  ephase : t.ephase = s.ephase

/-- A move raises an error, is the last statement of a stage body, or is inside one. -/
theorem Moved.control_cases {s t : State} (h : Moved s t) :
    Raises s t ∨ (s.point = .fin ∧ t = Machine.stageEnd s) ∨ Inside s t := by
  cases h
  case stageEnd h1 => exact .inr (.inl ⟨h1, rfl⟩)
  case symGood h =>
    obtain ⟨node, root, stk, p, rfl, -, -⟩ := closeNode_ok h
    exact .inr (.inr ⟨rfl, rfl, rfl, rfl, rfl, rfl⟩)
  case countFull h1 _ _ | encodeMissing h1 _ _ | tagBad h1 _ _ | tagShort h1 _ | desShort h1 _ | desTooMany h1 _ _ |
      symBad h1 _ | symShort h1 _ | checkBad h1 _ _ _ | countShort h1 _ | decodeShort h1 _ =>
    refine .inl ⟨nofun, rfl, rfl, rfl, rfl, rfl, rfl, fun hf => ?_⟩
    rw [h1] at hf
    exact hf.symm
  all_goals exact .inr (.inr ⟨rfl, rfl, rfl, rfl, rfl, rfl⟩)

theorem stageEnd_errcode (s : State) : (stageEnd s).errcode = s.errcode := by
  unfold stageEnd
  split <;> rfl

/-- Settles O49: each move of a turn only appends, and a move after which there is an error where there was none has raised
it. -/
theorem outputsAreNotRolledBack : Obligations.OutputsAreNotRolledBack := by
  refine ⟨fun s t h => ?_, fun s t hb hs h ht => ?_⟩
  · have happ := takeTurn_appends h
    exact ⟨happ.bits, happ.ended, happ.bytes, happ.seq, happ.pos⟩
  · obtain hr | ⟨-, rfl⟩ | hin := (blockMove_moved h).control_cases
    · exact ⟨hr.bitSink, hr.byteSink, hr.idle, hr.stage, hr.prog⟩
    · exact absurd ((stageEnd_errcode s).trans hs) ht
    · exact absurd (hin.errcode.trans hs) ht

/-- A command can end in the errors its stages raise. -/
theorem mem_errorsOf {i : Instr} {e : ErrCode} (h : raisedBy e ∈ stagesOf i) : e ∈ errorsOf i := by
  cases i <;> cases e <;> revert h <;> decide

/-- The error code is `e`, or one of those the stages of the command `i` raise. -/
def EndsInError (e : ErrCode) (i : Instr) (s : State) : Prop := s.errcode = e ∨ s.errcode ∈ errorsOf i

/-- A run of the stages of a command leaves the error code as it was or raises an error of one of these stages. -/
theorem errors_of_run {i : Instr} {n : Nat} {s t : State} (hc : CallOf (fun k => decide (k ∈ stagesOf i)) s)
    (h : runMoves n s = .ok t) : EndsInError s.errcode i t := by
  refine (runMoves_induction
    (P := fun u => EndsInError s.errcode i u ∧ CallOf (fun k => decide (k ∈ stagesOf i)) u) ?_ n s t ⟨.inl rfl, hc⟩ h).1
  rintro u v hb ⟨he, hu⟩ hm
  have hmoved := blockMove_moved hm
  refine ⟨?_, hu.move hmoved hb⟩
  obtain hr | ⟨-, rfl⟩ | hin := hmoved.control_cases
  · right
    refine mem_errorsOf ?_
    rw [hr.own hu.point]
    exact of_decide_eq_true (hu.stage hb)
  · rwa [EndsInError, stageEnd_errcode]
  · rwa [EndsInError, hin.errcode]

/-- So do the turns of an accepted command. -/
theorem errors_of_turns {i : Instr} {k : Stage} {ks : List Stage} {n : Nat} {s u t : State} (hi : stagesOf i = k :: ks)
    (hs : s.phase = k) (hp : s.point = .start) (htodo : s.todo = ks) (h : takeTurn s = .next u)
    (ht : turns n u = .next t) : EndsInError s.errcode i t := by
  obtain ⟨m, -, hu, -⟩ := takeTurn_run h
  obtain ⟨j, hj⟩ := turns_run ht
  refine errors_of_run ⟨?_, fun _ => ?_, fun j hj => ?_⟩ (runMoves_then hu hj)
  · rw [hp]
    trivial
  · simp [hi, hs]
  · simp [hi, htodo ▸ hj]

/-- Turns leave an idle block as it is. -/
theorem turns_idle {n : Nat} {s t : State} (hi : s.phase = .idle) (h : turns n s = .next t) : t = s := by
  obtain ⟨m, hm⟩ := turns_run h
  rw [runMoves_idle hi] at hm
  exact (Except.ok.inj hm).symm

theorem entryAccepted_errcode (d : Direction) (k : Stage) (ks : List Stage) (s : State) :
    (entryAccepted d k ks s).errcode = .none := by
  cases d <;> rfl

/-- Settles O48: the runs of accepted commands raise errors of their stages, and a stage command out of sequence ends at
its acceptance. -/
theorem errorsOfEachCommand : Obligations.ErrorsOfEachCommand := by
  refine ⟨fun s u t i d n hi hd h ht => ?entry, fun s u t i need n hi hn hp h ht => ?stage,
    fun s u t i need n hi hn hp h ht => ?illegal⟩
  case entry =>
    obtain ⟨k, ks, hstages, ha, -⟩ := acceptanceOf_of_callOf hd
    rw [exec_entry ha, acceptEntry_idle hi] at h
    have herr := errors_of_turns (s := entryAccepted d k ks s) hstages rfl rfl rfl h ht
    rwa [entryAccepted_errcode] at herr
  case stage =>
    obtain ⟨k, hstages, ha, -⟩ := acceptanceOf_of_neededBy hn
    rw [exec_stage ha, acceptStage_legal hi hp] at h
    exact errors_of_turns (s := stageAccepted k s) hstages rfl rfl rfl h ht
  case illegal =>
    rw [exec_stage_idle hn hi, if_neg (Ne.symm hp), illegal_idle hi] at h
    cases h
    cases turns_idle (by rfl) ht
    exact ⟨rfl, rfl⟩

end Sys2Proof.Machine
end

section
/-! PROOF. What the entry commands leave unchanged (48_control.md R266 to R268, 41_frequency_accumulator.md R120,
45_tree_deserializer.md R200). -/

namespace Sys2Proof.Machine

/-- A call runs no stage that is not of its kind. -/
theorem CallOf.excludes {K : Stage → Bool} {s : State} {k : Stage} (hc : CallOf K s) (hb : s.phase ≠ .idle)
    (hs : s.phase = k) : K k = true :=
  hs ▸ hc.stage hb

/-- An entry command starts a call of the stages that it runs. -/
theorem entryAccepted_callOf {K : Stage → Bool} {k : Stage} {ks : List Stage} (d : Direction) (s : State)
    (hK : ∀ j ∈ k :: ks, K j = true) : CallOf K (entryAccepted d k ks s) :=
  ⟨trivial, fun _ => hK k (List.mem_cons_self ..), fun j hj => hK j (List.mem_cons_of_mem k hj)⟩

/-- An entry command is dropped, or runs its stages from the start of a call. -/
theorem exec_entry_cases {i : Instr} {d : Direction} {k : Stage} {ks : List Stage} {s t : State}
    (ha : acceptanceOf i = .entry d k ks) (h : exec i s = .next t) :
    (s.phase ≠ .idle ∧ t = dropWrite s) ∨ ∃ n, runMoves n (entryAccepted d k ks s) = .ok t := by
  rw [exec_entry ha] at h
  by_cases hi : s.phase = .idle
  · rw [acceptEntry_idle hi] at h
    obtain ⟨n, -, hr, -⟩ := takeTurn_run h
    exact .inr ⟨n, hr⟩
  · cases (acceptEntry_busy hi).symm.trans h
    exact .inl ⟨hi, rfl⟩

/-! ## COMPRESS -/

/-- What the stages of a compression leave as they are, besides the host's part: the streams and the bookkeeping of a
decompression, and CUR. -/
structure CompressionKept where
  bitSrc : BitSource
  byteSink : List Byte
  cur : Option Idx
  seen : BitVec 257
  nint : BitVec 9
  nleaf : BitVec 9
  stk : List Idx

def State.compressionKept (s : State) : CompressionKept :=
  ⟨s.bitSrc, s.byteSink, s.cur, s.seen, s.nint, s.nleaf, s.stk⟩

/-- Only moves of READ_TAG, READ_HEADER and DECODE touch that. -/
theorem Moved.compressionKept_eq {s t : State} (h : Moved s t) (hb : s.phase ≠ .idle) (hc : CallOf Stage.isC s) :
    t.compressionKept = s.compressionKept := by
  have hpoint := hc.point
  cases h
  case tagBit h1 _ | desLeaf h1 _ | desTooMany h1 _ _ | desInternal h1 _ _ | symGood h1 _ _ _ _ | symBit h1 _ |
      countBit h1 _ | decodeEdge h1 _ _ _ _ _ _ | decodeOut h1 _ =>
    rw [h1] at hpoint
    cases hc.excludes hb hpoint
  case decodeStart hs _ _ => cases hc.excludes hb hs
  case stageEnd =>
    unfold Machine.stageEnd
    split <;> rfl
  all_goals rfl

theorem runMoves_compressionKept {n : Nat} {s t : State} (hc : CallOf Stage.isC s) (h : runMoves n s = .ok t) :
    t.compressionKept = s.compressionKept :=
  runMoves_keeps (fun _ _ hm hb hc => ⟨hm.compressionKept_eq hb hc, hc.move hm hb⟩) hc h

theorem compress_frame {s t : State} (h : exec .compress s = .next t) :
    t.cfg = s.cfg ∧ t.mode = s.mode ∧ t.bitSrc = s.bitSrc ∧ t.byteSink = s.byteSink ∧
    t.byteSrc.s1 = s.byteSrc.s1 ∧ t.byteSrc.s2 = s.byteSrc.s2 ∧ t.pace = s.pace ∧ t.host = s.host ∧
    t.rdata = s.rdata ∧ (s.phase = .idle → t.cur = none ∧ t.seen = 0 ∧ t.nint = 0 ∧ t.nleaf = 0 ∧ t.stk = []) := by
  obtain ⟨hb, rfl⟩ | ⟨n, hr⟩ := exec_entry_cases rfl h
  · exact ⟨rfl, rfl, rfl, rfl, rfl, rfl, rfl, rfl, rfl, fun hi => absurd hi hb⟩
  · have hhost := runMoves_hostPart hr
    have hkept := runMoves_compressionKept (entryAccepted_callOf .compression s (by decide)) hr
    exact ⟨congrArg HostPart.cfg hhost, congrArg HostPart.mode hhost, congrArg CompressionKept.bitSrc hkept,
      congrArg CompressionKept.byteSink hkept, congrArg HostPart.s1 hhost, congrArg HostPart.s2 hhost,
      congrArg HostPart.pace hhost, congrArg HostPart.host hhost, congrArg HostPart.rdata hhost,
      fun _ => ⟨congrArg CompressionKept.cur hkept, congrArg CompressionKept.seen hkept,
        congrArg CompressionKept.nint hkept, congrArg CompressionKept.nleaf hkept, congrArg CompressionKept.stk hkept⟩⟩

/-! ## COUNT -/

/-- What COUNT leaves unchanged once the call is open. -/
def CountFrame (s t : State) : Prop :=
  t = { s with
    phase := t.phase, prog := t.prog, done := t.done, ovr := t.ovr, errcode := t.errcode, ephase := t.ephase
    freq := t.freq, byteSrc := { s.byteSrc with pos := t.byteSrc.pos }, point := t.point, todo := t.todo
    events := t.events }

theorem CountFrame.trans {a b c : State} (hab : CountFrame a b) (hbc : CountFrame b c) : CountFrame a c :=
  Eq.trans hbc (by rw [hab])

theorem countMove_frame {s t : State} (h : countMove s = .ok t) : CountFrame s t := by
  unfold countMove at h
  obtain ⟨-, hin⟩ | ⟨b, rest, -, hin⟩ := inByte_come s
  · rw [hin] at h
    cases h
    rfl
  · rw [hin] at h
    simp only [] at h
    split at h <;> cases h <;> rfl

/-- COUNT's body: its start and its loop. -/
theorem count_stageFrame : StageFrame .count CountFrame where
  trans _ _ _ := CountFrame.trans
  control _ _ _ _ _ _ _ _ _ := rfl
  body s t hs hp hfin h := by
    cases hpoint : s.point with
    | start =>
      rw [blockMove_start hpoint, stageStart, hs] at h
      cases h
      rfl
    | countByte => exact countMove_frame (blockMove_countByte hpoint ▸ h)
    | fin => exact absurd hpoint hfin
    | _ =>
      rw [hpoint] at hp
      simp [PointIn] at hp

theorem count_frame {s t : State} (h : exec .count s = .next t) :
    t.cfg = s.cfg ∧ t.mode = s.mode ∧ t.bitSrc = s.bitSrc ∧ t.byteSink = s.byteSink ∧
    t.byteSrc = { s.byteSrc with pos := t.byteSrc.pos } ∧ t.pq = s.pq ∧ t.walk = s.walk ∧ t.pace = s.pace ∧
    t.host = s.host ∧ t.rdata = s.rdata ∧
    (s.phase = .idle → t.node = [] ∧ t.nnodes = 0 ∧ t.root = none ∧ t.code = [] ∧ t.cur = none ∧ t.hmode = .tree ∧
      t.seen = 0 ∧ t.nint = 0 ∧ t.nleaf = 0 ∧ t.stk = [] ∧ t.bitSink = { bits := [], ended := false }) := by
  obtain ⟨hb, rfl⟩ | ⟨n, hr⟩ := exec_entry_cases rfl h
  · exact ⟨rfl, rfl, rfl, rfl, rfl, rfl, rfl, rfl, rfl, rfl, fun hi => absurd hi hb⟩
  · have hframe := count_stageFrame.run (entryAccepted_callOf .compression s (by decide)) hr
    rw [CountFrame] at hframe
    rw [hframe]
    exact ⟨rfl, rfl, rfl, rfl, rfl, rfl, rfl, rfl, rfl, rfl,
      fun _ => ⟨rfl, rfl, rfl, rfl, rfl, rfl, rfl, rfl, rfl, rfl, rfl⟩⟩

/-- Settles O50: the stages of a compression keep to their part of the state, and COUNT's alone to less. -/
theorem compressionEntryFrame : Obligations.CompressionEntryFrame :=
  ⟨fun _ _ => compress_frame, fun _ _ => count_frame⟩

/-! ## DECOMPRESS -/

/-- What the stages of a decompression leave as they are, besides the host's part: the streams and the traversal stack of
a compression, and CODE. -/
structure DecompressionKept where
  byteSrc : ByteSource
  bitSink : BitSink
  walk : List (Idx × List Bool)
  code : Cells (List Bool)

def State.decompressionKept (s : State) : DecompressionKept :=
  ⟨s.byteSrc, s.bitSink, s.walk, s.code⟩

/-- Only moves of COUNT, GENCODES, WRITE_TAG, WRITE_HEADER and ENCODE touch that. -/
theorem Moved.decompressionKept_eq {s t : State} (h : Moved s t) (hb : s.phase ≠ .idle) (hc : CallOf Stage.isD s) :
    t.decompressionKept = s.decompressionKept := by
  have hpoint := hc.point
  cases h
  case countFull h1 _ _ | countOne h1 _ _ | walkLeaf h1 _ _ _ | walkInternal h1 _ _ | sendTagBit h1 | serBit h1 |
      serLeaf h1 _ _ | serInternal h1 _ _ | serCountBit h1 | encodeTake h1 _ _ | encodeMissing h1 _ _ |
      encodeBit h1 | encodeEnd h1 | encodeEosBit h1 =>
    rw [h1] at hpoint
    cases hc.excludes hb hpoint
  case gencodesStart hs _ _ | writeTreeStart hs _ _ _ | encodeStart hs _ => cases hc.excludes hb hs
  case symGood h =>
    obtain ⟨node, root, stk, p, rfl, -, -⟩ := closeNode_ok h
    rfl
  case stageEnd =>
    unfold Machine.stageEnd
    split <;> rfl
  all_goals rfl

theorem runMoves_decompressionKept {n : Nat} {s t : State} (hc : CallOf Stage.isD s) (h : runMoves n s = .ok t) :
    t.decompressionKept = s.decompressionKept :=
  runMoves_keeps (fun _ _ hm hb hc => ⟨hm.decompressionKept_eq hb hc, hc.move hm hb⟩) hc h

theorem decompress_frame {s t : State} (h : exec .decompress s = .next t) :
    t.cfg = s.cfg ∧ t.mode = s.mode ∧ t.byteSrc = s.byteSrc ∧ t.bitSink = s.bitSink ∧
    t.bitSrc.seq = s.bitSrc.seq ∧ t.walk = s.walk ∧ t.pace = s.pace ∧ t.host = s.host ∧ t.rdata = s.rdata ∧
    (s.phase = .idle → t.code = []) := by
  obtain ⟨hb, rfl⟩ | ⟨n, hr⟩ := exec_entry_cases rfl h
  · exact ⟨rfl, rfl, rfl, rfl, rfl, rfl, rfl, rfl, rfl, fun hi => absurd hi hb⟩
  · have hhost := runMoves_hostPart hr
    have hkept := runMoves_decompressionKept (entryAccepted_callOf .decompression s (by decide)) hr
    exact ⟨congrArg HostPart.cfg hhost, congrArg HostPart.mode hhost, congrArg DecompressionKept.byteSrc hkept,
      congrArg DecompressionKept.bitSink hkept, congrArg HostPart.bits hhost, congrArg DecompressionKept.walk hkept,
      congrArg HostPart.pace hhost, congrArg HostPart.host hhost, congrArg HostPart.rdata hhost,
      fun _ => congrArg DecompressionKept.code hkept⟩

/-! ## READ_TAG -/

/-- What READ_TAG leaves unchanged once the call is open. -/
def ReadTagFrame (s t : State) : Prop :=
  t = { s with
    phase := t.phase, prog := t.prog, done := t.done, ovr := t.ovr, errcode := t.errcode, ephase := t.ephase
    hmode := t.hmode, bitSrc := { s.bitSrc with pos := t.bitSrc.pos }, point := t.point, todo := t.todo
    events := t.events }

theorem ReadTagFrame.trans {a b c : State} (hab : ReadTagFrame a b) (hbc : ReadTagFrame b c) : ReadTagFrame a c :=
  Eq.trans hbc (by rw [hab])

theorem checkTag_frame (v : Word) (s : State) : ReadTagFrame s (checkTag v s) := by
  unfold checkTag
  split
  · rfl
  · split <;> rfl

theorem recvTagMove_frame {n : Nat} {v : Word} {s t : State} (h : recvTagMove n v s = .ok t) : ReadTagFrame s t := by
  cases n with
  | zero =>
    cases h
    exact checkTag_frame v s
  | succ n =>
    unfold recvTagMove at h
    obtain ⟨-, hin⟩ | ⟨b, rest, -, hin⟩ := inBit_come s
    · rw [hin] at h
      cases h
      rfl
    · rw [hin] at h
      cases h
      rfl

/-- READ_TAG's body: its start, and the bits of the tag with their check. -/
theorem readTag_stageFrame : StageFrame .readTag ReadTagFrame where
  trans _ _ _ := ReadTagFrame.trans
  control _ _ _ _ _ _ _ _ _ := rfl
  body s t hs hp hfin h := by
    cases hpoint : s.point with
    | start =>
      rw [blockMove_start hpoint, stageStart, hs] at h
      cases h
      rfl
    | recvTag n v => exact recvTagMove_frame (blockMove_recvTag hpoint ▸ h)
    | fin => exact absurd hpoint hfin
    | _ =>
      rw [hpoint] at hp
      simp [PointIn] at hp

theorem readTag_frame {s t : State} (h : exec .readTag s = .next t) :
    t.cfg = s.cfg ∧ t.mode = s.mode ∧ t.byteSrc = s.byteSrc ∧ t.bitSink = s.bitSink ∧
    t.bitSrc = { s.bitSrc with pos := t.bitSrc.pos } ∧ t.pq = s.pq ∧ t.walk = s.walk ∧ t.pace = s.pace ∧
    t.host = s.host ∧ t.rdata = s.rdata ∧
    (s.phase = .idle → t.freq = [] ∧ t.node = [] ∧ t.nnodes = 0 ∧ t.root = none ∧ t.code = [] ∧ t.cur = none ∧
      t.seen = 0 ∧ t.nint = 0 ∧ t.nleaf = 0 ∧ t.stk = [] ∧ t.byteSink = []) := by
  obtain ⟨hb, rfl⟩ | ⟨n, hr⟩ := exec_entry_cases rfl h
  · exact ⟨rfl, rfl, rfl, rfl, rfl, rfl, rfl, rfl, rfl, rfl, fun hi => absurd hi hb⟩
  · have hframe := readTag_stageFrame.run (entryAccepted_callOf .decompression s (by decide)) hr
    rw [ReadTagFrame] at hframe
    rw [hframe]
    exact ⟨rfl, rfl, rfl, rfl, rfl, rfl, rfl, rfl, rfl, rfl,
      fun _ => ⟨rfl, rfl, rfl, rfl, rfl, rfl, rfl, rfl, rfl, rfl, rfl⟩⟩

/-- Settles O53: the stages of a decompression keep to their part of the state, and READ_TAG's alone to less. -/
theorem decompressionEntryFrame : Obligations.DecompressionEntryFrame :=
  ⟨fun _ _ => decompress_frame, fun _ _ => readTag_frame⟩

end Sys2Proof.Machine
end

section
/-! PROOF. A call that has ended depends only on its streams, MODE and the configuration (48_control.md R277). -/

namespace Sys2Proof.Machine

/-- An accepted entry command and the turns after it are a run from the start of the call. -/
theorem run_of_entry_turns {i : Instr} {d : Direction} {k : Stage} {ks : List Stage} {n : Nat} {s u t : State}
    (ha : acceptanceOf i = .entry d k ks) (hi : s.phase = .idle) (h : exec i s = .next u) (ht : turns n u = .next t) :
    ∃ m, runMoves m (entryAccepted d k ks s) = .ok t := by
  rw [exec_entry ha, acceptEntry_idle hi] at h
  exact runCommand_turns h ht

/-- Two compressions with the same configuration, HDR_MODE and byte source go the same way from their start. -/
theorem entryAccepted_sameC {s u : State} (k : Stage) (ks : List Stage) (hcfg : s.cfg = u.cfg)
    (hmode : s.hdrMode = u.hdrMode) (hbytes : s.byteSrc = u.byteSrc) :
    SameC (entryAccepted .compression k ks s) (entryAccepted .compression k ks u) where
  mix := by simp only [mixC, entryAccepted, callInit, openStreams, clearCall, hcfg, hbytes]
  hdr := hmode.symm
  queue := nofun
  stack := nofun

/-- Two decompressions with the same configuration and bits to come go the same way from their start. -/
theorem entryAccepted_sameD {s u : State} (k : Stage) (ks : List Stage) (hcfg : s.cfg = u.cfg)
    (hbits : bitsToCome s = bitsToCome u) :
    SameD (entryAccepted .decompression k ks s) (entryAccepted .decompression k ks u) where
  mix := by simp only [mixD, entryAccepted, callInit, openStreams, clearCall, hcfg]
  bits := hbits.symm
  queue := nofun

/-- Runs of two compressions that go the same way, both ended, end in states that do. -/
theorem SameC.ended {m n : Nat} {s u t v : State} (hS : SameC s u) (hc : CallOf Stage.isC s) (ht : runMoves m s = .ok t)
    (hv : runMoves n u = .ok v) (hti : t.phase = .idle) (hvi : v.phase = .idle) : SameC t v := by
  obtain ⟨w, hw, hS'⟩ := hS.run hc ht
  have hwi : w.phase = .idle := by
    rw [hS'.mix]
    exact hti
  rwa [runMoves_ended hv hw hvi hwi]

/-- So do runs of two decompressions. -/
theorem SameD.ended {m n : Nat} {s u t v : State} (hS : SameD s u) (hc : CallOf Stage.isD s) (ht : runMoves m s = .ok t)
    (hv : runMoves n u = .ok v) (hti : t.phase = .idle) (hvi : v.phase = .idle) : SameD t v := by
  obtain ⟨w, hw, hS'⟩ := hS.run hc ht
  have hwi : w.phase = .idle := by
    rw [hS'.mix]
    exact hti
  rwa [runMoves_ended hv hw hvi hwi]

/-- Settles O47: the two calls start in states that go the same way, so they end in such states. -/
theorem callsAreDeterministic : Obligations.CallsAreDeterministic := by
  refine ⟨fun s u s1 u1 t v m n hs hu hcfg hmode hbytes hs1 ht hti hu1 hv hvi => ?compress,
    fun s u s1 u1 t v m n hs hu hcfg hbits hs1 ht hti hu1 hv hvi => ?decompress⟩
  case compress =>
    obtain ⟨j, hj⟩ := run_of_entry_turns rfl hs hs1 ht
    obtain ⟨l, hl⟩ := run_of_entry_turns rfl hu hu1 hv
    have hsame := (entryAccepted_sameC _ _ hcfg hmode hbytes).ended
      (entryAccepted_callOf .compression s (by decide)) hj hl hti hvi
    rw [hsame.mix]
    exact ⟨rfl, rfl, rfl, rfl, rfl, rfl, rfl, rfl⟩
  case decompress =>
    obtain ⟨j, hj⟩ := run_of_entry_turns rfl hs hs1 ht
    obtain ⟨l, hl⟩ := run_of_entry_turns rfl hu hu1 hv
    have hsame := (entryAccepted_sameD _ _ hcfg hbits).ended
      (entryAccepted_callOf .decompression s (by decide)) hj hl hti hvi
    have hcome := hsame.bits
    rw [hsame.mix] at hcome ⊢
    exact ⟨rfl, rfl, rfl, rfl, rfl, rfl, hcome⟩

end Sys2Proof.Machine
end

section
/-! PROOF. COMPRESS and DECOMPRESS leave what their stage commands leave, issued one after another (48_control.md R275). -/

namespace Sys2Proof.Machine

/-! ## A stage alone -/

/-- A run of the stage `k` alone: it goes on without an error, or it has ended with `k` the last stage run. -/
def StageAlone (k : Stage) (s : State) : Prop :=
  (s.phase = k ∧ s.todo = [] ∧ s.errcode = .none ∧ s.done = false) ∨
    (s.phase = .idle ∧ lastStage s = k ∧ (s.done = true → s.errcode = .none ∧ s.prog = k))

theorem Moved.stageAlone {k : Stage} {s t : State} (h : Moved s t) (hb : s.phase ≠ .idle) (hs : StageAlone k s) :
    StageAlone k t := by
  obtain ⟨hphase, htodo, herr, hdone⟩ | ⟨hidle, -⟩ := hs
  · obtain hr | ⟨-, rfl⟩ | hin := h.control_cases
    · refine .inr ⟨hr.idle, ?_, fun hd => ?_⟩
      · rw [lastStage, if_neg hr.code, hr.stage, hphase]
      · cases hr.notDone.symm.trans hd
    · rw [stageEnd_last htodo]
      refine .inr ⟨rfl, ?_, fun _ => ⟨herr, hphase⟩⟩
      exact (if_pos herr).trans hphase
    · exact .inl ⟨hin.phase.trans hphase, hin.todo.trans htodo, hin.errcode.trans herr, hin.done.trans hdone⟩
  · exact absurd hidle hb

/-- A run of a stage alone that has ended: `k` is the last stage run, and it has completed if DONE says so. -/
theorem stageAlone_ended {k : Stage} {n : Nat} {s t : State} (hk : k ≠ .idle) (hs : StageAlone k s)
    (h : runMoves n s = .ok t) (ht : t.phase = .idle) :
    lastStage t = k ∧ (t.done = true → t.errcode = .none ∧ t.prog = k) := by
  have halone := runMoves_induction (fun u v hb hu hm => (blockMove_moved hm).stageAlone hb hu) n s t hs h
  obtain ⟨hphase, -⟩ | ⟨-, hlast⟩ := halone
  · exact absurd (hphase.symm.trans ht) hk
  · exact hlast

/-! ## Commands one after another -/

/-- The commands `cs`, issued one after another on `s`, each let run to its end, leave `t`: with every pace that is long
enough. -/
def LeadsTo (s : State) (cs : List Instr) (t : State) : Prop :=
  ∃ N, ∀ p, N ≤ p → execAll cs { s with pace := p } = .next { t with pace := p }

theorem execAll_one (i : Instr) (s : State) : execAll [i] s = exec i s := by
  rw [execAll]
  split
  · next t ht => rw [ht, execAll]
  · next f hf => rw [hf]
  · next r hr => rw [hr]

theorem execAll_append {cs : List Instr} {i : Instr} {s t : State} (h : execAll cs s = .next t) :
    execAll (cs ++ [i]) s = exec i t := by
  induction cs generalizing s with
  | nil =>
    cases h
    exact execAll_one i _
  | cons c cs ih =>
    rw [execAll] at h
    rw [List.cons_append, execAll]
    split at h
    · next u hu => exact ih h
    · cases h
    · cases h

/-- One command more. -/
theorem LeadsTo.append {s t u : State} {cs : List Instr} {i : Instr} (h : LeadsTo s cs t) (hi : LeadsTo t [i] u) :
    LeadsTo s (cs ++ [i]) u := by
  obtain ⟨M, hM⟩ := h
  obtain ⟨N, hN⟩ := hi
  refine ⟨max M N, fun p hp => ?_⟩
  rw [execAll_append (hM p (le_of_max_le_left hp)), ← execAll_one]
  exact hN p (le_of_max_le_right hp)

/-- A command that takes its first turn from `a` leaves what a run from there leaves that has ended: a pace of as many
transfers as the run has moves is long enough. -/
theorem leadsTo_of_run {i : Instr} {n : Nat} {s a t : State} (h : runMoves n a = .ok t) (ht : t.phase = .idle)
    (hexec : ∀ p, exec i { s with pace := p } = takeTurn { a with pace := p }) : LeadsTo s [i] t := by
  refine ⟨n, fun p hp => ?_⟩
  have hpart := runMoves_hostPart h
  have henv (x : State) (hx : x.hostPart = a.hostPart) : withEnv p a.host a.rdata x = { x with pace := p } := by
    have h1 : x.host = a.host := congrArg HostPart.host hx
    have h2 : x.rdata = a.rdata := congrArg HostPart.rdata hx
    rw [withEnv, ← h1, ← h2]
  have hrun := runMoves_withEnv p a.host a.rdata h
  rw [henv a rfl, henv t hpart] at hrun
  have hevents := (runMoves_events hrun).2
  have hturn : takeTurn { a with pace := p } = .next { t with pace := p } :=
    takeTurn_of_run hrun ht (hevents.trans (Nat.add_le_add_left hp _)) (moves_fit_turn hp (Nat.le_add_right _ _))
  rw [execAll_one, hexec, hturn]

/-! ## A pipeline and its stage commands -/

/-- The command that runs a stage alone. -/
def commandOf : Stage → Instr
  | .idle => .nop
  | .count => .count
  | .build => .build
  | .gencodes => .gencodes
  | .writeTag => .writeTag
  | .writeHeader => .writeHeader
  | .encode => .encode
  | .readTag => .readTag
  | .readHeader => .readHeader
  | .decode => .decode

theorem commandOf_acceptance {k : Stage} (h : stageBefore k ≠ .idle) :
    acceptanceOf (commandOf k) = .stage (stageBefore k) k := by
  cases k
  case idle | count | readTag => exact absurd rfl h
  all_goals rfl

theorem commandsThrough_next {j k : Stage} {ks : List Stage} (h : stagesAfter j = k :: ks) :
    stageBefore k = j ∧ stagesAfter k = ks ∧ commandsThrough k = commandsThrough j ++ [commandOf k] ∧ k ≠ .idle := by
  cases j <;> cases h <;> exact ⟨rfl, rfl, rfl, nofun⟩

/-- A stage command in sequence leaves what a run of its stage alone leaves. -/
theorem leadsTo_stage {k : Stage} {n : Nat} {s t : State} (hi : s.phase = .idle) (hp : s.prog = stageBefore k)
    (hk : stageBefore k ≠ .idle) (h : runMoves n (stageAccepted k s) = .ok t) (ht : t.phase = .idle) :
    LeadsTo s [commandOf k] t := by
  refine leadsTo_of_run h ht fun p => ?_
  rw [exec_stage (commandOf_acceptance hk), acceptStage_legal (s := { s with pace := p }) hi hp]
  rfl

/-- A run of a pipeline from the start of its stage `k` that has ended leaves what the stage commands up to its last stage
leave, if those up to `k` leave whatever a run of `k` alone leaves. -/
theorem leadsTo_pipeline (ks : List Stage) {k : Stage} {n : Nat} {s a t : State} (hks : stagesAfter k = ks)
    (hk : k ≠ .idle) (hphase : a.phase = k) (htodo : a.todo = ks) (herr : a.errcode = .none) (hdone : a.done = false)
    (halone : ∀ n t, runMoves n { a with todo := [] } = .ok t → t.phase = .idle → LeadsTo s (commandsThrough k) t)
    (h : runMoves n a = .ok t) (ht : t.phase = .idle) : LeadsTo s (commandsThrough (lastStage t)) t := by
  have hstart : StageAlone k { a with todo := [] } := .inl ⟨hphase, rfl, herr, hdone⟩
  have hb : a.phase ≠ .idle := hphase ▸ hk
  induction ks generalizing k n a with
  | nil =>
    have haeq : { a with todo := [] } = a := by rw [← htodo]
    rw [(stageAlone_ended hk hstart (haeq.symm ▸ h) ht).1]
    exact halone n t (haeq.symm ▸ h) ht
  | cons j js ih =>
    obtain ⟨-, m, -, hrun⟩ | ⟨m, u, -, hu, hudone, -, hrun, hrest⟩ := run_split n hb htodo h ht
    · rw [(stageAlone_ended hk hstart hrun ht).1]
      exact halone m t hrun ht
    · obtain ⟨hbefore, hafter, hcommands, hj⟩ := commandsThrough_next hks
      have hended := halone m _ hrun rfl
      obtain ⟨hnone, hprog⟩ := (stageAlone_ended hk hstart hrun rfl).2 rfl
      have hnext : { stageEnd { u with todo := j :: js } with todo := [] } =
          stageAccepted j (stageEnd { u with todo := [] }) := by
        simp only [stageEnd, stageAccepted, hudone, hdone]
      refine ih (a := stageEnd { u with todo := j :: js }) hafter hj rfl rfl hnone (hudone.trans hdone) (fun i v hv hvi => ?_) hrest
        (.inl ⟨rfl, rfl, hnone, hudone.trans hdone⟩) hj
      rw [hcommands]
      rw [hnext] at hv
      exact hended.append (leadsTo_stage rfl (hprog.trans hbefore.symm) (hbefore ▸ hk) hv hvi)

/-- An entry command of the first stage alone leaves what a run of that stage alone leaves. -/
theorem leadsTo_entry {d : Direction} {k : Stage} {n : Nat} {s t : State} (ha : acceptanceOf (commandOf k) = .entry d k [])
    (hi : s.phase = .idle) (h : runMoves n (entryAccepted d k [] s) = .ok t) (ht : t.phase = .idle) :
    LeadsTo s [commandOf k] t := by
  refine leadsTo_of_run h ht fun p => ?_
  rw [exec_entry ha, acceptEntry_idle (s := { s with pace := p }) hi, runCommand]
  cases d <;> rfl

/-- An entry command that runs a whole pipeline leaves what the stage commands up to its last stage leave. -/
theorem leadsTo_call {i : Instr} {d : Direction} {k : Stage} {n : Nat} {s u t : State}
    (ha : acceptanceOf i = .entry d k (stagesAfter k)) (hk : k ≠ .idle)
    (hfirst : acceptanceOf (commandOf k) = .entry d k []) (hcommands : commandsThrough k = [commandOf k])
    (hi : s.phase = .idle) (h : exec i s = .next u) (ht : turns n u = .next t) (hti : t.phase = .idle) :
    LeadsTo s (commandsThrough (lastStage t)) t := by
  obtain ⟨m, hm⟩ := run_of_entry_turns ha hi h ht
  refine leadsTo_pipeline _ rfl hk rfl rfl ?_ ?_ (fun n v hv hvi => ?_) hm hti
  · cases d <;> rfl
  · cases d <;> rfl
  · rw [hcommands]
    refine leadsTo_entry (n := n) hfirst hi ?_ hvi
    cases d <;> exact hv

/-- Settles O45: COMPRESS and DECOMPRESS each run a whole pipeline. -/
theorem pipelineEquivalence : Obligations.PipelineEquivalence := by
  rintro i s u t n (rfl | rfl) hi h ht hti
  · exact leadsTo_call (k := .count) rfl nofun rfl rfl hi h ht hti
  · exact leadsTo_call (k := .readTag) rfl nofun rfl rfl hi h ht hti

end Sys2Proof.Machine
end

section
/-! PROOF. The tree BuildTree makes in an empty arena, as COMPRESS and DECOMPRESS do: it depends on the configuration and
the values of FREQ alone (42_tree_builder.md R141, R151). -/

namespace Sys2Proof.Machine

/-- BuildTree's merges do not read FREQ. -/
theorem run_merges_setFreq (k : Nat) {n : Idx} {s t : State} (g : Cells Word) (hb : s.phase ≠ .idle)
    (hp : s.point = .buildMerge n) (hk : s.pq.length = k + 1) (h : runMoves (k + 1) s = .ok t) :
    runMoves (k + 1) { s with freq := g } = .ok { t with freq := g } := by
  induction k generalizing n s with
  | zero =>
    obtain ⟨i, hq⟩ := List.length_eq_one_iff.1 hk
    rw [runMoves_one hb, (Moved.buildEnd n i hp hq).eq] at h
    cases h
    exact (runMoves_one (s := { s with freq := g }) hb).trans (Moved.buildEnd (s := { s with freq := g }) n i hp hq).eq
  | succ k ih =>
    have htwo : 2 ≤ s.pq.length := by omega
    cases hm : mergeMove n s with
    | error f =>
      rw [runMoves, if_pos ((busy_iff s).2 hb), blockMove_buildMerge hp, buildMergeMove_of_two n htwo, hm] at h
      cases h
    | ok u =>
      obtain ⟨a, b, na, nb, q, hxa, hxb, ha, hnb, hn, hq, rfl⟩ := mergeMove_ok hm
      rw [runMoves_succ hb (Moved.merge n a b na nb q hp htwo hxa hxb ha hnb hn hq).eq] at h
      have hmerge := (Moved.merge (s := { s with freq := g }) n a b na nb q hp htwo hxa hxb ha hnb hn hq).eq
      refine runMoves_step (s := { s with freq := g }) hb hmerge (ih (n := n + 1) (s := { s with
        node := Cells.put s.node n.toNat (.internal (addWt s.cfg na.wt nb.wt) a b), pq := q ++ [n]
        point := .buildMerge (n + 1) }) hb rfl ?_ h)
      simp only [List.length_append, List.length_singleton]
      omega

/-- BuildTree reads FREQ by its values only. -/
theorem run_build_setFreq {s t : State} {g : Cells Word} (hg : ∀ b, freqAt g b = freqAt s.freq b) (hb : s.phase ≠ .idle)
    (hp : s.point = .buildLeaves) (h : runMoves (leafCount s.freq + 1) s = .ok t) :
    runMoves (leafCount s.freq + 1) { s with freq := g } = .ok { t with freq := g } := by
  obtain ⟨k, hk⟩ : ∃ k, leafCount s.freq = k + 1 := Nat.exists_eq_succ_of_ne_zero (by
    have := leafCount_bounds s.freq
    omega)
  have hleaves := (Moved.leaves (s := { s with freq := g }) hp).eq
  simp only [leafList_congr hg, leafCount_congr hg] at hleaves
  rw [runMoves_succ hb (Moved.leaves hp).eq, hk] at h
  refine runMoves_step (s := { s with freq := g }) hb hleaves ?_
  rw [hk]
  refine run_merges_setFreq (s := { s with
    node := putLeaves (leafList s.freq) 0 s.node, pq := indicesBelow (k + 1)
    point := .buildMerge (BitVec.ofNat 10 (k + 1)) }) k g hb rfl ?_ h
  simp only [indicesBelow, List.length_map, List.length_range]

/-- BuildTree makes the arena `t`, with the tree `T`, of the counts `f` in an empty arena. -/
structure Builds (c : Config) (f : Cells Word) (t : Cells Node) (T : HTree) : Prop where
  run : ∀ u : State, u.phase ≠ .idle → u.point = .buildLeaves → u.cfg = c → u.node = [] →
    (∀ b, freqAt u.freq b = freqAt f b) → runMoves (leafCount f + 1) u = .ok { built u t with point := .fin }
  tree : ∀ u : State, (∀ b, freqAt u.freq b = freqAt f b) → TreeAt (built u t) T
  leaves : T.leaves.Perm ((leafList f).map Prod.fst)

/-- A block that is to build the tree of `f` in an empty arena. -/
def beforeLeaves (c : Config) (f : Cells Word) : State :=
  { State.resetWith c with phase := .build, point := .buildLeaves, freq := f }

theorem exists_builds (c : Config) (f : Cells Word) : ∃ t T, Builds c f t T := by
  obtain ⟨t, T, hrun, htree, hleaves, -⟩ := run_build (s := beforeLeaves c f) nofun rfl
  refine ⟨t, T, fun u hb hp hcfg hnode hf => ?_, fun u hf => ?_, hleaves⟩
  · have hsame := run_build_same (s := beforeLeaves c f) (u := { u with freq := f }) nofun hb rfl hp hcfg rfl hnode hrun
    have hset := run_build_setFreq (s := { u with freq := f }) hf hb hp hsame
    rw [built, leafCount_congr hf]
    exact hset
  · rw [built, leafCount_congr hf]
    exact htree

section
variable {c : Config} {f : Cells Word} {t : Cells Node} {T : HTree}

theorem Builds.sound (h : Builds c f t T) : T.Sound :=
  (h.tree (beforeLeaves c f) fun _ => rfl).sound

/-- Stage 2 in an empty arena. -/
theorem Builds.stage (h : Builds c f t T) {s : State} (hs : s.phase = .build) (hp : s.point = .start) (hcfg : s.cfg = c)
    (hnode : s.node = []) (hf : ∀ b, freqAt s.freq b = freqAt f b) :
    runMoves (leafCount f + 2) s = .ok { built s t with point := .fin } := by
  have hb : s.phase ≠ .idle := by rw [hs]; decide
  exact run_start hb hp (by simp only [stageStart, hs, buildStart])
    (h.run { s with point := .buildLeaves } hb rfl hcfg hnode hf)

/-- BUILD in an empty arena. -/
theorem Builds.exec (h : Builds c f t T) {s : State} (hi : s.phase = .idle) (hp : s.prog = .count) (hcfg : s.cfg = c)
    (hnode : s.node = []) (hf : ∀ b, freqAt s.freq b = freqAt f b) :
    exec .build s = .next (completedIn .build 0 (built s t)) := by
  have hmoves : leafCount f + 2 < quietMoves := by
    have := (leafCount_bounds f).2
    rw [quietMoves]
    omega
  exact exec_build_of_run hi hp hmoves (h.stage (s := buildAccepted s) rfl rfl hcfg hnode hf)

/-- The tree BUILD leaves in an empty arena is BuildTree's. -/
theorem builds_of_exec {u v : State} (hi : u.phase = .idle) (hp : u.prog = .count) (hnode : u.node = [])
    (h : exec .build u = .next v) (hT : TreeAt v T) : ∃ t, Builds u.cfg u.freq t T := by
  obtain ⟨t, T', hB⟩ := exists_builds u.cfg u.freq
  cases (hB.exec hi hp rfl hnode fun _ => rfl).symm.trans h
  have htree : TreeAt (completedIn .build 0 (built u t)) T' := hB.tree u fun _ => rfl
  exact ⟨t, hT.unique htree ▸ hB⟩

end

end Sys2Proof.Machine
end

section
/-! PROOF. COMPRESS runs its six stages one after another (48_control.md R261, R263, R267). -/

namespace Sys2Proof.Machine

/-- A run to the last statement of a stage body, and that statement, which hands over to the next stage. -/
theorem run_handOver {n : Nat} {s t : State} {k : Stage} {ks : List Stage} (h : runMoves n s = .ok t)
    (hb : t.phase ≠ .idle) (hp : t.point = .fin) (ht : t.todo = k :: ks) :
    runMoves (n + 1) s = .ok { t with prog := t.phase, phase := k, point := .start, todo := ks } :=
  (run_finish h hb hp).trans (congrArg Except.ok (stageEnd_next ht))

/-! ## COUNT, BUILD, GENCODES -/

/-- `s` when stages 1 to 3 have counted the bytes `bs`, built the arena `t` and entered the codes of the tree `T`. -/
def coded (s : State) (bs : List Byte) (t : Cells Node) (T : HTree) : State :=
  { built { s with freq := countInto [] bs } t with
    walk := [], code := enterPaths [] T.paths, prog := .gencodes, events := s.events + (bs.length + 1)
    byteSrc := s.byteSrc.skip bs.length }

theorem run_toCodes {k : Stage} {ks : List Stage} {bs : List Byte} {t : Cells Node} {T : HTree} {s : State}
    (hs : s.phase = .count) (hp : s.point = .start) (htodo : s.todo = .build :: .gencodes :: k :: ks)
    (hfreq : s.freq = []) (hnode : s.node = []) (hbytes : bytesToCome s = bs)
    (hcounts : ∀ b, bs.count b < 2 ^ s.cfg.wCnt) (hB : Builds s.cfg (countInto [] bs) t T) :
    runMoves (bs.length + 3 + (leafCount (countInto [] bs) + 3) + (T.size + 3)) s =
      .ok { coded s bs t T with phase := k, point := .start, todo := ks } := by
  have hb : s.phase ≠ .idle := by rw [hs]; decide
  have hstage := stage_count hs hp hbytes (hfreq ▸ count_fits hcounts)
  rw [hfreq] at hstage
  have hcount := run_handOver hstage hb rfl htodo
  have hbuild := run_handOver (runMoves_then hcount (hB.stage rfl rfl rfl hnode fun _ => rfl)) nofun rfl rfl
  exact run_handOver (runMoves_then hbuild (stage_gencodes rfl rfl (hB.tree _ fun _ => rfl))) nofun rfl rfl

end Sys2Proof.Machine
end

section
/-! PROOF. COMPRESS sends TAG, HEADER and BODY, then END (48_control.md R267, 30_encoding.md R96, R100). -/

namespace Sys2Proof.Machine

/-! ## WRITE_TAG, WRITE_HEADER -/

/-- The header of the tree `T`, or of the counts `f`, as the format selects (30_encoding.md R96). -/
def headerBits (c : Config) (T : HTree) (f : Cells Word) : HdrFormat → List Bool
  | .tree => T.header
  | .counts => countsHeader c f

/-- The tag of the format and the header (R96). -/
def headBits (c : Config) (T : HTree) (f : Cells Word) (m : HdrFormat) : List Bool :=
  tagBits (tagOf c m) ++ headerBits c T f m

theorem countsHeader_length (c : Config) (f : Cells Word) : (countsHeader c f).length = 256 * c.wCnt := by
  simp only [countsHeader, List.length_flatMap, countBits_length, List.map_const', List.sum_replicate, List.length_range,
    alphaSize, smul_eq_mul]

theorem headBits_length_le (c : Config) {T : HTree} (f : Cells Word) (m : HdrFormat) (hT : T.Sound) :
    (headBits c T f m).length ≤ 32 + 8192 := by
  have hleaves := hT.leaves_length_le
  have htree := T.header_length
  have hcounts := c.wCnt_le
  rw [headBits, List.length_append, tagBits_length]
  cases m with
  | tree =>
    rw [headerBits]
    omega
  | counts =>
    rw [headerBits, countsHeader_length]
    omega

/-- Stage 5 sends the header that HMODE selects; besides a move for each bit it makes at most 258. -/
theorem stage_writeHeader {T : HTree} {m : HdrFormat} {s : State} (hs : s.phase = .writeHeader) (hp : s.point = .start)
    (hm : s.hmode = m) (hwalk : s.walk = []) (hT : TreeAt s T) :
    ∃ n ≤ (headerBits s.cfg T s.freq m).length + 258, runMoves n s = .ok { s with
      point := .fin, events := s.events + (headerBits s.cfg T s.freq m).length
      bitSink := s.bitSink.append (headerBits s.cfg T s.freq m) } := by
  cases m with
  | tree =>
    obtain ⟨r, is, hroot, hholds, -⟩ := hT
    have hstage := stage_writeHeader_tree hs hp hm hroot hholds
    rw [← hwalk] at hstage
    exact ⟨_, Nat.add_le_add_left (by decide) _, hstage⟩
  | counts =>
    have hstage := stage_writeHeader_counts hs hp hm
    rw [headerBits, countsHeader_length]
    refine ⟨_, ?_, hstage⟩
    rw [alphaSize]
    omega

/-- `s` when stages 4 and 5 have sent the tag and the header of the tree `T`. -/
def headed (s : State) (T : HTree) : State :=
  { s with
    hmode := s.hdrMode, prog := .writeHeader
    events := s.events + (headBits s.cfg T s.freq s.hdrMode).length
    bitSink := s.bitSink.append (headBits s.cfg T s.freq s.hdrMode) }

theorem run_toHeaded {k : Stage} {ks : List Stage} {T : HTree} {s : State} (hs : s.phase = .writeTag)
    (hp : s.point = .start) (htodo : s.todo = .writeHeader :: k :: ks) (hwalk : s.walk = []) (hT : TreeAt s T) :
    ∃ n ≤ (headBits s.cfg T s.freq s.hdrMode).length + 262,
      runMoves n s = .ok { headed s T with phase := k, point := .start, todo := ks } := by
  have hb : s.phase ≠ .idle := by rw [hs]; decide
  have htag := run_handOver (stage_writeTag hs hp) hb rfl htodo
  obtain ⟨n, hn, hheader⟩ := stage_writeHeader (T := T) (s := { s with
    prog := s.phase, phase := .writeHeader, point := .start, todo := k :: ks, events := s.events + 32, hmode := s.hdrMode
    bitSink := s.bitSink.append (tagBits (tagOf s.cfg s.hdrMode)) }) rfl rfl rfl hwalk hT
  have hboth := run_handOver (runMoves_then htag hheader) nofun rfl rfl
  refine ⟨_, ?_, hboth.trans ?_⟩
  · have hmoves : n ≤ (headerBits s.cfg T s.freq s.hdrMode).length + 258 := hn
    rw [headBits, List.length_append, tagBits_length]
    omega
  · simp only [headed, headBits, List.length_append, tagBits_length, BitSink.append_append, Nat.add_assoc]

/-! ## The codes of the bytes -/

theorem exists_bodyBits {code : Cells (List Bool)} {m : Nat} {bs : List Byte}
    (h : ∀ b ∈ bs, ∃ p, codeAt code (byteSym b) = some p ∧ p.length ≤ m) :
    ∃ body, bodyBits code bs = some body ∧ body.length ≤ m * bs.length := by
  induction bs with
  | nil => exact ⟨[], rfl, Nat.zero_le _⟩
  | cons b bs ih =>
    obtain ⟨p, hp, hplen⟩ := h b (List.mem_cons_self ..)
    obtain ⟨q, hq, hqlen⟩ := ih fun c hc => h c (List.mem_cons_of_mem b hc)
    refine ⟨p ++ q, by rw [bodyBits, hp, hq], ?_⟩
    rw [List.length_append, List.length_cons, Nat.mul_succ]
    omega

/-- Each leaf of a sound tree has a code, of at most 256 bits (43_code_table_gen.md R163). -/
theorem CodesOf.exists_code {T : HTree} {code : Cells (List Bool)} (h : CodesOf T code) (hT : T.Sound) {c : Sym}
    (hc : c ∈ T.leaves) : ∃ p, codeAt code c = some p ∧ p.length ≤ 256 := by
  obtain ⟨p, hp⟩ := (h.valid_iff c).2 hc
  obtain ⟨-, -, hlen⟩ := h.length_bounds hT hp
  exact ⟨p, hp, hlen⟩

/-- A byte that was counted, or the placeholder's byte when none was, is a leaf symbol (42_tree_builder.md R142, R145). -/
theorem byteSym_mem_leafList {c : Config} {bs : List Byte} {b : Byte} (hcounts : ∀ b, bs.count b < 2 ^ c.wCnt)
    (h : b ∈ bs ∨ (bs = [] ∧ b = 0)) : byteSym b ∈ (leafList (countInto [] bs)).map Prod.fst := by
  rcases h with hmem | ⟨rfl, rfl⟩
  · refine mem_leafList.2 (.inr (.inl ⟨b, fun hzero => ?_, rfl⟩))
    have hcount := freqAt_countInto_nil hcounts b
    rw [hzero] at hcount
    exact (List.count_pos_iff.2 hmem).ne hcount
  · exact mem_leafList.2 (.inr (.inr ⟨rfl, rfl⟩))

/-! ## The command -/

/-- A run to the last statement of a command's last stage, and that statement, which completes the command. -/
theorem run_last {n : Nat} {s t : State} {k : Stage} (h : runMoves n s = .ok t) (hk : t.phase = k) (hb : k ≠ .idle)
    (hp : t.point = .fin) (ht : t.todo = []) : runMoves (n + 1) s = .ok (completedIn k 0 t) := by
  rw [← hk] at hb ⊢
  exact (run_finish h hb hp).trans (congrArg Except.ok (stageEnd_last ht))

/-- `s` when stage 6 has sent the codes `body` of pass 2, the code `e` of EOS and END. -/
def encoded (s : State) (body e : List Bool) : State :=
  completedIn .encode (body.length + s.byteSrc.s2.length + e.length + 3) { s with
    byteSrc := { s.byteSrc with pass := .two, pos := s.byteSrc.s2.length, rewinds := s.byteSrc.rewinds + 1 }
    bitSink := { bits := s.bitSink.bits ++ body ++ e, ended := true } }

theorem run_toEncoded {body e : List Bool} {s : State} (hs : s.phase = .encode) (hp : s.point = .start)
    (htodo : s.todo = []) (hbody : bodyBits s.code s.byteSrc.s2 = some body) (he : codeAt s.code eosSym = some e) :
    runMoves (body.length + 2 * s.byteSrc.s2.length + e.length + 4) s = .ok (encoded s body e) :=
  run_last (stage_encode hs hp hbody he) hs nofun rfl htodo

/-- What COMPRESS of the bytes `bs` leaves of the state `s`, when the tree of their counts is `T`, in the arena `t`. -/
def compressed (s : State) (bs : List Byte) (t : Cells Node) (T : HTree) (body e : List Bool) : State :=
  encoded (headed (coded (entryAccepted .compression .count [.build, .gencodes, .writeTag, .writeHeader, .encode] s)
    bs t T) T) body e

/-- COMPRESS in one turn, when the pace allows its transfers and each byte of pass 2 has a code. -/
theorem exec_compress_completes {bs : List Byte} {t : Cells Node} {T : HTree} {s : State} {body e : List Bool}
    (hi : s.phase = .idle) (hbytes : bytesToCome s = bs) (hcounts : ∀ b, bs.count b < 2 ^ s.cfg.wCnt)
    (hB : Builds s.cfg (countInto [] bs) t T) (hbody : bodyBits (enterPaths [] T.paths) s.byteSrc.s2 = some body)
    (he : codeAt (enterPaths [] T.paths) eosSym = some e) (hbodyLength : body.length ≤ 256 * s.byteSrc.s2.length)
    (heLength : e.length ≤ 256) (hpace : bs.length + 257 * (s.byteSrc.s2.length + 1) + 32 + 8192 + 3 ≤ s.pace) :
    exec .compress s = .next (compressed s bs t T body e) := by
  have hcodes := run_toCodes (s := entryAccepted .compression .count
    [.build, .gencodes, .writeTag, .writeHeader, .encode] s) rfl rfl rfl rfl rfl hbytes hcounts hB
  obtain ⟨n, hn, hheads⟩ := run_toHeaded (T := T) (s := { coded (entryAccepted .compression .count
    [.build, .gencodes, .writeTag, .writeHeader, .encode] s) bs t T with
    phase := .writeTag, point := .start, todo := [.writeHeader, .encode] }) rfl rfl rfl rfl (hB.tree _ fun _ => rfl)
  have hrun := runMoves_then (runMoves_then hcodes hheads) (run_toEncoded rfl rfl rfl hbody he)
  have hmoves : n ≤ (headBits s.cfg T (countInto [] bs) s.hdrMode).length + 262 := hn
  have hevents : (compressed s bs t T body e).events = s.events + 1 + (bs.length + 1) +
    (headBits s.cfg T (countInto [] bs) s.hdrMode).length + (body.length + s.byteSrc.s2.length + e.length + 3) := rfl
  have hhead := headBits_length_le s.cfg (countInto [] bs) s.hdrMode hB.sound
  have hleaves := hB.sound.leaves_length_le
  have hsize := T.size_leaves
  have hcount := leafCount_bounds (countInto [] bs)
  rw [exec_entry rfl]
  refine entry_next hi rfl hrun ?_ ?_
  · omega
  · change _ + _ + (_ + 2 * s.byteSrc.s2.length + _ + _) ≤ _
    rw [quietMoves]
    omega

/-- What COMPRESS of the bytes `bs` leaves of the state `s` in `v`, with `T` the tree of their counts. -/
structure Compressed (s : State) (bs : List Byte) (T : HTree) (body e : List Bool) (v : State) : Prop where
  completed : Completed .encode v
  counts : ∀ b, (freqAt v.freq b).toNat = bs.count b
  builds : ∃ t, Builds s.cfg v.freq t T
  tree : TreeAt v T
  codes : CodesOf T v.code
  bodyCodes : bodyBits v.code s.byteSrc.s2 = some body
  eosCode : codeAt v.code eosSym = some e
  ended : v.bitSink.ended = true
  bits : v.bitSink.bits = headBits s.cfg T v.freq s.hdrMode ++ (body ++ e)

/-- COMPRESS completes when no count overflows and each byte of pass 2 was counted, or is the placeholder's. -/
theorem compress_completes {bs : List Byte} {s : State} (hi : s.phase = .idle) (hbytes : bytesToCome s = bs)
    (hcounts : ∀ b, bs.count b < 2 ^ s.cfg.wCnt) (hsecond : ∀ b ∈ s.byteSrc.s2, b ∈ bs ∨ (bs = [] ∧ b = 0))
    (hpace : bs.length + 257 * (s.byteSrc.s2.length + 1) + 32 + 8192 + 3 ≤ s.pace) :
    ∃ v T body e, exec .compress s = .next v ∧ Compressed s bs T body e v := by
  obtain ⟨t, T, hB⟩ := exists_builds s.cfg (countInto [] bs)
  have hcodes : CodesOf T (enterPaths [] T.paths) := codesOf_enterPaths hB.sound.unique
  obtain ⟨body, hbody, hbodyLength⟩ := exists_bodyBits fun b hb =>
    hcodes.exists_code hB.sound (hB.leaves.mem_iff.2 (byteSym_mem_leafList hcounts (hsecond b hb)))
  obtain ⟨e, he, heLength⟩ := hcodes.exists_code hB.sound hB.sound.hasEos
  exact ⟨_, T, body, e, exec_compress_completes hi hbytes hcounts hB hbody he hbodyLength heLength hpace, {
    completed := ⟨rfl, rfl, rfl, rfl⟩
    counts := freqAt_countInto_nil hcounts
    builds := ⟨t, hB⟩
    tree := hB.tree _ fun _ => rfl
    codes := hcodes
    bodyCodes := hbody
    eosCode := he
    ended := rfl
    bits := List.append_assoc _ body e }⟩

/-- Settles O35: the six stages in turn, with a code for each byte of pass 2. -/
theorem compressCompletes : Obligations.CompressCompletes := by
  intro s bs hi hbytes hcounts hsecond hpace
  obtain ⟨v, T, body, e, hexec, h⟩ := compress_completes hi hbytes hcounts hsecond hpace
  obtain ⟨t, hB⟩ := h.builds
  refine ⟨v, T, body, e, hexec, h.completed, h.counts, h.tree, h.codes, hB.leaves, h.bodyCodes, h.eosCode, h.ended, ?_⟩
  rw [h.bits, headBits]
  cases s.hdrMode <;> rfl

end Sys2Proof.Machine
end

section
/-! PROOF. DECOMPRESS of TAG, HEADER and BODY gives the bytes, with either header (48_control.md R268, 30_encoding.md
R96, 45_tree_deserializer.md R202, R205, 47_bitstream_decoder.md R248). -/

namespace Sys2Proof.Machine

/-- `s` when DECOMPRESS has read and accepted the tag of the format `m` and READ_HEADER is next. -/
def tagRead (s : State) (m : HdrFormat) : State :=
  { entryAccepted .decompression .readHeader [.decode] s with
    hmode := m, prog := .readTag, events := s.events + 1 + 32, bitSrc := s.bitSrc.skip 32 }

theorem run_toTagRead {m : HdrFormat} {rest : List Bool} {s : State} (hm : m = .counts → s.cfg.hasCounts = true)
    (hbits : bitsToCome s = tagBits (tagOf s.cfg m) ++ rest) :
    runMoves 35 (entryAccepted .decompression .readTag [.readHeader, .decode] s) = .ok (tagRead s m) := by
  have hread := stage_readTag (s := entryAccepted .decompression .readTag [.readHeader, .decode] s) rfl rfl hbits
  have htag : (tagOf s.cfg m = s.cfg.tagTree ∧ m = .tree) ∨
      (tagOf s.cfg m = s.cfg.tagCounts ∧ s.cfg.hasCounts = true ∧ m = .counts) := by
    cases m with
    | tree => exact .inl ⟨rfl, rfl⟩
    | counts => exact .inr ⟨rfl, hm rfl, rfl⟩
  exact run_handOver (hread.trans (congrArg Except.ok (checkTag_accepts htag))) nofun rfl rfl

/-- `t` stands at the end of READ_HEADER of a DECOMPRESS accepted in `s`, with a header of `n` bits, in the format `m`,
that gives the tree `T`. -/
structure HeaderRead (s : State) (m : HdrFormat) (T : HTree) (n : Nat) (t : State) : Prop where
  phase : t.phase = .readHeader
  point : t.point = .fin
  todo : t.todo = [.decode]
  format : t.hmode = m
  noError : t.errcode = .none
  tree : TreeAt t T
  sink : t.byteSink = []
  events : t.events = s.events + 1 + 32 + n
  source : t.bitSrc = (s.bitSrc.skip 32).skip n

/-- DECODE after the header, and the end of DECOMPRESS. -/
theorem HeaderRead.decompress {s t : State} {m : HdrFormat} {T : HTree} {code : Cells (List Bool)} {bs : List Byte}
    {header body e rest : List Bool} {k : Nat} (h : HeaderRead s m T header.length t) (hi : s.phase = .idle)
    (hm : m = .counts → s.cfg.hasCounts = true)
    (hbits : bitsToCome s = tagBits (tagOf s.cfg m) ++ (header ++ (body ++ (e ++ rest))))
    (hrun : runMoves k (tagRead s m) = .ok t) (hk : k ≤ header.length + 515) (hcode : CodesOf T code)
    (hbody : bodyBits code bs = some body) (he : codeAt code eosSym = some e)
    (hpace : 32 + header.length + body.length + e.length + bs.length ≤ s.pace) :
    ∃ v, exec .decompress s = .next v ∧ Completed .decode v ∧ v.byteSink = bs ∧ v.hmode = m ∧ v.freq = t.freq ∧
      TreeAt v T ∧ v.bitSrc.pos = s.bitSrc.pos + (32 + header.length + body.length + e.length) := by
  have hheader : bitsToCome (tagRead s m) = header ++ (body ++ (e ++ rest)) :=
    bitsToCome_skip hbits (congrArg s.bitSrc.skip (tagBits_length _).symm)
  have hcoded : bitsToCome t = body ++ (e ++ rest) := bitsToCome_skip hheader h.source
  have htoDecode := run_handOver (runMoves_then (run_toTagRead hm hbits) hrun) (by rw [h.phase]; decide) h.point h.todo
  obtain ⟨c, hdecode⟩ := stage_decode (s := { t with
    prog := t.phase, phase := .decode, point := .start, todo := [] }) rfl rfl h.tree hcode hbody he hcoded
  have hend := run_last (runMoves_then htoDecode hdecode) rfl nofun rfl rfl
  rw [exec_entry rfl]
  refine ⟨_, entry_next hi rfl hend ?_ ?_, ⟨rfl, rfl, rfl, h.noError⟩, ?_, h.format, rfl, h.tree, ?_⟩
  · change t.events + _ + 0 ≤ _
    rw [h.events]
    omega
  · exact moves_fit_turn hpace (by rw [quietMoves]; omega)
  · exact congrArg (· ++ bs) h.sink
  · change t.bitSrc.pos + _ = _
    rw [h.source]
    change s.bitSrc.pos + 32 + header.length + _ = _
    omega

/-! ## The two headers -/

/-- READ_HEADER of the header of a sound tree. -/
theorem run_treeHeader {T : HTree} {rest : List Bool} {s : State} (hT : T.Sound)
    (hbits : bitsToCome (tagRead s .tree) = T.header ++ rest) :
    ∃ t, runMoves (T.header.length + T.leaves.length + 2) (tagRead s .tree) = .ok t ∧
      HeaderRead s .tree T T.header.length t := by
  have hleaves := hT.leaves_length_le
  have hsize := T.size_leaves
  have hnodes : (BitVec.ofNat 10 T.size).toNat = T.size := idx_toNat (by omega)
  refine ⟨_, stage_readHeader_tree rfl rfl rfl ⟨rfl, rfl, rfl, rfl, rfl⟩ hT hbits,
    ⟨rfl, rfl, rfl, rfl, rfl, ⟨0, indicesFrom 0 T.size, rfl, ?_, hT, ?_, ?_, fun i hi => ?_⟩, rfl, rfl, rfl⟩⟩
  · exact holds_writeTree T _ (by rw [maxNodes]; omega)
  · exact indicesFrom_nodup (by omega)
  · exact (indicesFrom_length 0 T.size).trans hnodes.symm
  · obtain ⟨-, hlt⟩ := (mem_indicesFrom (by omega)).1 hi
    exact BitVec.lt_def.2 (by rw [hnodes]; omega)

/-- READ_HEADER of the counts `f`, of which BuildTree makes the tree `T`. -/
theorem run_countsHeader {f : Cells Word} {t : Cells Node} {T : HTree} {rest : List Bool} {s : State}
    (hB : Builds s.cfg f t T) (hf : ∀ b, (freqAt f b).toNat < 2 ^ s.cfg.wCnt)
    (hbits : bitsToCome (tagRead s .counts) = countsHeader s.cfg f ++ rest) :
    ∃ v, runMoves (256 * (s.cfg.wCnt + 1) + 1 + (leafCount f + 1)) (tagRead s .counts) = .ok v ∧
      HeaderRead s .counts T (256 * s.cfg.wCnt) v ∧ ∀ b, freqAt v.freq b = freqAt f b := by
  obtain ⟨g, hg, hread⟩ := run_readHeader_counts (s := tagRead s .counts) rfl rfl rfl hbits hf
  refine ⟨_, runMoves_then hread (hB.run _ nofun rfl rfl rfl hg), ⟨rfl, rfl, rfl, rfl, rfl, ?_, rfl, rfl, rfl⟩, hg⟩
  exact hB.tree (countsRead (tagRead s .counts) g) hg

/-! ## The command -/

/-- DECOMPRESS of a stream with a counts header, of the counts `f` of which BuildTree makes the tree `T`. -/
theorem decompress_counts {f : Cells Word} {t : Cells Node} {T : HTree} {code : Cells (List Bool)} {bs : List Byte}
    {body e rest : List Bool} {s : State} (hi : s.phase = .idle) (hcounts : s.cfg.hasCounts = true)
    (hB : Builds s.cfg f t T) (hf : ∀ b, (freqAt f b).toNat < 2 ^ s.cfg.wCnt) (hcode : CodesOf T code)
    (hbody : bodyBits code bs = some body) (he : codeAt code eosSym = some e)
    (hbits : bitsToCome s = tagBits s.cfg.tagCounts ++ (countsHeader s.cfg f ++ (body ++ (e ++ rest))))
    (hpace : 32 + 256 * s.cfg.wCnt + body.length + e.length + bs.length ≤ s.pace) :
    ∃ v, exec .decompress s = .next v ∧ Completed .decode v ∧ v.byteSink = bs ∧ v.hmode = .counts ∧
      (∀ b, freqAt v.freq b = freqAt f b) ∧ TreeAt v T ∧
      v.bitSrc.pos = s.bitSrc.pos + (32 + 256 * s.cfg.wCnt + body.length + e.length) := by
  have hheader : bitsToCome (tagRead s .counts) = _ :=
    bitsToCome_skip hbits (congrArg s.bitSrc.skip (tagBits_length _).symm)
  obtain ⟨u, hrun, hread, hfreq⟩ := run_countsHeader hB hf hheader
  have hlength := countsHeader_length s.cfg f
  have hleaves := leafCount_bounds f
  rw [← hlength] at hread hpace ⊢
  obtain ⟨v, hexec, hdone, hsink, hformat, hsame, hrest⟩ :=
    hread.decompress hi (fun _ => hcounts) hbits hrun (by omega) hcode hbody he hpace
  exact ⟨v, hexec, hdone, hsink, hformat, fun b => by rw [hsame, hfreq], hrest⟩

/-- Settles O44: the tag, the header in its format, and the codes of the tree it gives. -/
theorem decompressCompletes : Obligations.DecompressCompletes := by
  refine ⟨?tree, ?counts⟩
  case tree =>
    intro s T code bs body e rest hi hT hcode hbody he hbits hpace
    have hheader : bitsToCome (tagRead s .tree) = _ :=
      bitsToCome_skip hbits (congrArg s.bitSrc.skip (tagBits_length _).symm)
    obtain ⟨u, hrun, hread⟩ := run_treeHeader hT hheader
    have hleaves := hT.leaves_length_le
    obtain ⟨v, hexec, hdone, hsink, hformat, -, hrest⟩ :=
      hread.decompress hi nofun hbits hrun (by omega) hcode hbody he hpace
    exact ⟨v, hexec, hdone, hsink, hformat, hrest⟩
  case counts =>
    intro s u v T code bs body e rest hi hcounts hcfg hui hup hnode hf hexec _ hT hcode hbody he hbits hpace
    obtain ⟨t, hB⟩ := builds_of_exec hui hup hnode hexec hT
    rw [hcfg] at hB
    exact decompress_counts hi hcounts hB hf hcode hbody he hbits hpace

end Sys2Proof.Machine
end

section
/-! PROOF. DECOMPRESS gives back what COMPRESS was given, in either mode (48_control.md R276). -/

namespace Sys2Proof.Machine

theorem hasCounts_of_hdrMode {s : State} (h : s.hdrMode = .counts) : s.cfg.hasCounts = true := by
  by_contra hno
  rw [State.hdrMode, if_neg hno] at h
  exact HdrFormat.noConfusion h

/-- DECOMPRESS of the bits that COMPRESS has sent, and any bits after them, gives the bytes of pass 2. -/
theorem Compressed.decompress {s t u : State} {bs : List Byte} {T : HTree} {body e r : List Bool}
    (h : Compressed s bs T body e t) (hcounts : ∀ b, bs.count b < 2 ^ s.cfg.wCnt) (hi : u.phase = .idle)
    (hcfg : u.cfg = s.cfg) (hbits : bitsToCome u = t.bitSink.bits ++ r)
    (hpace : t.bitSink.bits.length + s.byteSrc.s2.length ≤ u.pace) :
    ∃ v, exec .decompress u = .next v ∧ Completed .decode v ∧ v.byteSink = s.byteSrc.s2 := by
  obtain ⟨a, hB⟩ := h.builds
  rw [h.bits, headBits, ← hcfg, List.append_assoc, List.append_assoc, List.append_assoc] at hbits
  simp only [h.bits, headBits, List.length_append, tagBits_length, ← Nat.add_assoc] at hpace
  cases hm : s.hdrMode with
  | tree =>
    rw [hm] at hbits hpace
    obtain ⟨decompressTree, -⟩ := decompressCompletes
    obtain ⟨v, hexec, hdone, hsink, -⟩ :=
      decompressTree u T t.code _ body e r hi h.tree.sound h.codes h.bodyCodes h.eosCode hbits hpace
    exact ⟨v, hexec, hdone, hsink⟩
  | counts =>
    rw [hm] at hbits hpace
    rw [headerBits, countsHeader_length, ← hcfg] at hpace
    rw [← hcfg] at hB
    have hf : ∀ b, (freqAt t.freq b).toNat < 2 ^ u.cfg.wCnt := fun b => by
      rw [h.counts b, hcfg]
      exact hcounts b
    have hhas : u.cfg.hasCounts = true := hcfg ▸ hasCounts_of_hdrMode hm
    obtain ⟨v, hexec, hdone, hsink, -⟩ :=
      decompress_counts hi hhas hB hf h.codes h.bodyCodes h.eosCode hbits hpace
    exact ⟨v, hexec, hdone, hsink⟩

/-- Settles O46: COMPRESS sends TAG, HEADER and BODY, and DECOMPRESS reads them. -/
theorem compressThenDecompressGivesTheBytes : Obligations.CompressThenDecompressGivesTheBytes := by
  intro s x hi hbytes hsecond hcounts
  refine ⟨x.length + 257 * (s.byteSrc.s2.length + 1) + 32 + 8192 + 3, fun p hp => ?_⟩
  obtain ⟨t, T, body, e, hexec, h⟩ := compress_completes (s := { s with pace := p }) hi hbytes hcounts
    (fun b hb => .inl (hsecond ▸ hb)) hp
  refine ⟨t, hexec, h.completed, h.ended, fun u r hui hcfg hbits =>
    ⟨t.bitSink.bits.length + s.byteSrc.s2.length, fun q hq => ?_⟩⟩
  obtain ⟨v, hdecompress, hdone, hsink⟩ := h.decompress (u := { u with pace := q }) hcounts hui hcfg hbits hq
  exact ⟨v, hdecompress, hdone, hsink.trans hsecond⟩

end Sys2Proof.Machine
end
